-- ==== Sys2Proof/Word.lean ====
section
/-! DEFINITION. The words of the SA416: bytes, 32-bit words, and the index types of ports, sources, channels and profiles. -/

namespace Sys2Proof

/-- A byte: one address of card memory, one byte of a link message. -/
abbrev Byte := BitVec 8

/-- A word is 32 bits (00_scope.md 0.6). -/
abbrev Word := BitVec 32

/-- The 16 egress ports, 0..15 (00_scope.md 0.7). -/
abbrev PortIx := Fin 16

/-- The 64 sources, 0..63. -/
abbrev SourceIx := Fin 64

/-- The four channels, 0..3. -/
abbrev ChannelIx := Fin 4

/-- The four profiles, 0..3. -/
abbrev ProfileIx := Fin 4

/-- A session minute, 0..1439 (R98). -/
abbrev Minute := Fin 1440

/-- A link message: 8 bytes, byte 0 first (R133). -/
abbrev Message := Vector Byte 8

/-- A load table entry as read: 8 bytes (R119). -/
abbrev TableEntry := Vector Byte 8

end Sys2Proof
end

