-- ==== Sys2Proof/Syntax.lean ====
section
/-! DEFINITION. The commands of the SA416: one constructor per row of spec/opcode_table.json. The table gives its rows no
operands; the operands here are what the event's rule says the event carries (a message's fields, a register write's value,
an order block as read), what the environment decides in it (an answer of the local bus), and which of two outcomes that the
rules leave to the moment is taken (R48, R121, R151). -/

namespace Sys2Proof

/-- The words of an order block that some order reads (Table 8-5). Words 6 and 7 are read with the block and never used. -/
structure OrderBlock where
  w0 : Word
  w1 : Word
  w2 : Word
  w3 : Word
  w4 : Word
  w5 : Word
  deriving DecidableEq, Repr

/-- What the local bus answers to the three writes of a completion (R155 steps 1 to 3): word 6, word 1 (on MOVED only) and
word 7. `false` is a failure reported by the bus (R156). An operand that is not reached is not read (log 5). -/
structure CompletionBus where
  progressOk : Bool
  successorOk : Bool
  terminationOk : Bool
  deriving DecidableEq, Repr

/-- The events of the SA416. An `Option OrderBlock` is the block as the executor reads it, or `none` where the bus reports
that the read failed (R156). The inbound messages are what the frame engine sends; the link interface divides their bytes as
it counts them (R133). `later` says that the test of the release condition at the end of the event makes its first decision
alone and the second is left for later (R48, log 1). An operand that chooses between two outcomes the rules leave to the moment
stands last and is `false` where a command leaves it out. -/
inductive Instr where
  /-- DEVICE_RESET (R161). -/
  | deviceReset
  /-- LINK_UP (R132): the link-ready line is asserted. -/
  | linkUp
  /-- LINK_LOSS (R145): the line is withdrawn. The list says in which order the ports' LINK records reach TRE (log 10). -/
  | linkLoss (order : List PortIx)
  /-- ARRIVAL (R29, R139). -/
  | arrival (port : PortIx) (source : SourceIx) (length : BitVec 14) (handle : BitVec 16) (later : Bool := false)
  /-- DONE (R64, R140). -/
  | done (port : PortIx) (tag : Byte) (later : Bool := false)
  /-- HOLD (R77, R140). -/
  | hold (port : PortIx)
  /-- RESUME (R79, R140). -/
  | resume (port : PortIx) (later : Bool := false)
  /-- CLOCK (R98, R141): the minute as carried, 16 bits. -/
  | clock (minute : BitVec 16)
  /-- BAD_MESSAGE (R136): bytes that are no good message: eight of a bad check or an unknown kind, or any number of bytes by
  which the stream slips (R133). `later` serves a good message that they make whole in a stream that has slipped. -/
  | badMessage (bytes : List Byte) (later : Bool := false)
  /-- OUTBOUND_MESSAGE_SENT (R142). -/
  | outboundMessageSent
  /-- ROUND_EXPIRY (R76). -/
  | roundExpiry (port : PortIx)
  /-- EXPIRY (R62): the round expiry of a port at which a release slot expires (log 6). -/
  | expiry (port : PortIx)
  /-- STALL (R78): the round expiry of a port at which its hold becomes a stall (log 6). -/
  | stall (port : PortIx)
  /-- ADDRESS_WRITE (R150): `lag` says that an executor that is free has not yet taken a channel when the next write is taken
  (R151). -/
  | addressWrite (channel : ChannelIx) (value : Word) (lag : Bool := false)
  /-- ZERO_WRITE (R150): the bus answers serve a trace that the request ends at once (R175). -/
  | zeroWrite (channel : ChannelIx) (value : Word) (bus : CompletionBus)
  /-- ATTN_WRITE (R159). -/
  | attnWrite (value : Word)
  /-- ATTN_MASK_WRITE (R160). -/
  | attnMaskWrite (value : Word)
  /-- UNMAPPED_REGISTER_WRITE (R147): a byte offset in the register window, the width in bytes, the value. -/
  | unmappedRegisterWrite (offset : Nat) (width : Nat) (value : Word)
  /-- ABORTED_UNREAD (R154). -/
  | abortedUnread (bus : CompletionBus)
  /-- UNKNOWN_ORDER_CODE (R152). -/
  | unknownOrderCode (block : Option OrderBlock) (bus : CompletionBus)
  /-- LOAD (R118): `abortFirst` says that a standing abort request is taken ahead of the install point of a count of 0
  (R121). -/
  | load (block : Option OrderBlock) (bus : CompletionBus) (abortFirst : Bool := false)
  /-- LOAD_ENTRY_READ (R121): the entry read, or `none` where no entry was read; `abortFirst` says that a standing abort
  request is taken ahead of another ending of the same boundary, or ahead of the read (log 16). -/
  | loadEntryRead (entry : Option TableEntry) (abortFirst : Bool) (bus : CompletionBus)
  /-- WINDOW (R126). -/
  | window (block : Option OrderBlock) (bus : CompletionBus)
  /-- PIN (R128). -/
  | pin (block : Option OrderBlock) (bus : CompletionBus)
  /-- LEVELS (R130). -/
  | levels (block : Option OrderBlock) (bus : CompletionBus)
  /-- PORT_OPEN (R86). -/
  | portOpen (block : Option OrderBlock) (bus : CompletionBus)
  /-- PORT_CLOSE (R87). -/
  | portClose (block : Option OrderBlock) (bus : CompletionBus)
  /-- PORT_CLEAR (R88). -/
  | portClear (block : Option OrderBlock) (bus : CompletionBus)
  /-- PORT_RETIRE (R89). -/
  | portRetire (block : Option OrderBlock) (bus : CompletionBus)
  /-- PORT_SET (R91). -/
  | portSet (block : Option OrderBlock) (bus : CompletionBus)
  /-- COLLECT (R165). -/
  | collect (block : Option OrderBlock) (bus : CompletionBus)
  /-- COLLECT_RECORD (R166): `written` is what the bus answers to the record's write. -/
  | collectRecord (written : Bool) (bus : CompletionBus)
  /-- SURVEY (R167). -/
  | survey (block : Option OrderBlock) (bus : CompletionBus)
  /-- SURVEY_RECORD (R168). -/
  | surveyRecord (written : Bool) (bus : CompletionBus)
  /-- TRACE (R170). -/
  | trace (block : Option OrderBlock) (bus : CompletionBus)
  /-- TRACE_OFFER (R171). -/
  | traceOffer
  /-- TRACE_AREA_WRITE (R175). -/
  | traceAreaWrite (written : Bool) (bus : CompletionBus)
  /-- STALE_TIMER_EXPIRY (R174). -/
  | staleTimerExpiry (bus : CompletionBus)
  /-- PORT_BAD_ACTION (R85). -/
  | portBadAction (block : Option OrderBlock) (bus : CompletionBus)
  deriving DecidableEq, Repr

end Sys2Proof
end

