-- ==== Sys2Proof/Decode.lean ====
section
/-! DEFINITION. The command a word spells by the bits of spec/opcode_table.json. No row of the table gives bits (each row's
"fields" is empty and none has "fixed"), so no word spells a command (log 20). -/

namespace Sys2Proof

/-- The command of an `nbits`-bit word `w`, numbered as spec/opcode_table.json numbers its bits: none, for every word. -/
def decodeTableWord (_nbits _w : Nat) : Option Instr := none

end Sys2Proof
end

