-- ==== Sys2Proof/Config.lean ====
section
/-! DEFINITION. What the spec fixes for every SA416 (sizes, limits), and the model's free values: results the spec does not
state. A free value has no body, so nothing can be proved of what it is. -/

namespace Sys2Proof.Config

/-- The progress word of a PORT order, which no rule states (log 14). -/
opaque freeWord : Nat → Word

/-- The send kind bit a SURVEY port record shows for a free slot, which Table 9-8 leaves unstated (log 15). -/
opaque freeBit : Nat → Bool

/-- The length pool holds 8192 entries (R25). -/
def poolEntries : Nat := 8192

/-- LKI takes no inbound message while this many messages wait outbound (R135). -/
def takeLimit : Nat := 256

/-- The offer queue of TRE has 64 places (R171). -/
def offerPlaces : Nat := 64

/-- Card memory addresses are 30 bits: sums of addresses are taken modulo this (R119, R165, R167, R170). -/
def memorySize : Nat := 2 ^ 30

/-- The longest frame accepted (R6, R29). -/
def maxLength : Nat := 9216

/-- Lengths below this are raised to it (R6). -/
def minLength : Nat := 64

/-- The minutes of a day (R98, R100). -/
def minutesPerDay : Nat := 1440

/-- The most entries a load table may have (R118). -/
def maxTableEntries : Nat := 64

end Sys2Proof.Config
end

