-- ==== Sys2Proof/Machine/Operands.lean ====
section
/-! DEFINITION. Operand forms: the fields of order blocks (Table 8-5, Table 6-1, Table 4-3), of pointer writes (Table 8-2),
of load table entries (Table 6-4) and of link messages (Table 7-1), and the byte order and check byte they use. -/

namespace Sys2Proof

/-! ## Bytes -/

/-- The low `n` bytes of a number, least significant first (0.6: little-endian). -/
def leBytes (n : Nat) (v : Nat) : List Byte :=
  match n with
  | 0 => []
  | k + 1 => BitVec.ofNat 8 v :: leBytes k (v / 256)

/-- A 16-bit value from its low and high byte (0.6). -/
def le16 (lo hi : Byte) : BitVec 16 := hi ++ lo

/-! ## Order blocks -/

namespace OrderBlock

/-- Order code: word 0 bits 7..0. -/
def code (b : OrderBlock) : Byte := b.w0.extractLsb' 0 8

/-- The clear flag of COLLECT: word 0 bit 8 (R165). -/
def clearFlag (b : OrderBlock) : Bool := b.w0.getLsbD 8

/-- Port field: word 1 bits 7..0. -/
def portField (b : OrderBlock) : Byte := b.w1.extractLsb' 0 8

/-- The port named, or none where the field is above 15. -/
def port? (b : OrderBlock) : Option PortIx :=
  if h : b.portField.toNat < 16 then some ⟨b.portField.toNat, h⟩ else none

/-- Profile field: word 1 bits 13..12. -/
def profile (b : OrderBlock) : ProfileIx := Fin.ofNat 4 (b.w1.extractLsb' 12 2).toNat

/-- PORT action code: word 1 bits 19..16 (R85). -/
def action (b : OrderBlock) : BitVec 4 := b.w1.extractLsb' 16 4

/-- PIN index: word 1 bits 17..16. -/
def pinIndex (b : OrderBlock) : Fin 4 := Fin.ofNat 4 (b.w1.extractLsb' 16 2).toNat

/-- PIN action: word 1 bits 19..18 (1 SET, 2 CLEAR). -/
def pinAction (b : OrderBlock) : BitVec 2 := b.w1.extractLsb' 18 2

/-- PIN source: word 2 bits 5..0. -/
def pinSource (b : OrderBlock) : SourceIx := Fin.ofNat 64 (b.w2.extractLsb' 0 6).toNat

/-- PIN Gc: word 2 bits 15..8. -/
def pinGc (b : OrderBlock) : BitVec 8 := b.w2.extractLsb' 8 8

/-- PIN Gf: word 2 bits 21..16. -/
def pinGf (b : OrderBlock) : BitVec 6 := b.w2.extractLsb' 16 6

/-- PIN tier: word 2 bits 25..24. -/
def pinTier (b : OrderBlock) : BitVec 2 := b.w2.extractLsb' 24 2

/-- PIN urgency: word 2 bits 29..28. -/
def pinUrgency (b : OrderBlock) : BitVec 2 := b.w2.extractLsb' 28 2

/-- WINDOW start: word 2 bits 15..0. -/
def windowStart (b : OrderBlock) : BitVec 16 := b.w2.extractLsb' 0 16

/-- WINDOW end: word 2 bits 31..16. -/
def windowEnd (b : OrderBlock) : BitVec 16 := b.w2.extractLsb' 16 16

/-- WINDOW port mask: word 3 bits 15..0. -/
def windowMask (b : OrderBlock) : BitVec 16 := b.w3.extractLsb' 0 16

/-- LEVELS reserve level as carried: word 2 bits 15..0. -/
def reserveCarried (b : OrderBlock) : BitVec 16 := b.w2.extractLsb' 0 16

/-- LEVELS warning level as carried: word 3 bits 15..0. -/
def warningCarried (b : OrderBlock) : BitVec 16 := b.w3.extractLsb' 0 16

/-- RETIRE successor field: word 2 bits 7..0 (Table 4-3). -/
def successorField (b : OrderBlock) : Byte := b.w2.extractLsb' 0 8

/-- The successor named, or none where the field is above 15. -/
def successor? (b : OrderBlock) : Option PortIx :=
  if h : b.successorField.toNat < 16 then some ⟨b.successorField.toNat, h⟩ else none

/-- SET round length as carried: word 2 bits 15..0. -/
def setRoundLength (b : OrderBlock) : BitVec 16 := b.w2.extractLsb' 0 16

/-- SET Kc: word 2 bits 27..16. -/
def setKc (b : OrderBlock) : BitVec 12 := b.w2.extractLsb' 16 12

/-- SET Kf: word 3 bits 5..0. -/
def setKf (b : OrderBlock) : BitVec 6 := b.w3.extractLsb' 0 6

/-- SET watch mode: word 3 bits 9..8. -/
def setWatchMode (b : OrderBlock) : BitVec 2 := b.w3.extractLsb' 8 2

/-- SET hold limit: word 3 bits 23..16. -/
def setHoldLimit (b : OrderBlock) : Byte := b.w3.extractLsb' 16 8

/-- SET done limit: word 3 bits 31..24. -/
def setDoneLimit (b : OrderBlock) : Byte := b.w3.extractLsb' 24 8

/-- LOAD table address: word 4 bits 29..3, bits 2..0 taken as 0 (R119). -/
def tableAddress (b : OrderBlock) : Nat := (b.w4.extractLsb' 3 27).toNat * 8

/-- COLLECT area address: word 4 bits 29..5 (R165). -/
def collectArea (b : OrderBlock) : Nat := (b.w4.extractLsb' 5 25).toNat * 32

/-- SURVEY and TRACE area address: word 4 bits 29..4 (R167, R170). -/
def recordArea (b : OrderBlock) : Nat := (b.w4.extractLsb' 4 26).toNat * 16

/-- LOAD count: word 5 (R118). -/
def count (b : OrderBlock) : Nat := b.w5.toNat

/-- TRACE kind mask: word 2 bits 10..1, bit k for kind k; bit 0 is not read (R170). -/
def kindMask (b : OrderBlock) : BitVec 11 := b.w2.extractLsb' 0 11 &&& 0x7FE#11

/-- TRACE port mask: word 3 bits 15..0 (R170). -/
def traceMask (b : OrderBlock) : BitVec 16 := b.w3.extractLsb' 0 16

/-- TRACE stale time: word 3 bits 31..16 (R170). -/
def staleTime (b : OrderBlock) : BitVec 16 := b.w3.extractLsb' 16 16

/-- TRACE count: word 5 bits 15..0 (R170). -/
def traceCount (b : OrderBlock) : BitVec 16 := b.w5.extractLsb' 0 16

end OrderBlock

/-! ## Register writes -/

/-- Bits 29..5 of a value written to a pointer register (R148). -/
def pointerAddress (v : Word) : BitVec 25 := v.extractLsb' 5 25

/-- A zero write is one whose bits 29..5 are all zero (R150). -/
def isZeroWrite (v : Word) : Bool := pointerAddress v == 0#25

/-- The offsets of the six registers (Table 8-1). -/
def mappedOffsets : List Nat := [0x00, 0x04, 0x08, 0x0C, 0x10, 0x14]

/-! ## Link messages (Table 7-1) -/

namespace Message

/-- Eight consecutive bytes, byte 0 first, as a message (R133). -/
def ofBytes? (bs : List Byte) : Option Message := if h : bs.length = 8 then some ⟨bs.toArray, by simpa using h⟩ else none

/-- The sum of all eight bytes modulo 256 (R134). -/
def sum (m : Message) : Byte := m[0] + m[1] + m[2] + m[3] + m[4] + m[5] + m[6] + m[7]

/-- A message has a good check when its bytes sum to 255 modulo 256 (R134). -/
def goodCheck (m : Message) : Bool := sum m == 255#8

/-- Kind: byte 0 bits 7..4. -/
def kind (m : Message) : BitVec 4 := m[0].extractLsb' 4 4

/-- Good messages have a good check and a kind 1 to 5 (R135). -/
def good (m : Message) : Bool := goodCheck m && (1#4 ≤ kind m && kind m ≤ 5#4)

/-- Port: byte 0 bits 3..0. -/
def port (m : Message) : PortIx := Fin.ofNat 16 (m[0].extractLsb' 0 4).toNat

/-- Source: byte 1 bits 5..0. -/
def source (m : Message) : SourceIx := Fin.ofNat 64 (m[1].extractLsb' 0 6).toNat

/-- ARRIVAL length: bits 13..0 of bytes 2 and 3 (R139). -/
def length (m : Message) : BitVec 14 := (le16 m[2] m[3]).extractLsb' 0 14

/-- ARRIVAL handle: bytes 4 and 5. -/
def handle (m : Message) : BitVec 16 := le16 m[4] m[5]

/-- DONE tag: byte 1. -/
def tag (m : Message) : Byte := m[1]

/-- CLOCK minute: bytes 1 and 2 (R141). -/
def minute (m : Message) : BitVec 16 := le16 m[1] m[2]

/-- Byte 7 equals 255 minus the sum of bytes 0 to 6 modulo 256 (R134). -/
def withCheck (b0 b1 b2 b3 b4 b5 b6 : Byte) : Message :=
  #v[b0, b1, b2, b3, b4, b5, b6, 255#8 - (b0 + b1 + b2 + b3 + b4 + b5 + b6)]

/-- Byte 0 of every message: kind in bits 7..4, port in bits 3..0. -/
def kindPort (k : Nat) (p : PortIx) : Byte := BitVec.ofNat 8 (k * 16 + p.val)

/-- Low byte of a 16-bit value. -/
def lo (v : BitVec 16) : Byte := v.extractLsb' 0 8

/-- High byte of a 16-bit value. -/
def hi (v : BitVec 16) : Byte := v.extractLsb' 8 8

/-- ARRIVAL as the frame engine sends it with every unread bit 0. -/
def ofArrival (p : PortIx) (s : SourceIx) (len : BitVec 14) (h : BitVec 16) : Message :=
  withCheck (kindPort 1 p) (BitVec.ofNat 8 s.val) (lo (len.setWidth 16)) (hi (len.setWidth 16)) (lo h) (hi h) 0

/-- DONE with every unread bit 0. -/
def ofDone (p : PortIx) (t : Byte) : Message := withCheck (kindPort 2 p) t 0 0 0 0 0

/-- HOLD with every unread bit 0. -/
def ofHold (p : PortIx) : Message := withCheck (kindPort 3 p) 0 0 0 0 0 0

/-- RESUME with every unread bit 0. -/
def ofResume (p : PortIx) : Message := withCheck (kindPort 4 p) 0 0 0 0 0 0

/-- CLOCK with every unread bit 0. -/
def ofClock (m : BitVec 16) : Message := withCheck (kindPort 5 0) (lo m) (hi m) 0 0 0 0

/-- ANSWER (kind 8): verdict in byte 2, successor in byte 3 bits 3..0 (R143). -/
def ofAnswer (p : PortIx) (s : SourceIx) (verdict : Byte) (successor : PortIx) (h : BitVec 16) : Message :=
  withCheck (kindPort 8 p) (BitVec.ofNat 8 s.val) verdict (BitVec.ofNat 8 successor.val) (lo h) (hi h) 0

/-- RELEASE (kind 9): handle, tag and L (R144). -/
def ofRelease (p : PortIx) (s : SourceIx) (h : BitVec 16) (tag : Byte) (len : BitVec 14) : Message :=
  withCheck (kindPort 9 p) (BitVec.ofNat 8 s.val) (lo h) (hi h) tag (lo (len.setWidth 16)) (hi (len.setWidth 16))

/-- DISCARD (kind 10): handle (R144). -/
def ofDiscard (p : PortIx) (s : SourceIx) (h : BitVec 16) : Message :=
  withCheck (kindPort 10 p) (BitVec.ofNat 8 s.val) (lo h) (hi h) 0 0 0

end Message

/-! ## Load table entries (Table 6-4) -/

namespace TableEntry

/-- Byte 0 bits 5..0. -/
def source (e : TableEntry) : SourceIx := Fin.ofNat 64 (e[0].extractLsb' 0 6).toNat

/-- Byte 0 bit 7. -/
def prot (e : TableEntry) : Bool := e[0].getLsbD 7

/-- Byte 1 bits 1..0. -/
def tier (e : TableEntry) : BitVec 2 := e[1].extractLsb' 0 2

/-- Byte 1 bits 5..4. -/
def urgency (e : TableEntry) : BitVec 2 := e[1].extractLsb' 4 2

/-- Byte 2. -/
def gc (e : TableEntry) : BitVec 8 := e[2]

/-- Byte 3 bits 5..0. -/
def gf (e : TableEntry) : BitVec 6 := e[3].extractLsb' 0 6

/-- Bytes 4 and 5. -/
def cap (e : TableEntry) : BitVec 16 := le16 e[4] e[5]

/-- Byte 6. -/
def qmax (e : TableEntry) : BitVec 8 := e[6]

end TableEntry

end Sys2Proof
end

