-- ==== Sys2Proof/Machine/State.lean ====
section
/-! DEFINITION. The state of the SA416, as plain data: every piece of state 00_scope.md 0.4 and the chapters give it, each
under its owner; and the queue of commands that wait. -/

namespace Sys2Proof.Machine

/-! ## Why a command stops -/

/-- The SA416 has no fault that stops it: errors are statuses, pointer marks, flags and refusal reasons, all held in State.
The type has no constructor: no command ever answers a fault (log 19). -/
inductive Fault where
  deriving DecidableEq, Repr

/-- The one refusal the host's interface asks for. -/
inductive Refusal where
  /-- Raised by `exec` alone, for a command that has no meaning yet; no arm uses it. Safe: the machine stops. -/
  | notModelled (mnemonic : String)
  deriving DecidableEq, Repr

/-! ## Shares (Chapters 1, 5) -/

/-- The service tier of a lane (Table 1-1). -/
inductive Tier where
  | none | one | two | three
  deriving DecidableEq, Repr

/-- A bank entry (Table 5-1). -/
structure BankEntry where
  isOpen : Bool
  gc : BitVec 8
  gf : BitVec 6
  cap : BitVec 16
  tier : Tier
  urgency : BitVec 2
  qmax : BitVec 8
  prot : Bool
  deriving DecidableEq, Repr

/-- The closed bank entry (Table 5-1). -/
def BankEntry.closed : BankEntry := ⟨false, 0, 0, 0, .none, 0, 1, false⟩

/-- An effective entry (Table 1-1). -/
structure EffEntry where
  isOpen : Bool
  gc : BitVec 8
  gf : BitVec 6
  cap : BitVec 16
  tier : Tier
  urgency : BitVec 2
  qmax : BitVec 8
  prot : Bool
  pinned : Bool
  pinInactive : Bool
  deriving DecidableEq, Repr

/-- The effective entry of a closed lane that no pin names (R3). -/
def EffEntry.closed : EffEntry := ⟨false, 0, 0, 0, .none, 0, 1, false, false, false⟩

/-- A valid pin (R102). -/
structure Pin where
  port : PortIx
  source : SourceIx
  gc : BitVec 8
  gf : BitVec 6
  tier : Tier
  urgency : BitVec 2
  deriving DecidableEq, Repr

/-- The window and port mask of one of the profiles 1 to 3 (R97). -/
structure Window where
  start : Minute
  stop : Minute
  mask : BitVec 16
  deriving DecidableEq, Repr

/-! ## Lanes (Chapters 1, 2, 9) -/

/-- Why an ARRIVAL is refused (Table 2-1); MOVED names the successor (R31). -/
inductive RefusalReason where
  | moved (successor : PortIx)
  | portClosed
  | laneClosed
  | oversize
  | laneFull
  | poolEmpty
  | poolReserved
  deriving DecidableEq, Repr

/-- A pool entry in use (R26). -/
structure Entry where
  handle : BitVec 16
  len : BitVec 14
  deriving DecidableEq, Repr

/-- The six counters of a lane (Table 9-1). -/
structure LaneTally where
  assuredBytes : BitVec 48
  surplusBytes : BitVec 48
  framesReleased : BitVec 32
  refusals : BitVec 32
  spill : BitVec 32
  peak : BitVec 8
  deriving DecidableEq, Repr

/-- All six counters 0 (R164). -/
def LaneTally.zero : LaneTally := ⟨0, 0, 0, 0, 0, 0⟩

/-- A lane: its effective entry and balance (port scheduler, R1), its list (admission unit, R27), its tally (tally store). -/
structure Lane where
  entry : EffEntry
  balance : Int
  list : List Entry
  tally : LaneTally
  deriving DecidableEq, Repr

/-- A lane at device reset: closed, empty, balance 0 (R3, R8, R45, R164). -/
def Lane.reset : Lane := ⟨EffEntry.closed, 0, [], LaneTally.zero⟩

/-! ## Ports (Chapters 3, 4) -/

/-- Port state; RETIRED holds the successor (R72, R89). -/
inductive PortState where
  | closed
  | opened
  | draining
  | retired (successor : PortIx)
  deriving DecidableEq, Repr

/-- Port flow (R73). -/
inductive Flow where
  | flowing | held | stalled
  deriving DecidableEq, Repr

/-- The kind of a send (R54). -/
inductive SendKind where
  | assured | surplus
  deriving DecidableEq, Repr

/-- An occupied release slot (R59). -/
structure Slot where
  source : SourceIx
  handle : BitVec 16
  len : BitVec 14
  kind : SendKind
  tag : Byte
  age : Byte
  deriving DecidableEq, Repr

/-- Watch mode (R83). -/
inductive WatchMode where
  | off | hold | resume | both
  deriving DecidableEq, Repr

/-- The watch latch, a set drawn from four event kinds (R82). -/
structure WatchLatch where
  hold : Bool
  resume : Bool
  stall : Bool
  link : Bool
  deriving DecidableEq, Repr

/-- The empty latch. -/
def WatchLatch.empty : WatchLatch := ⟨false, false, false, false⟩

/-- The seven counters of a port (Table 9-2). -/
structure PortTally where
  releases : BitVec 32
  expiries : BitVec 16
  impliedDone : BitVec 16
  staleDone : BitVec 16
  holds : BitVec 16
  stalls : BitVec 16
  discards : BitVec 32
  deriving DecidableEq, Repr

/-- All seven counters 0 (R164). -/
def PortTally.zero : PortTally := ⟨0, 0, 0, 0, 0, 0, 0⟩

/-- One port: its port scheduler's state, the share store's selection for it, and its tally. -/
structure Port where
  lanes : Vector Lane 64
  state : PortState
  flow : Flow
  holdAge : Byte
  /-- The round timer: `none` while stopped, else the round length the current round began with (R74, R75). -/
  timer : Option (BitVec 16)
  roundCount : BitVec 32
  refreshFlag : Bool
  selected : ProfileIx
  applied : ProfileIx
  assuredCursor : SourceIx
  tier1Cursor : SourceIx
  tier2Cursor : SourceIx
  tier3Cursor : SourceIx
  older : Option Slot
  younger : Option Slot
  nextTag : Byte
  watchMode : WatchMode
  watchLatch : WatchLatch
  roundLength : BitVec 16
  kc : BitVec 12
  kf : BitVec 6
  holdLimit : Byte
  doneLimit : Byte
  tally : PortTally
  deriving DecidableEq, Repr

/-- A port at device reset (R8, R14, R71, R94, R113, R164). -/
def Port.reset : Port where
  lanes := Vector.replicate 64 Lane.reset
  state := .closed
  flow := .flowing
  holdAge := 0
  timer := none
  roundCount := 0
  refreshFlag := false
  selected := 0
  applied := 0
  assuredCursor := 0
  tier1Cursor := 0
  tier2Cursor := 0
  tier3Cursor := 0
  older := none
  younger := none
  nextTag := 0
  watchMode := .off
  watchLatch := WatchLatch.empty
  roundLength := 100
  kc := 1562
  kf := 32
  holdLimit := 0
  doneLimit := 50
  tally := PortTally.zero

/-! ## Link (Chapter 7) -/

/-- An inbound message as the link interface reads it. `later` is no part of the message: it says that the test of the release
condition at the end of the event leaves its second decision for later (R48, log 1). -/
inductive Inbound where
  | arrival (port : PortIx) (source : SourceIx) (length : BitVec 14) (handle : BitVec 16) (later : Bool)
  | done (port : PortIx) (tag : Byte) (later : Bool)
  | hold (port : PortIx)
  | resume (port : PortIx) (later : Bool)
  | clock (minute : BitVec 16)
  | bad
  deriving DecidableEq, Repr

/-! ## Channels and the executor (Chapter 8) -/

/-- Channel state and phase (Table 8-3); DONE holds the FAULT mark. -/
inductive ChannelPhase where
  | idle
  | waiting
  | executing
  | tracing
  | done (fault : Bool)
  deriving DecidableEq, Repr

/-- One channel: its phase, bits 29..5 of the block address held, its abort-requested mark (R148, R149). -/
structure Channel where
  phase : ChannelPhase
  addr : BitVec 25
  abortReq : Bool
  deriving DecidableEq, Repr

/-- A channel at device reset (R161). -/
def Channel.reset : Channel := ⟨.idle, 0, false⟩

/-- The status codes of the termination word (Table 8-7). -/
inductive Status where
  | ok | aborted | badOrder | badPort | moved | tableOverrun | duplicate | overbook | memoryFault | conflict | full | stale
  | wrongState
  deriving DecidableEq, Repr

/-- How an order ended: status, progress (word 6), detail, and on MOVED the successor (R155). -/
structure OrderResult where
  status : Status
  progress : Word
  detail : BitVec 16
  successor : PortIx
  deriving DecidableEq, Repr

/-- A LOAD whose table is being read (R119 to R121, R131). -/
structure LoadJob where
  channel : ChannelIx
  port : PortIx
  profile : ProfileIx
  table : Nat
  count : Nat
  progress : Nat
  staged : Vector BankEntry 64
  listed : List SourceIx
  deriving DecidableEq, Repr

/-- What TLY sampled for the COLLECT record being written (R165). -/
inductive CollectSample where
  | lane (source : SourceIx) (tally : LaneTally)
  | port (tally : PortTally)
  deriving DecidableEq, Repr

/-- A COLLECT whose record `index` is being written (R165, R166). -/
structure CollectJob where
  channel : ChannelIx
  port : PortIx
  area : Nat
  clear : Bool
  index : Nat
  sample : CollectSample
  record : List Byte
  deriving DecidableEq, Repr

/-- A SURVEY whose record `index` is being written, with the watch latch taken into it (R167, R168). -/
structure SurveyJob where
  channel : ChannelIx
  area : Nat
  index : Nat
  latch : WatchLatch
  record : List Byte
  deriving DecidableEq, Repr

/-- The executor between events (R151). -/
inductive Executor where
  | free
  /-- It has taken a channel and not yet begun the order; `unread` says that the channel's abort-requested mark was yes when it
  was taken, so that the order block is not read (R152, R154). -/
  | taken (channel : ChannelIx) (unread : Bool)
  | loading (job : LoadJob)
  | collecting (job : CollectJob)
  | surveying (job : SurveyJob)
  deriving DecidableEq, Repr

/-! ## Trace engine (Chapter 9) -/

/-- The kinds of record offered to TRE (Table 9-4); GAP is written by TRE alone and never offered. -/
inductive RecordKind where
  | releaseA | releaseS | expiry | refusal | hold | resume | stall | switch | purge | link
  deriving DecidableEq, Repr

/-- A record offered to TRE (R169). -/
structure Offer where
  kind : RecordKind
  port : PortIx
  source : SourceIx
  tag : Byte
  len : BitVec 16
  roundCount : BitVec 32
  minute : Minute
  deriving DecidableEq, Repr

/-- The holding record: its first occurrence and its repeat count (R171, R172). -/
structure Holding where
  first : Offer
  count : Nat
  deriving DecidableEq, Repr

/-- Why a holding record is closed (R171, R174, R175). -/
inductive CloseReason where
  | taken
  | stale
  | abort
  deriving DecidableEq, Repr

/-- A write into the trace area that is in progress (R171): the GAP record, or a holding record being closed, with the
taken record that becomes the holding record if the order is still armed after it. -/
inductive AreaWrite where
  | gap (count : BitVec 32) (minute : Minute)
  | holding (record : Holding) (next : Option Offer) (why : CloseReason)
  deriving DecidableEq, Repr

/-- The armed trace order (R170). -/
structure ArmedTrace where
  channel : ChannelIx
  kindMask : BitVec 11
  portMask : BitVec 16
  area : Nat
  count : BitVec 16
  staleTime : BitVec 16
  written : Nat
  holding : Option Holding
  /-- The stale timer runs. -/
  staleRunning : Bool
  /-- The stale timer ran out while a write was in progress (log 12). -/
  staleDue : Bool
  write : Option AreaWrite
  deriving DecidableEq, Repr

/-- The trace engine (R171, R176). `offered` is the model's list of records made and not yet at TRE (log 11). -/
structure TraceEngine where
  armed : Option ArmedTrace
  offered : List Offer
  queue : List Offer
  stickyKinds : BitVec 11
  stickyPorts : BitVec 16
  gapCount : BitVec 32
  deriving DecidableEq, Repr

/-- The trace engine at device reset: disarmed, the sticky mask empty and the gap count 0 (Table 9-5). The table has no row for
the offer queue of 64 places: that it is empty, and the list `offered` with it, is the model's choice (log 23). -/
def TraceEngine.reset : TraceEngine := ⟨none, [], [], 0, 0, 0⟩

/-! ## The whole machine -/

/-- The state of the SA416. -/
structure State where
  /-- Port schedulers, lane lists and tallies. -/
  ports : Vector Port 16
  /-- Length pool: free count and levels (ADM, R25, R34, R37). -/
  freeCount : Nat
  reserve : BitVec 13
  warning : BitVec 13
  /-- Pool-low state: `true` is BELOW. -/
  poolBelow : Bool
  /-- Banks by profile, port, source (SHS, R95). -/
  banks : Vector (Vector (Vector BankEntry 64) 16) 4
  /-- Windows of profiles 1, 2, 3. -/
  windows : Vector Window 3
  pins : Vector (Option Pin) 4
  minute : Minute
  clockValid : Bool
  /-- The link-ready line: `true` is asserted. -/
  linkReady : Bool
  /-- Link state: `true` is UP. -/
  linkUp : Bool
  /-- Bytes received of the inbound message that is not yet whole (R133). -/
  inPartial : List Byte
  /-- Inbound messages that wait on the link (R135). -/
  inWaiting : List Inbound
  outQueue : List Message
  badCount : BitVec 16
  channels : Vector Channel 4
  executor : Executor
  tre : TraceEngine
  attn : Byte
  attnMask : Byte
  /-- What the SA416 has written into card memory. -/
  cardMem : List Host.Cell
  /-- The ports whose second release decision was left for later, in the order they left it (R48, log 1). -/
  retests : List PortIx
  /-- The counter free values are drawn by. -/
  freeCtr : Nat
  /-- The commands that wait, first in, first out. -/
  pending : List Instr
  deriving DecidableEq, Repr

/-- The machine right after device reset (R8, R14, R34, R37, R45, R71, R94, R113, R146, R161, R164, Table 9-5). -/
def State.reset : State where
  ports := Vector.replicate 16 Port.reset
  freeCount := Config.poolEntries
  reserve := 512
  warning := 1024
  poolBelow := false
  banks := Vector.replicate 4 (Vector.replicate 16 (Vector.replicate 64 BankEntry.closed))
  windows := Vector.replicate 3 ⟨0, 0, 0⟩
  pins := Vector.replicate 4 none
  minute := 0
  clockValid := false
  linkReady := false
  linkUp := false
  inPartial := []
  inWaiting := []
  outQueue := []
  badCount := 0
  channels := Vector.replicate 4 Channel.reset
  executor := .free
  tre := TraceEngine.reset
  attn := 0
  attnMask := 0
  cardMem := []
  retests := []
  freeCtr := 0
  pending := []

end Sys2Proof.Machine
end

