-- ==== Sys2Proof/Machine/Ops.lean ====
section
/-! DEFINITION. Named operations over the state: saturating counters, ports and lanes, the pool's free count, card memory,
messages handed to the link, records offered to the trace engine, and purges. -/

namespace Sys2Proof.Machine

/-! ## Counters -/

/-- Adding to a counter that saturates at its largest value (0.6, R162, R163, R176). -/
def satAdd {w : Nat} (c : BitVec w) (n : Nat) : BitVec w := BitVec.ofNat w (min (c.toNat + n) (2 ^ w - 1))

/-- An 8-bit age or hold age that rises by one and stays at 255 (R61, R78). -/
def ageUp (a : Byte) : Byte := satAdd a 1

/-! ## Indexes -/

/-- All 16 ports in ascending order. -/
def allPorts : List PortIx := List.finRange 16

/-- All 64 sources in ascending order. -/
def allSources : List SourceIx := List.finRange 64

/-- All four profiles in ascending order. -/
def allProfiles : List ProfileIx := List.finRange 4

/-- All four channels in ascending order. -/
def allChannels : List ChannelIx := List.finRange 4

/-! ## Ports and lanes -/

/-- The lane of a source. -/
def Port.lane (q : Port) (src : SourceIx) : Lane := q.lanes[src]

/-- A port with one lane replaced. -/
def Port.setLane (q : Port) (src : SourceIx) (l : Lane) : Port := { q with lanes := q.lanes.set src l }

/-- A port with every lane replaced by a function of its source and itself. -/
def Port.mapLanes (q : Port) (f : SourceIx → Lane → Lane) : Port :=
  { q with lanes := Vector.ofFn fun i => f i (q.lane i) }

/-- The list total of a port (R28). -/
def Port.listTotal (q : Port) : Nat := (allSources.map fun src => (q.lane src).list.length).sum

/-- Port `p` of the device. -/
def State.port (s : State) (p : PortIx) : Port := s.ports[p]

/-- The device with port `p` replaced. -/
def State.setPort (s : State) (p : PortIx) (q : Port) : State := { s with ports := s.ports.set p q }

/-- The device with port `p` changed by a function. -/
def State.updPort (s : State) (p : PortIx) (f : Port → Port) : State := s.setPort p (f (s.port p))

/-- The device with every port changed by a function. -/
def State.mapPorts (s : State) (f : PortIx → Port → Port) : State :=
  { s with ports := Vector.ofFn fun p => f p (s.port p) }

/-- Lane `(p, src)`. -/
def State.lane (s : State) (p : PortIx) (src : SourceIx) : Lane := (s.port p).lane src

/-- The device with lane `(p, src)` changed by a function. -/
def State.updLane (s : State) (p : PortIx) (src : SourceIx) (f : Lane → Lane) : State :=
  s.updPort p fun q => q.setLane src (f (q.lane src))

/-- A port's tally changed by a function. -/
def State.updPortTally (s : State) (p : PortIx) (f : PortTally → PortTally) : State :=
  s.updPort p fun q => { q with tally := f q.tally }

/-! ## The length pool -/

/-- The free count set to `n`, and with it the pool-low state (R37): BELOW when below the warning level. -/
def State.setFree (s : State) (n : Nat) : State :=
  { s with freeCount := n, poolBelow := decide (n < s.warning.toNat) }

/-! ## Messages to the frame engine -/

/-- Messages handed to the link interface join the tail of the outbound queue in order (R142); a DOWN link drops them
(R145). -/
def State.handOver (s : State) (ms : List Message) : State :=
  if s.linkUp then { s with outQueue := s.outQueue ++ ms } else s

/-! ## Records offered to the trace engine -/

/-- A record of port `p` stamped with the port's round count and the session minute as they stand (R99, R169). -/
def State.stamp (s : State) (kind : RecordKind) (p : PortIx) (src : SourceIx) (tag : Byte) (len : BitVec 16) : Offer :=
  ⟨kind, p, src, tag, len, (s.port p).roundCount, s.minute⟩

/-- Records offered to TRE, in the order made (R171). They reach TRE by TRACE_OFFER commands (log 11). -/
def State.offer (s : State) (os : List Offer) : State :=
  { s with tre := { s.tre with offered := s.tre.offered ++ os } }

/-! ## Purges (R40) -/

/-- The selected lanes of port `p` whose lists hold entries, in ascending source order. -/
def State.purgeVictims (s : State) (p : PortIx) (sel : SourceIx → Bool) : List SourceIx :=
  allSources.filter fun src => sel src && !(s.lane p src).list.isEmpty

/-- One DISCARD message per entry of the lanes named, lane by lane, oldest entry first (R41, R42). -/
def State.discardMessages (s : State) (p : PortIx) (victims : List SourceIx) : List Message :=
  victims.flatMap fun src => (s.lane p src).list.map fun e => Message.ofDiscard p src e.handle

/-- One PURGE record per lane named, with the number of entries in its length field (R40). -/
def State.purgeRecords (s : State) (p : PortIx) (victims : List SourceIx) : List Offer :=
  victims.map fun src => s.stamp .purge p src 0 (BitVec.ofNat 16 (s.lane p src).list.length)

/-- The number of entries on the lists of the lanes named. -/
def State.entriesOn (s : State) (p : PortIx) (lanes : List SourceIx) : Nat :=
  (lanes.map fun src => (s.lane p src).list.length).sum

/-- The purge of the selected lanes of port `p` (R40): their entries return to the free list, each is counted as a discard of
the port, each lane that held entries gives a PURGE record, and where `tell` holds each entry gives a DISCARD message. -/
def State.purge (s : State) (p : PortIx) (sel : SourceIx → Bool) (tell : Bool) : State :=
  let victims := s.purgeVictims p sel
  let n := s.entriesOn p victims
  let told := if tell then s.handOver (s.discardMessages p victims) else s
  let emptied := told.updPort p fun q =>
    { q.mapLanes (fun src l => if sel src then { l with list := [] } else l) with
      tally := { q.tally with discards := satAdd q.tally.discards n } }
  (emptied.setFree (s.freeCount + n)).offer (s.purgeRecords p victims)

/-! ## Card memory -/

namespace Memory

/-- What the SA416 has written at an address, or none where it has written nothing (log 4). -/
def read (m : List Host.Cell) (a : Nat) : Option Byte :=
  match m with
  | [] => none
  | (k, b) :: rest => if a = k then some b else read rest a

/-- One byte written, the list kept in ascending address order with no address twice. -/
def write (m : List Host.Cell) (a : Nat) (b : Byte) : List Host.Cell :=
  match m with
  | [] => [(a, b)]
  | (k, c) :: rest =>
    if a < k then (a, b) :: (k, c) :: rest
    else if a = k then (k, b) :: rest
    else (k, c) :: write rest a b

/-- Bytes written at consecutive addresses, each modulo 2^30. -/
def writeBytes (m : List Host.Cell) (a : Nat) (bs : List Byte) : List Host.Cell :=
  match bs with
  | [] => m
  | b :: rest => writeBytes (write m (a % Config.memorySize) b) (a + 1) rest

/-- Every address listed is above `lowest`'s bound, strictly rising, and a 30-bit address. -/
def wfFrom (bound : Nat) (m : List Host.Cell) : Bool :=
  match m with
  | [] => true
  | (k, _) :: rest => decide (bound ≤ k) && decide (k < Config.memorySize) && wfFrom (k + 1) rest

/-- The canonical form: strictly rising 30-bit addresses. An unlisted address reads as no value, so no entry equals it. -/
def wf (m : List Host.Cell) : Bool := wfFrom 0 m

end Memory

/-- Bytes the SA416 writes into card memory as bus master. -/
def State.busWrite (s : State) (a : Nat) (bs : List Byte) : State :=
  { s with cardMem := Memory.writeBytes s.cardMem a bs }

end Sys2Proof.Machine
end

