-- ==== Sys2Proof/Machine/Flags.lean ====
section
/-! DEFINITION. The attention unit: ATTN flags, ATTN_MASK and the ATTN line (8.6). -/

namespace Sys2Proof.Machine

/-- ATTN bits (Table 8-8). -/
def attnReject : Nat := 4
/-- ATTN POOL_LOW. -/
def attnPoolLow : Nat := 5
/-- ATTN PORT_WATCH. -/
def attnPortWatch : Nat := 6
/-- ATTN LINK_FAULT. -/
def attnLinkFault : Nat := 7

/-- The byte with bit `i` alone set. -/
def flagBit (i : Nat) : Byte := 1#8 <<< i

/-- Latching a flag; one already set stays set (R159). -/
def State.latch (s : State) (i : Nat) : State := { s with attn := s.attn ||| flagBit i }

/-- Latching a flag when a condition holds. -/
def State.latchIf (s : State) (c : Bool) (i : Nat) : State := if c then s.latch i else s

/-- Clearing a flag. -/
def State.unlatch (s : State) (i : Nat) : State := { s with attn := s.attn &&& ~~~ (flagBit i) }

/-- A write to ATTN clears each of bits 7..4 written as 1; bits 3..0 are not taken (R159). -/
def State.writeAttn (s : State) (v : Word) : State :=
  { s with attn := s.attn &&& ~~~ (v.extractLsb' 0 8 &&& 0xF0#8) }

/-- A write to ATTN_MASK replaces bits 7..0 (R160). -/
def State.writeAttnMask (s : State) (v : Word) : State := { s with attnMask := v.extractLsb' 0 8 }

/-- The ATTN line is driven low while at least one flag is set with its mask bit set (R160). -/
def State.attnLineLow (s : State) : Bool := (s.attn &&& s.attnMask) != 0#8

/-- HOLD latches PORT_WATCH in these watch modes (R83). -/
def watchesHold : WatchMode → Bool
  | .off => false
  | .hold => true
  | .resume => false
  | .both => true

/-- RESUME latches PORT_WATCH in these watch modes (R83). -/
def watchesResume : WatchMode → Bool
  | .off => false
  | .hold => false
  | .resume => true
  | .both => true

/-- The kinds of two watch latches together (R82, R168). -/
def WatchLatch.join (a b : WatchLatch) : WatchLatch :=
  ⟨a.hold || b.hold, a.resume || b.resume, a.stall || b.stall, a.link || b.link⟩

end Sys2Proof.Machine
end

