-- ==== Sys2Proof/Machine/Credit.lean ====
section
/-! DEFINITION. Chapter 1: frame sizes, the dither, accrual, eligibility, the balance effect of sends and refreshes. -/

namespace Sys2Proof.Machine

/-- The length stored: a length below 64 is raised to 64 (R6). -/
def storedLength (len : BitVec 14) : BitVec 14 := if len.toNat < Config.minLength then 64#14 else len

/-- The frame size u = ceil(L/8) in credit units (R6). -/
def frameSize (len : BitVec 14) : Nat := (len.toNat + 7) / 8

/-- A guaranteed rate is nonzero when Gc or Gf is (R2). -/
def hasRate (gc : BitVec 8) (gf : BitVec 6) : Bool := gc != 0#8 || gf != 0#6

/-- The floor on the cap: raised to Gc + 1 when below it and the rate is nonzero (R4). -/
def capFloor (gc : BitVec 8) (gf : BitVec 6) (cap : BitVec 16) : BitVec 16 :=
  if hasRate gc gf && decide (cap.toNat < gc.toNat + 1) then BitVec.ofNat 16 (gc.toNat + 1) else cap

/-- The dither index d = (n + s) mod 64 (R11). -/
def ditherIndex (n : BitVec 32) (src : SourceIx) : Nat := (n.toNat + src.val) % 64

/-- The 6-bit reversal of a dither index (R11). -/
def reverse6 (d : Nat) : Nat :=
  (d % 2) * 32 + (d / 2 % 2) * 16 + (d / 4 % 2) * 8 + (d / 8 % 2) * 4 + (d / 16 % 2) * 2 + d / 32 % 2

/-- The extra unit: 1 when the reversal is below Gf, else 0 (R11). -/
def extraUnit (n : BitVec 32) (src : SourceIx) (gf : BitVec 6) : Nat :=
  if reverse6 (ditherIndex n src) < gf.toNat then 1 else 0

/-- A lane that accrues is open with a nonzero rate (R10). -/
def Lane.accrues (l : Lane) : Bool := l.entry.isOpen && hasRate l.entry.gc l.entry.gf

/-- A balance brought down to a cap, with what it held above the cap (R12, R22). -/
def clampToCap (a : Int) (cap : BitVec 16) : Int × Nat :=
  if (cap.toNat : Int) < a then ((cap.toNat : Int), (a - cap.toNat).toNat) else (a, 0)

/-- A lane with the balance given and a spill reported to its tally (R12, R162). -/
def Lane.withBalance (l : Lane) (a : Int × Nat) : Lane :=
  { l with balance := a.1, tally := { l.tally with spill := satAdd l.tally.spill a.2 } }

/-- Accrual of one lane at a round expiry with round count `n` (R10 to R12). -/
def Lane.accrue (n : BitVec 32) (src : SourceIx) (l : Lane) : Lane :=
  if l.accrues then
    l.withBalance (clampToCap (l.balance + (l.entry.gc.toNat + extraUnit n src l.entry.gf : Nat)) l.entry.cap)
  else l

/-- The refresh balance rule (R22), for a lane that takes a new effective entry. -/
def Lane.refresh (e : EffEntry) (l : Lane) : Lane :=
  if hasRate e.gc e.gf then ({ l with entry := e }).withBalance (clampToCap l.balance e.cap)
  else { l with entry := e, balance := 0 }

/-- The size of the frame at the head of a list, if there is one (R17, R28). -/
def Lane.headSize (l : Lane) : Option Nat :=
  match l.list with
  | [] => none
  | e :: _ => some (frameSize e.len)

/-- Assured eligibility (R15), the full-bucket rule included. -/
def Lane.assuredEligible (l : Lane) : Bool :=
  match l.headSize with
  | none => false
  | some u => l.accrues && (decide ((u : Int) ≤ l.balance) || decide (l.balance = (l.entry.cap.toNat : Int)))

/-- Surplus eligibility (R16). -/
def Lane.surplusEligible (l : Lane) : Bool := !l.list.isEmpty && (l.entry.isOpen && l.entry.tier != .none)

end Sys2Proof.Machine
end

