-- ==== Sys2Proof/Machine/Release.lean ====
section
/-! DEFINITION. Chapter 3: the release condition, the assured pass, the spare-grant chain, the release, the slots, DONE; and
the drain rule of Chapter 4 that follows them. -/

namespace Sys2Proof.Machine

/-- Ascending circular order after cursor `c`: c + 1, …, 63, 0, …, c (R50). -/
def circularAfter (c : SourceIx) : List SourceIx := (List.range 64).map fun i => Fin.ofNat 64 (c.val + 1 + i)

/-- The four urgencies, the most urgent first (R49). -/
def urgencies : List (BitVec 2) := [0, 1, 2, 3]

/-- The assured pass: the lowest urgency any assured-eligible lane holds, and the first such lane in circular order after the
assured cursor (R49). -/
def Port.assuredChoice (q : Port) : Option SourceIx :=
  urgencies.findSome? fun u =>
    (circularAfter q.assuredCursor).find? fun src => (q.lane src).assuredEligible && (q.lane src).entry.urgency == u

/-- The tiers of the spare-grant chain in the order offered (R51). -/
def chainTiers : List Tier := [.one, .two, .three]

/-- The cursor of a tier (R52). -/
def Port.tierCursor (q : Port) : Tier → SourceIx
  | .none => q.assuredCursor
  | .one => q.tier1Cursor
  | .two => q.tier2Cursor
  | .three => q.tier3Cursor

/-- The cursor of a tier moved to the source chosen (R51). -/
def Port.setTierCursor (q : Port) (t : Tier) (src : SourceIx) : Port :=
  match t with
  | .none => q
  | .one => { q with tier1Cursor := src }
  | .two => { q with tier2Cursor := src }
  | .three => { q with tier3Cursor := src }

/-- The spare-grant chain: the first tier with a candidate, and the first candidate in circular order after its cursor
(R51). -/
def Port.chainChoice (q : Port) : Option (Tier × SourceIx) :=
  chainTiers.findSome? fun t =>
    ((circularAfter (q.tierCursor t)).find? fun src =>
      (q.lane src).surplusEligible && (q.lane src).entry.tier == t).map fun src => (t, src)

/-- A release decision: the lane chosen, the send kind, and the port with the cursor of the pass moved (R49, R51). -/
def Port.decision (q : Port) : Option (SourceIx × SendKind × Port) :=
  match q.assuredChoice with
  | some src => some (src, .assured, { q with assuredCursor := src })
  | none =>
    match q.chainChoice with
    | some (t, src) => some (src, .surplus, q.setTierCursor t src)
    | none => none

/-- State OPEN or DRAINING (R46, R74). -/
def Port.inService (q : Port) : Bool :=
  match q.state with
  | .closed => false
  | .opened => true
  | .draining => true
  | .retired _ => false

/-- The part of the release condition that does not read the lanes: OPEN or DRAINING, FLOWING, and a slot free (R46). -/
def Port.mayRelease (q : Port) : Bool :=
  q.inService && (q.flow == .flowing && (q.older.isNone || q.younger.isNone))

/-- A release fills the older slot when it is free, else the younger (R53). -/
def Port.fillSlot (q : Port) (sl : Slot) : Port :=
  match q.older with
  | none => { q with older := some sl }
  | some _ => { q with younger := some sl }

/-- The lane's part of a release: the head entry leaves, an assured send is debited, the tallies rise (R18, R19, R38, R55). -/
def Lane.send (l : Lane) (kind : SendKind) (len : BitVec 14) : Lane :=
  match kind with
  | .assured =>
    { l with
      list := l.list.tail
      balance := l.balance - (frameSize len : Int)
      tally := { l.tally with
        framesReleased := satAdd l.tally.framesReleased 1
        assuredBytes := satAdd l.tally.assuredBytes len.toNat } }
  | .surplus =>
    { l with
      list := l.list.tail
      tally := { l.tally with
        framesReleased := satAdd l.tally.framesReleased 1
        surplusBytes := satAdd l.tally.surplusBytes len.toNat } }

/-- The port's part of a release of entry `e` from `src`: slot, next tag, lane and tally (R54, R55). -/
def Port.release (q : Port) (src : SourceIx) (kind : SendKind) (e : Entry) : Port :=
  let filled := q.fillSlot ⟨src, e.handle, e.len, kind, q.nextTag, 0⟩
  { filled.setLane src ((q.lane src).send kind e.len) with
    nextTag := q.nextTag + 1
    tally := { q.tally with releases := satAdd q.tally.releases 1 } }

/-- The record kind of a release (R55). -/
def releaseKind : SendKind → RecordKind
  | .assured => .releaseA
  | .surplus => .releaseS

/-- The release decided on port `p` carried out as one event (R54): `q` is the port with its cursor moved. -/
def State.carryOutRelease (s : State) (p : PortIx) (src : SourceIx) (kind : SendKind) (q : Port) (e : Entry) : State :=
  (((s.setPort p (q.release src kind e)).setFree (s.freeCount + 1)).handOver
      [Message.ofRelease p src e.handle q.nextTag e.len]).offer
    [s.stamp (releaseKind kind) p src q.nextTag (e.len.setWidth 16)]

/-- One test of the release condition with the decision it makes (R46): none where the condition does not hold. -/
def State.releaseOnce (s : State) (p : PortIx) : Option State :=
  let q := s.port p
  if q.mayRelease then
    match q.decision with
    | none => none
    | some (src, kind, q') =>
      match (q.lane src).list with
      | [] => none
      | e :: _ => some (s.carryOutRelease p src kind q' e)
  else none

/-- The test of the release condition at the end of an event (R47, R48): a release fills a slot and the condition is tested
again, so one test makes at most two decisions. -/
def State.releaseTest (s : State) (p : PortIx) : State :=
  match s.releaseOnce p with
  | none => s
  | some s1 =>
    match s1.releaseOnce p with
    | none => s1
    | some s2 => s2

/-- The drain rule: DRAINING, list total 0, both slots free (R84). -/
def Port.drained (q : Port) : Bool :=
  q.state == .draining && (q.listTotal == 0 && (q.older.isNone && q.younger.isNone))

/-- A drained port becomes CLOSED and its timer stops (R84). -/
def Port.drainRule (q : Port) : Port := if q.drained then { q with state := .closed, timer := none } else q

/-- The drain rule evaluated on port `p`. -/
def State.drain (s : State) (p : PortIx) : State := s.updPort p Port.drainRule

/-- The release test, and after it the drain rule, as at the end of each event of R47. -/
def State.testAndDrain (s : State) (p : PortIx) : State := (s.releaseTest p).drain p

/-- The ports that owe a second decision, replaced (log 1). -/
def State.setRetests (s : State) (ps : List PortIx) : State := { s with retests := ps }

/-- The first decision of a test alone (R48): where a release is made, the port still owes the second decision (log 1). -/
def State.firstDecision (s : State) (p : PortIx) : State :=
  match s.releaseOnce p with
  | none => s
  | some t => t.setRetests (t.retests ++ [p])

/-- The end of an event of R47: the release test, its second decision made at once or left for later, and the drain rule. -/
def State.endEvent (s : State) (p : PortIx) (later : Bool) : State :=
  if later then (s.firstDecision p).drain p else s.testAndDrain p

/-- What the block does when no command waits: the port that has owed a second decision longest tests the release condition
again and makes it, if the condition still holds (R48, log 1). With none owed the block idles (log 3). -/
def State.idle (s : State) : State :=
  match s.retests with
  | [] => s
  | p :: rest => (s.setRetests rest).testAndDrain p

/-! ## Freeing slots -/

/-- The older slot freed: the younger moves into it (R60). -/
def Port.freeOlder (q : Port) : Port := { q with older := q.younger, younger := none }

/-- Both slots freed. -/
def Port.freeBoth (q : Port) : Port := { q with older := none, younger := none }

/-- An occupied slot that holds the tag. -/
def slotHasTag (sl : Option Slot) (tag : Byte) : Bool :=
  match sl with
  | none => false
  | some x => x.tag == tag

/-- DONE at the port scheduler (R64 to R66). -/
def State.takeDone (s : State) (p : PortIx) (tag : Byte) (later : Bool) : State :=
  let q := s.port p
  if slotHasTag q.older tag then (s.updPort p Port.freeOlder).endEvent p later
  else if slotHasTag q.younger tag then
    ((s.updPort p Port.freeBoth).updPortTally p fun t => { t with impliedDone := satAdd t.impliedDone 1 }).endEvent p later
  else s.updPortTally p fun t => { t with staleDone := satAdd t.staleDone 1 }

/-! ## Ageing and expiry (R61, R62) -/

/-- A slot one round older. -/
def Slot.older1 (sl : Slot) : Slot := { sl with age := ageUp sl.age }

/-- Every occupied slot's age rises by one, staying at 255 (R61). -/
def Port.ageSlots (q : Port) : Port := { q with older := q.older.map Slot.older1, younger := q.younger.map Slot.older1 }

/-- A slot has expired when the done limit is nonzero and its age has reached it (R61). -/
def Port.expired (q : Port) (sl : Slot) : Bool := q.doneLimit != 0#8 && decide (q.doneLimit.toNat ≤ sl.age.toNat)

/-- The older slot freed as expired: the expiries tally, the EXPIRY record, the younger moved up (R62). -/
def State.expireOlder (s : State) (p : PortIx) (sl : Slot) : State :=
  ((s.updPort p Port.freeOlder).updPortTally p fun t => { t with expiries := satAdd t.expiries 1 }).offer
    [s.stamp .expiry p sl.source sl.tag (sl.len.setWidth 16)]

/-- The younger slot freed as expired while the older is not (no reachable state has this: R61). -/
def State.expireYounger (s : State) (p : PortIx) (sl : Slot) : State :=
  ((s.updPort p fun q => { q with younger := none }).updPortTally p fun t => { t with expiries := satAdd t.expiries 1 }).offer
    [s.stamp .expiry p sl.source sl.tag (sl.len.setWidth 16)]

/-- The occupied older slot is freed when it has expired. -/
def State.expireOlderIf (s : State) (p : PortIx) : State :=
  match (s.port p).older with
  | none => s
  | some sl => if (s.port p).expired sl then s.expireOlder p sl else s

/-- The occupied younger slot is freed when it has expired. -/
def State.expireYoungerIf (s : State) (p : PortIx) : State :=
  match (s.port p).younger with
  | none => s
  | some sl => if (s.port p).expired sl then s.expireYounger p sl else s

/-- Slot expiry at a round expiry, after the ageing: every occupied slot at or above a nonzero done limit is freed, the older
before the younger (R61, R62). The younger of two expired slots has moved into the older place by the time it is freed. -/
def State.expireSlots (s : State) (p : PortIx) : State :=
  match (s.port p).older with
  | none => s.expireYoungerIf p
  | some sl =>
    if (s.port p).expired sl then (s.expireOlder p sl).expireOlderIf p else s.expireYoungerIf p

end Sys2Proof.Machine
end

