-- ==== Sys2Proof/Machine/Shares.lean ====
section
/-! DEFINITION. Chapters 5 and 6: banks, windows, selection, pins, the derivation of effective entries, the refresh, the
overbook check, and what each order of Chapter 6 changes. -/

namespace Sys2Proof.Machine

/-- Tier codes (Table 1-1): 0 NONE, 1, 2, 3. -/
def tierOfCode (c : BitVec 2) : Tier :=
  match c.toNat with
  | 0 => .none
  | 1 => .one
  | 2 => .two
  | _ => .three

/-! ## Banks and pins -/

/-- The 64 entries of port `p` in bank `k` (R95). -/
def State.bankPort (s : State) (k : ProfileIx) (p : PortIx) : Vector BankEntry 64 := (s.banks[k])[p]

/-- The 64 entries of port `p` in bank `k` replaced together (R96). -/
def State.installBank (s : State) (k : ProfileIx) (p : PortIx) (es : Vector BankEntry 64) : State :=
  { s with banks := s.banks.set k ((s.banks[k]).set p es) }

/-- The pin list. -/
abbrev PinList := Vector (Option Pin) 4

/-- A valid pin at an index that names lane `(p, src)`. -/
def pinAt (pins : PinList) (p : PortIx) (src : SourceIx) (i : Fin 4) : Option Pin :=
  match pins[i] with
  | none => none
  | some x => if x.port = p ∧ x.source = src then some x else none

/-- The lowest-indexed valid pin that names lane `(p, src)` (R103). -/
def firstPin (pins : PinList) (p : PortIx) (src : SourceIx) : Option Pin :=
  (List.finRange 4).findSome? (pinAt pins p src)

/-- The entry a bank entry and the pin list give a lane (R104, Table 5-2). A pin is effective where the bank entry is open
and it is the lowest-indexed valid pin naming the lane (R103). -/
def deriveEntry (b : BankEntry) (pin : Option Pin) : EffEntry :=
  if b.isOpen then
    match pin with
    | none => ⟨true, b.gc, b.gf, capFloor b.gc b.gf b.cap, b.tier, b.urgency, b.qmax, b.prot, false, false⟩
    | some x => ⟨true, x.gc, x.gf, capFloor x.gc x.gf b.cap, x.tier, x.urgency, b.qmax, b.prot, true, false⟩
  else { EffEntry.closed with pinInactive := pin.isSome }

/-- The entry profile `k` gives lane `(p, src)`. -/
def State.derived (s : State) (k : ProfileIx) (p : PortIx) (src : SourceIx) : EffEntry :=
  deriveEntry ((s.bankPort k p)[src]) (firstPin s.pins p src)

/-! ## Windows and selection -/

/-- The window and mask of profile `k`: profile 0 has neither (R97). -/
def State.window? (s : State) (k : ProfileIx) : Option Window :=
  match k with
  | 0 => none
  | 1 => some s.windows[0]
  | 2 => some s.windows[1]
  | 3 => some s.windows[2]

/-- The window of profile `k` replaced; profile 0 has none to replace. -/
def State.setWindow (s : State) (k : ProfileIx) (w : Window) : State :=
  match k with
  | 0 => s
  | 1 => { s with windows := s.windows.set 0 w }
  | 2 => { s with windows := s.windows.set 1 w }
  | 3 => { s with windows := s.windows.set 2 w }

/-- A window contains a minute (R97). -/
def Window.contains (w : Window) (m : Minute) : Bool :=
  if w.start.val < w.stop.val then decide (w.start.val ≤ m.val) && decide (m.val < w.stop.val)
  else if w.stop.val < w.start.val then decide (w.start.val ≤ m.val) || decide (m.val < w.stop.val)
  else false

/-- A port mask includes a port. -/
def Window.includes (w : Window) (p : PortIx) : Bool := w.mask.getLsbD p.val

/-- Profile `k` is a candidate for port `p` at the minute held (R100). -/
def State.candidate (s : State) (p : PortIx) (k : ProfileIx) : Bool :=
  match s.window? k with
  | none => false
  | some w => w.includes p && w.contains s.minute

/-- The age of profile `k`: minutes since its window opened (R100). -/
def State.windowAge (s : State) (k : ProfileIx) : Nat :=
  match s.window? k with
  | none => 0
  | some w => (s.minute.val + Config.minutesPerDay - w.start.val) % Config.minutesPerDay

/-- The younger of two candidates, the lower-numbered one on a tie (R100). -/
def State.newerWindow (s : State) (best : Option ProfileIx) (k : ProfileIx) : Option ProfileIx :=
  match best with
  | none => some k
  | some b => if s.windowAge k < s.windowAge b then some k else some b

/-- The profile selected for port `p` by a recomputation (R100). -/
def State.selectFor (s : State) (p : PortIx) : ProfileIx :=
  if s.clockValid then
    (((allProfiles.filter (s.candidate p)).foldl s.newerWindow none)).getD 0
  else 0

/-- A port that takes a new selection: the flag is set where it changes (R101). -/
def Port.reselect (q : Port) (k : ProfileIx) : Port :=
  if q.selected = k then q else { q with selected := k, refreshFlag := true }

/-- The recomputation of the selection of all 16 ports, one event (R101). -/
def State.recomputeSelection (s : State) : State := s.mapPorts fun p q => q.reselect (s.selectFor p)

/-- A CLOCK taken by SHS (R98). -/
def State.takeClock (s : State) (m : BitVec 16) : State :=
  if h : m.toNat < 1440 then
    let m' : Minute := ⟨m.toNat, h⟩
    if s.clockValid && s.minute == m' then s
    else { s with minute := m', clockValid := true }.recomputeSelection
  else s

/-! ## The refresh (R109) -/

/-- The lanes of port `p` that are closed (their purge at a refresh takes those that hold entries, R41). -/
def State.closedLane (s : State) (p : PortIx) (src : SourceIx) : Bool := !(s.lane p src).entry.isOpen

/-- Steps 1 to 3: every lane takes the entry its selected profile gives it, and its balance is adjusted. -/
def State.replaceEntries (s : State) (p : PortIx) : State :=
  s.updPort p fun q => q.mapLanes fun src l => l.refresh (s.derived q.selected p src)

/-- Step 4: a SWITCH record when the selected profile differs from the applied one, and the applied profile set (R110). -/
def State.switchProfile (s : State) (p : PortIx) : State :=
  let q := s.port p
  let told := if q.selected = q.applied then s
    else s.offer [s.stamp .switch p 0 (BitVec.ofNat 8 q.selected.val) 0]
  told.updPort p fun q => { q with applied := q.selected }

/-- A refresh of port `p`, carried out as one event in the order of R109. -/
def State.refresh (s : State) (p : PortIx) : State :=
  let t := (s.replaceEntries p).switchProfile p
  (t.purge p (t.closedLane p) true).updPort p fun q => { q with refreshFlag := false }

/-- The refresh, when the port's flag is set (R108). -/
def State.refreshIf (s : State) (p : PortIx) : State := if (s.port p).refreshFlag then s.refresh p else s

/-! ## The overbook check (R116, R117) -/

/-- The booked rate 64·Gc + Gf. -/
def bookedRate (gc : BitVec 8) (gf : BitVec 6) : Nat := 64 * gc.toNat + gf.toNat

/-- The booked rate of one lane: closed lanes add 0, and an effective pin's rate is used in place of the bank entry's. -/
def laneBooking (b : BankEntry) (pin : Option Pin) : Nat :=
  if b.isOpen then
    match pin with
    | none => bookedRate b.gc b.gf
    | some x => bookedRate x.gc x.gf
  else 0

/-- The booked sum of port `p` over 64 bank entries and a pin list. -/
def bookedSum (es : Vector BankEntry 64) (pins : PinList) (p : PortIx) : Nat :=
  (allSources.map fun src => laneBooking es[src] (firstPin pins p src)).sum

/-- The capacity figure 64·Kc + Kf. -/
def capacityFigure (kc : BitVec 12) (kf : BitVec 6) : Nat := 64 * kc.toNat + kf.toNat

/-- A booking is legal when the booked sum is at most the capacity figure. -/
def legalBooking (es : Vector BankEntry 64) (pins : PinList) (p : PortIx) (figure : Nat) : Bool :=
  decide (bookedSum es pins p ≤ figure)

/-- The capacity figure of port `p` as it stands. -/
def State.figure (s : State) (p : PortIx) : Nat := capacityFigure (s.port p).kc (s.port p).kf

/-- Profile `k` could come into force on port `p`: profile 0, or a mask that includes the port (R116). -/
def State.governs (s : State) (k : ProfileIx) (p : PortIx) : Bool :=
  match s.window? k with
  | none => true
  | some w => w.includes p

/-- The detail of OVERBOOK: port in bits 7..0, profile in bits 9..8 (Table 6-2). -/
def overbookDetail (p : PortIx) (k : ProfileIx) : BitVec 16 := BitVec.ofNat 16 (p.val + 256 * k.val)

/-- The first of the checks, in the order given, whose sum is not legal. -/
def firstOverbook (checks : List (ProfileIx × PortIx)) (legal : ProfileIx → PortIx → Bool) :
    Option (ProfileIx × PortIx) :=
  checks.find? fun c => !legal c.1 c.2

/-! ## Order results -/

/-- An order that ends with a status, progress and detail. -/
def OrderResult.of (st : Status) (progress : Word) (detail : BitVec 16) : OrderResult := ⟨st, progress, detail, 0⟩

/-- OK with progress 0 and detail 0. -/
def OrderResult.ok0 : OrderResult := OrderResult.of .ok 0 0

/-- An order that ends MOVED with the successor (R155). -/
def OrderResult.movedTo (successor : PortIx) (progress : Word) : OrderResult := ⟨.moved, progress, 0, successor⟩

/-- The successor of a RETIRED port. -/
def Port.successor? (q : Port) : Option PortIx :=
  match q.state with
  | .closed => none
  | .opened => none
  | .draining => none
  | .retired x => some x

/-! ## LOAD: staging and install point -/

/-- A load table entry as a bank entry, with the clamps of Table 6-5 (R120). -/
def stageEntry (e : TableEntry) : BankEntry :=
  let gc := TableEntry.gc e
  let gf := TableEntry.gf e
  let tier := tierOfCode (TableEntry.tier e)
  if hasRate gc gf || tier != .none then
    ⟨true, gc, gf, capFloor gc gf (TableEntry.cap e), tier, TableEntry.urgency e,
      if TableEntry.qmax e = 0#8 then 1#8 else TableEntry.qmax e, TableEntry.prot e⟩
  else BankEntry.closed

/-- A staging copy with all 64 entries closed (R120). -/
def closedStaging : Vector BankEntry 64 := Vector.replicate 64 BankEntry.closed

/-- The install point of a LOAD into profile `k` for port `p` (R122): the state after it and how the order ends. -/
def State.installPoint (s : State) (k : ProfileIx) (p : PortIx) (staged : Vector BankEntry 64) (progress : Word) :
    State × OrderResult :=
  if legalBooking staged s.pins p (s.figure p) then
    (((s.installBank k p staged).updPort p fun q => if q.selected = k then { q with refreshFlag := true } else q),
      OrderResult.of .ok progress 0)
  else (s, OrderResult.of .overbook progress (overbookDetail p k))

/-! ## WINDOW -/

/-- A minute carried as 16 bits, where it is below 1440. -/
def minuteOf (v : BitVec 16) : Option Minute := if h : v.toNat < 1440 then some ⟨v.toNat, h⟩ else none

/-- The ports a new mask adds to the old one, in ascending order (R126). -/
def addedPorts (old new : BitVec 16) : List PortIx :=
  allPorts.filter fun p => new.getLsbD p.val && !old.getLsbD p.val

/-- WINDOW carried out as one event at SHS (R125, R126). -/
def State.windowOrder (s : State) (b : OrderBlock) : State × OrderResult :=
  match s.window? b.profile, minuteOf b.windowStart, minuteOf b.windowEnd with
  | some w, some start, some stop =>
    let k := b.profile
    let checks := (addedPorts w.mask b.windowMask).map fun p => (k, p)
    match firstOverbook checks fun k p => legalBooking (s.bankPort k p) s.pins p (s.figure p) with
    | some c => (s, OrderResult.of .overbook 0 (overbookDetail c.2 c.1))
    | none => ((s.setWindow k ⟨start, stop, b.windowMask⟩).recomputeSelection, OrderResult.ok0)
  | _, _, _ => (s, OrderResult.of .badOrder 0 0)

/-! ## PIN -/

/-- The port named by pin entry `i`, if it is valid. -/
def State.pinPort (s : State) (i : Fin 4) : Option PortIx := (s.pins[i]).map Pin.port

/-- The (profile, port) checks of a PIN: profiles ascending and, within a profile, ports ascending, for the ports named before
or after the change (R128). -/
def State.pinChecks (s : State) (named : PortIx → Bool) : List (ProfileIx × PortIx) :=
  allProfiles.flatMap fun k => (allPorts.filter fun p => named p && s.governs k p).map fun p => (k, p)

/-- Is this the port named? -/
def namesPort (o : Option PortIx) (p : PortIx) : Bool := o == some p

/-- Checks 6 of R127 and the change of R128, for entry `i` becoming `new`. -/
def State.changePin (s : State) (i : Fin 4) (new : Option Pin) : State × OrderResult :=
  let pins := s.pins.set i new
  let named := fun p => namesPort (s.pinPort i) p || namesPort (new.map Pin.port) p
  match firstOverbook (s.pinChecks named) fun k p => legalBooking (s.bankPort k p) pins p (s.figure p) with
  | some c => (s, OrderResult.of .overbook 0 (overbookDetail c.2 c.1))
  | none =>
    ({ s with pins := pins }.mapPorts fun p q => if named p then { q with refreshFlag := true } else q, OrderResult.ok0)

/-- The successor of the port an option names, where that port is RETIRED. -/
def State.retiredSuccessor (s : State) (o : Option PortIx) : Option PortIx :=
  match o with
  | none => none
  | some p => (s.port p).successor?

/-- PIN SET (R127): port, then values, then RETIRED ports, then the booked sums. -/
def State.pinSet (s : State) (b : OrderBlock) : State × OrderResult :=
  match b.port? with
  | none => (s, OrderResult.of .badPort 0 0)
  | some p =>
    let tier := tierOfCode b.pinTier
    if !hasRate b.pinGc b.pinGf && tier == .none then (s, OrderResult.of .badOrder 0 0)
    else
      match s.retiredSuccessor (some p) with
      | some x => (s, OrderResult.movedTo x 0)
      | none =>
        match s.retiredSuccessor (s.pinPort b.pinIndex) with
        | some x => (s, OrderResult.movedTo x 0)
        | none => s.changePin b.pinIndex (some ⟨p, b.pinSource, b.pinGc, b.pinGf, tier, b.pinUrgency⟩)

/-- PIN CLEAR (R127): an invalid entry completes OK and changes nothing. -/
def State.pinClear (s : State) (b : OrderBlock) : State × OrderResult :=
  match s.pins[b.pinIndex] with
  | none => (s, OrderResult.ok0)
  | some x =>
    match s.retiredSuccessor (some x.port) with
    | some y => (s, OrderResult.movedTo y 0)
    | none => s.changePin b.pinIndex none

/-- PIN carried out as one event at SHS (R127, R128). -/
def State.pinOrder (s : State) (b : OrderBlock) : State × OrderResult :=
  match b.pinAction.toNat with
  | 1 => s.pinSet b
  | 2 => s.pinClear b
  | _ => (s, OrderResult.of .badOrder 0 0)

/-! ## LEVELS -/

/-- A level as carried, held as 8191 when above it (R130). -/
def heldLevel (v : BitVec 16) : BitVec 13 := if 8191 < v.toNat then 8191#13 else v.setWidth 13

/-- LEVELS carried out as one event at ADM (R130). -/
def State.levelsOrder (s : State) (b : OrderBlock) : State × OrderResult :=
  let r := heldLevel b.reserveCarried
  let w := heldLevel b.warningCarried
  let w' := if w.toNat < r.toNat then r else w
  ({ s with reserve := r, warning := w', poolBelow := decide (s.freeCount < w'.toNat) }, OrderResult.ok0)

end Sys2Proof.Machine
end

