-- ==== Sys2Proof/Machine/Admission.lean ====
section
/-! DEFINITION. Chapter 2: the admission checks, acceptance, refusal. -/

namespace Sys2Proof.Machine

/-- Reason codes (Table 2-1). -/
def RefusalReason.code : RefusalReason → Byte
  | .moved _ => 1
  | .portClosed => 2
  | .laneClosed => 3
  | .oversize => 4
  | .laneFull => 5
  | .poolEmpty => 6
  | .poolReserved => 7

/-- The successor field of the ANSWER: that of a MOVED refusal, 0 with every other verdict (R143). -/
def RefusalReason.successor : RefusalReason → PortIx
  | .moved x => x
  | .portClosed => 0
  | .laneClosed => 0
  | .oversize => 0
  | .laneFull => 0
  | .poolEmpty => 0
  | .poolReserved => 0

/-- Checks 3 to 7 of Table 2-1, on the lane and the pool. -/
def State.laneCheck (s : State) (l : Lane) (len : BitVec 14) : Option RefusalReason :=
  if !l.entry.isOpen then some .laneClosed
  else if Config.maxLength < len.toNat then some .oversize
  else if l.entry.qmax.toNat ≤ l.list.length then some .laneFull
  else if s.freeCount = 0 then some .poolEmpty
  else if s.freeCount < s.reserve.toNat ∧ l.entry.prot = false then some .poolReserved
  else none

/-- The admission checks in the order of Table 2-1 (R29): the reason of the first that refuses. -/
def State.admissionCheck (s : State) (p : PortIx) (src : SourceIx) (len : BitVec 14) : Option RefusalReason :=
  match (s.port p).state with
  | .retired x => some (.moved x)
  | .closed => some .portClosed
  | .draining => some .portClosed
  | .opened => s.laneCheck (s.lane p src) len

/-- The high-water mark of a list's length (R30 step 4, R162). -/
def peakAfter (peak : BitVec 8) (n : Nat) : BitVec 8 :=
  if peak.toNat < n then BitVec.ofNat 8 (min n 255) else peak

/-- A lane that takes an entry at its tail (R30 steps 2 and 4). -/
def Lane.append (l : Lane) (e : Entry) : Lane :=
  { l with
    list := l.list ++ [e]
    tally := { l.tally with peak := peakAfter l.tally.peak (l.list.length + 1) } }

/-- An accepted arrival at ADM (R30 steps 1 to 4 and 6): entry, ANSWER, peak depth, pool-low state and its warning edge. -/
def State.accept (s : State) (p : PortIx) (src : SourceIx) (len : BitVec 14) (h : BitVec 16) : State :=
  let listed := s.updLane p src fun l => l.append ⟨h, storedLength len⟩
  let answered := listed.handOver [Message.ofAnswer p src 0 0 h]
  let taken := answered.setFree (s.freeCount - 1)
  taken.latchIf (!s.poolBelow && taken.poolBelow) attnPoolLow

/-- A refused arrival (R31): ANSWER, refusal tally, REFUSAL record. -/
def State.refuse (s : State) (p : PortIx) (src : SourceIx) (len : BitVec 14) (h : BitVec 16) (r : RefusalReason) : State :=
  let answered := s.handOver [Message.ofAnswer p src r.code r.successor h]
  let counted := answered.updLane p src fun l =>
    { l with tally := { l.tally with refusals := satAdd l.tally.refusals 1 } }
  counted.offer [s.stamp .refusal p src r.code ((storedLength len).setWidth 16)]

/-- An ARRIVAL taken by ADM (R29 to R31); the empty-to-non-empty notice of step 5 has the port scheduler test the release
condition (R28, R47). -/
def State.takeArrival (s : State) (p : PortIx) (src : SourceIx) (len : BitVec 14) (h : BitVec 16) (later : Bool) :
    State :=
  match s.admissionCheck p src len with
  | some r => s.refuse p src len h r
  | none =>
    if (s.lane p src).list.isEmpty then (s.accept p src len h).endEvent p later else s.accept p src len h

end Sys2Proof.Machine
end

