-- ==== Sys2Proof/Machine/PortEvents.lean ====
section
/-! DEFINITION. Chapter 4: the round timer and round expiry, HOLD, RESUME, the stall, a port's share of link loss, and the
actions of the PORT order. -/

namespace Sys2Proof.Machine

/-- The timer's running condition: OPEN or DRAINING, and not STALLED (R74). -/
def Port.timerRuns (q : Port) : Bool := q.inService && q.flow != .stalled

/-- A timer that starts begins a full round of the round length in force (R74, R75). -/
def Port.startTimer (q : Port) : Port := { q with timer := if q.timerRuns then some q.roundLength else none }

/-! ## HOLD and RESUME -/

/-- HOLD at the port scheduler (R77). -/
def State.takeHold (s : State) (p : PortIx) : State :=
  let q := s.port p
  let held :=
    if q.flow == .flowing then
      (s.updPort p fun q => { q with flow := .held, holdAge := 0, tally := { q.tally with holds := satAdd q.tally.holds 1 } }).offer
        [s.stamp .hold p 0 0 0]
    else s
  (held.updPort p fun q => { q with watchLatch := { q.watchLatch with hold := true } }).latchIf
    (watchesHold q.watchMode) attnPortWatch

/-- A port whose flow becomes FLOWING: a timer that a stall had stopped starts (R79). -/
def Port.resumeFlow (q : Port) : Port :=
  let q' := { q with flow := .flowing }
  if q.flow == .stalled then q'.startTimer else q'

/-- RESUME at the port scheduler (R79). -/
def State.takeResume (s : State) (p : PortIx) (later : Bool) : State :=
  let q := s.port p
  let watched := (s.updPort p fun q => { q with watchLatch := { q.watchLatch with resume := true } }).latchIf
    (watchesResume q.watchMode) attnPortWatch
  if q.flow == .flowing then watched
  else ((watched.updPort p Port.resumeFlow).offer [s.stamp .resume p 0 0 0]).endEvent p later

/-! ## The round expiry (R76) -/

/-- Steps 2 and 3 of the credit work: the lanes accrue, the round count advances (R9, R14). -/
def Port.creditWork (q : Port) : Port :=
  { q.mapLanes fun src l => l.accrue q.roundCount src with roundCount := q.roundCount + 1 }

/-- The hold age after one expiry while HELD (R78). -/
def Port.ageHold (q : Port) : Port := { q with holdAge := ageUp q.holdAge }

/-- The hold has reached a nonzero hold limit (R78). -/
def Port.stallDue (q : Port) : Bool := q.holdLimit != 0#8 && decide (q.holdLimit.toNat ≤ q.holdAge.toNat)

/-- The stall (R78), on a port whose hold has been aged. -/
def State.stallPort (s : State) (p : PortIx) : State :=
  ((s.updPort p fun q => { q with
      flow := .stalled
      tally := { q.tally with stalls := satAdd q.tally.stalls 1 }
      watchLatch := { q.watchLatch with stall := true } }).latch attnPortWatch).offer [s.stamp .stall p 0 0 0]

/-- Step 3 of R76: the hold ages and may become a stall. -/
def State.holdWork (s : State) (p : PortIx) : State :=
  if (s.port p).flow == .held then
    let aged := s.updPort p Port.ageHold
    if (aged.port p).stallDue then aged.stallPort p else aged
  else s

/-- The work of a round expiry up to the slots' ageing: refresh, accrual, round count, ages (R76 steps 1 and 2). -/
def State.expiryCredit (s : State) (p : PortIx) : State :=
  ((s.refreshIf p).updPort p Port.creditWork).updPort p Port.ageSlots

/-- A round expiry of port `p`, one event in the order of R76. A port whose timer is stopped has no expiry (R74). -/
def State.roundExpiry (s : State) (p : PortIx) : State :=
  match (s.port p).timer with
  | none => s
  | some _ =>
    ((((s.expiryCredit p).expireSlots p).holdWork p).updPort p Port.startTimer).testAndDrain p

/-- The round expiry of port `p` would free a slot as expired: the timer runs and a slot's age, risen by one, reaches the done
limit (R61). -/
def Port.expiryComes (q : Port) : Bool :=
  q.timer.isSome &&
    ((match q.older with | none => false | some sl => q.expired sl.older1) ||
     (match q.younger with | none => false | some sl => q.expired sl.older1))

/-- The round expiry of port `p` would stall the port (R78). -/
def Port.stallComes (q : Port) : Bool := q.timer.isSome && (q.flow == .held && q.ageHold.stallDue)

/-! ## Link loss at a port scheduler (R93) -/

/-- A port's share of link loss: steps 1 to 4 of R93. -/
def Port.linkLoss (q : Port) : Port :=
  let freed := { q with
    older := none
    younger := none
    flow := .held
    holdAge := 0
    watchLatch := { q.watchLatch with link := true } }
  match q.state with
  | .closed => freed
  | .opened => if q.flow == .stalled then freed.startTimer else freed
  | .draining => { freed with state := .closed, timer := none }
  | .retired _ => freed

/-! ## The PORT order (R85 to R91) -/

/-- OPEN in CLOSED or RETIRED: state, pending refresh, timer, release test (R86). -/
def State.openPort (s : State) (p : PortIx) : State :=
  (((s.updPort p fun q => { q with state := .opened }).refreshIf p).updPort p Port.startTimer).testAndDrain p

/-- OPEN (Table 4-4). -/
def State.portOpenAction (s : State) (p : PortIx) : State × Status × PortIx :=
  match (s.port p).state with
  | .closed => (s.openPort p, .ok, 0)
  | .draining => (s.updPort p fun q => { q with state := .opened }, .ok, 0)
  | .opened => (s, .ok, 0)
  | .retired _ => (s.openPort p, .ok, 0)

/-- CLOSE (Table 4-5). -/
def State.portCloseAction (s : State) (p : PortIx) : State × Status × PortIx :=
  match (s.port p).state with
  | .closed => (s, .ok, 0)
  | .draining => (s, .ok, 0)
  | .opened => ((s.updPort p fun q => { q with state := .draining }).drain p, .ok, 0)
  | .retired x => (s, .moved, x)

/-- A cleared port: balances, round count, cursors, state and timer (R88). -/
def Port.clear (q : Port) : Port :=
  { q.mapLanes fun _ l => { l with balance := 0 } with
    roundCount := 0
    assuredCursor := 0
    tier1Cursor := 0
    tier2Cursor := 0
    tier3Cursor := 0
    state := .closed
    timer := none }

/-- A clear carried out as one event: the purge of every list with its DISCARD messages, then the port's own values (R88).
That the PURGE records are offered before the round count becomes 0, and so carry the count as it stood, is the model's choice
(log 29). -/
def State.clearPort (s : State) (p : PortIx) : State := (s.purge p (fun _ => true) true).updPort p Port.clear

/-- CLEAR (Table 4-6). -/
def State.portClearAction (s : State) (p : PortIx) : State × Status × PortIx :=
  match (s.port p).state with
  | .closed => (s.clearPort p, .ok, 0)
  | .draining => (s.clearPort p, .ok, 0)
  | .opened => (s, .wrongState, 0)
  | .retired x => (s, .moved, x)

/-- The port is CLOSED with both slots free (R89 check 3). -/
def Port.mayRetire (q : Port) : Bool := q.state == .closed && (q.older.isNone && q.younger.isNone)

/-- RETIRE (R89). -/
def State.portRetireAction (s : State) (p : PortIx) (successor : Option PortIx) : State × Status × PortIx :=
  match (s.port p).successor? with
  | some x => (s, .moved, x)
  | none =>
    match successor with
    | none => (s, .badOrder, 0)
    | some x =>
      if x = p ∨ ((s.port x).successor?).isSome then (s, .badOrder, 0)
      else if (s.port p).mayRetire then (s.updPort p fun q => { q with state := .retired x }, .ok, 0)
      else (s, .wrongState, 0)

/-- A round length carried is held within 10..10000 (R91). -/
def heldRoundLength (v : BitVec 16) : BitVec 16 :=
  if v.toNat < 10 then 10#16 else if 10000 < v.toNat then 10000#16 else v

/-- Watch mode codes (Table 4-3). -/
def watchModeOfCode (c : BitVec 2) : WatchMode :=
  match c.toNat with
  | 0 => .off
  | 1 => .hold
  | 2 => .resume
  | _ => .both

/-- The six values of a SET replaced together (R91). -/
def Port.setValues (q : Port) (b : OrderBlock) : Port :=
  { q with
    roundLength := heldRoundLength b.setRoundLength
    kc := b.setKc
    kf := b.setKf
    holdLimit := b.setHoldLimit
    doneLimit := b.setDoneLimit
    watchMode := watchModeOfCode b.setWatchMode }

/-- SET (R91): the overbook check in profile 0 and in each profile whose mask includes the port, then the six values. -/
def State.portSetAction (s : State) (p : PortIx) (b : OrderBlock) : State × OrderResult :=
  match (s.port p).successor? with
  | some x => (s, OrderResult.movedTo x 0)
  | none =>
    let checks := (allProfiles.filter fun k => s.governs k p).map fun k => (k, p)
    match firstOverbook checks fun k p => legalBooking (s.bankPort k p) s.pins p (capacityFigure b.setKc b.setKf) with
    | some c => (s, OrderResult.of .overbook 0 (overbookDetail c.2 c.1))
    | none => (s.updPort p fun q => q.setValues b, OrderResult.ok0)

end Sys2Proof.Machine
end

