-- ==== Sys2Proof/Machine/Orders.lean ====
section
/-! DEFINITION. Chapter 8: channels and their pointer registers, register access, the executor's taking of a channel,
completion and FAULT; and the trace engine's part of Chapter 9 that a pointer write can reach. -/

namespace Sys2Proof.Machine

/-! ## Channels -/

/-- Channel `c`. -/
def State.channel (s : State) (c : ChannelIx) : Channel := s.channels[c]

/-- Channel `c` replaced. -/
def State.setChannel (s : State) (c : ChannelIx) (ch : Channel) : State := { s with channels := s.channels.set c ch }

/-- The byte address of the order block a channel holds (R148). -/
def Channel.blockAddress (c : Channel) : Nat := c.addr.toNat * 32

/-- A pointer register as read (Table 8-2). -/
def Channel.pointer (c : Channel) : Word :=
  let base := c.addr.setWidth 32 <<< 5
  match c.phase with
  | .idle => base
  | .waiting => base
  | .executing => base
  | .tracing => base
  | .done fault => base ||| 0x80000000#32 ||| (if fault then 0x40000000#32 else 0#32)

/-! ## Register reads (R147) -/

/-- A register read as a whole word at its offset; another offset reads zero. -/
def State.readRegister (s : State) (offset : Nat) : Word :=
  match offset with
  | 0x00 => (s.channel 0).pointer
  | 0x04 => (s.channel 1).pointer
  | 0x08 => (s.channel 2).pointer
  | 0x0C => (s.channel 3).pointer
  | 0x10 => s.attn.setWidth 32
  | 0x14 => s.attnMask.setWidth 32
  | _ => 0#32

/-- The bytes of a register from byte `skip` on, as many as `width`; past its end, zeros. -/
def registerBytes (r : Word) (skip width : Nat) : Nat := r.toNat / 2 ^ (8 * skip) % 2 ^ (8 * width)

/-- A read of `width` bytes at an offset (R147). A whole word is the register at that very offset, and zero at another offset. A
narrower read is the addressed bytes of the register that holds them. For a narrower read whose bytes run past the end of the
register (a halfword at offset 3) the rule states no value: the model's choice is the bytes left in that register, with zeros
above them (log 27). -/
def State.busRead (s : State) (offset width : Nat) : Nat :=
  if width < 4 then registerBytes (s.readRegister (offset - offset % 4)) (offset % 4) width
  else (s.readRegister offset).toNat

/-! ## Completion (R155, R156) -/

/-- Status codes (Table 8-7). -/
def Status.code : Status → Nat
  | .ok => 0
  | .aborted => 1
  | .badOrder => 2
  | .badPort => 3
  | .moved => 4
  | .tableOverrun => 5
  | .duplicate => 6
  | .overbook => 7
  | .memoryFault => 8
  | .conflict => 9
  | .full => 10
  | .stale => 11
  | .wrongState => 12

/-- Summary error: set for codes 2 to 9 and 12 (R157). -/
def Status.isError : Status → Bool
  | .ok => false
  | .aborted => false
  | .badOrder => true
  | .badPort => true
  | .moved => true
  | .tableOverrun => true
  | .duplicate => true
  | .overbook => true
  | .memoryFault => true
  | .conflict => true
  | .full => false
  | .stale => false
  | .wrongState => true

/-- The termination word (R155 step 3). -/
def terminationWord (st : Status) (detail : BitVec 16) : Word :=
  0x80000000#32 ||| (if st.isError then 0x40000000#32 else 0#32) ||| (detail.setWidth 32 <<< 8) |||
    BitVec.ofNat 32 st.code

/-- Word 1 with the successor in bits 27..24 and its other bits as read (R155 step 2). -/
def word1With (w1 : Word) (successor : PortIx) : Word :=
  (w1 &&& ~~~ 0x0F000000#32) ||| BitVec.ofNat 32 (successor.val * 2 ^ 24)

/-- The four bytes of a word, little-endian. -/
def wordBytes (w : Word) : List Byte := leBytes 4 w.toNat

/-- The channel marked DONE: pointer DONE and FAULT, mark no, CHn latched (R155 steps 4 and 5). -/
def State.markDone (s : State) (c : ChannelIx) (fault : Bool) : State :=
  (s.setChannel c { s.channel c with phase := .done fault, abortReq := false }).latch c.val

/-- The completion of channel `c`'s order: the writes of R155 in order, none after one that fails (R156), then DONE. A write
that fails leaves the bytes of its word as they were, which is the model's choice (log 28). -/
def State.complete (s : State) (c : ChannelIx) (r : OrderResult) (w1 : Word) (bus : CompletionBus) : State :=
  let base := (s.channel c).blockAddress
  if bus.progressOk then
    let s1 := s.busWrite (base + 24) (wordBytes r.progress)
    if r.status = .moved ∧ bus.successorOk = false then s1.markDone c true
    else
      let s2 := if r.status = .moved then s1.busWrite (base + 4) (wordBytes (word1With w1 r.successor)) else s1
      if bus.terminationOk then (s2.busWrite (base + 28) (wordBytes (terminationWord r.status r.detail))).markDone c false
      else s2.markDone c true
  else s.markDone c true

/-- A completion made by the executor, which is free after it (R151). Its taking of the next waiting channel, at that same
moment, is `takeNext`. -/
def State.finish (s : State) (c : ChannelIx) (r : OrderResult) (w1 : Word) (bus : CompletionBus) : State :=
  { s.complete c r w1 bus with executor := .free }

/-! ## The executor takes a channel (R151, R152, R154) -/

/-- The lowest-numbered channel in the waiting phase (R151). -/
def State.lowestWaiting (s : State) : Option ChannelIx := allChannels.find? fun c => (s.channel c).phase == .waiting

/-- The executor takes channel `c`: it moves to the executing phase, and whether its mark is yes at this moment decides whether
its order block is read (R151, R152, R154). -/
def State.takeChannel (s : State) (c : ChannelIx) : State :=
  { s.setChannel c { s.channel c with phase := .executing } with executor := .taken c (s.channel c).abortReq }

/-- A free executor takes the lowest-numbered waiting channel: at the moment it becomes free, and at each address write taken
while it is free (R151). A busy one takes none. -/
def State.takeNext (s : State) : State :=
  match s.executor with
  | .free =>
    match s.lowestWaiting with
    | none => s
    | some c => s.takeChannel c
  | .taken _ _ => s
  | .loading _ => s
  | .collecting _ => s
  | .surveying _ => s

/-- The channel whose order the executor begins, and whether it is to be left unread: the channel it has taken; or, where it is
free and has lagged behind an address write, the one it takes now (R151, log 17). -/
def State.nextChannel (s : State) : Option (ChannelIx × Bool) :=
  match s.executor with
  | .free => s.lowestWaiting.map fun c => (c, (s.channel c).abortReq)
  | .taken c unread => some (c, unread)
  | .loading _ => none
  | .collecting _ => none
  | .surveying _ => none

/-- Channel `c` as the executor begins its order: in the executing phase. What the executor then holds is set by the order. -/
def State.beginExecuting (s : State) (c : ChannelIx) : State :=
  { s.setChannel c { s.channel c with phase := .executing } with executor := .free }

/-- The executor begins the order of the channel it takes or has taken: `run` on the block read (R151, R152). With none the event
does not occur (log 2). A channel whose mark was yes when it was taken is completed ABORTED unread (R154); a failed read of the
block completes it with FAULT and writes nothing (R156). -/
def State.takeOrder (s : State) (block : Option OrderBlock) (bus : CompletionBus)
    (run : ChannelIx → OrderBlock → State → State) : State :=
  match s.nextChannel with
  | none => s
  | some (c, unread) =>
    let t := s.beginExecuting c
    if unread then t.finish c (OrderResult.of .aborted 0 0) 0 bus
    else
      match block with
      | none => t.markDone c true
      | some b => run c b t

/-- An order carried out as one event at the block that owns its state, then completed with its own status, whatever the
channel's mark has become since it was taken; the completion clears the mark (R115, R154, R155). -/
def State.simpleOrder (s : State) (block : Option OrderBlock) (bus : CompletionBus)
    (act : OrderBlock → State → State × OrderResult) : State :=
  s.takeOrder block bus fun c b t => (act b t).1.finish c (act b t).2 b.w1 bus

/-- A PORT order: the progress word is a free value (log 14); a port above 15 is BAD_PORT (R85). An abort request that came after
the channel was taken does not divide it (R85, R154). -/
def State.portOrder (s : State) (block : Option OrderBlock) (bus : CompletionBus)
    (act : PortIx → OrderBlock → State → State × OrderResult) : State :=
  s.takeOrder block bus fun c b t =>
    let u := { t with freeCtr := t.freeCtr + 1 }
    let r := match b.port? with
      | none => (u, OrderResult.of .badPort 0 0)
      | some p => act p b u
    r.1.finish c { r.2 with progress := Config.freeWord t.freeCtr } b.w1 bus

/-- The result of a PORT action that gives a status and, on MOVED, a successor. -/
def portResult (r : State × Status × PortIx) : State × OrderResult := (r.1, ⟨r.2.1, 0, 0, r.2.2⟩)

/-! ## The armed trace (Chapter 9) as far as pointer writes and completions reach it -/

/-- The armed trace changed by a function. -/
def State.updTrace (s : State) (f : ArmedTrace → ArmedTrace) : State :=
  { s with tre := { s.tre with armed := s.tre.armed.map f } }

/-- The gap count raised, saturating (R176). -/
def State.addGap (s : State) (n : Nat) : State :=
  { s with tre := { s.tre with gapCount := satAdd s.tre.gapCount n } }

/-- The armed trace `t` ends: TRE is disarmed and its channel completed (R155, R158). The sticky mask is kept (R176). -/
def State.endTrace (s : State) (t : ArmedTrace) (st : Status) (detail : BitVec 16) (bus : CompletionBus) : State :=
  { s with tre := { s.tre with armed := none } }.complete t.channel
    (OrderResult.of st (BitVec.ofNat 32 t.written) detail) 0 bus

/-- The holding record `h` begins to be closed: its write into the area is in progress (R171, R173). -/
def State.beginClose (s : State) (t : ArmedTrace) (h : Holding) (next : Option Offer) (why : CloseReason) : State :=
  { s with tre := { s.tre with
      armed := some { t with holding := none, write := some (.holding h next why) } } }

/-- An abort request reaches the armed trace while no write is in progress (R175). -/
def State.abortTrace (s : State) (t : ArmedTrace) (bus : CompletionBus) : State :=
  match t.holding with
  | some h => s.beginClose t h none .abort
  | none => s.endTrace t .aborted 0 bus

/-- An abort request passed to TRE for channel `c` (R158). During a write it waits for the write to complete (log 12). -/
def State.traceAbortRequest (s : State) (c : ChannelIx) (bus : CompletionBus) : State :=
  match s.tre.armed with
  | none => s
  | some t => if t.channel = c ∧ t.write = none then s.abortTrace t bus else s

/-! ## Pointer writes (R150) -/

/-- An address write (Table 8-4). -/
def State.pointerAddressWrite (s : State) (c : ChannelIx) (v : Word) : State :=
  match (s.channel c).phase with
  | .idle => s.setChannel c ⟨.waiting, pointerAddress v, false⟩
  | .waiting => s.latch attnReject
  | .executing => s.latch attnReject
  | .tracing => s.latch attnReject
  | .done _ => s.latch attnReject

/-- The abort-requested mark set on a BUSY channel; a second zero write has no further effect. -/
def State.markAbort (s : State) (c : ChannelIx) : State := s.setChannel c { s.channel c with abortReq := true }

/-- A channel released: pointer 0, IDLE, CHn cleared (R150). -/
def State.releaseChannel (s : State) (c : ChannelIx) : State := (s.setChannel c Channel.reset).unlatch c.val

/-- A zero write (Table 8-4); in the tracing phase the request is passed to TRE (R149, R158). -/
def State.pointerZeroWrite (s : State) (c : ChannelIx) (bus : CompletionBus) : State :=
  match (s.channel c).phase with
  | .idle => s
  | .waiting => s.markAbort c
  | .executing => s.markAbort c
  | .tracing => if (s.channel c).abortReq then s else (s.markAbort c).traceAbortRequest c bus
  | .done _ => s.releaseChannel c

/-- A write to a pointer register: a zero write or an address write by its bits 29..5 (R150). After an address write an
executor that is free takes the lowest-numbered waiting channel, or, where `lag` holds, has not yet taken one when the next
event is taken (R151). -/
def State.pointerWrite (s : State) (c : ChannelIx) (v : Word) (lag : Bool) (bus : CompletionBus) : State :=
  if isZeroWrite v then s.pointerZeroWrite c bus
  else if lag then s.pointerAddressWrite c v
  else (s.pointerAddressWrite c v).takeNext

/-- Every access of the bus succeeds. -/
def busAllOk : CompletionBus := ⟨true, true, true⟩

/-- A register write of `width` bytes (R147): narrower than a word, or at an offset of no register, it is ignored. -/
def State.registerWrite (s : State) (offset width : Nat) (v : Word) : State :=
  if width = 4 then
    match offset with
    | 0x00 => s.pointerWrite 0 v false busAllOk
    | 0x04 => s.pointerWrite 1 v false busAllOk
    | 0x08 => s.pointerWrite 2 v false busAllOk
    | 0x0C => s.pointerWrite 3 v false busAllOk
    | 0x10 => s.writeAttn v
    | 0x14 => s.writeAttnMask v
    | _ => s
  else s

end Sys2Proof.Machine
end

