-- ==== Sys2Proof/Machine/LongOrders.lean ====
section
/-! DEFINITION. The orders that hold the executor over several bus accesses: LOAD (Chapter 6), COLLECT and SURVEY
(Chapter 9), with their records. -/

namespace Sys2Proof.Machine

/-! ## LOAD (R118 to R123) -/

/-- The executor set to a job. -/
def State.setExecutor (s : State) (x : Executor) : State := { s with executor := x }

/-- The install point taken and the order completed (R122). -/
def State.finishInstall (s : State) (c : ChannelIx) (k : ProfileIx) (p : PortIx) (staged : Vector BankEntry 64)
    (progress : Nat) (bus : CompletionBus) : State :=
  let r := s.installPoint k p staged (BitVec.ofNat 32 progress)
  r.1.finish c r.2 0 bus

/-- A LOAD begun: the checks of R118, then the first boundary, at which an abort request made since the channel was taken ends
the order (R121, R154), then the install point for a count of 0, else the reading of the table. For a count of 0 the install
point falls at that same boundary, and `abortFirst` says which the executor takes first (log 16). -/
def State.beginLoad (s : State) (c : ChannelIx) (b : OrderBlock) (abortFirst : Bool) (bus : CompletionBus) : State :=
  match b.port? with
  | none => s.finish c (OrderResult.of .badPort 0 0) b.w1 bus
  | some p =>
    if Config.maxTableEntries < b.count then s.finish c (OrderResult.of .tableOverrun 0 0) b.w1 bus
    else
      match (s.port p).successor? with
      | some x => s.finish c (OrderResult.movedTo x 0) b.w1 bus
      | none =>
        if (s.channel c).abortReq && (decide (b.count ≠ 0) || abortFirst) then
          s.finish c (OrderResult.of .aborted 0 0) b.w1 bus
        else if b.count = 0 then s.finishInstall c b.profile p closedStaging 0 bus
        else s.setExecutor (.loading ⟨c, p, b.profile, b.tableAddress, b.count, 0, closedStaging, []⟩)

/-- The address of the table entry a LOAD reads next (R119). -/
def LoadJob.entryAddress (j : LoadJob) : Nat := (j.table + 8 * j.progress) % Config.memorySize

/-- A LOAD that has read and staged one more entry (R120). -/
def LoadJob.stage (j : LoadJob) (e : TableEntry) : LoadJob :=
  { j with
    progress := j.progress + 1
    staged := j.staged.set (TableEntry.source e) (stageEntry e)
    listed := TableEntry.source e :: j.listed }

/-- The detail of DUPLICATE: table index in bits 7..0, source in bits 13..8 (Table 6-2). -/
def duplicateDetail (index : Nat) (src : SourceIx) : BitVec 16 := BitVec.ofNat 16 (index % 256 + 256 * src.val)

/-- One more entry of a LOAD has been read, and it repeats no source (R121). -/
def State.loadStaged (s : State) (j : LoadJob) (abort : Bool) (abortFirst : Bool) (bus : CompletionBus) : State :=
  if j.count ≤ j.progress then
    if abort && abortFirst then s.finish j.channel (OrderResult.of .aborted (BitVec.ofNat 32 j.progress) 0) 0 bus
    else s.finishInstall j.channel j.profile j.port j.staged j.progress bus
  else if abort then s.finish j.channel (OrderResult.of .aborted (BitVec.ofNat 32 j.progress) 0) 0 bus
  else s.setExecutor (.loading j)

/-- The read of the next entry of a LOAD completes or fails (R121, R123). `abortFirst` decides, where an abort request stands
and another ending falls at the same boundary, which the executor takes first; with no entry read it says that the abort was
taken at the boundary before the read (log 16). -/
def State.loadEntry (s : State) (j : LoadJob) (entry : Option TableEntry) (abortFirst : Bool) (bus : CompletionBus) :
    State :=
  let abort := (s.channel j.channel).abortReq
  match entry with
  | none =>
    if abort && abortFirst then s.finish j.channel (OrderResult.of .aborted (BitVec.ofNat 32 j.progress) 0) 0 bus
    else s.finish j.channel (OrderResult.of .memoryFault (BitVec.ofNat 32 j.progress) (BitVec.ofNat 16 j.progress)) 0 bus
  | some e =>
    if j.listed.contains (TableEntry.source e) then
      if abort && abortFirst then s.finish j.channel (OrderResult.of .aborted (BitVec.ofNat 32 (j.progress + 1)) 0) 0 bus
      else s.finish j.channel
        (OrderResult.of .duplicate (BitVec.ofNat 32 (j.progress + 1)) (duplicateDetail j.progress (TableEntry.source e))) 0 bus
    else s.loadStaged (j.stage e) abort abortFirst bus

/-! ## COLLECT (R165, R166) -/

/-- A bit as a number. -/
def bit (b : Bool) : Nat := if b then 1 else 0

/-- The lane tally record (Table 9-6). -/
def laneRecord (l : Lane) (src : SourceIx) : List Byte :=
  leBytes 6 l.tally.assuredBytes.toNat ++ leBytes 6 l.tally.surplusBytes.toNat ++
  leBytes 4 l.tally.framesReleased.toNat ++ leBytes 4 l.tally.refusals.toNat ++ leBytes 4 l.tally.spill.toNat ++
  [l.tally.peak,
   BitVec.ofNat 8 (bit l.entry.isOpen + 2 * bit l.entry.pinned + 4 * bit l.entry.pinInactive),
   BitVec.ofNat 8 src.val,
   BitVec.ofNat 8 l.list.length] ++
  leBytes 4 (BitVec.ofInt 32 l.balance).toNat

/-- The port tally record (Table 9-7). -/
def portRecord (q : Port) (p : PortIx) : List Byte :=
  leBytes 4 q.tally.releases.toNat ++ leBytes 2 q.tally.expiries.toNat ++ leBytes 2 q.tally.impliedDone.toNat ++
  leBytes 2 q.tally.staleDone.toNat ++ leBytes 2 q.tally.holds.toNat ++ leBytes 2 q.tally.stalls.toNat ++ leBytes 2 0 ++
  leBytes 4 q.tally.discards.toNat ++ [BitVec.ofNat 8 p.val] ++ leBytes 3 0 ++ leBytes 4 q.roundCount.toNat ++ leBytes 4 0

/-- A lane whose tally a sample with the clear flag has cleared: the five counting counters 0, the peak at the list's current
length (R165). -/
def Lane.clearTally (l : Lane) : Lane :=
  { l with tally := { LaneTally.zero with peak := BitVec.ofNat 8 (min l.list.length 255) } }

/-- The tally of a lane with a sample returned to it: each counting counter added back, the larger peak kept (R166). -/
def LaneTally.giveBack (now was : LaneTally) : LaneTally where
  assuredBytes := satAdd now.assuredBytes was.assuredBytes.toNat
  surplusBytes := satAdd now.surplusBytes was.surplusBytes.toNat
  framesReleased := satAdd now.framesReleased was.framesReleased.toNat
  refusals := satAdd now.refusals was.refusals.toNat
  spill := satAdd now.spill was.spill.toNat
  peak := if now.peak.toNat < was.peak.toNat then was.peak else now.peak

/-- The tally of a port with a sample returned to it (R166). -/
def PortTally.giveBack (now was : PortTally) : PortTally where
  releases := satAdd now.releases was.releases.toNat
  expiries := satAdd now.expiries was.expiries.toNat
  impliedDone := satAdd now.impliedDone was.impliedDone.toNat
  staleDone := satAdd now.staleDone was.staleDone.toNat
  holds := satAdd now.holds was.holds.toNat
  stalls := satAdd now.stalls was.stalls.toNat
  discards := satAdd now.discards was.discards.toNat

/-- The records of a COLLECT: 64 lane records, then the port record. -/
def collectRecords : Nat := 65

/-- Record `i` sampled, cleared where the clear flag is set, and its write begun (R165 step 1). -/
def State.sampleCollect (s : State) (c : ChannelIx) (p : PortIx) (area : Nat) (clear : Bool) (i : Nat) : State :=
  if h : i < 64 then
    let src : SourceIx := ⟨i, h⟩
    let l := s.lane p src
    (if clear then s.updLane p src Lane.clearTally else s).setExecutor
      (.collecting ⟨c, p, area, clear, i, .lane src l.tally, laneRecord l src⟩)
  else
    let q := s.port p
    (if clear then s.updPortTally p fun _ => PortTally.zero else s).setExecutor
      (.collecting ⟨c, p, area, clear, i, .port q.tally, portRecord q p⟩)

/-- A COLLECT begun: its checks, then the boundary before record 0, at which an abort request made since the channel was taken
ends the order (R166), then record 0 (R165). -/
def State.beginCollect (s : State) (c : ChannelIx) (b : OrderBlock) (bus : CompletionBus) : State :=
  match b.port? with
  | none => s.finish c (OrderResult.of .badPort 0 0) b.w1 bus
  | some p =>
    match (s.port p).successor? with
    | some x => s.finish c (OrderResult.movedTo x 0) b.w1 bus
    | none =>
      if (s.channel c).abortReq then s.finish c (OrderResult.of .aborted 0 0) b.w1 bus
      else s.sampleCollect c p b.collectArea b.clearFlag 0

/-- A sample returned to its counters after a failed write, where the clear flag had cleared them (R166). -/
def State.returnSample (s : State) (j : CollectJob) : State :=
  if j.clear then
    match j.sample with
    | .lane src was => s.updLane j.port src fun l => { l with tally := l.tally.giveBack was }
    | .port was => s.updPortTally j.port fun t => t.giveBack was
  else s

/-- The write of a COLLECT record completes or fails (R165, R166). What the record's bytes in card memory are after a failed
write R166 does not state: the model's choice is that they stay wholly as they were (log 28). -/
def State.collectWritten (s : State) (j : CollectJob) (written : Bool) (bus : CompletionBus) : State :=
  if written then
    let t := s.busWrite (j.area + 32 * j.index) j.record
    let progress := j.index + 1
    if collectRecords ≤ progress then t.finish j.channel (OrderResult.of .ok (BitVec.ofNat 32 progress) 0) 0 bus
    else if (s.channel j.channel).abortReq then
      t.finish j.channel (OrderResult.of .aborted (BitVec.ofNat 32 progress) 0) 0 bus
    else t.sampleCollect j.channel j.port j.area j.clear progress
  else
    (s.returnSample j).finish j.channel
      (OrderResult.of .memoryFault (BitVec.ofNat 32 j.index) (BitVec.ofNat 16 j.index)) 0 bus

/-! ## SURVEY (R167, R168) -/

/-- State codes of a survey record (Table 9-8). -/
def PortState.code : PortState → Nat
  | .closed => 0
  | .opened => 1
  | .draining => 2
  | .retired _ => 3

/-- Flow codes of a survey record. -/
def Flow.code : Flow → Nat
  | .flowing => 0
  | .held => 1
  | .stalled => 2

/-- The four bits of a watch latch. -/
def WatchLatch.code (w : WatchLatch) : Nat := bit w.hold + 2 * bit w.resume + 4 * bit w.stall + 8 * bit w.link

/-- The successor field: the successor when RETIRED, else 0. -/
def Port.successorCode (q : Port) : Nat :=
  match q.successor? with
  | none => 0
  | some x => x.val

/-- The occupied bit and the kind bit of a slot, as a two-bit number; the kind bit of a free slot is not stated (log 15). -/
def slotCode (sl : Option Slot) (free : Bool) : Nat :=
  match sl with
  | none => 2 * bit free
  | some x => 1 + (match x.kind with | .assured => 0 | .surplus => 2)

/-- A slot's tag, 0 when it is free. -/
def slotTag (sl : Option Slot) : Byte :=
  match sl with
  | none => 0
  | some x => x.tag

/-- The survey port record (Table 9-8); `k` draws the free values of its free slots. -/
def surveyPortRecord (q : Port) (k : Nat) : List Byte :=
  [BitVec.ofNat 8 (q.state.code + 4 * q.flow.code + 16 * q.selected.val + 64 * bit q.refreshFlag),
   BitVec.ofNat 8 (q.watchLatch.code + 16 * q.successorCode),
   BitVec.ofNat 8 (slotCode q.older (Config.freeBit k) + 4 * slotCode q.younger (Config.freeBit (k + 1))),
   slotTag q.older,
   slotTag q.younger,
   q.holdAge] ++
  leBytes 2 q.listTotal ++ leBytes 4 q.roundCount.toNat ++ leBytes 4 0

/-- The survey pool record (Table 9-9). -/
def State.poolRecord (s : State) : List Byte :=
  leBytes 2 s.freeCount ++ leBytes 2 s.reserve.toNat ++ leBytes 2 s.warning.toNat ++ leBytes 2 s.minute.val ++
  [BitVec.ofNat 8 (bit s.clockValid + 2 * bit s.linkUp), 0] ++ leBytes 2 s.badCount.toNat ++ leBytes 4 0

/-- The records of a SURVEY: 16 port records, then the pool record. -/
def surveyRecords : Nat := 17

/-- Record `i` sampled, its port's watch latch emptied into it, and its write begun (R167). -/
def State.sampleSurvey (s : State) (c : ChannelIx) (area : Nat) (i : Nat) : State :=
  if h : i < 16 then
    let p : PortIx := ⟨i, h⟩
    let q := s.port p
    ({ s with freeCtr := s.freeCtr + 2 }.updPort p fun q => { q with watchLatch := WatchLatch.empty }).setExecutor
      (.surveying ⟨c, area, i, q.watchLatch, surveyPortRecord q s.freeCtr⟩)
  else s.setExecutor (.surveying ⟨c, area, i, WatchLatch.empty, s.poolRecord⟩)

/-- A SURVEY begun: it has no failing check; at the boundary before record 0 an abort request made since the channel was taken
ends the order (R167, R168). -/
def State.beginSurvey (s : State) (c : ChannelIx) (b : OrderBlock) (bus : CompletionBus) : State :=
  if (s.channel c).abortReq then s.finish c (OrderResult.of .aborted 0 0) b.w1 bus
  else s.sampleSurvey c b.recordArea 0

/-- The kinds a record took returned to its port's latch after a failed write (R168). -/
def State.returnLatch (s : State) (j : SurveyJob) : State :=
  if h : j.index < 16 then
    s.updPort ⟨j.index, h⟩ fun q => { q with watchLatch := q.watchLatch.join j.latch }
  else s

/-- The write of a SURVEY record completes or fails (R167, R168). What the record's bytes in card memory are after a failed write
R168 does not state: the model's choice is that they stay wholly as they were (log 28). -/
def State.surveyWritten (s : State) (j : SurveyJob) (written : Bool) (bus : CompletionBus) : State :=
  if written then
    let t := s.busWrite (j.area + 16 * j.index) j.record
    let progress := j.index + 1
    if surveyRecords ≤ progress then t.finish j.channel (OrderResult.of .ok (BitVec.ofNat 32 progress) 0) 0 bus
    else if (s.channel j.channel).abortReq then
      t.finish j.channel (OrderResult.of .aborted (BitVec.ofNat 32 progress) 0) 0 bus
    else t.sampleSurvey j.channel j.area progress
  else
    (s.returnLatch j).finish j.channel
      (OrderResult.of .memoryFault (BitVec.ofNat 32 j.index) (BitVec.ofNat 16 j.index)) 0 bus

end Sys2Proof.Machine
end

