-- ==== Sys2Proof/Machine/TraceEngine.lean ====
section
/-! DEFINITION. The trace engine (9.4): arming, offers, merging, closing, area writes, the stale timer. -/

namespace Sys2Proof.Machine

/-- Kind codes (Table 9-4). -/
def RecordKind.code : RecordKind → Nat
  | .releaseA => 1
  | .releaseS => 2
  | .expiry => 3
  | .refusal => 4
  | .hold => 5
  | .resume => 6
  | .stall => 7
  | .switch => 8
  | .purge => 9
  | .link => 10

/-- The kind code of a GAP record. -/
def gapCode : Nat := 11

/-- A record's kind bit and port bit are both set in a pair of masks (R171, R176). -/
def Offer.selectedBy (o : Offer) (kinds : BitVec 11) (ports : BitVec 16) : Bool :=
  kinds.getLsbD o.kind.code && ports.getLsbD o.port.val

/-- The kinds that merge: RELEASE_A, RELEASE_S, REFUSAL (R172). -/
def RecordKind.merges : RecordKind → Bool
  | .releaseA => true
  | .releaseS => true
  | .expiry => false
  | .refusal => true
  | .hold => false
  | .resume => false
  | .stall => false
  | .switch => false
  | .purge => false
  | .link => false

/-- The tag condition of R172: equal reason codes for REFUSAL; for releases the next tag of the run. -/
def Holding.tagFollows (h : Holding) (o : Offer) : Bool :=
  if o.kind == .refusal then o.tag == h.first.tag else o.tag == h.first.tag + BitVec.ofNat 8 h.count

/-- A taken record merges with the holding record (R172). -/
def Holding.mergesWith (h : Holding) (o : Offer) : Bool :=
  o.kind.merges && (o.kind == h.first.kind && (o.port == h.first.port && (o.source == h.first.source &&
    (o.len == h.first.len && h.tagFollows o))))

/-- The largest repeat count (R171). -/
def maxRepeat : Nat := 255

/-- The record a write puts into the area (Table 9-10). -/
def AreaWrite.bytes : AreaWrite → List Byte
  | .gap count minute =>
    [BitVec.ofNat 8 gapCode, 0, 0, 1] ++ leBytes 4 count.toNat ++ leBytes 4 0 ++ leBytes 2 minute.val ++ leBytes 2 0
  | .holding h _ _ =>
    [BitVec.ofNat 8 h.first.kind.code, BitVec.ofNat 8 h.first.port.val, BitVec.ofNat 8 h.first.source.val,
      BitVec.ofNat 8 h.count, h.first.tag, 0] ++
    leBytes 2 h.first.len.toNat ++ leBytes 4 h.first.roundCount.toNat ++ leBytes 2 h.first.minute.val ++ leBytes 2 0

/-! ## Arming (R170) -/

/-- The write of the GAP record, when the gap count is nonzero (R170 step 3). -/
def gapWrite (count : BitVec 32) (minute : Minute) : Option AreaWrite :=
  if count = 0#32 then none else some (.gap count minute)

/-- TRE arms the trace of channel `c`: masks, area, count and stale time taken, the sticky mask replaced, the GAP record's write
begun and the stale timer started where they apply (R170). -/
def State.armTrace (s : State) (c : ChannelIx) (b : OrderBlock) : State :=
  { s.setChannel c { s.channel c with phase := .tracing } with
    tre := { s.tre with
      armed := some {
        channel := c
        kindMask := b.kindMask
        portMask := b.traceMask
        area := b.recordArea
        count := b.traceCount
        staleTime := b.staleTime
        written := 0
        holding := none
        staleRunning := b.staleTime != 0#16
        staleDue := false
        write := gapWrite s.tre.gapCount s.minute }
      stickyKinds := b.kindMask
      stickyPorts := b.traceMask
      gapCount := 0 } }

/-- The armed trace receives an abort request that stood as the mark when it was armed; during the GAP record's write the request
waits for the write (R158, R175, log 12). -/
def State.abortIfMarked (s : State) (c : ChannelIx) (bus : CompletionBus) : State :=
  if (s.channel c).abortReq then s.traceAbortRequest c bus else s

/-- A TRACE order validated and handed to TRE, which arms it (R158, R170). -/
def State.beginTrace (s : State) (c : ChannelIx) (b : OrderBlock) (bus : CompletionBus) : State :=
  match s.tre.armed with
  | some _ => s.finish c (OrderResult.of .conflict 0 0) b.w1 bus
  | none =>
    if b.traceCount = 0#16 then s.finish c (OrderResult.of .badOrder 0 0) b.w1 bus
    else (s.armTrace c b).abortIfMarked c bus

/-! ## Offers (R171, R172) -/

/-- A record taken by the armed trace `t`, with no write in progress (R171). -/
def State.takeRecord (s : State) (t : ArmedTrace) (o : Offer) : State :=
  let u := { t with staleRunning := t.staleTime != 0#16 }
  match t.holding with
  | none => { s with tre := { s.tre with armed := some { u with holding := some ⟨o, 1⟩ } } }
  | some h =>
    if h.mergesWith o then
      if h.count + 1 = maxRepeat then s.beginClose u ⟨h.first, h.count + 1⟩ none .taken
      else { s with tre := { s.tre with armed := some { u with holding := some ⟨h.first, h.count + 1⟩ } } }
    else s.beginClose u h (some o) .taken

/-- TRE takes one offer, with no write in progress: by the armed trace where its masks select it (R171); with no trace armed
it counts as a gap where the sticky mask holds it (R176). -/
def State.takeOffer (s : State) (o : Offer) : State :=
  match s.tre.armed with
  | none => if o.selectedBy s.tre.stickyKinds s.tre.stickyPorts then s.addGap 1 else s
  | some t => if o.selectedBy t.kindMask t.portMask then s.takeRecord t o else s

/-- An offer that reaches TRE while a write is in progress: it waits in the queue of 64 places, or finds them filled and
counts as a gap where the armed trace's masks select it (R171). -/
def State.queueOffer (s : State) (t : ArmedTrace) (o : Offer) : State :=
  if s.tre.queue.length < Config.offerPlaces then { s with tre := { s.tre with queue := s.tre.queue ++ [o] } }
  else if o.selectedBy t.kindMask t.portMask then s.addGap 1
  else s

/-- The write in progress, with its trace. -/
def TraceEngine.writing (e : TraceEngine) : Option (ArmedTrace × AreaWrite) :=
  match e.armed with
  | none => none
  | some t =>
    match t.write with
    | none => none
    | some w => some (t, w)

/-- One offer moves on (TRACE_OFFER, R171): during a write the oldest record on its way reaches TRE's queue; else TRE takes
the oldest one that waits, those in the queue first. -/
def State.offerStep (s : State) : State :=
  match s.tre.writing with
  | some (t, _) =>
    match s.tre.offered with
    | [] => s
    | o :: rest => { s with tre := { s.tre with offered := rest } }.queueOffer t o
  | none =>
    match s.tre.queue with
    | o :: rest => { s with tre := { s.tre with queue := rest } }.takeOffer o
    | [] =>
      match s.tre.offered with
      | [] => s
      | o :: rest => { s with tre := { s.tre with offered := rest } }.takeOffer o

/-! ## The stale timer (R174) -/

/-- The stale timer of trace `t` runs out while no write is in progress. -/
def State.staleExpire (s : State) (t : ArmedTrace) (bus : CompletionBus) : State :=
  let u := { t with staleRunning := false, staleDue := false }
  match t.holding with
  | some h => s.beginClose u h none .stale
  | none =>
    if t.written = 0 then { s with tre := { s.tre with armed := some { u with staleRunning := true } } }
    else s.endTrace u .stale 0 bus

/-- STALE_TIMER_EXPIRY: a timer that does not run has no expiry; during a write it waits for the write (log 12). -/
def State.staleTimer (s : State) (bus : CompletionBus) : State :=
  match s.tre.armed with
  | none => s
  | some t =>
    if t.staleRunning then
      match t.write with
      | none => s.staleExpire t bus
      | some _ => { s with tre := { s.tre with armed := some { t with staleRunning := false, staleDue := true } } }
    else s

/-! ## Area writes (R171, R173, R175) -/

/-- What waited for a write to complete: an abort request, then a stale expiry (log 12). -/
def State.settleTrace (s : State) (t : ArmedTrace) (bus : CompletionBus) : State :=
  if (s.channel t.channel).abortReq then s.abortTrace t bus
  else if t.staleDue then s.staleExpire t bus
  else s

/-- The trace `t` goes on after a write, with a new holding record or none. -/
def State.traceGoesOn (s : State) (t : ArmedTrace) (holding : Option Holding) (bus : CompletionBus) : State :=
  let u := { t with holding := holding, write := none }
  { s with tre := { s.tre with armed := some u } }.settleTrace u bus

/-- A taken record that could not become the holding record counts as a gap (R173). -/
def State.addGapOf (s : State) (next : Option Offer) : State :=
  match next with
  | none => s
  | some _ => s.addGap 1

/-- A write into the area has succeeded: `t` has its written count raised. FULL when the area is filled (R170, R173), except
that an abort ends ABORTED even then (R175); else the trace goes on or ends as the close's reason says. -/
def State.areaWritten (s : State) (t : ArmedTrace) (w : AreaWrite) (bus : CompletionBus) : State :=
  match w with
  | .gap _ _ =>
    if t.written = t.count.toNat then s.endTrace t .full 0 bus else s.traceGoesOn t none bus
  | .holding _ next .taken =>
    if t.written = t.count.toNat then (s.addGapOf next).endTrace t .full 0 bus
    else s.traceGoesOn t (next.map fun o => ⟨o, 1⟩) bus
  | .holding _ _ .stale =>
    if t.written = t.count.toNat then s.endTrace t .full 0 bus else s.endTrace t .stale 0 bus
  | .holding _ _ .abort => s.endTrace t .aborted 0 bus

/-- The count of events a failed write returns to the gap count: the holding record's repeat count, or the gap count the GAP
record carried; and the taken record that waited for the close (R175, log 13). -/
def AreaWrite.lost : AreaWrite → Nat
  | .gap count _ => count.toNat
  | .holding h none _ => h.count
  | .holding h (some _) _ => h.count + 1

/-- TRACE_AREA_WRITE: the write in progress completes or fails (R173, R175). What the slot's bytes in card memory are after a
failed write R175 does not state: the model's choice is that they stay wholly as they were (log 28). -/
def State.traceWritten (s : State) (written : Bool) (bus : CompletionBus) : State :=
  match s.tre.writing with
  | none => s
  | some (t, w) =>
    if written then
      (s.busWrite (t.area + 16 * t.written) w.bytes).areaWritten { t with written := t.written + 1 } w bus
    else (s.addGap w.lost).endTrace t .memoryFault (BitVec.ofNat 16 t.written) bus

end Sys2Proof.Machine
end

