-- ==== Sys2Proof/Machine/Link.lean ====
section
/-! DEFINITION. Chapter 7: the link interface: taking and delivering inbound messages, sending, link up, link loss; and the
device reset. -/

namespace Sys2Proof.Machine

/-! ## Inbound messages -/

/-- The kind of a good message (Table 7-2), or bad (R135, R136). -/
def parseMessage (m : Message) (later : Bool) : Inbound :=
  if Message.goodCheck m then
    match (Message.kind m).toNat with
    | 1 => .arrival (Message.port m) (Message.source m) (Message.length m) (Message.handle m) later
    | 2 => .done (Message.port m) (Message.tag m) later
    | 3 => .hold (Message.port m)
    | 4 => .resume (Message.port m) later
    | 5 => .clock (Message.minute m)
    | _ => .bad
  else .bad

/-- A bad message: counted up to 65535, LINK_FAULT latched (R136, R137). -/
def State.takeBad (s : State) : State := { s with badCount := satAdd s.badCount 1 }.latch attnLinkFault

/-- A message delivered to its owner, which takes it (Table 7-2). -/
def State.deliver (s : State) (m : Inbound) : State :=
  match m with
  | .arrival p src len h later => s.takeArrival p src len h later
  | .done p tag later => s.takeDone p tag later
  | .hold p => s.takeHold p
  | .resume p later => s.takeResume p later
  | .clock minute => s.takeClock minute
  | .bad => s.takeBad

/-- LKI may take an inbound message: the link is UP, fewer than 256 messages wait outbound, and no message waits before it
(R135). -/
def State.mayTake (s : State) : Bool :=
  s.linkUp && (decide (s.outQueue.length < Config.takeLimit) && s.inWaiting.isEmpty)

/-- A whole inbound message: taken at once, or made to wait on the link behind those before it (R135). -/
def State.receive (s : State) (m : Inbound) : State :=
  if s.mayTake then s.deliver m else { s with inWaiting := s.inWaiting ++ [m] }

/-- The bytes held of the inbound message that is not yet whole, replaced (R133). -/
def State.setPartial (s : State) (bs : List Byte) : State := { s with inPartial := bs }

/-- One byte from the frame engine on an UP link: it joins the bytes of the message that is not yet whole, and the eighth makes
that message whole (R133). On a DOWN link it is lost (log 8). -/
def State.receiveByte (s : State) (b : Byte) (later : Bool) : State :=
  if s.linkUp then
    match Message.ofBytes? (s.inPartial ++ [b]) with
    | none => s.setPartial (s.inPartial ++ [b])
    | some m => (s.setPartial []).receive (parseMessage m later)
  else s

/-- Bytes from the frame engine, in the order sent: the division into messages is by count alone, from the moment the link goes
UP (R133). -/
def receiveBytes (bs : List Byte) (later : Bool) (s : State) : State :=
  match bs with
  | [] => s
  | b :: rest => receiveBytes rest later (s.receiveByte b later)

/-- A message sent by the frame engine, byte 0 first (R133). -/
def State.receiveMessage (s : State) (m : Message) (later : Bool) : State := receiveBytes m.toList later s

/-- Taking resumes: messages that waited on the link are taken in order while fewer than 256 wait outbound (R135). -/
def takeWaiting (ms : List Inbound) (s : State) : State :=
  match ms with
  | [] => { s with inWaiting := [] }
  | m :: rest =>
    if s.outQueue.length < Config.takeLimit then takeWaiting rest (s.deliver m)
    else { s with inWaiting := m :: rest }

/-- The frame engine takes the message at the head of the outbound queue (R142). -/
def State.sendHead (s : State) : State :=
  if s.linkUp then
    match s.outQueue with
    | [] => s
    | _ :: rest => takeWaiting s.inWaiting { s with outQueue := rest }
  else s

/-! ## Link state -/

/-- The line asserted: a DOWN link goes UP and begins a new message with the next byte (R132, R133). -/
def State.assertLine (s : State) : State :=
  if s.linkUp then { s with linkReady := true }
  else { s with linkReady := true, linkUp := true, inPartial := [] }

/-- LKI's part of link loss (R145). -/
def State.dropLink (s : State) : State :=
  { s with linkUp := false, inPartial := [], inWaiting := [], outQueue := [] }

/-- The purges of link loss, port after port in ascending order, with no DISCARD (R44). -/
def State.purgeAll (s : State) (ps : List PortIx) : State :=
  ps.foldl (fun t p => t.purge p (fun _ => true) false) s

/-- ADM's part of link loss (R44): every list emptied, the pool all free. -/
def State.admissionLoss (s : State) : State := (s.purgeAll allPorts).setFree Config.poolEntries

/-- The order in which the ports' LINK records are made: the ports named, then those not named, each once (log 10). -/
def lossOrder (order : List PortIx) : List PortIx := order.dedup ++ allPorts.filter fun p => !order.contains p

/-- The port schedulers' part of link loss (R93). -/
def State.portsLoss (s : State) (order : List PortIx) : State :=
  ((s.mapPorts fun _ q => q.linkLoss).latch attnPortWatch).offer ((lossOrder order).map fun p => s.stamp .link p 0 0 0)

/-- Link loss: LKI, then the admission unit, then every port scheduler (R44, R93, R145). -/
def State.linkLoss (s : State) (order : List PortIx) : State := (s.dropLink.admissionLoss).portsLoss order

/-- The line withdrawn: link loss on an UP link, nothing on a DOWN one (R132). -/
def State.withdrawLine (s : State) (order : List PortIx) : State :=
  if s.linkUp then { s.linkLoss order with linkReady := false } else { s with linkReady := false }

/-! ## Device reset -/

/-- Device reset (R161): every block at its device-reset value; the line, card memory, the command queue and the counter of
free values are not the device's to reset. A line asserted when reset ends makes the link UP (R132). -/
def State.deviceReset (s : State) : State :=
  let r := { State.reset with
    linkReady := s.linkReady
    cardMem := s.cardMem
    freeCtr := s.freeCtr
    pending := s.pending }
  if s.linkReady then r.assertLine else r

end Sys2Proof.Machine
end

