-- ==== Sys2Proof/Machine/LinkCommands.lean ====
section
/-! DEFINITION. The meanings of the reset, link and timer commands: one definition per row of the table. -/

namespace Sys2Proof.Machine

/-- The outcome of a command. -/
abbrev Result := Host.Outcome State Fault Refusal

/-- DEVICE_RESET (R161). -/
def execDeviceReset (s : State) : Result := .next s.deviceReset

/-- LINK_UP (R132). -/
def execLinkUp (s : State) : Result := .next s.assertLine

/-- LINK_LOSS (R145, R44, R93). -/
def execLinkLoss (order : List PortIx) (s : State) : Result := .next (s.withdrawLine order)

/-- ARRIVAL (R29, R139). -/
def execArrival (p : PortIx) (src : SourceIx) (len : BitVec 14) (h : BitVec 16) (s : State) (later : Bool := false) : Result :=
  .next (s.receiveMessage (Message.ofArrival p src len h) later)

/-- DONE (R64, R140). -/
def execDone (p : PortIx) (tag : Byte) (s : State) (later : Bool := false) : Result :=
  .next (s.receiveMessage (Message.ofDone p tag) later)

/-- HOLD (R77, R140). -/
def execHold (p : PortIx) (s : State) : Result := .next (s.receiveMessage (Message.ofHold p) false)

/-- RESUME (R79, R140). -/
def execResume (p : PortIx) (s : State) (later : Bool := false) : Result := .next (s.receiveMessage (Message.ofResume p) later)

/-- CLOCK (R98, R141). -/
def execClock (m : BitVec 16) (s : State) : Result := .next (s.receiveMessage (Message.ofClock m) false)

/-- BAD_MESSAGE (R136): the bytes join the stream, and each message they make whole is tested as LKI tests it; one that is good
after all is delivered. -/
def execBadMessage (bytes : List Byte) (s : State) (later : Bool := false) : Result := .next (receiveBytes bytes later s)

/-- OUTBOUND_MESSAGE_SENT (R142). -/
def execOutboundMessageSent (s : State) : Result := .next s.sendHead

/-- ROUND_EXPIRY (R76). -/
def execRoundExpiry (p : PortIx) (s : State) : Result := .next (s.roundExpiry p)

/-- EXPIRY (R62): the round expiry of the port, when a slot expires at it (R61, log 6); else there is no such event. -/
def execExpiry (p : PortIx) (s : State) : Result := .next (if (s.port p).expiryComes then s.roundExpiry p else s)

/-- STALL (R78): the round expiry of the port, when the hold becomes a stall at it (log 6); else there is no such event. -/
def execStall (p : PortIx) (s : State) : Result := .next (if (s.port p).stallComes then s.roundExpiry p else s)

end Sys2Proof.Machine
end

