-- ==== Sys2Proof/Machine/AccountOrders.lean ====
section
/-! DEFINITION. The meanings of COLLECT, SURVEY and TRACE and of the events that go on with them: one definition per row. Where an
order leaves the executor free, the executor takes the next waiting channel at that moment (R151). -/

namespace Sys2Proof.Machine

/-- COLLECT (R165). -/
def execCollect (block : Option OrderBlock) (bus : CompletionBus) (s : State) : Result :=
  .next (s.takeOrder block bus fun c b t => t.beginCollect c b bus).takeNext

/-- COLLECT_RECORD (R166): an event of the executor while it writes COLLECT records. -/
def execCollectRecord (written : Bool) (bus : CompletionBus) (s : State) : Result :=
  .next (match s.executor with
    | .free => s
    | .taken _ _ => s
    | .loading _ => s
    | .collecting j => (s.collectWritten j written bus).takeNext
    | .surveying _ => s)

/-- SURVEY (R167). -/
def execSurvey (block : Option OrderBlock) (bus : CompletionBus) (s : State) : Result :=
  .next (s.takeOrder block bus fun c b t => t.beginSurvey c b bus).takeNext

/-- SURVEY_RECORD (R168): an event of the executor while it writes SURVEY records. -/
def execSurveyRecord (written : Bool) (bus : CompletionBus) (s : State) : Result :=
  .next (match s.executor with
    | .free => s
    | .taken _ _ => s
    | .loading _ => s
    | .collecting _ => s
    | .surveying j => (s.surveyWritten j written bus).takeNext)

/-- TRACE (R170). -/
def execTrace (block : Option OrderBlock) (bus : CompletionBus) (s : State) : Result :=
  .next (s.takeOrder block bus fun c b t => t.beginTrace c b bus).takeNext

/-- TRACE_OFFER (R171, R172, R176). -/
def execTraceOffer (s : State) : Result := .next s.offerStep

/-- TRACE_AREA_WRITE (R171, R173, R175). -/
def execTraceAreaWrite (written : Bool) (bus : CompletionBus) (s : State) : Result := .next (s.traceWritten written bus)

/-- STALE_TIMER_EXPIRY (R174). -/
def execStaleTimerExpiry (bus : CompletionBus) (s : State) : Result := .next (s.staleTimer bus)

end Sys2Proof.Machine
end

