-- ==== Sys2Proof/Machine/PortOrders.lean ====
section
/-! DEFINITION. The meanings of the PORT orders: one definition per row of the table. The executor is free after each, and
takes the next waiting channel at that moment (R151). -/

namespace Sys2Proof.Machine

/-- PORT_OPEN (R86). -/
def execPortOpen (block : Option OrderBlock) (bus : CompletionBus) (s : State) : Result :=
  .next (s.portOrder block bus fun p _ t => portResult (t.portOpenAction p)).takeNext

/-- PORT_CLOSE (R87). -/
def execPortClose (block : Option OrderBlock) (bus : CompletionBus) (s : State) : Result :=
  .next (s.portOrder block bus fun p _ t => portResult (t.portCloseAction p)).takeNext

/-- PORT_CLEAR (R88). -/
def execPortClear (block : Option OrderBlock) (bus : CompletionBus) (s : State) : Result :=
  .next (s.portOrder block bus fun p _ t => portResult (t.portClearAction p)).takeNext

/-- PORT_RETIRE (R89). -/
def execPortRetire (block : Option OrderBlock) (bus : CompletionBus) (s : State) : Result :=
  .next (s.portOrder block bus fun p b t => portResult (t.portRetireAction p b.successor?)).takeNext

/-- PORT_SET (R91). -/
def execPortSet (block : Option OrderBlock) (bus : CompletionBus) (s : State) : Result :=
  .next (s.portOrder block bus fun p b t => t.portSetAction p b).takeNext

/-- PORT_BAD_ACTION (R85): BAD_PORT, else BAD_ORDER, with no action carried out. -/
def execPortBadAction (block : Option OrderBlock) (bus : CompletionBus) (s : State) : Result :=
  .next (s.portOrder block bus fun _ _ t => (t, OrderResult.of .badOrder 0 0)).takeNext

end Sys2Proof.Machine
end

