-- ==== Sys2Proof/Machine/RegisterCommands.lean ====
section
/-! DEFINITION. The meanings of the register writes: one definition per row of the table. -/

namespace Sys2Proof.Machine

/-- ADDRESS_WRITE (R150, R151). -/
def execAddressWrite (c : ChannelIx) (v : Word) (s : State) (lag : Bool := false) : Result := .next (s.pointerWrite c v lag busAllOk)

/-- ZERO_WRITE (R150, R158, R175). -/
def execZeroWrite (c : ChannelIx) (v : Word) (bus : CompletionBus) (s : State) : Result := .next (s.pointerWrite c v false bus)

/-- ATTN_WRITE (R159). -/
def execAttnWrite (v : Word) (s : State) : Result := .next (s.writeAttn v)

/-- ATTN_MASK_WRITE (R160). -/
def execAttnMaskWrite (v : Word) (s : State) : Result := .next (s.writeAttnMask v)

/-- UNMAPPED_REGISTER_WRITE (R147): the register window decides by offset and width. -/
def execUnmappedRegisterWrite (offset width : Nat) (v : Word) (s : State) : Result := .next (s.registerWrite offset width v)

end Sys2Proof.Machine
end

