-- ==== Sys2Proof/Machine/ShareOrders.lean ====
section
/-! DEFINITION. The meanings of the orders of Chapter 6, and of the executor's two completions of an order it does not carry
out: one definition per row of the table. Where an order leaves the executor free, the executor takes the next waiting channel
at that moment (R151). -/

namespace Sys2Proof.Machine

/-- ABORTED_UNREAD (R154): the event occurs when the executor takes, or has taken, a channel whose mark was yes at the taking. -/
def execAbortedUnread (bus : CompletionBus) (s : State) : Result :=
  .next (match s.nextChannel with
    | none => s
    | some (c, unread) =>
      if unread then ((s.beginExecuting c).finish c (OrderResult.of .aborted 0 0) 0 bus).takeNext else s)

/-- UNKNOWN_ORDER_CODE (R152). -/
def execUnknownOrderCode (block : Option OrderBlock) (bus : CompletionBus) (s : State) : Result :=
  .next (s.simpleOrder block bus fun _ t => (t, OrderResult.of .badOrder 0 0)).takeNext

/-- LOAD (R118). -/
def execLoad (block : Option OrderBlock) (bus : CompletionBus) (s : State) (abortFirst : Bool := false) : Result :=
  .next (s.takeOrder block bus fun c b t => t.beginLoad c b abortFirst bus).takeNext

/-- LOAD_ENTRY_READ (R121): an event of the executor while it reads a load table. -/
def execLoadEntryRead (entry : Option TableEntry) (abortFirst : Bool) (bus : CompletionBus) (s : State) : Result :=
  .next (match s.executor with
    | .free => s
    | .taken _ _ => s
    | .loading j => (s.loadEntry j entry abortFirst bus).takeNext
    | .collecting _ => s
    | .surveying _ => s)

/-- WINDOW (R126). -/
def execWindow (block : Option OrderBlock) (bus : CompletionBus) (s : State) : Result :=
  .next (s.simpleOrder block bus fun b t => t.windowOrder b).takeNext

/-- PIN (R128). -/
def execPin (block : Option OrderBlock) (bus : CompletionBus) (s : State) : Result :=
  .next (s.simpleOrder block bus fun b t => t.pinOrder b).takeNext

/-- LEVELS (R130). -/
def execLevels (block : Option OrderBlock) (bus : CompletionBus) (s : State) : Result :=
  .next (s.simpleOrder block bus fun b t => t.levelsOrder b).takeNext

end Sys2Proof.Machine
end

