-- ==== Sys2Proof/Machine/Dispatch.lean ====
section
/-! DEFINITION. One arm per command: which meaning each command has. -/

namespace Sys2Proof.Machine

/-- The effect of a command on everything but the queue. -/
def exec (i : Instr) (s : State) : Host.Outcome State Fault Refusal :=
  match i with
  | .deviceReset => Sys2Proof.Machine.execDeviceReset s
  | .linkUp => Sys2Proof.Machine.execLinkUp s
  | .linkLoss order => Sys2Proof.Machine.execLinkLoss order s
  | .arrival p src len h later => Sys2Proof.Machine.execArrival p src len h s later
  | .done p tag later => Sys2Proof.Machine.execDone p tag s later
  | .hold p => Sys2Proof.Machine.execHold p s
  | .resume p later => Sys2Proof.Machine.execResume p s later
  | .clock minute => Sys2Proof.Machine.execClock minute s
  | .badMessage bytes later => Sys2Proof.Machine.execBadMessage bytes s later
  | .outboundMessageSent => Sys2Proof.Machine.execOutboundMessageSent s
  | .roundExpiry p => Sys2Proof.Machine.execRoundExpiry p s
  | .expiry p => Sys2Proof.Machine.execExpiry p s
  | .stall p => Sys2Proof.Machine.execStall p s
  | .addressWrite c v lag => Sys2Proof.Machine.execAddressWrite c v s lag
  | .zeroWrite c v bus => Sys2Proof.Machine.execZeroWrite c v bus s
  | .attnWrite v => Sys2Proof.Machine.execAttnWrite v s
  | .attnMaskWrite v => Sys2Proof.Machine.execAttnMaskWrite v s
  | .unmappedRegisterWrite offset width v => Sys2Proof.Machine.execUnmappedRegisterWrite offset width v s
  | .abortedUnread bus => Sys2Proof.Machine.execAbortedUnread bus s
  | .unknownOrderCode block bus => Sys2Proof.Machine.execUnknownOrderCode block bus s
  | .load block bus abortFirst => Sys2Proof.Machine.execLoad block bus s abortFirst
  | .loadEntryRead entry abortFirst bus => Sys2Proof.Machine.execLoadEntryRead entry abortFirst bus s
  | .window block bus => Sys2Proof.Machine.execWindow block bus s
  | .pin block bus => Sys2Proof.Machine.execPin block bus s
  | .levels block bus => Sys2Proof.Machine.execLevels block bus s
  | .portOpen block bus => Sys2Proof.Machine.execPortOpen block bus s
  | .portClose block bus => Sys2Proof.Machine.execPortClose block bus s
  | .portClear block bus => Sys2Proof.Machine.execPortClear block bus s
  | .portRetire block bus => Sys2Proof.Machine.execPortRetire block bus s
  | .portSet block bus => Sys2Proof.Machine.execPortSet block bus s
  | .collect block bus => Sys2Proof.Machine.execCollect block bus s
  | .collectRecord written bus => Sys2Proof.Machine.execCollectRecord written bus s
  | .survey block bus => Sys2Proof.Machine.execSurvey block bus s
  | .surveyRecord written bus => Sys2Proof.Machine.execSurveyRecord written bus s
  | .trace block bus => Sys2Proof.Machine.execTrace block bus s
  | .traceOffer => Sys2Proof.Machine.execTraceOffer s
  | .traceAreaWrite written bus => Sys2Proof.Machine.execTraceAreaWrite written bus s
  | .staleTimerExpiry bus => Sys2Proof.Machine.execStaleTimerExpiry bus s
  | .portBadAction block bus => Sys2Proof.Machine.execPortBadAction block bus s

end Sys2Proof.Machine
end

