-- ==== Sys2Proof/Machine/Step.lean ====
section
/-! DEFINITION. One step: the command at the front of the queue is taken and carried out; on an empty queue a
second release decision that is owed is made, and with none owed the block idles. -/

namespace Sys2Proof.Machine

/-- One step of the SA416 (log 3). -/
def step (s : State) : Host.Outcome State Fault Refusal :=
  match s.pending with
  | [] => .next s.idle
  | c :: rest => exec c { s with pending := rest }

/-- The state with the command a word spells at the front of its queue; no word spells one (log 20). -/
def State.withFetchWord (s : State) (nbits w : Nat) : State :=
  match decodeTableWord nbits w with
  | none => s
  | some c => { s with pending := c :: s.pending }

end Sys2Proof.Machine
end

