-- ==== Sys2Proof/Safety.lean ====
section
/-! DEFINITION. What holds of a healthy state: the invariants the spec states of its own state, each under its rule. Each is a
decidable proposition, so that a concrete state can be tested for it. At the end, the conditions and outcomes that many
statements share: when a message is taken at once, which channel the executor takes, how an order has ended. -/

namespace Sys2Proof.Machine

/-! ## The pool and the lists -/

/-- The number of entries on all lane lists of the device. -/
def State.listed (s : State) : Nat := (allPorts.map fun p => (s.port p).listTotal).sum

/-- The free count plus the entries of all lane lists is 8192 (R25). -/
abbrev State.PoolConserved (s : State) : Prop := s.freeCount + s.listed = Config.poolEntries

/-- The pool-low state is BELOW exactly when the free count is below the warning level (R37), and the warning level is never
below the reserve level (R34). -/
abbrev State.LevelsOk (s : State) : Prop :=
  s.poolBelow = decide (s.freeCount < s.warning.toNat) ∧ s.reserve.toNat ≤ s.warning.toNat

/-- No list holds more than 255 entries, a lane that is not open has an empty list (R27), and every entry's length lies in
64..9216 (R26). -/
abbrev Lane.ListOk (l : Lane) : Prop :=
  l.list.length ≤ 255 ∧ (l.entry.isOpen = false → l.list = []) ∧
    ∀ e ∈ l.list, Config.minLength ≤ e.len.toNat ∧ e.len.toNat ≤ Config.maxLength

/-- Every lane's list is in order, and a port in state CLOSED or RETIRED has empty lists (R27). -/
abbrev Port.ListsOk (q : Port) : Prop :=
  (∀ src : SourceIx, (q.lane src).ListOk) ∧ (q.inService = false → ∀ src : SourceIx, (q.lane src).list = [])

/-! ## Entries and balances -/

/-- A bank entry has the properties of R95: closed values when closed, else a rate or a tier, a cap of at least Gc + 1 where it
has a rate, and a Qmax of at least 1. -/
abbrev BankEntry.Ok (b : BankEntry) : Prop :=
  if b.isOpen then
    (hasRate b.gc b.gf = true ∨ b.tier ≠ .none) ∧ (hasRate b.gc b.gf = true → b.gc.toNat + 1 ≤ b.cap.toNat) ∧
      1 ≤ b.qmax.toNat
  else b = BankEntry.closed

/-- A valid pin has a rate or a tier (R102). -/
abbrev Pin.Ok (x : Pin) : Prop := hasRate x.gc x.gf = true ∨ x.tier ≠ .none

/-- An effective entry: the closed values of R3 when closed; else a rate or a tier (R2), the floor of R4, and a Qmax of at
least 1. -/
abbrev EffEntry.Ok (e : EffEntry) : Prop :=
  if e.isOpen then
    (hasRate e.gc e.gf = true ∨ e.tier ≠ .none) ∧ (hasRate e.gc e.gf = true → e.gc.toNat + 1 ≤ e.cap.toNat) ∧
      1 ≤ e.qmax.toNat
  else e = { EffEntry.closed with pinInactive := e.pinInactive }

/-- The balance lies between −1151 and the effective cap, and is 0 for a lane whose effective rate is 0 (R7). -/
abbrev Lane.BalanceOk (l : Lane) : Prop :=
  -1151 ≤ l.balance ∧ l.balance ≤ (l.entry.cap.toNat : Int) ∧ (hasRate l.entry.gc l.entry.gf = false → l.balance = 0)

/-- A lane keeps the properties of its entry, its balance and its list. -/
abbrev Lane.CreditOk (l : Lane) : Prop := l.entry.Ok ∧ l.BalanceOk ∧ l.ListOk

/-! ## Slots -/

/-- The slots are filled older first, and the occupied ones hold the tags that end just before the next tag (R59); both age
together, so the older is at least as old (R61). -/
def slotsInOrder (older younger : Option Slot) (nextTag : Byte) : Bool :=
  match older, younger with
  | none, none => true
  | some a, none => a.tag == nextTag - 1
  | some a, some b => b.tag == a.tag + 1 && (b.tag == nextTag - 1 && decide (b.age.toNat ≤ a.age.toNat))
  | none, some _ => false

/-- The slots of a port are in order (R59). -/
abbrev Port.SlotsOk (q : Port) : Prop := slotsInOrder q.older q.younger q.nextTag = true

/-! ## State, flow and timer -/

/-- The round timer runs exactly while the port is OPEN or DRAINING and not STALLED (R74). -/
abbrev Port.TimerOk (q : Port) : Prop := q.timer.isSome = q.timerRuns

/-- A round length lies in 10..10000 (R75). -/
abbrev lengthInRange (v : BitVec 16) : Prop := 10 ≤ v.toNat ∧ v.toNat ≤ 10000

/-- The round length is held within 10..10000, and the current round has such a length (R75, R91). -/
abbrev Port.LengthOk (q : Port) : Prop :=
  lengthInRange q.roundLength ∧ (q.timer.all fun r => decide (lengthInRange r)) = true

/-- A RETIRED port has a successor that is another port, and no occupied slot (R89). -/
abbrev Port.RetiredOk (p : PortIx) (q : Port) : Prop :=
  ∀ x ∈ q.successor?, x ≠ p ∧ q.older = none ∧ q.younger = none

/-- No DRAINING port satisfies the drain rule: it is CLOSED as soon as it does (R84). -/
abbrev Port.DrainOk (q : Port) : Prop := q.drained = false

/-! ## Shares -/

/-- Every booked sum the law of R116 covers is at most its port's capacity figure. -/
abbrev State.BookingsLegal (s : State) : Prop :=
  ∀ (k : ProfileIx) (p : PortIx), s.governs k p = true → bookedSum (s.bankPort k p) s.pins p ≤ s.figure p

/-- The LOAD in progress, if the executor carries one out. -/
def Executor.load? : Executor → Option LoadJob
  | .free => none
  | .taken _ _ => none
  | .loading j => some j
  | .collecting _ => none
  | .surveying _ => none

/-- Every bank entry, and every entry a LOAD has staged, is in order (R95). -/
abbrev State.BanksOk (s : State) : Prop :=
  (∀ (k : ProfileIx) (p : PortIx) (src : SourceIx), ((s.bankPort k p)[src]).Ok) ∧
    ∀ j ∈ s.executor.load?, ∀ src : SourceIx, (j.staged[src]).Ok

/-- Every valid pin is in order (R102). -/
abbrev State.PinsOk (s : State) : Prop := ∀ i : Fin 4, ∀ x ∈ s.pins[i], x.Ok

/-- While the session clock is invalid every port's selected profile is profile 0 (R100). -/
abbrev State.SelectionOk (s : State) : Prop := s.clockValid = false → ∀ p : PortIx, (s.port p).selected = 0

/-! ## Link -/

/-- The link is UP exactly while the line is asserted (R132); fewer than 8 bytes are held of a message not yet whole (R133); a
DOWN link has nothing queued and no part of a message (R145); the outbound queue and the lists together hold at most 256 + 8192
(R142); a message waits on the link only while 256 or more wait outbound (R135). -/
abbrev State.LinkOk (s : State) : Prop :=
  s.linkUp = s.linkReady ∧ s.inPartial.length < 8 ∧
    (s.linkUp = false → s.outQueue = [] ∧ s.inWaiting = [] ∧ s.inPartial = []) ∧
    s.outQueue.length + s.listed ≤ Config.takeLimit + Config.poolEntries ∧
    (s.inWaiting ≠ [] → Config.takeLimit ≤ s.outQueue.length)

/-! ## Channels -/

/-- A pointer register is nonzero exactly while its channel is BUSY or DONE, an abort request stands on a BUSY channel alone,
and CHn is set exactly while the channel is DONE (R148, R149, R159). -/
abbrev State.ChannelOk (s : State) (c : ChannelIx) : Prop :=
  ((s.channel c).phase = .idle ↔ (s.channel c).addr = 0) ∧
  ((s.channel c).abortReq = true → (s.channel c).phase = .waiting ∨ (s.channel c).phase = .executing ∨
    (s.channel c).phase = .tracing) ∧
  s.attn.getLsbD c.val = (match (s.channel c).phase with | .done _ => true | _ => false)

/-- The channel the executor works for, between events. -/
def Executor.channel? : Executor → Option ChannelIx
  | .free => none
  | .taken c _ => some c
  | .loading j => some j.channel
  | .collecting j => some j.channel
  | .surveying j => some j.channel

/-- The executor's channel is the one in the executing phase, and the armed trace's the one in the tracing phase (R151,
R158); a channel taken to be left unread has its mark yes (R154). -/
abbrev State.PhasesOk (s : State) : Prop :=
  ∀ c : ChannelIx,
    ((s.channel c).phase = .executing ↔ s.executor.channel? = some c) ∧
    ((s.channel c).phase = .tracing ↔ s.tre.armed.map ArmedTrace.channel = some c) ∧
    (s.executor = .taken c true → (s.channel c).abortReq = true)

/-- The executor's job is within its bounds: table entries, COLLECT records, SURVEY records. -/
def Executor.inBounds : Executor → Bool
  | .free => true
  | .taken _ _ => true
  | .loading j => decide (j.progress < j.count) && decide (j.count ≤ Config.maxTableEntries)
  | .collecting j => decide (j.index < collectRecords)
  | .surveying j => decide (j.index < surveyRecords)

/-- The executor's job is within its bounds (R119, R165, R167). -/
abbrev State.JobOk (s : State) : Prop := s.executor.inBounds = true

/-! ## Trace -/

/-- The repeat count of the record a write puts into the area (R177): 1 for a GAP record. -/
def AreaWrite.events : AreaWrite → Nat
  | .gap _ _ => 1
  | .holding h _ _ => h.count

/-- The armed trace: the area is not full, a holding record stands for 1..254 events, and none is held while a write is in
progress; what is being written stands for 1..255 (R173, R177); the stale timer runs only with a nonzero stale time. -/
abbrev ArmedTrace.Ok (t : ArmedTrace) : Prop :=
  t.written < t.count.toNat ∧ (∀ h ∈ t.holding, 1 ≤ h.count ∧ h.count < maxRepeat) ∧
  (∀ w ∈ t.write, t.holding = none ∧ 1 ≤ w.events ∧ w.events ≤ maxRepeat) ∧
  (t.staleRunning = true → t.staleTime ≠ 0)

/-- The armed trace is in order and at most 64 offers wait (R171). -/
abbrev State.TraceOk (s : State) : Prop :=
  s.tre.queue.length ≤ Config.offerPlaces ∧ ∀ t ∈ s.tre.armed, t.Ok

/-! ## Memory and the whole -/

/-- Card memory has its canonical form. -/
abbrev State.MemoryOk (s : State) : Prop := Memory.wf s.cardMem = true

/-- Everything about one port. -/
structure Port.Ok (p : PortIx) (q : Port) : Prop where
  lists : q.ListsOk
  credit : ∀ src : SourceIx, (q.lane src).CreditOk
  slots : q.SlotsOk
  timer : q.TimerOk
  length : q.LengthOk
  retired : q.RetiredOk p
  drain : q.DrainOk

/-! ## Conditions and outcomes that statements share -/

/-- LKI takes the next message sent at once and whole: the link is UP, no message is part-received (R133), fewer than 256 messages
wait outbound, and none waits on the link before it (R135). -/
abbrev State.TakesAtOnce (s : State) : Prop :=
  s.linkUp = true ∧ s.inPartial = [] ∧ s.outQueue.length < Config.takeLimit ∧ s.inWaiting = []

/-- The lowest-numbered waiting channel is `c` (R151). -/
abbrev State.WaitsLowest (s : State) (c : ChannelIx) : Prop :=
  (s.channel c).phase = .waiting ∧ ∀ d : ChannelIx, d < c → (s.channel d).phase ≠ .waiting

/-- The executor begins the order of channel `c`: it has taken `c`; or it is free and takes it now, `c` being the lowest-numbered
channel that waits (R151). `unread` says whether the mark of `c` was yes when it was taken (R154). -/
abbrev State.Begins (s : State) (c : ChannelIx) (unread : Bool) : Prop :=
  s.executor = .taken c unread ∨ (s.executor = .free ∧ s.WaitsLowest c ∧ (s.channel c).abortReq = unread)

/-- The executor begins the order of channel `c` and reads its order block: the mark was no when the channel was taken. It may
have become yes since (R152, R154). -/
abbrev State.CarriesOut (s : State) (c : ChannelIx) : Prop := s.Begins c false

/-- Card memory holds the bytes given at consecutive addresses. -/
abbrev Memory.Holds (m : List Host.Cell) (a : Nat) (bs : List Byte) : Prop :=
  ∀ i : Fin bs.length, Memory.read m (a + i.val) = some bs[i]

/-- Card memory is the same at every address outside the `n` bytes at `a`. -/
abbrev Memory.SameBut (a n : Nat) (m m' : List Host.Cell) : Prop :=
  ∀ k : Nat, k < a ∨ a + n ≤ k → Memory.read m' k = Memory.read m k

/-- A write of a completion fails (R156): word 6, or word 1 on MOVED, or word 7. -/
def completionFails (bus : CompletionBus) (st : Status) : Bool :=
  !(bus.progressOk && ((st != .moved || bus.successorOk) && bus.terminationOk))

/-- Channel `c` has been completed between `s` and `t` (R155, R156): it is DONE with FAULT as the bus answered, its address
kept and its mark cleared; the other channels are as before; CHn is latched; card memory is the same outside words 6 and 7 of the
order block and, on MOVED, word 1; and where no write failed, word 6 holds the progress and word 7 the termination word. -/
structure State.Completed (s t : State) (c : ChannelIx) (st : Status) (progress : Word) (detail : BitVec 16)
    (bus : CompletionBus) : Prop where
  channels : t.channels = s.channels.set c ⟨.done (completionFails bus st), (s.channel c).addr, false⟩
  attn : t.attn = s.attn ||| flagBit c.val
  others : Memory.SameBut (s.channel c).blockAddress 32 s.cardMem t.cardMem
  kept : ∀ i : Fin 24, (st = .moved → i.val < 4 ∨ 8 ≤ i.val) →
    Memory.read t.cardMem ((s.channel c).blockAddress + i.val) = Memory.read s.cardMem ((s.channel c).blockAddress + i.val)
  progressWord : completionFails bus st = false →
    Memory.Holds t.cardMem ((s.channel c).blockAddress + 24) (wordBytes progress)
  terminationWord : completionFails bus st = false →
    Memory.Holds t.cardMem ((s.channel c).blockAddress + 28) (wordBytes (terminationWord st detail))

/-- Between `s` and `t` the successor `x` has been written into word 1 of channel `c`'s order block, where no write failed: bits
27..24 hold `x`, and the other bits are those of `w1`, the word as the executor read it (R155 step 2). -/
abbrev State.NamesSuccessor (s t : State) (c : ChannelIx) (w1 : Word) (x : PortIx) (bus : CompletionBus) : Prop :=
  completionFails bus .moved = false →
    ∃ w : Word, Memory.Holds t.cardMem ((s.channel c).blockAddress + 4) (wordBytes w) ∧
      w.extractLsb' 24 4 = BitVec.ofNat 4 x.val ∧ w.extractLsb' 0 24 = w1.extractLsb' 0 24 ∧
      w.extractLsb' 28 4 = w1.extractLsb' 28 4

/-- The occupied slots of a port, the older first, each one round older (R61). -/
def Port.agedSlots (q : Port) : List Slot :=
  (q.older.toList ++ q.younger.toList).map fun a => { a with age := BitVec.ofNat 8 (min (a.age.toNat + 1) 255) }

/-- A slot of this age expires (R61): the done limit is nonzero and the age has reached it. -/
def Port.slotEnds (q : Port) (a : Slot) : Bool := decide (q.doneLimit ≠ 0 ∧ q.doneLimit.toNat ≤ a.age.toNat)

/-- The port's hold becomes a stall at its next round expiry (R78). -/
def Port.holdEnds (q : Port) : Bool :=
  decide (q.flow = .held ∧ q.holdLimit ≠ 0 ∧ q.holdLimit.toNat ≤ min (q.holdAge.toNat + 1) 255)

/-- The work of a round expiry of port `p` between `s`, a pending refresh applied, and `u`, before the release test (R76). Every
lane accrues with the round count as it stood, and the round count rises by one (R9, R14). Every occupied slot ages; those that
expire are freed with one expiry counted and one EXPIRY record each, the older first, and the others stay, the older place filled
first (R60 to R62). The hold of a HELD port ages, and may become a stall (R78). The next round begins unless the port is now
STALLED (R76). All else of the device stays. -/
structure State.RoundExpired (s u : State) (p : PortIx) : Prop where
  frame : u = { s with
    ports := u.ports
    attn := if (s.port p).holdEnds then s.attn ||| 0x40#8 else s.attn
    tre := { s.tre with offered := s.tre.offered ++
      ((((s.port p).agedSlots.filter (s.port p).slotEnds).map fun a =>
        ⟨.expiry, p, a.source, a.tag, a.len.setWidth 16, (s.port p).roundCount + 1, s.minute⟩) ++
      if (s.port p).holdEnds then [⟨.stall, p, 0, 0, 0, (s.port p).roundCount + 1, s.minute⟩] else []) } }
  others : ∀ p' : PortIx, p' ≠ p → u.port p' = s.port p'
  lanes : ∀ x : SourceIx, u.lane p x = (s.lane p x).accrue (s.port p).roundCount x
  port : u.port p = { s.port p with
    lanes := (u.port p).lanes
    roundCount := (s.port p).roundCount + 1
    older := ((s.port p).agedSlots.filter fun a => !(s.port p).slotEnds a)[0]?
    younger := ((s.port p).agedSlots.filter fun a => !(s.port p).slotEnds a)[1]?
    holdAge :=
      if (s.port p).flow = .held then BitVec.ofNat 8 (min ((s.port p).holdAge.toNat + 1) 255) else (s.port p).holdAge
    flow := if (s.port p).holdEnds then .stalled else (s.port p).flow
    timer :=
      if ((s.port p).state = .opened ∨ (s.port p).state = .draining) ∧ (s.port p).flow ≠ .stalled ∧
        (s.port p).holdEnds = false then some (s.port p).roundLength else none
    watchLatch := { (s.port p).watchLatch with stall := (s.port p).watchLatch.stall || (s.port p).holdEnds }
    tally := { (s.port p).tally with
      expiries := BitVec.ofNat 16
        (min ((s.port p).tally.expiries.toNat + ((s.port p).agedSlots.filter (s.port p).slotEnds).length) 65535)
      stalls := BitVec.ofNat 16 (min ((s.port p).tally.stalls.toNat + if (s.port p).holdEnds then 1 else 0) 65535) } }

/-- The order of channel `c` has ended between `s` and `t` with nothing carried out: beside the completion, only the executor,
now free, may differ. -/
structure State.EndedUntouched (s t : State) (c : ChannelIx) (st : Status) (progress : Word) (detail : BitVec 16)
    (bus : CompletionBus) : Prop where
  completed : s.Completed t c st progress detail bus
  frame : t = { s with executor := .free, channels := t.channels, attn := t.attn, cardMem := t.cardMem }

/-- A PORT order of channel `c` has ended between `s` and `t` with no action carried out. Its progress word is a free value
(log 14). -/
structure State.PortEndedUntouched (s t : State) (c : ChannelIx) (st : Status) (detail : BitVec 16) (bus : CompletionBus) :
    Prop where
  completed : ∃ w : Word, s.Completed t c st w detail bus
  frame : t = { s with
    executor := .free, channels := t.channels, attn := t.attn, cardMem := t.cardMem, freeCtr := t.freeCtr }

/-- A TRACE order has ended between `s` and `t` (R158): the trace engine is disarmed with the gap count given, and its channel
is completed with the progress and detail given; card memory before the completion is that of `u`. -/
structure State.TraceEnded (s u t : State) (tr : ArmedTrace) (st : Status) (written : Nat) (detail gap : Nat)
    (bus : CompletionBus) : Prop where
  completed : u.Completed t tr.channel st (BitVec.ofNat 32 written) (BitVec.ofNat 16 detail) bus
  frame : t = { s with
    channels := t.channels
    attn := t.attn
    cardMem := t.cardMem
    tre := { s.tre with armed := none, gapCount := BitVec.ofNat 32 (min gap 4294967295) } }

/-- The install point of a LOAD into profile `k` for port `p` (R122): OVERBOOK with the bank as it was where the booked sum over
the staged entries is above the capacity figure; else the staged entries replace the port's entries in the bank together, and
the refresh flag is set when that bank is the selected one. -/
structure State.Installed (s t : State) (c : ChannelIx) (k : ProfileIx) (p : PortIx) (staged : Vector BankEntry 64)
    (progress : Nat) (bus : CompletionBus) : Prop where
  overbook : s.figure p < bookedSum staged s.pins p →
    s.EndedUntouched t c .overbook (BitVec.ofNat 32 progress) (BitVec.ofNat 16 (p.val + 256 * k.val)) bus
  legal : bookedSum staged s.pins p ≤ s.figure p →
    s.Completed t c .ok (BitVec.ofNat 32 progress) 0 bus ∧
    t = { s with
      executor := .free
      channels := t.channels
      attn := t.attn
      cardMem := t.cardMem
      banks := t.banks
      ports := s.ports.set p { s.port p with
        refreshFlag := (s.port p).refreshFlag || decide ((s.port p).selected = k) } } ∧
    ∀ (k' : ProfileIx) (p' : PortIx), t.bankPort k' p' = if k' = k ∧ p' = p then staged else s.bankPort k' p'

end Sys2Proof.Machine

namespace Sys2Proof

/-- The order block and the bus answers of a command by which the executor takes a channel and reads its order block; none
for every other command. -/
def Instr.order? : Instr → Option (Option OrderBlock × CompletionBus)
  | .unknownOrderCode b bus => some (b, bus)
  | .load b bus _ => some (b, bus)
  | .window b bus => some (b, bus)
  | .pin b bus => some (b, bus)
  | .levels b bus => some (b, bus)
  | .portOpen b bus => some (b, bus)
  | .portClose b bus => some (b, bus)
  | .portClear b bus => some (b, bus)
  | .portRetire b bus => some (b, bus)
  | .portSet b bus => some (b, bus)
  | .portBadAction b bus => some (b, bus)
  | .collect b bus => some (b, bus)
  | .survey b bus => some (b, bus)
  | .trace b bus => some (b, bus)
  | _ => none

/-- The PORT order commands on a block. -/
def portCommands (b : OrderBlock) (bus : CompletionBus) : List Instr :=
  [.portOpen (some b) bus, .portClose (some b) bus, .portClear (some b) bus, .portRetire (some b) bus, .portSet (some b) bus,
    .portBadAction (some b) bus]

end Sys2Proof
end

