-- ==== Sys2Proof/WellFormed.lean ====
section
/-! DEFINITION. Which commands are well formed: the operands agree with the row they stand on. An order command carries an
order block of its own code, a bad message is bad, an address write carries an address, and so on. -/

namespace Sys2Proof

/-- An order block, where it was read, carries this order code (Table 8-6). -/
def blockHasCode (code : Nat) : Option OrderBlock → Bool
  | none => true
  | some b => b.code.toNat == code

/-- A PORT order block, where it was read, names a port of the device and this action (R85). -/
def blockHasAction (action : Nat) : Option OrderBlock → Bool
  | none => true
  | some b => b.code.toNat == 5 && (decide (b.portField.toNat < 16) && b.action.toNat == action)

/-- A PORT order block, where it was read, names no port of the device or an action outside 1..5 (R85). -/
def blockHasBadAction : Option OrderBlock → Bool
  | none => true
  | some b => b.code.toNat == 5 &&
      (decide (16 ≤ b.portField.toNat) || (b.action.toNat == 0 || decide (5 < b.action.toNat)))

/-- An order block, where it was read, carries a code of no order: 0, or 9 to 255 (R152). -/
def blockHasNoOrder : Option OrderBlock → Bool
  | none => true
  | some b => b.code.toNat == 0 || decide (9 ≤ b.code.toNat)

/-- Bytes that the frame engine sends and that are no good message: at least one, and not the eight of a good one (R133,
R136). -/
def noGoodMessage (bytes : List Byte) : Bool :=
  !bytes.isEmpty && (match Message.ofBytes? bytes with | none => true | some m => !Message.good m)

/-- The well-formedness of a command. -/
def Instr.wellFormed : Instr → Bool
  | .deviceReset => true
  | .linkUp => true
  | .linkLoss order => decide order.Nodup && order.length == 16
  | .arrival _ _ _ _ _ => true
  | .done _ _ _ => true
  | .hold _ => true
  | .resume _ _ => true
  | .clock _ => true
  | .badMessage bytes _ => noGoodMessage bytes
  | .outboundMessageSent => true
  | .roundExpiry _ => true
  | .expiry _ => true
  | .stall _ => true
  | .addressWrite _ value _ => !isZeroWrite value
  | .zeroWrite _ value _ => isZeroWrite value
  | .attnWrite _ => true
  | .attnMaskWrite _ => true
  | .unmappedRegisterWrite offset width _ =>
      (width == 1 || width == 2 || width == 4) && (width != 4 || !mappedOffsets.contains offset)
  | .abortedUnread _ => true
  | .unknownOrderCode block _ => blockHasNoOrder block
  | .load block _ _ => blockHasCode 1 block
  | .loadEntryRead _ _ _ => true
  | .window block _ => blockHasCode 2 block
  | .pin block _ => blockHasCode 3 block
  | .levels block _ => blockHasCode 4 block
  | .portOpen block _ => blockHasAction 1 block
  | .portClose block _ => blockHasAction 2 block
  | .portClear block _ => blockHasAction 3 block
  | .portRetire block _ => blockHasAction 4 block
  | .portSet block _ => blockHasAction 5 block
  | .collect block _ => blockHasCode 6 block
  | .collectRecord _ _ => true
  | .survey block _ => blockHasCode 7 block
  | .surveyRecord _ _ => true
  | .trace block _ => blockHasCode 8 block
  | .traceOffer => true
  | .traceAreaWrite _ _ => true
  | .staleTimerExpiry _ => true
  | .portBadAction block _ => blockHasBadAction block

end Sys2Proof
end

