-- ==== Sys2Proof/Certificates/Slice0/Obligations.lean ====
section
/-! DEFINITION. The statements for the provers, each from the rules of spec/ named in its comment. -/

section
open Sys2Proof Sys2Proof.Machine

/-! ## The machine as a whole -/

/-- A step takes the command at the front of the queue and carries it out on the state with the queue's rest. -/
def Obligations.StepRunsFrontCommand : Prop :=
  ∀ (s : State) (c : Instr) (rest : List Instr),
    s.pending = c :: rest → step s = exec c { s with pending := rest }

/-- No command stops the block, and none touches the queue of waiting commands (log 19). On an empty queue a step changes
nothing where no port owes a second release decision (the model's choice, log 3); else the port that has owed one longest
tests the release condition as it stands then, and a port that is no longer FLOWING, a HOLD having come between, makes no
second release (R48, R77; log 1). -/
def Obligations.NoCommandStops : Prop :=
  (∀ (c : Instr) (s : State), ∃ t : State, exec c s = .next t ∧ t.pending = s.pending) ∧
  ∀ s : State, s.pending = [] →
    (s.retests = [] → step s = .next s) ∧
    ∀ (p : PortIx) (rest : List PortIx) (u : State), s.retests = p :: rest → u = { s with retests := rest } →
      step s = .next (u.testAndDrain p) ∧ (u.testAndDrain p).pending = [] ∧ (u.testAndDrain p).retests = rest ∧
      ((s.port p).flow ≠ .flowing → u.testAndDrain p = u.drain p)

/-- DEVICE_RESET gives every block its device-reset value (R161), and a line that stands asserted makes the link UP (R132; log
9). The model's own choices (log 23): the line, card memory, the queue of commands and the counter of free values stay, and
TRE's offer queue and the lists of trace records on their way to it, of messages that wait on the link and of second
decisions owed are emptied. -/
def Obligations.DeviceResetRestoresEverything : Prop :=
  ∀ s : State, exec .deviceReset s = .next { State.reset with
    linkReady := s.linkReady
    linkUp := s.linkReady
    cardMem := s.cardMem
    freeCtr := s.freeCtr
    pending := s.pending }

/-- The values every block has after device reset (Tables 1-3, 2-2, 3-1, 4-7, 5-3, 7-3, 8-9, 9-3 and 9-5): the pool, the share
store, the link interface, the channels, the attention unit, the trace engine, and each port and lane. The list of messages
that wait on the link is the model's own field, in no row of these tables: that it is empty is the model's choice (log 23). -/
def Obligations.ResetValues : Prop :=
  let s := State.reset
  (s.freeCount = 8192 ∧ s.reserve = 512 ∧ s.warning = 1024 ∧ s.poolBelow = false) ∧
  (∀ (k : ProfileIx) (p : PortIx) (src : SourceIx), (s.bankPort k p)[src] = ⟨false, 0, 0, 0, .none, 0, 1, false⟩) ∧
  (∀ i : Fin 3, s.windows[i] = ⟨0, 0, 0⟩) ∧ (∀ i : Fin 4, s.pins[i] = none) ∧
  (s.minute = 0 ∧ s.clockValid = false) ∧
  (s.linkUp = false ∧ s.outQueue = [] ∧ s.inWaiting = [] ∧ s.badCount = 0) ∧
  (∀ c : ChannelIx, (s.channel c).phase = .idle ∧ (s.channel c).pointer = 0 ∧ (s.channel c).abortReq = false) ∧
  s.executor = .free ∧ (s.attn = 0 ∧ s.attnMask = 0 ∧ s.attnLineLow = false) ∧
  (s.tre.armed = none ∧ s.tre.stickyKinds = 0 ∧ s.tre.stickyPorts = 0 ∧ s.tre.gapCount = 0) ∧
  ∀ p : PortIx, ∃ q : Port, s.port p = q ∧
    (q.state = .closed ∧ q.flow = .flowing ∧ q.holdAge = 0 ∧ q.timer = none ∧ q.roundCount = 0) ∧
    (q.refreshFlag = false ∧ q.selected = 0 ∧ q.applied = 0) ∧
    (q.assuredCursor = 0 ∧ q.tier1Cursor = 0 ∧ q.tier2Cursor = 0 ∧ q.tier3Cursor = 0) ∧
    (q.older = none ∧ q.younger = none ∧ q.nextTag = 0) ∧
    (q.roundLength = 100 ∧ q.kc = 1562 ∧ q.kf = 32 ∧ q.holdLimit = 0 ∧ q.doneLimit = 50) ∧
    (q.watchMode = .off ∧ q.watchLatch = ⟨false, false, false, false⟩) ∧ q.tally = ⟨0, 0, 0, 0, 0, 0, 0⟩ ∧
    ∀ src : SourceIx, (q.lane src).balance = 0 ∧ (q.lane src).list = [] ∧ (q.lane src).tally = ⟨0, 0, 0, 0, 0, 0⟩ ∧
      (q.lane src).entry = ⟨false, 0, 0, 0, .none, 0, 1, false, false, false⟩

/-! ## Registers -/

/-- A write to ATTN clears each of bits 7..4 written as 1, leaves those written as 0, does not take bits 3..0, and changes
nothing else (R159); a write to ATTN_MASK replaces bits 7..0 with those of the value and changes nothing else; the ATTN line
is driven low exactly while some flag is set with its mask bit set (R160). -/
def Obligations.AttentionRegisters : Prop :=
  (∀ (v : Word) (s : State), ∃ a : Byte, exec (.attnWrite v) s = .next { s with attn := a } ∧
    ∀ i : Fin 8, a.getLsbD i.val = (s.attn.getLsbD i.val && !(decide (4 ≤ i.val) && v.getLsbD i.val))) ∧
  (∀ (v : Word) (s : State), ∃ m : Byte, exec (.attnMaskWrite v) s = .next { s with attnMask := m } ∧
    ∀ i : Fin 8, m.getLsbD i.val = v.getLsbD i.val) ∧
  ∀ s : State, s.attnLineLow = true ↔ ∃ i : Fin 8, s.attn.getLsbD i.val = true ∧ s.attnMask.getLsbD i.val = true

/-- A write to a pointer register (R150). An address write starts an order on an IDLE channel; on a BUSY or DONE one it is
ignored and latches REJECT; after it an executor that is free takes the lowest-numbered waiting channel, or has not yet done
so when the next event is taken, which the command's `lag` says (R151; log 17). A zero write has no effect on an IDLE
channel, marks a waiting or executing one for abort, and releases a DONE one: the pointer becomes 0, the channel IDLE, CHn
clear. -/
def Obligations.PointerWriteOutcome : Prop :=
  (∀ (c : ChannelIx) (v : Word) (s u : State), v.extractLsb' 5 25 ≠ 0 →
    ((s.channel c).phase = .idle ∧ u = { s with channels := s.channels.set c ⟨.waiting, v.extractLsb' 5 25, false⟩ }) ∨
      ((s.channel c).phase ≠ .idle ∧ u = { s with attn := s.attn ||| 0x10#8 }) →
    exec (.addressWrite c v true) s = .next u ∧ exec (.addressWrite c v false) s = .next u.takeNext) ∧
  ∀ (c : ChannelIx) (v : Word) (bus : CompletionBus) (s : State), v.extractLsb' 5 25 = 0 →
    ((s.channel c).phase = .idle → exec (.zeroWrite c v bus) s = .next s) ∧
    ((s.channel c).phase = .waiting ∨ (s.channel c).phase = .executing →
      exec (.zeroWrite c v bus) s =
        .next { s with channels := s.channels.set c { s.channel c with abortReq := true } }) ∧
    (∀ f : Bool, (s.channel c).phase = .done f →
      exec (.zeroWrite c v bus) s = .next { s with
        channels := s.channels.set c ⟨.idle, 0, false⟩
        attn := s.attn &&& ~~~ (1#8 <<< c.val) })

/-- The executor's taking of channels (R151). Free, it takes the lowest-numbered waiting channel, which moves to the executing
phase, and whether that channel's mark was yes at that moment is settled then (R154); with none waiting it stays free, and
while it is busy it takes none. This is what follows an address write taken while it is free and the end of every order it
carries out (`takeNext` of the state at the completion, in the statements of the orders). A zero write to the channel taken,
after the taking, does not leave its order unread (R154). -/
def Obligations.ExecutorTakesWaitingChannel : Prop :=
  (∀ s : State, s.executor ≠ .free → s.takeNext = s) ∧
  (∀ s : State, (∀ c : ChannelIx, (s.channel c).phase ≠ .waiting) → s.takeNext = s) ∧
  (∀ (s : State) (c : ChannelIx), s.executor = .free → (s.channel c).phase = .waiting →
    (∀ d : ChannelIx, d < c → (s.channel d).phase ≠ .waiting) →
    s.takeNext = { s with
      executor := .taken c (s.channel c).abortReq
      channels := s.channels.set c ⟨.executing, (s.channel c).addr, (s.channel c).abortReq⟩ } ∧
    s.takeNext.Begins c (s.channel c).abortReq) ∧
  ∀ (s : State) (c : ChannelIx) (v : Word) (bus : CompletionBus) (u : Bool), v.extractLsb' 5 25 = 0 →
    s.executor = .taken c u → (s.channel c).phase = .executing →
    ∃ t : State, exec (.zeroWrite c v bus) s = .next t ∧ (t.channel c).abortReq = true ∧ t.Begins c u

/-- A zero write to the tracing channel reaches the armed trace: a holding record begins to be closed, none held ends the
order ABORTED with the written count as progress, and during a write, or while the mark is already set, the trace itself is
left as it stands (R150, R158, R175; log 12). -/
def Obligations.ZeroWriteReachesArmedTrace : Prop :=
  ∀ (c : ChannelIx) (v : Word) (bus : CompletionBus) (s : State) (tr : ArmedTrace),
    v.extractLsb' 5 25 = 0 → (s.channel c).phase = .tracing → s.tre.armed = some tr → tr.channel = c →
    ((s.channel c).abortReq = true → exec (.zeroWrite c v bus) s = .next s) ∧
    ((s.channel c).abortReq = false → tr.write ≠ none →
      exec (.zeroWrite c v bus) s =
        .next { s with channels := s.channels.set c { s.channel c with abortReq := true } }) ∧
    (∀ h : Holding, (s.channel c).abortReq = false → tr.write = none → tr.holding = some h →
      exec (.zeroWrite c v bus) s = .next { s with
        channels := s.channels.set c { s.channel c with abortReq := true }
        tre := { s.tre with armed := some { tr with holding := none, write := some (.holding h none .abort) } } }) ∧
    ((s.channel c).abortReq = false → tr.write = none → tr.holding = none →
      ∃ t : State, exec (.zeroWrite c v bus) s = .next t ∧
        s.TraceEnded s t tr .aborted tr.written 0 s.tre.gapCount.toNat bus)

/-- The register window (R147, R148, R159, R160). A write narrower than a word, or at an offset of no register, changes nothing.
A read of a whole word gives the register at that offset and zero at any other offset, one between two registers among
them; a narrower read gives the addressed bytes of the register. A pointer register reads DONE in bit 31, FAULT in bit 30, the
address held in bits 29..5 and zero in bits 4..0. -/
def Obligations.RegisterWindow : Prop :=
  (∀ (offset width : Nat) (v : Word) (s : State),
    width ≠ 4 ∨ offset ∉ [0x00, 0x04, 0x08, 0x0C, 0x10, 0x14] →
      exec (.unmappedRegisterWrite offset width v) s = .next s) ∧
  (∀ s : State,
    (∀ c : ChannelIx, s.readRegister (4 * c.val) = (s.channel c).pointer) ∧
    s.readRegister 0x10 = s.attn.setWidth 32 ∧ s.readRegister 0x14 = s.attnMask.setWidth 32 ∧
    (∀ offset : Nat, offset ∉ [0x00, 0x04, 0x08, 0x0C, 0x10, 0x14] → s.readRegister offset = 0) ∧
    (∀ offset : Nat, s.busRead offset 4 = (s.readRegister offset).toNat) ∧
    ∀ offset width : Nat, offset % 4 + width ≤ 4 → s.busRead offset width =
      (s.readRegister (offset - offset % 4)).toNat / 2 ^ (8 * (offset % 4)) % 2 ^ (8 * width)) ∧
  ∀ ch : Channel,
    (ch.pointer.getLsbD 31 = true ↔ ∃ f : Bool, ch.phase = .done f) ∧
    (ch.pointer.getLsbD 30 = true ↔ ch.phase = .done true) ∧
    ch.pointer.extractLsb' 5 25 = ch.addr ∧ ch.pointer.extractLsb' 0 5 = 0

/-! ## Completion -/

/-- The termination word (R155 step 3, Table 8-7, R157): complete in bit 31, summary error in bit 30, the detail in bits 23..8,
the status code in bits 7..0, and 0 in bits 29..24; summary error is set for codes 2 to 9 and 12 and clear for 0, 1, 10
and 11. -/
def Obligations.TerminationWord : Prop :=
  (Status.code .ok = 0 ∧ Status.code .aborted = 1 ∧ Status.code .badOrder = 2 ∧ Status.code .badPort = 3 ∧
    Status.code .moved = 4 ∧ Status.code .tableOverrun = 5 ∧ Status.code .duplicate = 6 ∧ Status.code .overbook = 7 ∧
    Status.code .memoryFault = 8 ∧ Status.code .conflict = 9 ∧ Status.code .full = 10 ∧ Status.code .stale = 11 ∧
    Status.code .wrongState = 12) ∧
  ∀ (st : Status) (detail : BitVec 16),
    ((terminationWord st detail).getLsbD 30 = true ↔ (2 ≤ st.code ∧ st.code ≤ 9) ∨ st.code = 12) ∧
    (terminationWord st detail).getLsbD 31 = true ∧ (terminationWord st detail).extractLsb' 24 6 = 0 ∧
    (terminationWord st detail).extractLsb' 8 16 = detail ∧
    (terminationWord st detail).extractLsb' 0 8 = BitVec.ofNat 8 st.code

/-- The completion of an order (R155, R156): the words written, word 1 with the successor in bits 27..24 and its other bits as
read when the status is MOVED and else untouched, words 0 and 2 to 5 untouched whatever the status, none written after a
failed write, and the channel DONE, with FAULT exactly when a write failed. That the word whose own write failed keeps the
bytes it had is the model's choice (log 28). -/
def Obligations.CompletionWritesAndMarksDone : Prop :=
  ∀ (s : State) (c : ChannelIx) (r : OrderResult) (w1 : Word) (bus : CompletionBus),
    ∃ t : State, s.complete c r w1 bus = t ∧ s.Completed t c r.status r.progress r.detail bus ∧
      t = { s with channels := t.channels, attn := t.attn, cardMem := t.cardMem } ∧
      (bus.progressOk = false → t.cardMem = s.cardMem) ∧
      (bus.progressOk = true → Memory.Holds t.cardMem ((s.channel c).blockAddress + 24) (wordBytes r.progress)) ∧
      (∀ i : Fin 24, r.status ≠ .moved ∨ i.val < 4 ∨ 8 ≤ i.val →
        Memory.read t.cardMem ((s.channel c).blockAddress + i.val) =
          Memory.read s.cardMem ((s.channel c).blockAddress + i.val)) ∧
      (r.status = .moved → bus.progressOk = true → bus.successorOk = true →
        ∃ w : Word, Memory.Holds t.cardMem ((s.channel c).blockAddress + 4) (wordBytes w) ∧
          w.extractLsb' 24 4 = BitVec.ofNat 4 r.successor.val ∧ w.extractLsb' 0 24 = w1.extractLsb' 0 24 ∧
          w.extractLsb' 28 4 = w1.extractLsb' 28 4) ∧
      (completionFails bus r.status = true → ∀ i : Fin 4,
        Memory.read t.cardMem ((s.channel c).blockAddress + 28 + i.val) =
          Memory.read s.cardMem ((s.channel c).blockAddress + 28 + i.val))

/-- Orders the executor does not carry out, each of which leaves it free to take the next waiting channel (R151). A channel
whose mark was set when it was taken completes ABORTED with detail 0 and progress 0, unread, whatever its block holds
(R154). Where the bus reports that the read of the order block failed, no word is written: the channel becomes DONE with
FAULT, its mark no, and CHn is latched (R156). An order code of no order completes BAD_ORDER with detail 0 and progress 0
(R152). No other block is touched. -/
def Obligations.OrdersNotCarriedOut : Prop :=
  (∀ (bus : CompletionBus) (s : State) (c : ChannelIx), s.Begins c true →
    (∃ t : State, exec (.abortedUnread bus) s = .next t.takeNext ∧ s.EndedUntouched t c .aborted 0 0 bus) ∧
    ∀ (i : Instr) (block : Option OrderBlock), i.order? = some (block, bus) →
      ∃ t : State, exec i s = .next t.takeNext ∧ s.EndedUntouched t c .aborted 0 0 bus) ∧
  (∀ (i : Instr) (bus : CompletionBus) (s : State) (c : ChannelIx), i.order? = some (none, bus) → s.CarriesOut c →
    exec i s = .next ({ s with
      executor := .free
      channels := s.channels.set c ⟨.done true, (s.channel c).addr, false⟩
      attn := s.attn ||| flagBit c.val } : State).takeNext) ∧
  ∀ (b : OrderBlock) (bus : CompletionBus) (s : State) (c : ChannelIx), s.CarriesOut c →
    ∃ t : State, exec (.unknownOrderCode (some b) bus) s = .next t.takeNext ∧ s.EndedUntouched t c .badOrder 0 0 bus

/-! ## The link -/

/-- The line and the link (R132, R133, R145). Asserting the line makes a DOWN link UP, with a new message to begin, and on an UP
link touches nothing but the line. On an UP link bytes are divided into messages by count alone (R133): fewer than 8 held
are kept, and the eighth makes a message whole, which LKI then takes or leaves to wait. On a DOWN link, the line withdrawn
and any inbound message change nothing but the line (log 8), and OUTBOUND_MESSAGE_SENT, an event such a state rules out,
changes nothing (the model's choice, log 2). -/
def Obligations.LinkUpAndDown : Prop :=
  ∀ s : State,
    (s.linkUp = true →
      exec .linkUp s = .next { s with linkReady := true } ∧
      (∀ (bs : List Byte) (later : Bool), s.inPartial.length + bs.length < 8 →
        receiveBytes bs later s = { s with inPartial := s.inPartial ++ bs }) ∧
      ∀ (bs : List Byte) (later : Bool) (m : Message), bs ≠ [] → s.inPartial ++ bs = m.toList →
        receiveBytes bs later s = ({ s with inPartial := [] } : State).receive (parseMessage m later)) ∧
    (∀ (bs bs' : List Byte) (later : Bool), receiveBytes (bs ++ bs') later s = receiveBytes bs' later (receiveBytes bs later s)) ∧
    (∀ (bytes : List Byte) (later : Bool), exec (.badMessage bytes later) s = .next (receiveBytes bytes later s)) ∧
    (∀ (p : PortIx) (src : SourceIx) (len : BitVec 14) (h : BitVec 16) (later : Bool),
      exec (.arrival p src len h later) s = .next (receiveBytes (Message.ofArrival p src len h).toList later s)) ∧
    (∀ (p : PortIx) (tag : Byte) (later : Bool),
      exec (.done p tag later) s = .next (receiveBytes (Message.ofDone p tag).toList later s)) ∧
    (∀ p : PortIx, exec (.hold p) s = .next (receiveBytes (Message.ofHold p).toList false s)) ∧
    (∀ (p : PortIx) (later : Bool), exec (.resume p later) s = .next (receiveBytes (Message.ofResume p).toList later s)) ∧
    (∀ m : BitVec 16, exec (.clock m) s = .next (receiveBytes (Message.ofClock m).toList false s)) ∧
    (s.linkUp = false →
      exec .linkUp s = .next { s with linkReady := true, linkUp := true, inPartial := [] } ∧
      (∀ order : List PortIx, exec (.linkLoss order) s = .next { s with linkReady := false }) ∧
      (∀ (p : PortIx) (src : SourceIx) (len : BitVec 14) (h : BitVec 16) (later : Bool),
        exec (.arrival p src len h later) s = .next s) ∧
      (∀ (p : PortIx) (tag : Byte) (later : Bool), exec (.done p tag later) s = .next s) ∧ (∀ p : PortIx, exec (.hold p) s = .next s) ∧
      (∀ (p : PortIx) (later : Bool), exec (.resume p later) s = .next s) ∧ (∀ m : BitVec 16, exec (.clock m) s = .next s) ∧
      (∀ (bytes : List Byte) (later : Bool), exec (.badMessage bytes later) s = .next s) ∧ exec .outboundMessageSent s = .next s)

/-- LINK_LOSS on an UP link (R44, R93, R94, R145). The link is DOWN, the partial and waiting inbound messages and the outbound
queue are gone, the pool is all free and ABOVE, PORT_WATCH is latched; the bad-message count, shares, levels, clock,
channels, executor and card memory stay. At each port both slots are freed with no tally, the flow is HELD with hold age 0,
DRAINING becomes CLOSED, a STALLED OPEN port's timer starts a full round, LINK joins the watch latch, and every list is
emptied and counted as discards; all else of the port stays. One PURGE record per lane that held entries, in ascending port
and source order with the number of entries, comes before one LINK record per port in the order given (log 10). -/
def Obligations.LinkLossOutcome : Prop :=
  ∀ (order : List PortIx) (s : State), s.linkUp = true → order.Nodup → order.length = 16 →
    ∃ t : State, exec (.linkLoss order) s = .next t ∧
      t = { s with
        ports := t.ports, linkReady := false, linkUp := false, inPartial := [], inWaiting := [], outQueue := []
        freeCount := 8192, poolBelow := false, attn := s.attn ||| 0x40#8
        tre := { s.tre with
          offered := s.tre.offered ++
            ((allPorts.flatMap fun p => (allSources.filter fun src => !(s.lane p src).list.isEmpty).map fun src =>
              ⟨.purge, p, src, 0, BitVec.ofNat 16 (s.lane p src).list.length, (s.port p).roundCount, s.minute⟩) ++
            order.map fun p => ⟨.link, p, 0, 0, 0, (s.port p).roundCount, s.minute⟩) } } ∧
      ∀ p : PortIx, (∀ src : SourceIx, t.lane p src = { s.lane p src with list := [] }) ∧
        t.port p = { s.port p with
          lanes := (t.port p).lanes
          older := none
          younger := none
          flow := .held
          holdAge := 0
          watchLatch := { (s.port p).watchLatch with link := true }
          state := if (s.port p).state = .draining then .closed else (s.port p).state
          timer :=
            if (s.port p).state = .draining then none
            else if (s.port p).state = .opened ∧ (s.port p).flow = .stalled then some (s.port p).roundLength
            else (s.port p).timer
          tally := { (s.port p).tally with discards := satAdd (s.port p).tally.discards (s.port p).listTotal } }

/-- While 256 or more messages wait outbound, or a message waits already, an inbound message waits on the link behind those
before it and changes nothing else (R135; log 7). OUTBOUND_MESSAGE_SENT takes the message at the head of the queue (R142).
Messages that wait on the link are taken in order, each as soon as fewer than 256 wait outbound (R135): that they are taken
within that same command is the model's choice (log 7), and that OUTBOUND_MESSAGE_SENT on an empty queue, an event such a
state rules out, changes nothing is the model's choice too (log 2). -/
def Obligations.LinkQueues : Prop :=
  (∀ s : State, s.linkUp = true → s.inPartial = [] → 256 ≤ s.outQueue.length ∨ s.inWaiting ≠ [] →
    (∀ (p : PortIx) (src : SourceIx) (len : BitVec 14) (h : BitVec 16) (later : Bool), exec (.arrival p src len h later) s =
      .next { s with inWaiting := s.inWaiting ++ [.arrival p src len h later] }) ∧
    (∀ (p : PortIx) (tag : Byte) (later : Bool), exec (.done p tag later) s =
      .next { s with inWaiting := s.inWaiting ++ [.done p tag later] }) ∧
    (∀ p : PortIx, exec (.hold p) s = .next { s with inWaiting := s.inWaiting ++ [.hold p] }) ∧
    (∀ (p : PortIx) (later : Bool), exec (.resume p later) s =
      .next { s with inWaiting := s.inWaiting ++ [.resume p later] }) ∧
    (∀ m : BitVec 16, exec (.clock m) s = .next { s with inWaiting := s.inWaiting ++ [.clock m] }) ∧
    (∀ (m : Message) (later : Bool), Message.good m = false → exec (.badMessage m.toList later) s =
      .next { s with inWaiting := s.inWaiting ++ [.bad] })) ∧
  (∀ (m : Message) (rest : List Message) (s : State), s.linkUp = true → s.outQueue = m :: rest →
    (s.inWaiting = [] ∨ 256 ≤ rest.length → exec .outboundMessageSent s = .next { s with outQueue := rest }) ∧
    (∀ (w : Inbound) (ws : List Inbound), s.inWaiting = w :: ws → rest.length < 256 →
      exec .outboundMessageSent s = .next (takeWaiting ws (({ s with outQueue := rest } : State).deliver w)))) ∧
  (∀ s : State, s.linkUp = true → s.outQueue = [] → exec .outboundMessageSent s = .next s) ∧
  (∀ s : State, takeWaiting [] s = { s with inWaiting := [] }) ∧
  ∀ (w : Inbound) (ws : List Inbound) (s : State), takeWaiting (w :: ws) s =
    if s.outQueue.length < 256 then takeWaiting ws (s.deliver w) else { s with inWaiting := w :: ws }

/-- Bad messages (R134, R136, R137). A message has a good check exactly when its eight bytes sum to 255 modulo 256, and exactly
when byte 7 is 255 minus the sum of bytes 0 to 6; messages of all-zero and of all-0xFF bytes have a bad check; every message
built with its check byte, and so every ANSWER, RELEASE and DISCARD, has a good check; a good message with one byte damaged
has a bad check. A bad message is counted, up to 65535, latches LINK_FAULT, and affects no port, lane, slot or list. -/
def Obligations.BadMessages : Prop :=
  (∀ m : Message, Message.goodCheck m = true ↔ (m.toList.map BitVec.toNat).sum % 256 = 255) ∧
  (∀ m : Message, Message.goodCheck m = true ↔ m[7] = 255#8 - (m[0] + m[1] + m[2] + m[3] + m[4] + m[5] + m[6])) ∧
  Message.goodCheck (Vector.replicate 8 0x00) = false ∧ Message.goodCheck (Vector.replicate 8 0xFF) = false ∧
  (∀ b0 b1 b2 b3 b4 b5 b6 : Byte, Message.goodCheck (Message.withCheck b0 b1 b2 b3 b4 b5 b6) = true) ∧
  (∀ (p : PortIx) (src : SourceIx) (v tag : Byte) (x : PortIx) (h : BitVec 16) (len : BitVec 14),
    Message.goodCheck (Message.ofAnswer p src v x h) = true ∧ Message.goodCheck (Message.ofRelease p src h tag len) = true ∧
    Message.goodCheck (Message.ofDiscard p src h) = true) ∧
  (∀ (m : Message) (i : Fin 8) (b : Byte), Message.goodCheck m = true → b ≠ m[i] → Message.goodCheck (m.set i b) = false) ∧
  ∀ (m : Message) (later : Bool) (s : State), s.TakesAtOnce → Message.good m = false →
    exec (.badMessage m.toList later) s = .next { s with
      badCount := BitVec.ofNat 16 (min (s.badCount.toNat + 1) 65535)
      attn := s.attn ||| 0x80#8 }

/-- The fields of every inbound message are read from the bits of Table 7-1, whatever the bits not read hold, and any other kind
is bad (R135, R136, R138 to R141); bytes 0 to 6 of the outbound messages, with the bits marked 0 sent as 0 (R138, R143, R144). -/
def Obligations.MessageLayouts : Prop :=
  (∀ (b0 b1 b2 b3 b4 b5 b6 : Byte) (later : Bool), ∃ m : Message, m = Message.withCheck b0 b1 b2 b3 b4 b5 b6 ∧
    (b0.toNat / 16 = 1 → parseMessage m later = .arrival (Fin.ofNat 16 b0.toNat) (Fin.ofNat 64 b1.toNat)
      (BitVec.ofNat 14 (b2.toNat + 256 * b3.toNat)) (BitVec.ofNat 16 (b4.toNat + 256 * b5.toNat)) later) ∧
    (b0.toNat / 16 = 2 → parseMessage m later = .done (Fin.ofNat 16 b0.toNat) b1 later) ∧
    (b0.toNat / 16 = 3 → parseMessage m later = .hold (Fin.ofNat 16 b0.toNat)) ∧
    (b0.toNat / 16 = 4 → parseMessage m later = .resume (Fin.ofNat 16 b0.toNat) later) ∧
    (b0.toNat / 16 = 5 → parseMessage m later = .clock (BitVec.ofNat 16 (b1.toNat + 256 * b2.toNat))) ∧
    (b0.toNat / 16 = 0 ∨ 6 ≤ b0.toNat / 16 → parseMessage m later = .bad)) ∧
  (∀ (p : PortIx) (src : SourceIx) (v : Byte) (x : PortIx) (h : BitVec 16),
    ((Message.ofAnswer p src v x h).toList.take 7).map BitVec.toNat =
      [128 + p.val, src.val, v.toNat, x.val, h.toNat % 256, h.toNat / 256, 0]) ∧
  (∀ (p : PortIx) (src : SourceIx) (h : BitVec 16) (tag : Byte) (len : BitVec 14),
    ((Message.ofRelease p src h tag len).toList.take 7).map BitVec.toNat =
      [144 + p.val, src.val, h.toNat % 256, h.toNat / 256, tag.toNat, len.toNat % 256, len.toNat / 256]) ∧
  (∀ (p : PortIx) (src : SourceIx) (h : BitVec 16),
    ((Message.ofDiscard p src h).toList.take 7).map BitVec.toNat =
      [160 + p.val, src.val, h.toNat % 256, h.toNat / 256, 0, 0, 0])

/-! ## Arrivals -/

/-- The admission checks in the order of Table 2-1: the first condition that holds gives the reason, and none holding admits
the frame (R29).
A refused ARRIVAL is answered with the reason and, for MOVED, the successor; counts one refusal on the lane named; offers a
REFUSAL record with the reason code and the length raised to 64; and leaves the pool, every list and all else as they stand
(R31, R143, R169). -/
def Obligations.AdmissionAndRefusal : Prop :=
  (∀ (p : PortIx) (src : SourceIx) (len : BitVec 14) (s : State),
     (∀ x : PortIx, (s.port p).state = .retired x → s.admissionCheck p src len = some (.moved x)) ∧
     ((s.port p).state = .closed ∨ (s.port p).state = .draining → s.admissionCheck p src len = some .portClosed) ∧
     ((s.port p).state = .opened →
       ((s.lane p src).entry.isOpen = false → s.admissionCheck p src len = some .laneClosed) ∧
       ((s.lane p src).entry.isOpen = true → 9216 < len.toNat → s.admissionCheck p src len = some .oversize) ∧
       ((s.lane p src).entry.isOpen = true → len.toNat ≤ 9216 → (s.lane p src).entry.qmax.toNat ≤ (s.lane p src).list.length →
         s.admissionCheck p src len = some .laneFull) ∧
       ((s.lane p src).entry.isOpen = true → len.toNat ≤ 9216 → (s.lane p src).list.length < (s.lane p src).entry.qmax.toNat →
         (s.freeCount = 0 → s.admissionCheck p src len = some .poolEmpty) ∧
         (s.freeCount ≠ 0 → s.freeCount < s.reserve.toNat → (s.lane p src).entry.prot = false →
           s.admissionCheck p src len = some .poolReserved) ∧
         (s.freeCount ≠ 0 → s.reserve.toNat ≤ s.freeCount ∨ (s.lane p src).entry.prot = true →
           s.admissionCheck p src len = none)))) ∧
  ∀ (p : PortIx) (src : SourceIx) (len : BitVec 14) (h : BitVec 16) (later : Bool) (r : RefusalReason) (s : State),
    s.TakesAtOnce → s.admissionCheck p src len = some r →
    exec (.arrival p src len h later) s = .next { s with
      outQueue := s.outQueue ++ [Message.ofAnswer p src r.code r.successor h]
      ports := s.ports.set p ((s.port p).setLane src { s.lane p src with
        tally := { (s.lane p src).tally with
          refusals := BitVec.ofNat 32 (min ((s.lane p src).tally.refusals.toNat + 1) 4294967295) } })
      tre := { s.tre with offered := s.tre.offered ++
        [⟨.refusal, p, src, r.code, BitVec.ofNat 16 (max len.toNat 64), (s.port p).roundCount, s.minute⟩] } }

/-- An accepted ARRIVAL: the entry joins the tail with the length raised to 64, one entry leaves the free list, an ACCEPT is
answered, the peak depth rises to the new length when that is greater, and POOL_LOW is latched exactly when the pool-low
state goes from ABOVE to BELOW; a list that was empty before has the port test the release condition (R30, R32, R37, R47),
its second decision made at once or left for later as the command's `later` says (R48; log 1). -/
def Obligations.AcceptedArrivalOutcome : Prop :=
  ∀ (p : PortIx) (src : SourceIx) (len : BitVec 14) (h : BitVec 16) (later : Bool) (s : State),
    s.TakesAtOnce → s.admissionCheck p src len = none →
    ∃ u : State, u = { s with
      outQueue := s.outQueue ++ [Message.ofAnswer p src 0 0 h]
      ports := s.ports.set p ((s.port p).setLane src { s.lane p src with
        list := (s.lane p src).list ++ [⟨h, BitVec.ofNat 14 (max len.toNat 64)⟩]
        tally := { (s.lane p src).tally with
          peak :=
            if (s.lane p src).tally.peak.toNat < (s.lane p src).list.length + 1 then
              BitVec.ofNat 8 (min ((s.lane p src).list.length + 1) 255)
            else (s.lane p src).tally.peak } })
      freeCount := s.freeCount - 1
      poolBelow := decide (s.freeCount - 1 < s.warning.toNat)
      attn := if s.poolBelow = false ∧ s.freeCount - 1 < s.warning.toNat then s.attn ||| 0x20#8 else s.attn } ∧
      ((s.lane p src).list ≠ [] → exec (.arrival p src len h later) s = .next u) ∧
      ((s.lane p src).list = [] → exec (.arrival p src len h later) s = .next (u.endEvent p later))

/-- An accepted ARRIVAL for an otherwise empty OPEN and FLOWING port with both slots free, on a lane that holds the credit for
the frame: the ANSWER is followed by the RELEASE under the port's next tag, the older slot is filled, the lane pays u, and the
pool, the lists and everything not named stand as before (R30, R46, R54, R55). A second decision left for later is owed by the
port (R48; log 1). -/
def Obligations.ArrivalReleasedAtOnce : Prop :=
  ∀ (p : PortIx) (src : SourceIx) (len : BitVec 14) (h : BitVec 16) (later : Bool) (s : State),
    s.TakesAtOnce → s.admissionCheck p src len = none →
    (s.port p).state = .opened → (s.port p).flow = .flowing → (s.port p).older = none → (s.port p).younger = none →
    (∀ x : SourceIx, (s.lane p x).list = []) →
    hasRate (s.lane p src).entry.gc (s.lane p src).entry.gf = true →
    (((max len.toNat 64 + 7) / 8 : Nat) : Int) ≤ (s.lane p src).balance →
    ∃ t : State, exec (.arrival p src len h later) s = .next t ∧
      t = { s with
        retests := if later then s.retests ++ [p] else s.retests
        ports := t.ports
        attn := if s.poolBelow = false ∧ s.freeCount - 1 < s.warning.toNat then s.attn ||| 0x20#8 else s.attn
        poolBelow := decide (s.freeCount < s.warning.toNat)
        outQueue := s.outQueue ++ [Message.ofAnswer p src 0 0 h,
          Message.ofRelease p src h (s.port p).nextTag (BitVec.ofNat 14 (max len.toNat 64))]
        tre := { s.tre with offered := s.tre.offered ++ [⟨.releaseA, p, src, (s.port p).nextTag,
          BitVec.ofNat 16 (max len.toNat 64), (s.port p).roundCount, s.minute⟩] } } ∧
      (∀ p' : PortIx, p' ≠ p → t.port p' = s.port p') ∧ (∀ x : SourceIx, x ≠ src → t.lane p x = s.lane p x) ∧
      t.port p = { s.port p with
        lanes := (t.port p).lanes
        assuredCursor := src
        older := some ⟨src, h, BitVec.ofNat 14 (max len.toNat 64), .assured, (s.port p).nextTag, 0⟩
        nextTag := (s.port p).nextTag + 1
        tally := { (s.port p).tally with releases := satAdd (s.port p).tally.releases 1 } } ∧
      t.lane p src = { s.lane p src with
        balance := (s.lane p src).balance - ((max len.toNat 64 + 7) / 8 : Nat)
        tally := { (s.lane p src).tally with
          peak := if (s.lane p src).tally.peak = 0 then 1 else (s.lane p src).tally.peak
          framesReleased := satAdd (s.lane p src).tally.framesReleased 1
          assuredBytes := satAdd (s.lane p src).tally.assuredBytes (max len.toNat 64) } }

/-! ## Eligibility and arbitration -/

/-- The stored length is the length raised to 64 and the frame size is ceil(L/8) credit units (R6). A lane is assured-eligible
when its list holds a frame, it is open with a nonzero rate, and its balance is at least the head's u or equals its effective
cap (R15); surplus-eligible when its list holds a frame, it is open, and its tier is not NONE (R16). -/
def Obligations.EligibilityRules : Prop :=
  (∀ len : BitVec 14, (storedLength len).toNat = max len.toNat 64) ∧
  (∀ len : BitVec 14, 8 * frameSize len < len.toNat + 8 ∧ len.toNat ≤ 8 * frameSize len) ∧
  ∀ l : Lane,
    (l.assuredEligible = true ↔
      ∃ (e : Entry) (rest : List Entry), l.list = e :: rest ∧ l.entry.isOpen = true ∧
        (l.entry.gc ≠ 0 ∨ l.entry.gf ≠ 0) ∧
        ((frameSize e.len : Int) ≤ l.balance ∨ l.balance = (l.entry.cap.toNat : Int))) ∧
    (l.surplusEligible = true ↔ l.list ≠ [] ∧ l.entry.isOpen = true ∧ l.entry.tier ≠ .none)

/-- The choice of a release (R49 to R52). The assured pass chooses, among the assured-eligible lanes of the lowest urgency any
of them holds, the first met in circular order after the assured cursor, moves that cursor to it and no other, and is an
assured send. When no lane is assured-eligible, the chain chooses the first tier of 1, 2, 3 with a waiting lane and, in it,
the lane met first in circular order after that tier's cursor; that cursor alone moves, and the release is a surplus send.
Nothing is chosen exactly when no lane is eligible. -/
def Obligations.ReleaseChoice : Prop :=
  (∀ q : Port,
    ((∀ x : SourceIx, (q.lane x).assuredEligible = false) ↔ q.assuredChoice = none) ∧
    ∀ src : SourceIx, q.assuredChoice = some src →
      q.decision = some (src, .assured, { q with assuredCursor := src }) ∧ (q.lane src).assuredEligible = true ∧
      ∀ x : SourceIx, (q.lane x).assuredEligible = true →
        (q.lane src).entry.urgency ≤ (q.lane x).entry.urgency ∧
        ((q.lane x).entry.urgency = (q.lane src).entry.urgency →
          (src.val + 63 - q.assuredCursor.val) % 64 ≤ (x.val + 63 - q.assuredCursor.val) % 64)) ∧
  ∀ q : Port, q.assuredChoice = none →
    ((∀ x : SourceIx, (q.lane x).surplusEligible = false) ↔ q.decision = none) ∧
    ∀ (src : SourceIx) (kind : SendKind) (q' : Port), q.decision = some (src, kind, q') →
      kind = .surplus ∧ (q.lane src).surplusEligible = true ∧ q' = q.setTierCursor (q.lane src).entry.tier src ∧
      q'.assuredCursor = q.assuredCursor ∧
      ∀ x : SourceIx, (q.lane x).surplusEligible = true →
        (chainTiers.idxOf (q.lane src).entry.tier < chainTiers.idxOf (q.lane x).entry.tier) ∨
        (q.lane x).entry.tier = (q.lane src).entry.tier ∧
          (src.val + 63 - (q.tierCursor (q.lane src).entry.tier).val) % 64 ≤
            (x.val + 63 - (q.tierCursor (q.lane src).entry.tier).val) % 64

/-- The release condition (R46): a release is made exactly when the port is OPEN or DRAINING, its flow FLOWING, a slot free, and
some lane assured-eligible or surplus-eligible. A test of it leaves it false, after at most two releases (R47, R48). An
event of the port ends with that test and the drain rule; where its second decision is left for later, at most one release
is made, and the port then owes the second decision behind those owed before (R48; log 1). The drain rule makes a DRAINING
port with empty lists and both slots free CLOSED, its timer stopped, and touches nothing else (R84). -/
def Obligations.ReleaseConditionAndDrainRule : Prop :=
  ∀ (s : State) (p : PortIx),
    ((s.releaseOnce p).isSome = true ↔
      ((s.port p).state = .opened ∨ (s.port p).state = .draining) ∧ (s.port p).flow = .flowing ∧
      ((s.port p).older = none ∨ (s.port p).younger = none) ∧
      ∃ x : SourceIx, (s.lane p x).assuredEligible = true ∨ (s.lane p x).surplusEligible = true) ∧
    (s.releaseTest p).releaseOnce p = none ∧
    (s.releaseTest p = s ∨ s.releaseOnce p = some (s.releaseTest p) ∨
      ∃ u : State, s.releaseOnce p = some u ∧ u.releaseOnce p = some (s.releaseTest p)) ∧
    s.testAndDrain p = (s.releaseTest p).drain p ∧ s.endEvent p false = s.testAndDrain p ∧
    (s.releaseOnce p = none → s.endEvent p true = s.drain p) ∧
    (∀ u : State, s.releaseOnce p = some u →
      s.endEvent p true = ({ u with retests := s.retests ++ [p] } : State).drain p ∧ u.retests = s.retests) ∧
    ((s.port p).state = .draining → (∀ x : SourceIx, (s.lane p x).list = []) → (s.port p).older = none →
      (s.port p).younger = none →
      s.drain p = { s with ports := s.ports.set p { s.port p with state := .closed, timer := none } }) ∧
    ((s.port p).state ≠ .draining ∨ (∃ x : SourceIx, (s.lane p x).list ≠ []) ∨ (s.port p).older ≠ none ∨
      (s.port p).younger ≠ none → s.drain p = s)

/-- One release (R38, R53 to R55): the head entry leaves the chosen lane's list and returns to the free list, the slot that is
free (the older first) takes it under the next tag with age 0, the next tag advances, an assured send pays u, the tallies
rise, one RELEASE is handed over and one record offered; every other port and lane and everything else stays. -/
def Obligations.ReleaseOutcome : Prop :=
  ∀ (s t : State) (p : PortIx), s.releaseOnce p = some t →
    ∃ (src : SourceIx) (kind : SendKind) (q' : Port) (e : Entry) (rest : List Entry),
      (s.port p).decision = some (src, kind, q') ∧ (s.lane p src).list = e :: rest ∧
      t = { s with
        ports := t.ports
        freeCount := s.freeCount + 1
        poolBelow := decide (s.freeCount + 1 < s.warning.toNat)
        outQueue := if s.linkUp then s.outQueue ++ [Message.ofRelease p src e.handle (s.port p).nextTag e.len] else s.outQueue
        tre := { s.tre with offered := s.tre.offered ++ [⟨releaseKind kind, p, src, (s.port p).nextTag,
          e.len.setWidth 16, (s.port p).roundCount, s.minute⟩] } } ∧
      (∀ p' : PortIx, p' ≠ p → t.port p' = s.port p') ∧ (∀ x : SourceIx, x ≠ src → t.lane p x = s.lane p x) ∧
      t.port p = { q' with
        lanes := (t.port p).lanes
        older := if (s.port p).older = none then some ⟨src, e.handle, e.len, kind, (s.port p).nextTag, 0⟩ else (s.port p).older
        younger :=
          if (s.port p).older = none then (s.port p).younger
          else some ⟨src, e.handle, e.len, kind, (s.port p).nextTag, 0⟩
        nextTag := (s.port p).nextTag + 1
        tally := { (s.port p).tally with releases := satAdd (s.port p).tally.releases 1 } } ∧
      t.lane p src = { s.lane p src with
        list := rest
        balance := if kind = .assured then (s.lane p src).balance - (frameSize e.len : Int) else (s.lane p src).balance
        tally := { (s.lane p src).tally with
          framesReleased := satAdd (s.lane p src).tally.framesReleased 1
          assuredBytes :=
            if kind = .assured then satAdd (s.lane p src).tally.assuredBytes e.len.toNat else (s.lane p src).tally.assuredBytes
          surplusBytes :=
            if kind = .assured then (s.lane p src).tally.surplusBytes
            else satAdd (s.lane p src).tally.surplusBytes e.len.toNat } }

/-! ## DONE, HOLD, RESUME, CLOCK -/

/-- DONE (R60, R64 to R66): the older tag frees the older slot, into which the younger moves; else the younger tag frees both
and counts one implied done; the release condition and the drain rule follow, a second decision made at once or left for later
(R48; log 1). Any other tag is stale: it is counted and nothing else changes. -/
def Obligations.DoneOutcome : Prop :=
  ∀ (p : PortIx) (tag : Byte) (later : Bool) (s : State), s.TakesAtOnce →
    (∀ a : Slot, (s.port p).older = some a → a.tag = tag → exec (.done p tag later) s =
      .next (({ s with
        ports := s.ports.set p { s.port p with older := (s.port p).younger, younger := none } } : State).endEvent p later)) ∧
    (∀ b : Slot, (∀ a : Slot, (s.port p).older = some a → a.tag ≠ tag) → (s.port p).younger = some b → b.tag = tag →
      exec (.done p tag later) s = .next (({ s with
        ports := s.ports.set p { s.port p with
          older := none
          younger := none
          tally := { (s.port p).tally with
            impliedDone := BitVec.ofNat 16 (min ((s.port p).tally.impliedDone.toNat + 1) 65535) } } } : State).endEvent p later)) ∧
    ((∀ a : Slot, (s.port p).older = some a → a.tag ≠ tag) → (∀ b : Slot, (s.port p).younger = some b → b.tag ≠ tag) →
      exec (.done p tag later) s = .next { s with
        ports := s.ports.set p { s.port p with tally := { (s.port p).tally with
          staleDone := BitVec.ofNat 16 (min ((s.port p).tally.staleDone.toNat + 1) 65535) } } })

/-- HOLD (R77, R83): on a FLOWING port the flow becomes HELD with hold age 0, a hold is counted and a HOLD record offered; in
every flow HOLD joins the watch latch, and PORT_WATCH is latched when the watch mode is HOLD or BOTH; all else stays.
RESUME (R79, R83): in every flow RESUME joins the watch latch, and PORT_WATCH is latched when the watch mode is RESUME or
BOTH. A HELD or STALLED port becomes FLOWING with its hold age kept and a RESUME record offered; a STALLED one that is OPEN or
DRAINING starts a full round; then the release condition and the drain rule follow, a second decision made at once or left
for later (R48; log 1). On a FLOWING port nothing else changes. -/
def Obligations.HoldAndResumeOutcome : Prop :=
  (∀ (p : PortIx) (s : State), s.TakesAtOnce →
     ((s.port p).flow = .flowing → exec (.hold p) s = .next { s with
       ports := s.ports.set p { s.port p with
         flow := .held
         holdAge := 0
         watchLatch := { (s.port p).watchLatch with hold := true }
         tally := { (s.port p).tally with holds := BitVec.ofNat 16 (min ((s.port p).tally.holds.toNat + 1) 65535) } }
       tre := { s.tre with offered := s.tre.offered ++ [⟨.hold, p, 0, 0, 0, (s.port p).roundCount, s.minute⟩] }
       attn := if (s.port p).watchMode = .hold ∨ (s.port p).watchMode = .both then s.attn ||| 0x40#8 else s.attn }) ∧
     ((s.port p).flow ≠ .flowing → exec (.hold p) s = .next { s with
       ports := s.ports.set p { s.port p with watchLatch := { (s.port p).watchLatch with hold := true } }
       attn := if (s.port p).watchMode = .hold ∨ (s.port p).watchMode = .both then s.attn ||| 0x40#8 else s.attn })) ∧
  ∀ (p : PortIx) (later : Bool) (s : State), s.TakesAtOnce →
    ((s.port p).flow = .flowing → exec (.resume p later) s = .next { s with
      ports := s.ports.set p { s.port p with watchLatch := { (s.port p).watchLatch with resume := true } }
      attn := if (s.port p).watchMode = .resume ∨ (s.port p).watchMode = .both then s.attn ||| 0x40#8 else s.attn }) ∧
    ((s.port p).flow ≠ .flowing → exec (.resume p later) s = .next (({ s with
      ports := s.ports.set p { s.port p with
        flow := .flowing
        watchLatch := { (s.port p).watchLatch with resume := true }
        timer :=
          if (s.port p).flow = .stalled then
            (if (s.port p).state = .opened ∨ (s.port p).state = .draining then some (s.port p).roundLength else none)
          else (s.port p).timer }
      tre := { s.tre with offered := s.tre.offered ++ [⟨.resume, p, 0, 0, 0, (s.port p).roundCount, s.minute⟩] }
      attn := if (s.port p).watchMode = .resume ∨ (s.port p).watchMode = .both then s.attn ||| 0x40#8 else s.attn }
      : State).endEvent p later))

/-- CLOCK (R98, R101): a minute of 1440 or above is ignored; the minute already held of a valid clock changes nothing; any
other sets the minute and the mark and reselects every port, setting the refresh flag of each port whose selection changes. -/
def Obligations.ClockOutcome : Prop :=
  ∀ (m : BitVec 16) (s : State), s.TakesAtOnce →
    (1440 ≤ m.toNat → exec (.clock m) s = .next s) ∧
    (s.clockValid = true → m.toNat = s.minute.val → exec (.clock m) s = .next s) ∧
    (∀ h : m.toNat < 1440, s.clockValid = false ∨ m.toNat ≠ s.minute.val →
      ∃ t : State, exec (.clock m) s = .next t ∧
        t = { s with minute := ⟨m.toNat, h⟩, clockValid := true, ports := t.ports } ∧
        ∀ p : PortIx, ∃ k : ProfileIx,
          k = ({ s with minute := ⟨m.toNat, h⟩, clockValid := true } : State).selectFor p ∧
          t.port p = { s.port p with
            selected := k
            refreshFlag := (s.port p).refreshFlag || decide ((s.port p).selected ≠ k) })

/-- A window contains the minutes from its start up to but not including its end, round midnight where the end lies below the
start, and none when they are equal (R97). The selection is profile 0 while the clock is invalid or no profile is a candidate;
else the candidate whose window opened most recently, the lowest-numbered of those with the same age (R100). -/
def Obligations.WindowsAndSelection : Prop :=
  (∀ (w : Window) (m : Minute),
    w.contains m = true ↔
      (m.val + 1440 - w.start.val) % 1440 < (w.stop.val + 1440 - w.start.val) % 1440) ∧
  ∀ (s : State) (p : PortIx),
    (s.clockValid = false → s.selectFor p = 0) ∧
    ((∀ k : ProfileIx, s.candidate p k = false) → s.selectFor p = 0) ∧
    (s.clockValid = true → (∃ k : ProfileIx, s.candidate p k = true) →
      s.candidate p (s.selectFor p) = true ∧
      ∀ k : ProfileIx, s.candidate p k = true →
        s.windowAge (s.selectFor p) < s.windowAge k ∨
        (s.windowAge (s.selectFor p) = s.windowAge k ∧ s.selectFor p ≤ k))

/-! ## Round expiry -/

/-- The extra unit of a lane is 1 when the 6-bit reversal of (n + s) mod 64 is below Gf, else 0; the reversal of a 6-bit index
has bit 5 - i where the index has bit i (R11). Over any 64 consecutive round expiries the dither gives a lane exactly Gf
extra units, the wrap of the round count included (R13). -/
def Obligations.DitherRule : Prop :=
  (∀ (n : BitVec 32) (src : SourceIx) (gf : BitVec 6),
    extraUnit n src gf = if reverse6 ((n.toNat + src.val) % 64) < gf.toNat then 1 else 0) ∧
  (∀ d : Fin 64, reverse6 d.val < 64 ∧ ∀ i : Fin 6, (reverse6 d.val).testBit (5 - i.val) = d.val.testBit i.val) ∧
  ∀ (n : BitVec 32) (src : SourceIx) (gf : BitVec 6),
    ((List.range 64).map fun i => extraUnit (n + BitVec.ofNat 32 i) src gf).sum = gf.toNat

/-- Accrual (R10, R12): an open lane with a rate takes the smaller of A + Gc + e and its cap, and what lies above the cap is its
spill; every other lane is passed over. The refresh balance rule (R22): 0 for a new entry of rate 0, with no spill; else a
balance above the new cap is brought down to it and the difference is spill; else the balance is kept. -/
def Obligations.BalanceRules : Prop :=
  (∀ (n : BitVec 32) (src : SourceIx) (l : Lane),
    (l.entry.isOpen = true → l.entry.gc ≠ 0 ∨ l.entry.gf ≠ 0 →
      l.accrue n src = { l with
        balance := min (l.balance + l.entry.gc.toNat + extraUnit n src l.entry.gf) l.entry.cap.toNat
        tally := { l.tally with
          spill := satAdd l.tally.spill
            (l.balance + l.entry.gc.toNat + extraUnit n src l.entry.gf - l.entry.cap.toNat).toNat } }) ∧
    (l.entry.isOpen = false ∨ (l.entry.gc = 0 ∧ l.entry.gf = 0) → l.accrue n src = l)) ∧
  ∀ (e : EffEntry) (l : Lane),
    (e.gc = 0 → e.gf = 0 → l.refresh e = { l with entry := e, balance := 0 }) ∧
    (e.gc ≠ 0 ∨ e.gf ≠ 0 → (e.cap.toNat : Int) < l.balance → l.refresh e = { l with
      entry := e
      balance := e.cap.toNat
      tally := { l.tally with spill := satAdd l.tally.spill (l.balance - e.cap.toNat).toNat } }) ∧
    (e.gc ≠ 0 ∨ e.gf ≠ 0 → l.balance ≤ (e.cap.toNat : Int) → l.refresh e = { l with entry := e })

/-- A round expiry does its work in the order of R76: a pending refresh, the credit work, the ages and expiries of the slots,
the hold, the next round, then the test of the release condition and the drain rule, in every state and flow in which the
timer runs; a port whose timer is stopped has no expiry, and the command changes nothing (R74; log 2). On an OPEN and HELD
port with no refresh pending, no stall due and no slot expiring, every lane accrues with the round count as it stood, the
round count, the hold age and the ages of the occupied slots rise by one, the next round begins, and nothing else changes
(R9, R14, R61, R78). -/
def Obligations.RoundExpiryOutcome : Prop :=
  (∀ (p : PortIx) (s r : State), ((s.port p).older = none → (s.port p).younger = none) →
     ((s.port p).refreshFlag = true → r = s.refresh p) → ((s.port p).refreshFlag = false → r = s) →
     ((s.port p).timer ≠ none → ∃ u : State, exec (.roundExpiry p) s = .next (u.testAndDrain p) ∧ r.RoundExpired u p) ∧
     ((s.port p).timer = none → exec (.roundExpiry p) s = .next s)) ∧
  ∀ (p : PortIx) (s : State),
    (s.port p).timer ≠ none → (s.port p).state = .opened → (s.port p).flow = .held → (s.port p).refreshFlag = false →
    ((s.port p).holdLimit = 0 ∨ (s.port p).holdAge.toNat + 1 < (s.port p).holdLimit.toNat) →
    ((s.port p).doneLimit = 0 ∨ ((∀ a : Slot, (s.port p).older = some a → a.age.toNat + 1 < (s.port p).doneLimit.toNat) ∧
      ∀ b : Slot, (s.port p).younger = some b → b.age.toNat + 1 < (s.port p).doneLimit.toNat)) →
    ∃ t : State, exec (.roundExpiry p) s = .next t ∧ t = { s with ports := t.ports } ∧
      (∀ p' : PortIx, p' ≠ p → t.port p' = s.port p') ∧
      (∀ x : SourceIx, t.lane p x = (s.lane p x).accrue (s.port p).roundCount x) ∧
      t.port p = { s.port p with
        lanes := (t.port p).lanes
        roundCount := (s.port p).roundCount + 1
        older := (s.port p).older.map fun a => { a with age := BitVec.ofNat 8 (min (a.age.toNat + 1) 255) }
        younger := (s.port p).younger.map fun b => { b with age := BitVec.ofNat 8 (min (b.age.toNat + 1) 255) }
        holdAge := BitVec.ofNat 8 (min ((s.port p).holdAge.toNat + 1) 255)
        timer := some (s.port p).roundLength }

/-- EXPIRY and STALL. That each command is the whole round expiry of its port, where a slot expires at it or the hold becomes a
stall, and changes nothing where that event does not come, is the model's choice (log 6, log 2). At such a round expiry, in
every state and flow in which the timer runs and with any refresh pending: every slot whose age, risen by one, has reached a
nonzero done limit is freed with one expiry counted and one EXPIRY record stamped after the advance of the round count, the
older before the younger, and a younger slot that stays moves into the older place with its own age (R60 to R62). A hold
whose age, risen by one, reaches a nonzero hold limit makes the port STALLED: a stall is counted, STALL joins the watch
latch, PORT_WATCH is latched, a STALL record stamped after the advance is offered and the timer stops (R78). Accrual, round
count, hold age and all else are as at any round expiry; a port then HELD or STALLED, and not DRAINING, makes no release. -/
def Obligations.ExpiryAndStallOutcome : Prop :=
  (∀ (p : PortIx) (s : State),
     ((s.port p).timer = none ∨ (s.port p).agedSlots.filter (s.port p).slotEnds = [] → exec (.expiry p) s = .next s) ∧
     ((s.port p).timer = none ∨ (s.port p).holdEnds = false → exec (.stall p) s = .next s)) ∧
  ∀ (p : PortIx) (s r : State), ((s.port p).older = none → (s.port p).younger = none) →
    ((s.port p).refreshFlag = true → r = s.refresh p) → ((s.port p).refreshFlag = false → r = s) → (s.port p).timer ≠ none →
    ∃ u : State, r.RoundExpired u p ∧
      ((s.port p).agedSlots.filter (s.port p).slotEnds ≠ [] → exec (.expiry p) s = .next (u.testAndDrain p)) ∧
      ((s.port p).holdEnds = true → exec (.stall p) s = .next (u.testAndDrain p)) ∧
      ((s.port p).flow ≠ .flowing → (s.port p).state ≠ .draining → u.testAndDrain p = u) ∧
      (∀ a : Slot, (s.port p).older = some a → (s.port p).doneLimit ≠ 0 →
        (s.port p).doneLimit.toNat ≤ min (a.age.toNat + 1) 255 →
        (s.port p).agedSlots.filter (s.port p).slotEnds ≠ [] ∧
        ((s.port p).younger = none → (u.port p).older = none ∧ (u.port p).younger = none) ∧
        (∀ b : Slot, (s.port p).younger = some b → b.age.toNat + 1 < (s.port p).doneLimit.toNat →
          (u.port p).older = some { b with age := BitVec.ofNat 8 (b.age.toNat + 1) } ∧ (u.port p).younger = none ∧
          (u.port p).tally.expiries = BitVec.ofNat 16 (min ((r.port p).tally.expiries.toNat + 1) 65535)) ∧
        ∀ b : Slot, (s.port p).younger = some b → (s.port p).doneLimit.toNat ≤ min (b.age.toNat + 1) 255 →
          (u.port p).older = none ∧ (u.port p).younger = none ∧
          (u.port p).tally.expiries = BitVec.ofNat 16 (min ((r.port p).tally.expiries.toNat + 2) 65535)) ∧
      ((s.port p).holdEnds = true → (u.port p).flow = .stalled ∧ (u.port p).timer = none)

/-! ## Shares -/

/-- The pin that acts on a lane is the lowest-indexed valid pin that names it (R103). The entry a bank entry and the acting pin
give a lane is that of Table 5-2, with the floor of R4 on the cap (R104). The booked sum of a port in a profile is 64·Gc +
Gf over the lanes whose bank entry is open, with the acting pin's rate in place of the bank entry's (R116). -/
def Obligations.ShareRules : Prop :=
  (∀ (pins : PinList) (p : PortIx) (src : SourceIx) (x : Pin),
    firstPin pins p src = some x ↔
      ∃ i : Fin 4, pins[i] = some x ∧ x.port = p ∧ x.source = src ∧
        ∀ j : Fin 4, j < i → ∀ y : Pin, pins[j] = some y → ¬(y.port = p ∧ y.source = src)) ∧
  (∀ (b : BankEntry) (pin : Option Pin), b.isOpen = false →
    deriveEntry b pin = ⟨false, 0, 0, 0, .none, 0, 1, false, false, pin.isSome⟩) ∧
  (∀ b : BankEntry, b.isOpen = true → ∃ cap : BitVec 16,
    deriveEntry b none = ⟨true, b.gc, b.gf, cap, b.tier, b.urgency, b.qmax, b.prot, false, false⟩ ∧
    cap.toNat = if b.gc = 0 ∧ b.gf = 0 then b.cap.toNat else max b.cap.toNat (b.gc.toNat + 1)) ∧
  (∀ (b : BankEntry) (x : Pin), b.isOpen = true → ∃ cap : BitVec 16,
    deriveEntry b (some x) = ⟨true, x.gc, x.gf, cap, x.tier, x.urgency, b.qmax, b.prot, true, false⟩ ∧
    cap.toNat = if x.gc = 0 ∧ x.gf = 0 then b.cap.toNat else max b.cap.toNat (x.gc.toNat + 1)) ∧
  ∀ (es : Vector BankEntry 64) (pins : PinList) (p : PortIx),
    bookedSum es pins p = (allSources.map fun x =>
      if es[x].isOpen = true then
        (match firstPin pins p x with
          | none => 64 * es[x].gc.toNat + es[x].gf.toNat
          | some y => 64 * y.gc.toNat + y.gf.toNat)
      else 0).sum

/-- A refresh of a port (R109, R110): every lane takes the entry the selected profile gives it with the balance rule of R22; a
SWITCH record follows where the selected profile is not the applied one; each lane now closed that held entries is purged in
ascending source order, with a PURGE record and its DISCARD messages; the flag is clear; all else stays. -/
def Obligations.RefreshOutcome : Prop :=
  ∀ (s : State) (p : PortIx), ∃ (t : State) (closing : List SourceIx) (n : Nat), s.refresh p = t ∧
    closing = (allSources.filter fun x =>
      !(s.derived (s.port p).selected p x).isOpen && !(s.lane p x).list.isEmpty) ∧
    n = (closing.map fun x => (s.lane p x).list.length).sum ∧
    t = { s with
      ports := t.ports
      freeCount := s.freeCount + n
      poolBelow := decide (s.freeCount + n < s.warning.toNat)
      outQueue :=
        if s.linkUp then
          s.outQueue ++ closing.flatMap fun x => (s.lane p x).list.map fun e => Message.ofDiscard p x e.handle
        else s.outQueue
      tre := { s.tre with offered := s.tre.offered ++
        ((if (s.port p).selected = (s.port p).applied then [] else
          [⟨.switch, p, 0, BitVec.ofNat 8 (s.port p).selected.val, 0, (s.port p).roundCount, s.minute⟩]) ++
        closing.map fun x =>
          ⟨.purge, p, x, 0, BitVec.ofNat 16 (s.lane p x).list.length, (s.port p).roundCount, s.minute⟩) } } ∧
    (∀ p' : PortIx, p' ≠ p → t.port p' = s.port p') ∧
    (∀ x : SourceIx, (s.derived (s.port p).selected p x).isOpen = true →
      t.lane p x = (s.lane p x).refresh (s.derived (s.port p).selected p x)) ∧
    (∀ x : SourceIx, (s.derived (s.port p).selected p x).isOpen = false →
      t.lane p x = { (s.lane p x).refresh (s.derived (s.port p).selected p x) with list := [] }) ∧
    t.port p = { s.port p with
      lanes := (t.port p).lanes
      applied := (s.port p).selected
      refreshFlag := false
      tally := { (s.port p).tally with discards := satAdd (s.port p).tally.discards n } }

/-- LEVELS (R130): each level above 8191 is held as 8191, the warning level is raised to the reserve level when below it, both
are replaced together, the pool-low state is set anew with no latch of POOL_LOW, and the order completes OK with detail 0 and
progress 0 (R114). -/
def Obligations.LevelsOutcome : Prop :=
  ∀ (b : OrderBlock) (bus : CompletionBus) (s : State) (c : ChannelIx), s.CarriesOut c →
    ∃ (t : State) (r w : BitVec 13), exec (.levels (some b) bus) s = .next t.takeNext ∧ s.Completed t c .ok 0 0 bus ∧
      r.toNat = min (b.w2.toNat % 65536) 8191 ∧ w.toNat = max (min (b.w3.toNat % 65536) 8191) r.toNat ∧
      t = { s with
        reserve := r, warning := w, poolBelow := decide (s.freeCount < w.toNat)
        executor := .free, channels := t.channels, attn := t.attn, cardMem := t.cardMem }

/-- WINDOW (R125, R126): profile 0 or a minute of 1440 or above is BAD_ORDER; a newly added port whose booked sum in the profile
is not legal is OVERBOOK with the first such port; neither changes anything. Else the window and mask are replaced together,
every port is reselected, and the order completes OK. -/
def Obligations.WindowOutcome : Prop :=
  ∀ (b : OrderBlock) (bus : CompletionBus) (s : State) (c : ChannelIx), s.CarriesOut c →
    (b.profile = 0 ∨ 1440 ≤ b.windowStart.toNat ∨ 1440 ≤ b.windowEnd.toNat →
      ∃ t : State, exec (.window (some b) bus) s = .next t.takeNext ∧ s.EndedUntouched t c .badOrder 0 0 bus) ∧
    (∀ (i : Fin 3) (h1 : b.windowStart.toNat < 1440) (h2 : b.windowEnd.toNat < 1440), b.profile.val = i.val + 1 →
      (∀ p : PortIx, b.windowMask.getLsbD p.val = true → s.windows[i].mask.getLsbD p.val = false →
        (∀ p' : PortIx, p' < p → b.windowMask.getLsbD p'.val = true → s.windows[i].mask.getLsbD p'.val = false →
          bookedSum (s.bankPort b.profile p') s.pins p' ≤ s.figure p') →
        s.figure p < bookedSum (s.bankPort b.profile p) s.pins p →
        ∃ t : State, exec (.window (some b) bus) s = .next t.takeNext ∧
          s.EndedUntouched t c .overbook 0 (BitVec.ofNat 16 (p.val + 256 * b.profile.val)) bus) ∧
      ((∀ p : PortIx, b.windowMask.getLsbD p.val = true → s.windows[i].mask.getLsbD p.val = false →
          bookedSum (s.bankPort b.profile p) s.pins p ≤ s.figure p) →
        ∃ t : State, exec (.window (some b) bus) s = .next t.takeNext ∧ s.Completed t c .ok 0 0 bus ∧
          t = { s with
            windows := s.windows.set i ⟨⟨b.windowStart.toNat, h1⟩, ⟨b.windowEnd.toNat, h2⟩, b.windowMask⟩
            ports := t.ports, executor := .free, channels := t.channels, attn := t.attn, cardMem := t.cardMem } ∧
          ∀ p : PortIx, t.port p = { s.port p with
            selected := t.selectFor p
            refreshFlag := (s.port p).refreshFlag || decide ((s.port p).selected ≠ t.selectFor p) }))

/-- The PIN order (R102, R105, R107, R127, R128). Its failing checks (the action field, the port field, a SET of no rate and no
tier, a RETIRED port) and a CLEAR of an invalid entry change nothing. On MOVED word 1 names the successor of the order's
port where a SET names a RETIRED one, else that of the entry's port (R114, R127). A SET puts the order's values into the
entry and a CLEAR of a valid one makes it invalid, where every booked sum of the ports named before and after stays legal in
each profile that governs them; the flags of those ports are set. Else the order is OVERBOOK with the first profile, and in
it the first port, whose sum is not legal, and nothing is changed. -/
def Obligations.PinOutcome : Prop :=
  ∀ (b : OrderBlock) (bus : CompletionBus) (s : State) (c : ChannelIx), s.CarriesOut c →
    (∀ st : Status,
      (st = .badOrder ∧ (b.pinAction = 0 ∨ b.pinAction = 3)) ∨
      (st = .badPort ∧ b.pinAction = 1 ∧ 16 ≤ b.portField.toNat) ∨
      (st = .badOrder ∧ b.pinAction = 1 ∧ b.portField.toNat < 16 ∧ b.pinGc = 0 ∧ b.pinGf = 0 ∧ b.pinTier = 0) ∨
      (st = .ok ∧ b.pinAction = 2 ∧ s.pins[b.pinIndex] = none) →
      ∃ t : State, exec (.pin (some b) bus) s = .next t.takeNext ∧ s.EndedUntouched t c st 0 0 bus) ∧
    (∀ r : PortIx,
      (b.pinAction = 1 ∧ (b.pinGc ≠ 0 ∨ b.pinGf ≠ 0 ∨ b.pinTier ≠ 0) ∧
        ∃ p : PortIx, b.port? = some p ∧ ((s.port p).state = .retired r ∨
          ((∀ x : PortIx, (s.port p).state ≠ .retired x) ∧
            ∃ y : Pin, s.pins[b.pinIndex] = some y ∧ (s.port y.port).state = .retired r))) ∨
      (b.pinAction = 2 ∧ ∃ y : Pin, s.pins[b.pinIndex] = some y ∧ (s.port y.port).state = .retired r) →
      ∃ t : State, exec (.pin (some b) bus) s = .next t.takeNext ∧ s.EndedUntouched t c .moved 0 0 bus ∧
        s.NamesSuccessor t c b.w1 r bus) ∧
    ∀ new : Option Pin,
      ((∃ p : PortIx, b.pinAction = 1 ∧ b.port? = some p ∧ (b.pinGc ≠ 0 ∨ b.pinGf ≠ 0 ∨ b.pinTier ≠ 0) ∧
          new = some ⟨p, b.pinSource, b.pinGc, b.pinGf, tierOfCode b.pinTier, b.pinUrgency⟩ ∧
          ∀ r : PortIx, (s.port p).state ≠ .retired r) ∨
        (b.pinAction = 2 ∧ new = none ∧ s.pins[b.pinIndex] ≠ none)) →
      (∀ y : Pin, s.pins[b.pinIndex] = some y → ∀ r : PortIx, (s.port y.port).state ≠ .retired r) →
      ((∀ (k : ProfileIx) (p : PortIx), new.map Pin.port = some p ∨ (s.pins[b.pinIndex]).map Pin.port = some p →
          s.governs k p = true → bookedSum (s.bankPort k p) (s.pins.set b.pinIndex new) p ≤ s.figure p) →
        ∃ t : State, exec (.pin (some b) bus) s = .next t.takeNext ∧ s.Completed t c .ok 0 0 bus ∧
          t = { s with
            pins := s.pins.set b.pinIndex new
            ports := t.ports, executor := .free, channels := t.channels, attn := t.attn, cardMem := t.cardMem } ∧
          ∀ p : PortIx, t.port p = { s.port p with
            refreshFlag := (s.port p).refreshFlag ||
              decide (new.map Pin.port = some p ∨ (s.pins[b.pinIndex]).map Pin.port = some p) }) ∧
      (∀ (k : ProfileIx) (p : PortIx), new.map Pin.port = some p ∨ (s.pins[b.pinIndex]).map Pin.port = some p →
        s.governs k p = true → s.figure p < bookedSum (s.bankPort k p) (s.pins.set b.pinIndex new) p →
        (∀ (k' : ProfileIx) (p' : PortIx), k' < k ∨ (k' = k ∧ p' < p) →
          new.map Pin.port = some p' ∨ (s.pins[b.pinIndex]).map Pin.port = some p' → s.governs k' p' = true →
          bookedSum (s.bankPort k' p') (s.pins.set b.pinIndex new) p' ≤ s.figure p') →
        ∃ t : State, exec (.pin (some b) bus) s = .next t.takeNext ∧
          s.EndedUntouched t c .overbook 0 (BitVec.ofNat 16 (p.val + 256 * k.val)) bus)

/-! ## The PORT order -/

/-- PORT OPEN (R86): DRAINING becomes OPEN with its timer in its current round and its refresh still pending; OPEN stays as it
is; a CLOSED or RETIRED port with empty lists becomes OPEN, its successor cleared, a pending refresh applied at once (R108),
and starts a full round unless STALLED. The order completes OK (its progress word is a free value, log 14). -/
def Obligations.PortOpenOutcome : Prop :=
  ∀ (b : OrderBlock) (bus : CompletionBus) (s : State) (c : ChannelIx) (p : PortIx), s.CarriesOut c → b.port? = some p →
    ∃ (t : State) (w : Word), exec (.portOpen (some b) bus) s = .next t.takeNext ∧ s.Completed t c .ok w 0 bus ∧
      ((s.port p).state = .opened → s.PortEndedUntouched t c .ok 0 bus) ∧
      ((s.port p).state = .draining → t = { s with
        ports := s.ports.set p { s.port p with state := .opened }
        executor := .free, channels := t.channels, attn := t.attn, cardMem := t.cardMem, freeCtr := t.freeCtr }) ∧
      ((s.port p).state ≠ .opened → (s.port p).state ≠ .draining → (∀ x : SourceIx, (s.lane p x).list = []) →
        ((s.port p).refreshFlag = false → t = { s with
          ports := s.ports.set p { s.port p with
            state := .opened
            timer := if (s.port p).flow = .stalled then none else some (s.port p).roundLength }
          executor := .free, channels := t.channels, attn := t.attn, cardMem := t.cardMem, freeCtr := t.freeCtr }) ∧
        ((s.port p).refreshFlag = true →
          (∀ p' : PortIx, p' ≠ p → t.port p' = s.port p') ∧
          (∀ x : SourceIx, t.lane p x = (s.lane p x).refresh (s.derived (s.port p).selected p x)) ∧
          t.port p = { s.port p with
            lanes := (t.port p).lanes
            state := .opened
            refreshFlag := false
            applied := (s.port p).selected
            timer := if (s.port p).flow = .stalled then none else some (s.port p).roundLength } ∧
          t = { s with
            poolBelow := decide (s.freeCount < s.warning.toNat)
            ports := t.ports, executor := .free, channels := t.channels, attn := t.attn, cardMem := t.cardMem, freeCtr := t.freeCtr
            tre := { s.tre with offered := s.tre.offered ++
              if (s.port p).selected = (s.port p).applied then [] else
                [⟨.switch, p, 0, BitVec.ofNat 8 (s.port p).selected.val, 0, (s.port p).roundCount, s.minute⟩] } }))

/-- PORT CLOSE (R87): OPEN becomes DRAINING, and CLOSED at once where the lists are empty and both slots free; CLOSED and
DRAINING stay as they are; each completes OK, without waiting for the drain. A RETIRED port is MOVED, and word 1 names its
successor (R85, R90). -/
def Obligations.PortCloseOutcome : Prop :=
  ∀ (b : OrderBlock) (bus : CompletionBus) (s : State) (c : ChannelIx) (p : PortIx), s.CarriesOut c → b.port? = some p →
    ∃ (t : State) (w : Word), exec (.portClose (some b) bus) s = .next t.takeNext ∧
      ((∀ x : PortIx, (s.port p).state ≠ .retired x) → s.Completed t c .ok w 0 bus) ∧
      (∀ x : PortIx, (s.port p).state = .retired x →
        s.Completed t c .moved w 0 bus ∧ s.NamesSuccessor t c b.w1 x bus) ∧
      ((s.port p).state ≠ .opened → t = { s with
        executor := .free, channels := t.channels, attn := t.attn, cardMem := t.cardMem, freeCtr := t.freeCtr }) ∧
      ((s.port p).state = .opened →
        (∃ x : SourceIx, (s.lane p x).list ≠ []) ∨ (s.port p).older ≠ none ∨ (s.port p).younger ≠ none → t = { s with
          ports := s.ports.set p { s.port p with state := .draining }
          executor := .free, channels := t.channels, attn := t.attn, cardMem := t.cardMem, freeCtr := t.freeCtr }) ∧
      ((s.port p).state = .opened → (∀ x : SourceIx, (s.lane p x).list = []) → (s.port p).older = none →
        (s.port p).younger = none → t = { s with
          ports := s.ports.set p { s.port p with state := .closed, timer := none }
          executor := .free, channels := t.channels, attn := t.attn, cardMem := t.cardMem, freeCtr := t.freeCtr })

/-- PORT CLEAR taken in CLOSED or DRAINING (R42, R88): every list is purged in source order with one DISCARD per entry and one
PURGE record per lane; balances, round count and cursors become 0; the port is CLOSED with its timer stopped; slots, next tag,
entries, flow, hold age, latch and SET values stay. An OPEN port is WRONG_STATE and a RETIRED one MOVED, its successor named
in word 1, with nothing changed. That the PURGE records carry the round count as it stood before it became 0 is the model's
choice (log 29). -/
def Obligations.PortClearOutcome : Prop :=
  ∀ (b : OrderBlock) (bus : CompletionBus) (s : State) (c : ChannelIx) (p : PortIx), s.CarriesOut c → b.port? = some p →
    ∃ t : State, exec (.portClear (some b) bus) s = .next t.takeNext ∧
      ((s.port p).state = .opened → s.PortEndedUntouched t c .wrongState 0 bus) ∧
      (∀ x : PortIx, (s.port p).state = .retired x →
        s.PortEndedUntouched t c .moved 0 bus ∧ s.NamesSuccessor t c b.w1 x bus) ∧
      ((s.port p).state = .closed ∨ (s.port p).state = .draining →
        (∃ w : Word, s.Completed t c .ok w 0 bus) ∧
        t = { s with
          ports := t.ports, executor := .free, channels := t.channels, attn := t.attn, cardMem := t.cardMem, freeCtr := t.freeCtr
          freeCount := s.freeCount + (s.port p).listTotal
          poolBelow := decide (s.freeCount + (s.port p).listTotal < s.warning.toNat)
          outQueue :=
            if s.linkUp then
              s.outQueue ++ allSources.flatMap fun x => (s.lane p x).list.map fun e => Message.ofDiscard p x e.handle
            else s.outQueue
          tre := { s.tre with offered := s.tre.offered ++
            (allSources.filter fun x => !(s.lane p x).list.isEmpty).map fun x =>
              ⟨.purge, p, x, 0, BitVec.ofNat 16 (s.lane p x).list.length, (s.port p).roundCount, s.minute⟩ } } ∧
        (∀ p' : PortIx, p' ≠ p → t.port p' = s.port p') ∧
        (∀ x : SourceIx, t.lane p x = { s.lane p x with list := [], balance := 0 }) ∧
        t.port p = { s.port p with
          lanes := (t.port p).lanes
          roundCount := 0
          assuredCursor := 0, tier1Cursor := 0, tier2Cursor := 0, tier3Cursor := 0
          state := .closed
          timer := none
          tally := { (s.port p).tally with
            discards := satAdd (s.port p).tally.discards (s.port p).listTotal } })

/-- PORT RETIRE (R89): the checks in sequence. A RETIRED port is MOVED, its successor named in word 1; a successor above 15, the
port itself, or a RETIRED port is BAD_ORDER; a port not CLOSED or with an occupied slot is WRONG_STATE; else the state
becomes RETIRED with the successor, and the order completes OK. -/
def Obligations.PortRetireOutcome : Prop :=
  ∀ (b : OrderBlock) (bus : CompletionBus) (s : State) (c : ChannelIx) (p : PortIx), s.CarriesOut c → b.port? = some p →
    ∃ t : State, exec (.portRetire (some b) bus) s = .next t.takeNext ∧
      (∀ x : PortIx, (s.port p).state = .retired x →
        s.PortEndedUntouched t c .moved 0 bus ∧ s.NamesSuccessor t c b.w1 x bus) ∧
      ((∀ x : PortIx, (s.port p).state ≠ .retired x) →
        (16 ≤ b.successorField.toNat ∨ b.successorField.toNat = p.val ∨
          (∃ x y : PortIx, x.val = b.successorField.toNat ∧ (s.port x).state = .retired y) →
          s.PortEndedUntouched t c .badOrder 0 bus) ∧
        (∀ x : PortIx, x.val = b.successorField.toNat → x ≠ p → (∀ y : PortIx, (s.port x).state ≠ .retired y) →
          ((s.port p).state ≠ .closed ∨ (s.port p).older ≠ none ∨ (s.port p).younger ≠ none →
            s.PortEndedUntouched t c .wrongState 0 bus) ∧
          ((s.port p).state = .closed → (s.port p).older = none → (s.port p).younger = none →
            (∃ w : Word, s.Completed t c .ok w 0 bus) ∧ t = { s with
              ports := s.ports.set p { s.port p with state := .retired x }
              executor := .free, channels := t.channels, attn := t.attn, cardMem := t.cardMem, freeCtr := t.freeCtr })))

/-- PORT SET (R91): a RETIRED port is MOVED, its successor named in word 1; where the port's booked sums, in profile 0 and in
each profile whose mask includes it, fit the new capacity, all six values are replaced, the round length held within
10..10000; where a sum does not fit, nothing is changed and the order completes OVERBOOK with the first such profile in the
detail (log 18). -/
def Obligations.PortSetOutcome : Prop :=
  ∀ (b : OrderBlock) (bus : CompletionBus) (s : State) (c : ChannelIx) (p : PortIx), s.CarriesOut c → b.port? = some p →
    ∃ t : State, exec (.portSet (some b) bus) s = .next t.takeNext ∧
      (∀ x : PortIx, (s.port p).state = .retired x →
        s.PortEndedUntouched t c .moved 0 bus ∧ s.NamesSuccessor t c b.w1 x bus) ∧
      ((∀ x : PortIx, (s.port p).state ≠ .retired x) →
        ((∀ k : ProfileIx, s.governs k p = true →
            bookedSum (s.bankPort k p) s.pins p ≤ 64 * b.setKc.toNat + b.setKf.toNat) →
          (∃ w : Word, s.Completed t c .ok w 0 bus) ∧ t = { s with
            ports := s.ports.set p { s.port p with
              roundLength := BitVec.ofNat 16 (max 10 (min b.setRoundLength.toNat 10000))
              kc := b.setKc, kf := b.setKf, holdLimit := b.setHoldLimit, doneLimit := b.setDoneLimit
              watchMode := watchModeOfCode b.setWatchMode }
            executor := .free, channels := t.channels, attn := t.attn, cardMem := t.cardMem, freeCtr := t.freeCtr }) ∧
        (∀ k : ProfileIx, s.governs k p = true →
          64 * b.setKc.toNat + b.setKf.toNat < bookedSum (s.bankPort k p) s.pins p →
          (∀ k' : ProfileIx, k' < k → s.governs k' p = true →
            bookedSum (s.bankPort k' p) s.pins p ≤ 64 * b.setKc.toNat + b.setKf.toNat) →
          s.PortEndedUntouched t c .overbook (BitVec.ofNat 16 (p.val + 256 * k.val)) bus))

/-- PORT_BAD_ACTION (R85): a port above 15 completes BAD_PORT, else BAD_ORDER, with no action carried out; a port above 15 is
BAD_PORT whatever the action. -/
def Obligations.PortBadActionOutcome : Prop :=
  ∀ (b : OrderBlock) (bus : CompletionBus) (s : State) (c : ChannelIx), s.CarriesOut c →
    (∀ p : PortIx, b.port? = some p → ∃ t : State, exec (.portBadAction (some b) bus) s = .next t.takeNext ∧
      s.PortEndedUntouched t c .badOrder 0 bus) ∧
    (b.port? = none → ∀ i : Instr, i ∈ portCommands b bus → ∃ t : State, exec i s = .next t.takeNext ∧
      s.PortEndedUntouched t c .badPort 0 bus)

/-! ## LOAD -/

/-- A LOAD taken (R118, R121): a port above 15, a count above 64 and a RETIRED port, whose successor word 1 then names, end it
with nothing read. An abort request made since the channel was taken ends it ABORTED at its first boundary with progress 0
(R121, R154), where with a count of 0 `f` says whether it is taken before the install point (log 16). A count of 0 goes to
the install point with all 64 staged entries closed (R122); else the executor begins to read the table into a staging copy
with all 64 entries closed, and nothing else changes. The clamps of Table 6-5 (R120): an entry of no rate and no tier is
staged closed; else it is open as read, its cap raised to Gc + 1 when below it and the rate is nonzero, a Qmax of 0 taken as
1. -/
def Obligations.LoadBeginsAndClamps : Prop :=
  (∀ e : TableEntry,
     (TableEntry.gc e = 0 → TableEntry.gf e = 0 → TableEntry.tier e = 0 →
       stageEntry e = ⟨false, 0, 0, 0, .none, 0, 1, false⟩) ∧
     (TableEntry.gc e ≠ 0 ∨ TableEntry.gf e ≠ 0 ∨ TableEntry.tier e ≠ 0 → ∃ (cap : BitVec 16) (qmax : BitVec 8),
       stageEntry e = ⟨true, TableEntry.gc e, TableEntry.gf e, cap, tierOfCode (TableEntry.tier e), TableEntry.urgency e, qmax,
         TableEntry.prot e⟩ ∧
       qmax = (if TableEntry.qmax e = 0 then 1 else TableEntry.qmax e) ∧
       cap.toNat = if TableEntry.gc e = 0 ∧ TableEntry.gf e = 0 then (TableEntry.cap e).toNat
         else max (TableEntry.cap e).toNat ((TableEntry.gc e).toNat + 1))) ∧
  ∀ (b : OrderBlock) (f : Bool) (bus : CompletionBus) (s : State) (c : ChannelIx), s.CarriesOut c →
    (b.port? = none → ∃ t : State, exec (.load (some b) bus f) s = .next t.takeNext ∧ s.EndedUntouched t c .badPort 0 0 bus) ∧
    (∀ p : PortIx, b.port? = some p →
      (64 < b.count → ∃ t : State, exec (.load (some b) bus f) s = .next t.takeNext ∧
        s.EndedUntouched t c .tableOverrun 0 0 bus) ∧
      (∀ x : PortIx, b.count ≤ 64 → (s.port p).state = .retired x →
        ∃ t : State, exec (.load (some b) bus f) s = .next t.takeNext ∧ s.EndedUntouched t c .moved 0 0 bus ∧
          s.NamesSuccessor t c b.w1 x bus) ∧
      (b.count ≤ 64 → (∀ x : PortIx, (s.port p).state ≠ .retired x) → (s.channel c).abortReq = true →
        b.count ≠ 0 ∨ f = true →
        ∃ t : State, exec (.load (some b) bus f) s = .next t.takeNext ∧ s.EndedUntouched t c .aborted 0 0 bus) ∧
      (b.count = 0 → (∀ x : PortIx, (s.port p).state ≠ .retired x) → (s.channel c).abortReq = false ∨ f = false →
        ∃ t : State, exec (.load (some b) bus f) s = .next t.takeNext ∧
          s.Installed t c b.profile p (Vector.replicate 64 ⟨false, 0, 0, 0, .none, 0, 1, false⟩) 0 bus) ∧
      (0 < b.count → b.count ≤ 64 → (∀ x : PortIx, (s.port p).state ≠ .retired x) → (s.channel c).abortReq = false →
        exec (.load (some b) bus f) s = .next { s with
          channels := s.channels.set c ⟨.executing, (s.channel c).addr, false⟩
          executor := .loading ⟨c, p, b.profile, b.tableAddress, b.count, 0,
            Vector.replicate 64 ⟨false, 0, 0, 0, .none, 0, 1, false⟩, []⟩ }))

/-- LOAD_ENTRY_READ (R119 to R123). `f` says whether an abort request that stands is taken first (log 16). Where no abort is
taken first: a new source before the last entry is staged and counted; a repeated one ends the order DUPLICATE; a failed
read ends it MEMORY_FAULT; the last entry reaches the install point. An abort request ends the order ABORTED at the
boundary, with the entries read as progress. Nothing else changes. -/
def Obligations.LoadEntryReadOutcome : Prop :=
  ∀ (f : Bool) (bus : CompletionBus) (s : State) (j : LoadJob), s.executor = .loading j →
    (∀ e : TableEntry, (s.channel j.channel).abortReq = false → TableEntry.source e ∉ j.listed → j.progress + 1 < j.count →
      exec (.loadEntryRead (some e) f bus) s = .next { s with executor := .loading { j with
        progress := j.progress + 1
        staged := j.staged.set (TableEntry.source e) (stageEntry e)
        listed := TableEntry.source e :: j.listed } }) ∧
    (∀ e : TableEntry, (s.channel j.channel).abortReq = false ∨ f = false → TableEntry.source e ∉ j.listed →
      j.progress + 1 = j.count →
      ∃ t : State, exec (.loadEntryRead (some e) f bus) s = .next t.takeNext ∧
        s.Installed t j.channel j.profile j.port (j.staged.set (TableEntry.source e) (stageEntry e)) j.count bus) ∧
    (∀ e : TableEntry, (s.channel j.channel).abortReq = false ∨ f = false → TableEntry.source e ∈ j.listed →
      ∃ t : State, exec (.loadEntryRead (some e) f bus) s = .next t.takeNext ∧
        s.EndedUntouched t j.channel .duplicate (BitVec.ofNat 32 (j.progress + 1))
          (BitVec.ofNat 16 (j.progress % 256 + 256 * (TableEntry.source e).val)) bus) ∧
    ((s.channel j.channel).abortReq = false ∨ f = false →
      ∃ t : State, exec (.loadEntryRead none f bus) s = .next t.takeNext ∧
        s.EndedUntouched t j.channel .memoryFault (BitVec.ofNat 32 j.progress) (BitVec.ofNat 16 j.progress) bus) ∧
    (∀ e : TableEntry, (s.channel j.channel).abortReq = true →
      f = true ∨ (TableEntry.source e ∉ j.listed ∧ j.progress + 1 < j.count) →
      ∃ t : State, exec (.loadEntryRead (some e) f bus) s = .next t.takeNext ∧
        s.EndedUntouched t j.channel .aborted (BitVec.ofNat 32 (j.progress + 1)) 0 bus) ∧
    ((s.channel j.channel).abortReq = true → f = true →
      ∃ t : State, exec (.loadEntryRead none f bus) s = .next t.takeNext ∧
        s.EndedUntouched t j.channel .aborted (BitVec.ofNat 32 j.progress) 0 bus)

/-! ## COLLECT and SURVEY -/

/-- COLLECT and COLLECT_RECORD (R165, R166). A port above 15 is BAD_PORT and a RETIRED port MOVED, its successor named in word
1, with no counter touched; an abort request made since the channel was taken ends the order ABORTED before record 0 (R154);
else lane 0 of the port is sampled, its tally cleared when the clear flag is set (the peak set to the current list length),
and its record's write begins. A record written lies at the area address plus 32·i; lane record i + 1, or after lane 63 the
port record, is sampled next; an abort request ends the order ABORTED at the boundary, the port record OK with progress 65.
A failed write ends the order MEMORY_FAULT with progress and detail i; with the clear flag set, the sampled counts are added
back, each saturating, and the larger peak is kept; without it no counter changes; that the record's bytes in card memory
then stay as they were is the model's choice (log 28). -/
def Obligations.CollectOutcome : Prop :=
  (∀ (b : OrderBlock) (bus : CompletionBus) (s : State) (c : ChannelIx), s.CarriesOut c →
    (b.port? = none → ∃ t : State, exec (.collect (some b) bus) s = .next t.takeNext ∧ s.EndedUntouched t c .badPort 0 0 bus) ∧
    (∀ p x : PortIx, b.port? = some p → (s.port p).state = .retired x →
      ∃ t : State, exec (.collect (some b) bus) s = .next t.takeNext ∧ s.EndedUntouched t c .moved 0 0 bus ∧
        s.NamesSuccessor t c b.w1 x bus) ∧
    (∀ p : PortIx, b.port? = some p → (∀ x : PortIx, (s.port p).state ≠ .retired x) → (s.channel c).abortReq = true →
      ∃ t : State, exec (.collect (some b) bus) s = .next t.takeNext ∧ s.EndedUntouched t c .aborted 0 0 bus) ∧
    (∀ p : PortIx, b.port? = some p → (∀ x : PortIx, (s.port p).state ≠ .retired x) → (s.channel c).abortReq = false →
      exec (.collect (some b) bus) s = .next { s with
        channels := s.channels.set c ⟨.executing, (s.channel c).addr, false⟩
        executor := .collecting ⟨c, p, b.collectArea, b.clearFlag, 0, .lane 0 (s.lane p 0).tally, laneRecord (s.lane p 0) 0⟩
        ports := if b.clearFlag then s.ports.set p ((s.port p).setLane 0 { s.lane p 0 with
            tally := ⟨0, 0, 0, 0, 0, BitVec.ofNat 8 (min (s.lane p 0).list.length 255)⟩ })
          else s.ports })) ∧
  ∀ (bus : CompletionBus) (s : State) (j : CollectJob), s.executor = .collecting j →
    (∀ x : SourceIx, x.val = j.index + 1 → (s.channel j.channel).abortReq = false →
      exec (.collectRecord true bus) s = .next { s with
        cardMem := Memory.writeBytes s.cardMem (j.area + 32 * j.index) j.record
        executor := .collecting { j with
          index := j.index + 1
          sample := .lane x (s.lane j.port x).tally
          record := laneRecord (s.lane j.port x) x }
        ports := if j.clear then s.ports.set j.port ((s.port j.port).setLane x { s.lane j.port x with
            tally := ⟨0, 0, 0, 0, 0, BitVec.ofNat 8 (min (s.lane j.port x).list.length 255)⟩ })
          else s.ports }) ∧
    (j.index = 63 → (s.channel j.channel).abortReq = false →
      exec (.collectRecord true bus) s = .next { s with
        cardMem := Memory.writeBytes s.cardMem (j.area + 32 * j.index) j.record
        executor := .collecting { j with
          index := 64
          sample := .port (s.port j.port).tally
          record := portRecord (s.port j.port) j.port }
        ports := if j.clear then s.ports.set j.port { s.port j.port with tally := ⟨0, 0, 0, 0, 0, 0, 0⟩ } else s.ports }) ∧
    (∀ u : State, u = { s with cardMem := Memory.writeBytes s.cardMem (j.area + 32 * j.index) j.record } →
      (j.index = 64 → ∃ t : State, exec (.collectRecord true bus) s = .next t.takeNext ∧
        u.EndedUntouched t j.channel .ok 65 0 bus) ∧
      (j.index < 64 → (s.channel j.channel).abortReq = true → ∃ t : State, exec (.collectRecord true bus) s = .next t.takeNext ∧
        u.EndedUntouched t j.channel .aborted (BitVec.ofNat 32 (j.index + 1)) 0 bus)) ∧
    (∃ t : State, exec (.collectRecord false bus) s = .next t.takeNext ∧
      s.Completed t j.channel .memoryFault (BitVec.ofNat 32 j.index) (BitVec.ofNat 16 j.index) bus ∧
      t = { s with executor := .free, ports := t.ports, channels := t.channels, attn := t.attn, cardMem := t.cardMem } ∧
      (j.clear = false → t.ports = s.ports) ∧
      (∀ (x : SourceIx) (was : LaneTally), j.clear = true → j.sample = .lane x was →
        t.ports = s.ports.set j.port ((s.port j.port).setLane x { s.lane j.port x with tally :=
          ⟨satAdd (s.lane j.port x).tally.assuredBytes was.assuredBytes.toNat,
            satAdd (s.lane j.port x).tally.surplusBytes was.surplusBytes.toNat,
            satAdd (s.lane j.port x).tally.framesReleased was.framesReleased.toNat,
            satAdd (s.lane j.port x).tally.refusals was.refusals.toNat,
            satAdd (s.lane j.port x).tally.spill was.spill.toNat,
            BitVec.ofNat 8 (max (s.lane j.port x).tally.peak.toNat was.peak.toNat)⟩ })) ∧
      (∀ was : PortTally, j.clear = true → j.sample = .port was →
        t.ports = s.ports.set j.port { s.port j.port with tally :=
          ⟨satAdd (s.port j.port).tally.releases was.releases.toNat,
            satAdd (s.port j.port).tally.expiries was.expiries.toNat,
            satAdd (s.port j.port).tally.impliedDone was.impliedDone.toNat,
            satAdd (s.port j.port).tally.staleDone was.staleDone.toNat,
            satAdd (s.port j.port).tally.holds was.holds.toNat,
            satAdd (s.port j.port).tally.stalls was.stalls.toNat,
            satAdd (s.port j.port).tally.discards was.discards.toNat⟩ }))

/-- SURVEY and SURVEY_RECORD (R167, R168). An abort request made since the channel was taken ends the order ABORTED before
record 0 (R154). Each port record is sampled with its watch latch emptied into it, then the pool record; a record written
lies at the area address plus 16·i; an abort request ends the order ABORTED at the boundary, the pool record OK with
progress 17; a failed write is MEMORY_FAULT and returns the kinds taken to the latch; that the record's bytes in card memory
then stay as they were is the model's choice (log 28). -/
def Obligations.SurveyOutcome : Prop :=
  (∀ (b : OrderBlock) (bus : CompletionBus) (s : State) (c : ChannelIx), s.CarriesOut c →
    ((s.channel c).abortReq = true →
      ∃ t : State, exec (.survey (some b) bus) s = .next t.takeNext ∧ s.EndedUntouched t c .aborted 0 0 bus) ∧
    ((s.channel c).abortReq = false → ∃ t : State, exec (.survey (some b) bus) s = .next t ∧ t = { s with
      channels := s.channels.set c ⟨.executing, (s.channel c).addr, false⟩
      ports := s.ports.set 0 { s.port 0 with watchLatch := ⟨false, false, false, false⟩ }
      freeCtr := t.freeCtr
      executor := .surveying ⟨c, b.recordArea, 0, (s.port 0).watchLatch, surveyPortRecord (s.port 0) s.freeCtr⟩ })) ∧
  ∀ (bus : CompletionBus) (s : State) (j : SurveyJob), s.executor = .surveying j →
    (∀ p : PortIx, p.val = j.index + 1 → (s.channel j.channel).abortReq = false →
      ∃ t : State, exec (.surveyRecord true bus) s = .next t ∧ t = { s with
        cardMem := Memory.writeBytes s.cardMem (j.area + 16 * j.index) j.record
        ports := s.ports.set p { s.port p with watchLatch := ⟨false, false, false, false⟩ }
        freeCtr := t.freeCtr
        executor := .surveying ⟨j.channel, j.area, j.index + 1, (s.port p).watchLatch,
          surveyPortRecord (s.port p) s.freeCtr⟩ }) ∧
    (j.index = 15 → (s.channel j.channel).abortReq = false →
      exec (.surveyRecord true bus) s = .next { s with
        cardMem := Memory.writeBytes s.cardMem (j.area + 16 * j.index) j.record
        executor := .surveying ⟨j.channel, j.area, 16, ⟨false, false, false, false⟩, s.poolRecord⟩ }) ∧
    (∀ u : State, u = { s with cardMem := Memory.writeBytes s.cardMem (j.area + 16 * j.index) j.record } →
      (j.index = 16 → ∃ t : State, exec (.surveyRecord true bus) s = .next t.takeNext ∧
        u.EndedUntouched t j.channel .ok 17 0 bus) ∧
      (j.index < 16 → (s.channel j.channel).abortReq = true → ∃ t : State, exec (.surveyRecord true bus) s = .next t.takeNext ∧
        u.EndedUntouched t j.channel .aborted (BitVec.ofNat 32 (j.index + 1)) 0 bus)) ∧
    (∃ t : State, exec (.surveyRecord false bus) s = .next t.takeNext ∧
      s.Completed t j.channel .memoryFault (BitVec.ofNat 32 j.index) (BitVec.ofNat 16 j.index) bus ∧
      t = { s with executor := .free, ports := t.ports, channels := t.channels, attn := t.attn, cardMem := t.cardMem } ∧
      (16 ≤ j.index → t.ports = s.ports) ∧
      ∀ p : PortIx, p.val = j.index → t.ports = s.ports.set p { s.port p with watchLatch :=
        ⟨(s.port p).watchLatch.hold || j.latch.hold, (s.port p).watchLatch.resume || j.latch.resume,
          (s.port p).watchLatch.stall || j.latch.stall, (s.port p).watchLatch.link || j.latch.link⟩ })

/-- The records of COLLECT, SURVEY and TRACE, byte by byte: each field of Tables 9-6 to 9-10 stands where the tables put it, a
field of several bytes little-endian (R177), reserved bytes and bits 0. The kind bit of a free slot is left open (log 15). -/
def Obligations.RecordLayouts : Prop :=
  (∀ (l : Lane) (src : SourceIx),
    (laneRecord l src).length = 32 ∧ ((laneRecord l src).drop 0).take 6 = leBytes 6 l.tally.assuredBytes.toNat ∧
    ((laneRecord l src).drop 6).take 6 = leBytes 6 l.tally.surplusBytes.toNat ∧
    ((laneRecord l src).drop 12).take 4 = leBytes 4 l.tally.framesReleased.toNat ∧
    ((laneRecord l src).drop 16).take 4 = leBytes 4 l.tally.refusals.toNat ∧
    ((laneRecord l src).drop 20).take 4 = leBytes 4 l.tally.spill.toNat ∧
    (laneRecord l src)[24]? = some l.tally.peak ∧ (laneRecord l src)[26]? = some (BitVec.ofNat 8 src.val) ∧
    (laneRecord l src)[27]? = some (BitVec.ofNat 8 l.list.length) ∧
    ((laneRecord l src).drop 28).take 4 = leBytes 4 (BitVec.ofInt 32 l.balance).toNat ∧
    ∃ flags : Byte, (laneRecord l src)[25]? = some flags ∧ flags.getLsbD 0 = l.entry.isOpen ∧
      flags.getLsbD 1 = l.entry.pinned ∧ flags.getLsbD 2 = l.entry.pinInactive ∧ flags.toNat < 8) ∧
  (∀ (q : Port) (p : PortIx),
    portRecord q p = leBytes 4 q.tally.releases.toNat ++ leBytes 2 q.tally.expiries.toNat ++
      leBytes 2 q.tally.impliedDone.toNat ++ leBytes 2 q.tally.staleDone.toNat ++ leBytes 2 q.tally.holds.toNat ++
      leBytes 2 q.tally.stalls.toNat ++ [0, 0] ++ leBytes 4 q.tally.discards.toNat ++
      [BitVec.ofNat 8 p.val, 0, 0, 0] ++ leBytes 4 q.roundCount.toNat ++ [0, 0, 0, 0]) ∧
  (∀ (q : Port) (k : Nat), ∃ b0 b1 b2 b3 b4 : Byte,
    surveyPortRecord q k = [b0, b1, b2, b3, b4, q.holdAge] ++ leBytes 2 q.listTotal ++ leBytes 4 q.roundCount.toNat ++
      [0, 0, 0, 0] ∧
    b0.toNat % 4 = (match q.state with | .closed => 0 | .opened => 1 | .draining => 2 | .retired _ => 3) ∧
    b0.toNat / 4 % 4 = (match q.flow with | .flowing => 0 | .held => 1 | .stalled => 2) ∧
    b0.toNat / 16 % 4 = q.selected.val ∧ b0.getLsbD 6 = q.refreshFlag ∧ b0.getLsbD 7 = false ∧
    b1.getLsbD 0 = q.watchLatch.hold ∧ b1.getLsbD 1 = q.watchLatch.resume ∧ b1.getLsbD 2 = q.watchLatch.stall ∧
    b1.getLsbD 3 = q.watchLatch.link ∧ (∀ x : PortIx, q.state = .retired x → b1.toNat / 16 = x.val) ∧
    ((∀ x : PortIx, q.state ≠ .retired x) → b1.toNat / 16 = 0) ∧
    b2.getLsbD 0 = q.older.isSome ∧ b2.getLsbD 2 = q.younger.isSome ∧ b2.toNat < 16 ∧
    (q.older = none → b3 = 0) ∧ (q.younger = none → b4 = 0) ∧
    (∀ x : Slot, q.older = some x → b3 = x.tag ∧ b2.getLsbD 1 = decide (x.kind = .surplus)) ∧
    ∀ x : Slot, q.younger = some x → b4 = x.tag ∧ b2.getLsbD 3 = decide (x.kind = .surplus)) ∧
  (∀ s : State, ∃ flags : Byte, s.poolRecord = leBytes 2 s.freeCount ++ leBytes 2 s.reserve.toNat ++
      leBytes 2 s.warning.toNat ++ leBytes 2 s.minute.val ++ [flags, 0] ++ leBytes 2 s.badCount.toNat ++ [0, 0, 0, 0] ∧
    flags.getLsbD 0 = s.clockValid ∧ flags.getLsbD 1 = s.linkUp ∧ flags.toNat < 4) ∧
  (∀ (n : BitVec 32) (m : Minute),
    (AreaWrite.gap n m).bytes = [11, 0, 0, 1] ++ leBytes 4 n.toNat ++ [0, 0, 0, 0] ++ leBytes 2 m.val ++ [0, 0]) ∧
  (∀ (h : Holding) (next : Option Offer) (why : CloseReason), (AreaWrite.holding h next why).bytes =
    [BitVec.ofNat 8 h.first.kind.code, BitVec.ofNat 8 h.first.port.val, BitVec.ofNat 8 h.first.source.val,
      BitVec.ofNat 8 h.count, h.first.tag, 0] ++ leBytes 2 h.first.len.toNat ++ leBytes 4 h.first.roundCount.toNat ++
      leBytes 2 h.first.minute.val ++ [0, 0]) ∧
  ∀ (n v : Nat) (i : Fin n), (leBytes n v)[i.val]? = some (BitVec.ofNat 8 (v / 256 ^ i.val))

/-! ## TRACE -/

/-- A TRACE taken (R158, R170): CONFLICT while a trace is armed, BAD_ORDER on a count of 0; else it is armed with its masks,
area, count and stale time, nothing written or held, its masks becoming the sticky mask, the GAP record's write begun where
the gap count is nonzero and the gap count then 0, and the stale timer started where the stale time is nonzero; the executor
is then free (R151). An abort request made since the channel was taken reaches the trace as it is armed: with no GAP write
in progress the order ends ABORTED with nothing written, and during that write it waits (R154, R158, R175; log 12). -/
def Obligations.TraceIsArmed : Prop :=
  ∀ (b : OrderBlock) (bus : CompletionBus) (s : State) (c : ChannelIx), s.CarriesOut c →
    (s.tre.armed ≠ none → ∃ t : State, exec (.trace (some b) bus) s = .next t.takeNext ∧ s.EndedUntouched t c .conflict 0 0 bus) ∧
    (s.tre.armed = none → b.traceCount = 0 → ∃ t : State, exec (.trace (some b) bus) s = .next t.takeNext ∧
      s.EndedUntouched t c .badOrder 0 0 bus) ∧
    ∀ tr : ArmedTrace, s.tre.armed = none → b.traceCount ≠ 0 →
      tr = {
        channel := c, kindMask := b.kindMask, portMask := b.traceMask, area := b.recordArea, count := b.traceCount
        staleTime := b.staleTime, written := 0, holding := none, staleRunning := decide (b.staleTime ≠ 0)
        staleDue := false
        write := if s.tre.gapCount = 0 then none else some (.gap s.tre.gapCount s.minute) } →
      ((s.channel c).abortReq = false ∨ s.tre.gapCount ≠ 0 → exec (.trace (some b) bus) s = .next ({ s with
        executor := .free
        channels := s.channels.set c ⟨.tracing, (s.channel c).addr, (s.channel c).abortReq⟩
        tre := { s.tre with
          armed := some tr, stickyKinds := b.kindMask, stickyPorts := b.traceMask, gapCount := 0 } } : State).takeNext) ∧
      ((s.channel c).abortReq = true → s.tre.gapCount = 0 → ∃ (t u : State), exec (.trace (some b) bus) s = .next t.takeNext ∧
        u = { s with
          executor := .free
          tre := { s.tre with stickyKinds := b.kindMask, stickyPorts := b.traceMask } } ∧
        u.TraceEnded u t tr .aborted 0 0 0 bus)

/-- TRACE_OFFER with no write in progress (R171, R172, R176): with no trace armed the oldest offer that waits counts as a gap
where the sticky mask holds it; an armed trace drops what its masks do not select; a record taken becomes the holding
record, or merges with it, or begins to close it, and restarts the stale timer. Which offer is taken is the model's choice
(log 11): those in the queue come before those on their way, and of the latter the oldest. -/
def Obligations.TraceOfferTaken : Prop :=
  ∀ (o : Offer) (s u : State), s.tre.writing = none →
    (∃ rest : List Offer, (s.tre.queue = o :: rest ∧ u = { s with tre := { s.tre with queue := rest } }) ∨
      (s.tre.queue = [] ∧ s.tre.offered = o :: rest ∧ u = { s with tre := { s.tre with offered := rest } })) →
    (s.tre.armed = none → exec .traceOffer s = .next { u with tre := { u.tre with
      gapCount := if s.tre.stickyKinds.getLsbD o.kind.code = true ∧ s.tre.stickyPorts.getLsbD o.port.val = true then
        BitVec.ofNat 32 (min (s.tre.gapCount.toNat + 1) 4294967295) else s.tre.gapCount } }) ∧
    (∀ tr : ArmedTrace, s.tre.armed = some tr →
      (tr.kindMask.getLsbD o.kind.code = false ∨ tr.portMask.getLsbD o.port.val = false → exec .traceOffer s = .next u) ∧
      (tr.kindMask.getLsbD o.kind.code = true → tr.portMask.getLsbD o.port.val = true →
        (tr.holding = none → exec .traceOffer s = .next { u with tre := { u.tre with
          armed := some { tr with staleRunning := decide (tr.staleTime ≠ 0), holding := some ⟨o, 1⟩ } } }) ∧
        (∀ h : Holding, tr.holding = some h → h.mergesWith o = true → h.count + 1 ≠ 255 →
          exec .traceOffer s = .next { u with tre := { u.tre with
            armed := some { tr with
              staleRunning := decide (tr.staleTime ≠ 0), holding := some ⟨h.first, h.count + 1⟩ } } }) ∧
        (∀ h : Holding, tr.holding = some h → h.mergesWith o = true → h.count + 1 = 255 →
          exec .traceOffer s = .next { u with tre := { u.tre with
            armed := some { tr with
              staleRunning := decide (tr.staleTime ≠ 0), holding := none
              write := some (.holding ⟨h.first, 255⟩ none .taken) } } }) ∧
        (∀ h : Holding, tr.holding = some h → h.mergesWith o = false →
          exec .traceOffer s = .next { u with tre := { u.tre with
            armed := some { tr with
              staleRunning := decide (tr.staleTime ≠ 0), holding := none
              write := some (.holding h (some o) .taken) } } })))

/-- TRACE_OFFER during a write into the area (R171): the offer waits in the queue of 64 places, or, with all filled, adds 1 to
the gap count where the armed trace's masks select it and is dropped otherwise. Which offer arrives is the model's choice (log
11): the oldest of those on their way. The rule by which two records merge (R172). -/
def Obligations.TraceOfferDuringWriteAndMergeRule : Prop :=
  (∀ (o : Offer) (rest : List Offer) (s : State) (tr : ArmedTrace) (w : AreaWrite),
    s.tre.armed = some tr → tr.write = some w → s.tre.offered = o :: rest →
    (s.tre.queue.length < 64 → exec .traceOffer s =
      .next { s with tre := { s.tre with offered := rest, queue := s.tre.queue ++ [o] } }) ∧
    (64 ≤ s.tre.queue.length → exec .traceOffer s = .next { s with tre := { s.tre with
      offered := rest
      gapCount := if tr.kindMask.getLsbD o.kind.code = true ∧ tr.portMask.getLsbD o.port.val = true then
        BitVec.ofNat 32 (min (s.tre.gapCount.toNat + 1) 4294967295) else s.tre.gapCount } })) ∧
  ∀ (h : Holding) (o : Offer), h.mergesWith o = true ↔
    (o.kind = .releaseA ∨ o.kind = .releaseS ∨ o.kind = .refusal) ∧ o.kind = h.first.kind ∧ o.port = h.first.port ∧
    o.source = h.first.source ∧ o.len = h.first.len ∧
    (o.kind = .refusal → o.tag = h.first.tag) ∧
    (o.kind ≠ .refusal → o.tag.toNat = (h.first.tag.toNat + h.count) % 256)

/-- TRACE_AREA_WRITE, the write succeeding (R170, R173 to R175). The record lies at the area address plus 16·j and the written
count rises. A write for an abort's close ends the order ABORTED even where the area is then full; any other write that
fills the area ends it FULL, a taken record left over counting as a gap; a stale close ends it STALE. Else the trace goes on
with the taken record held, and what waited for the write is settled: an abort request, or failing that a stale expiry,
closes the record now held, or with none held ends the order (log 12). -/
def Obligations.TraceAreaWriteSucceeds : Prop :=
  ∀ (bus : CompletionBus) (s u : State) (tr : ArmedTrace) (w : AreaWrite), s.tre.armed = some tr → tr.write = some w →
    u = { s with cardMem := Memory.writeBytes s.cardMem (tr.area + 16 * tr.written) w.bytes } →
    ∃ t : State, exec (.traceAreaWrite true bus) s = .next t ∧
      (∀ (h : Holding) (o : Option Offer), w = .holding h o .abort →
        s.TraceEnded u t tr .aborted (tr.written + 1) 0 s.tre.gapCount.toNat bus) ∧
      (∀ (h : Holding) (o : Option Offer), w = .holding h o .stale →
        (tr.written + 1 = tr.count.toNat → s.TraceEnded u t tr .full (tr.written + 1) 0 s.tre.gapCount.toNat bus) ∧
        (tr.written + 1 ≠ tr.count.toNat → s.TraceEnded u t tr .stale (tr.written + 1) 0 s.tre.gapCount.toNat bus)) ∧
      ∀ o : Option Offer, (∃ h : Holding, w = .holding h o .taken) ∨
          (o = none ∧ ∃ (n : BitVec 32) (m : Minute), w = .gap n m) →
        (tr.written + 1 = tr.count.toNat → s.TraceEnded u t tr .full (tr.written + 1) 0
          (s.tre.gapCount.toNat + if o.isSome then 1 else 0) bus) ∧
        (tr.written + 1 ≠ tr.count.toNat →
          ((s.channel tr.channel).abortReq = false → tr.staleDue = false →
            t = { u with tre := { s.tre with
              armed := some { tr with written := tr.written + 1, holding := o.map fun x => ⟨x, 1⟩, write := none } } }) ∧
          (∀ x : Offer, o = some x → (s.channel tr.channel).abortReq = true →
            t = { u with tre := { s.tre with armed := some { tr with
              written := tr.written + 1, holding := none, write := some (.holding ⟨x, 1⟩ none .abort) } } }) ∧
          (o = none → (s.channel tr.channel).abortReq = true →
            s.TraceEnded u t tr .aborted (tr.written + 1) 0 s.tre.gapCount.toNat bus) ∧
          (∀ x : Offer, o = some x → (s.channel tr.channel).abortReq = false → tr.staleDue = true →
            t = { u with tre := { s.tre with armed := some { tr with
              written := tr.written + 1, holding := none, staleRunning := false, staleDue := false
              write := some (.holding ⟨x, 1⟩ none .stale) } } }) ∧
          (o = none → (s.channel tr.channel).abortReq = false → tr.staleDue = true →
            s.TraceEnded u t tr .stale (tr.written + 1) 0 s.tre.gapCount.toNat bus))

/-- TRACE_AREA_WRITE, the write failing (R175): the order ends MEMORY_FAULT with the written count as progress and slot index,
and the events the record stood for return to the gap count, saturating, as does a taken record that waited for the close
(log 13). That the record's bytes in card memory stay as they were is the model's choice (log 28). -/
def Obligations.TraceAreaWriteFails : Prop :=
  ∀ (bus : CompletionBus) (s : State) (tr : ArmedTrace) (w : AreaWrite), s.tre.armed = some tr → tr.write = some w →
    ∃ (t : State) (lost : Nat), exec (.traceAreaWrite false bus) s = .next t ∧
      s.TraceEnded s t tr .memoryFault tr.written tr.written (s.tre.gapCount.toNat + lost) bus ∧
      (∀ (n : BitVec 32) (m : Minute), w = .gap n m → lost = n.toNat) ∧
      (∀ (h : Holding) (why : CloseReason), w = .holding h none why → lost = h.count) ∧
      (∀ (h : Holding) (o : Offer) (why : CloseReason), w = .holding h (some o) why → lost = h.count + 1)

/-- STALE_TIMER_EXPIRY (R174): a holding record begins to be closed; with none held and something written the order completes
STALE; with nothing written it stays armed and the timer starts again; an expiry that falls during a write waits for it (log
12). A timer that does not run has no expiry, and the command then changes nothing: the model's choice (log 2). -/
def Obligations.StaleTimerOutcome : Prop :=
  ∀ (bus : CompletionBus) (s : State) (tr : ArmedTrace), s.tre.armed = some tr →
    (tr.staleRunning = false → exec (.staleTimerExpiry bus) s = .next s) ∧
    (tr.staleRunning = true → tr.write ≠ none → exec (.staleTimerExpiry bus) s = .next { s with
      tre := { s.tre with armed := some { tr with staleRunning := false, staleDue := true } } }) ∧
    (∀ h : Holding, tr.staleRunning = true → tr.write = none → tr.holding = some h →
      exec (.staleTimerExpiry bus) s = .next { s with tre := { s.tre with armed := some { tr with
        staleRunning := false, staleDue := false, holding := none, write := some (.holding h none .stale) } } }) ∧
    (tr.staleRunning = true → tr.write = none → tr.holding = none → tr.written = 0 →
      exec (.staleTimerExpiry bus) s = .next { s with
        tre := { s.tre with armed := some { tr with staleRunning := true, staleDue := false } } }) ∧
    (tr.staleRunning = true → tr.write = none → tr.holding = none → tr.written ≠ 0 →
      ∃ t : State, exec (.staleTimerExpiry bus) s = .next t ∧
        s.TraceEnded s t tr .stale tr.written 0 s.tre.gapCount.toNat bus)

/-! ## What every step keeps -/

/-- Card memory keeps its canonical form. The free count plus the entries of all lane lists stays 8192 (R25). The pool-low state
stays BELOW exactly when the free count is below the warning level, which stays at least the reserve level (R34, R37). With
the pool conserved, the link stays UP exactly while the line is asserted, fewer than 8 bytes are held of a message not yet
whole, a DOWN link has nothing queued, a message waits on the link only while 256 or more wait outbound, and the outbound
queue never holds more than 8448 messages (R132, R133, R135, R142, R145). -/
def Obligations.MemoryPoolAndQueueStayBounded : Prop :=
  ∀ s t : State, step s = .next t →
    (s.MemoryOk → t.MemoryOk) ∧ (s.PoolConserved → t.PoolConserved) ∧ (s.LevelsOk → t.LevelsOk) ∧
    (s.PoolConserved → s.LinkOk → t.LinkOk ∧ t.outQueue.length ≤ 8448)

/-- At every port: the round timer runs exactly while the port is OPEN or DRAINING and not STALLED, with a round length of
10..10000 (R74, R75); the occupied slots hold the tags that end just before the next tag, older first (R59); a RETIRED port
has no occupied slot and names another port (R89); no list grows beyond 255, the lists of closed lanes and of CLOSED and
RETIRED ports stay empty (R27); and no DRAINING port is left with empty lists and free slots (R84). -/
def Obligations.PortsStayInOrder : Prop :=
  ∀ s t : State, step s = .next t →
    ((∀ p : PortIx, (s.port p).TimerOk ∧ (s.port p).LengthOk) → ∀ p : PortIx, (t.port p).TimerOk ∧ (t.port p).LengthOk) ∧
    ((∀ p : PortIx, (s.port p).SlotsOk ∧ (s.port p).RetiredOk p) →
      ∀ p : PortIx, (t.port p).SlotsOk ∧ (t.port p).RetiredOk p) ∧
    ((∀ p : PortIx, (s.port p).ListsOk ∧ (s.port p).DrainOk) → ∀ p : PortIx, (t.port p).ListsOk ∧ (t.port p).DrainOk)

/-- Every balance stays between -1151 and its effective cap, 0 for a lane of rate 0 (R7), with the properties of bank entries,
pins and effective entries that this rests on (R2, R4, R95, R102). -/
def Obligations.BalancesStayBounded : Prop :=
  ∀ s t : State, s.BanksOk → s.PinsOk → (∀ (p : PortIx) (src : SourceIx), (s.lane p src).CreditOk) → step s = .next t →
    t.BanksOk ∧ t.PinsOk ∧ ∀ (p : PortIx) (src : SourceIx), (t.lane p src).CreditOk

/-- Every booked sum the law covers stays at most its port's capacity figure (R116, R129). While the session clock is invalid
every port's selected profile is profile 0 (R100). -/
def Obligations.BookingsStayLegal : Prop :=
  ∀ s t : State, step s = .next t →
    (s.BookingsLegal → t.BookingsLegal) ∧ (s.SelectionOk → t.SelectionOk)

/-- A pointer register is nonzero exactly while its channel is BUSY or DONE, CHn is set exactly while it is DONE, an abort
request stands on a BUSY channel alone, and the executor's and the armed trace's channels are the ones in the executing and
tracing phases (R148, R149, R151, R158, R159); a channel taken to be left unread has its mark yes (R154). A job of the executor stays within its bounds (R119, R165, R167); every trace
record written has a repeat count of 1..255, the armed trace has at least one free slot, and at most 64 offers wait (R171,
R173, R177). -/
def Obligations.ChannelsAndTraceStayConsistent : Prop :=
  ∀ s t : State, step s = .next t →
    ((∀ c : ChannelIx, s.ChannelOk c) → s.PhasesOk → (∀ c : ChannelIx, t.ChannelOk c) ∧ t.PhasesOk) ∧
    (s.JobOk → t.JobOk) ∧ (s.TraceOk → t.TraceOk)

/-- The machine right after reset has every property that steps keep. -/
def Obligations.ResetStateIsHealthy : Prop :=
  let s := State.reset
  s.MemoryOk ∧ s.PoolConserved ∧ s.LevelsOk ∧ s.BanksOk ∧ s.PinsOk ∧ s.BookingsLegal ∧ s.LinkOk ∧
  (∀ c : ChannelIx, s.ChannelOk c) ∧ s.PhasesOk ∧ s.JobOk ∧ s.TraceOk ∧ s.SelectionOk ∧ ∀ p : PortIx, (s.port p).Ok p
end
end

