-- ==== Sys2Proof/Laws/State.lean ====
section
/-! SUPPORT. One lemma per field per update of State: what an update leaves as it stands, and what port and channel read as
after it. -/

namespace Sys2Proof.Machine

variable (s : State)

/-! ### setPort -/

@[simp] theorem State.setPort_freeCount (p : PortIx) (q : Port) : (s.setPort p q).freeCount = s.freeCount := rfl
@[simp] theorem State.setPort_reserve (p : PortIx) (q : Port) : (s.setPort p q).reserve = s.reserve := rfl
@[simp] theorem State.setPort_warning (p : PortIx) (q : Port) : (s.setPort p q).warning = s.warning := rfl
@[simp] theorem State.setPort_poolBelow (p : PortIx) (q : Port) : (s.setPort p q).poolBelow = s.poolBelow := rfl
@[simp] theorem State.setPort_banks (p : PortIx) (q : Port) : (s.setPort p q).banks = s.banks := rfl
@[simp] theorem State.setPort_windows (p : PortIx) (q : Port) : (s.setPort p q).windows = s.windows := rfl
@[simp] theorem State.setPort_pins (p : PortIx) (q : Port) : (s.setPort p q).pins = s.pins := rfl
@[simp] theorem State.setPort_minute (p : PortIx) (q : Port) : (s.setPort p q).minute = s.minute := rfl
@[simp] theorem State.setPort_clockValid (p : PortIx) (q : Port) : (s.setPort p q).clockValid = s.clockValid := rfl
@[simp] theorem State.setPort_linkReady (p : PortIx) (q : Port) : (s.setPort p q).linkReady = s.linkReady := rfl
@[simp] theorem State.setPort_linkUp (p : PortIx) (q : Port) : (s.setPort p q).linkUp = s.linkUp := rfl
@[simp] theorem State.setPort_inPartial (p : PortIx) (q : Port) : (s.setPort p q).inPartial = s.inPartial := rfl
@[simp] theorem State.setPort_inWaiting (p : PortIx) (q : Port) : (s.setPort p q).inWaiting = s.inWaiting := rfl
@[simp] theorem State.setPort_outQueue (p : PortIx) (q : Port) : (s.setPort p q).outQueue = s.outQueue := rfl
@[simp] theorem State.setPort_badCount (p : PortIx) (q : Port) : (s.setPort p q).badCount = s.badCount := rfl
@[simp] theorem State.setPort_channels (p : PortIx) (q : Port) : (s.setPort p q).channels = s.channels := rfl
@[simp] theorem State.setPort_executor (p : PortIx) (q : Port) : (s.setPort p q).executor = s.executor := rfl
@[simp] theorem State.setPort_tre (p : PortIx) (q : Port) : (s.setPort p q).tre = s.tre := rfl
@[simp] theorem State.setPort_attn (p : PortIx) (q : Port) : (s.setPort p q).attn = s.attn := rfl
@[simp] theorem State.setPort_attnMask (p : PortIx) (q : Port) : (s.setPort p q).attnMask = s.attnMask := rfl
@[simp] theorem State.setPort_cardMem (p : PortIx) (q : Port) : (s.setPort p q).cardMem = s.cardMem := rfl
@[simp] theorem State.setPort_freeCtr (p : PortIx) (q : Port) : (s.setPort p q).freeCtr = s.freeCtr := rfl
@[simp] theorem State.setPort_retests (p : PortIx) (q : Port) : (s.setPort p q).retests = s.retests := rfl
@[simp] theorem State.setPort_pending (p : PortIx) (q : Port) : (s.setPort p q).pending = s.pending := rfl

/-! ### updPort -/

@[simp] theorem State.updPort_freeCount (p : PortIx) (f : Port → Port) : (s.updPort p f).freeCount = s.freeCount := rfl
@[simp] theorem State.updPort_reserve (p : PortIx) (f : Port → Port) : (s.updPort p f).reserve = s.reserve := rfl
@[simp] theorem State.updPort_warning (p : PortIx) (f : Port → Port) : (s.updPort p f).warning = s.warning := rfl
@[simp] theorem State.updPort_poolBelow (p : PortIx) (f : Port → Port) : (s.updPort p f).poolBelow = s.poolBelow := rfl
@[simp] theorem State.updPort_banks (p : PortIx) (f : Port → Port) : (s.updPort p f).banks = s.banks := rfl
@[simp] theorem State.updPort_windows (p : PortIx) (f : Port → Port) : (s.updPort p f).windows = s.windows := rfl
@[simp] theorem State.updPort_pins (p : PortIx) (f : Port → Port) : (s.updPort p f).pins = s.pins := rfl
@[simp] theorem State.updPort_minute (p : PortIx) (f : Port → Port) : (s.updPort p f).minute = s.minute := rfl
@[simp] theorem State.updPort_clockValid (p : PortIx) (f : Port → Port) : (s.updPort p f).clockValid = s.clockValid := rfl
@[simp] theorem State.updPort_linkReady (p : PortIx) (f : Port → Port) : (s.updPort p f).linkReady = s.linkReady := rfl
@[simp] theorem State.updPort_linkUp (p : PortIx) (f : Port → Port) : (s.updPort p f).linkUp = s.linkUp := rfl
@[simp] theorem State.updPort_inPartial (p : PortIx) (f : Port → Port) : (s.updPort p f).inPartial = s.inPartial := rfl
@[simp] theorem State.updPort_inWaiting (p : PortIx) (f : Port → Port) : (s.updPort p f).inWaiting = s.inWaiting := rfl
@[simp] theorem State.updPort_outQueue (p : PortIx) (f : Port → Port) : (s.updPort p f).outQueue = s.outQueue := rfl
@[simp] theorem State.updPort_badCount (p : PortIx) (f : Port → Port) : (s.updPort p f).badCount = s.badCount := rfl
@[simp] theorem State.updPort_channels (p : PortIx) (f : Port → Port) : (s.updPort p f).channels = s.channels := rfl
@[simp] theorem State.updPort_executor (p : PortIx) (f : Port → Port) : (s.updPort p f).executor = s.executor := rfl
@[simp] theorem State.updPort_tre (p : PortIx) (f : Port → Port) : (s.updPort p f).tre = s.tre := rfl
@[simp] theorem State.updPort_attn (p : PortIx) (f : Port → Port) : (s.updPort p f).attn = s.attn := rfl
@[simp] theorem State.updPort_attnMask (p : PortIx) (f : Port → Port) : (s.updPort p f).attnMask = s.attnMask := rfl
@[simp] theorem State.updPort_cardMem (p : PortIx) (f : Port → Port) : (s.updPort p f).cardMem = s.cardMem := rfl
@[simp] theorem State.updPort_freeCtr (p : PortIx) (f : Port → Port) : (s.updPort p f).freeCtr = s.freeCtr := rfl
@[simp] theorem State.updPort_retests (p : PortIx) (f : Port → Port) : (s.updPort p f).retests = s.retests := rfl
@[simp] theorem State.updPort_pending (p : PortIx) (f : Port → Port) : (s.updPort p f).pending = s.pending := rfl

/-! ### mapPorts -/

@[simp] theorem State.mapPorts_freeCount (f : PortIx → Port → Port) : (s.mapPorts f).freeCount = s.freeCount := by simp only [State.mapPorts]
@[simp] theorem State.mapPorts_reserve (f : PortIx → Port → Port) : (s.mapPorts f).reserve = s.reserve := by simp only [State.mapPorts]
@[simp] theorem State.mapPorts_warning (f : PortIx → Port → Port) : (s.mapPorts f).warning = s.warning := by simp only [State.mapPorts]
@[simp] theorem State.mapPorts_poolBelow (f : PortIx → Port → Port) : (s.mapPorts f).poolBelow = s.poolBelow := by simp only [State.mapPorts]
@[simp] theorem State.mapPorts_banks (f : PortIx → Port → Port) : (s.mapPorts f).banks = s.banks := by simp only [State.mapPorts]
@[simp] theorem State.mapPorts_windows (f : PortIx → Port → Port) : (s.mapPorts f).windows = s.windows := by simp only [State.mapPorts]
@[simp] theorem State.mapPorts_pins (f : PortIx → Port → Port) : (s.mapPorts f).pins = s.pins := by simp only [State.mapPorts]
@[simp] theorem State.mapPorts_minute (f : PortIx → Port → Port) : (s.mapPorts f).minute = s.minute := by simp only [State.mapPorts]
@[simp] theorem State.mapPorts_clockValid (f : PortIx → Port → Port) : (s.mapPorts f).clockValid = s.clockValid := by simp only [State.mapPorts]
@[simp] theorem State.mapPorts_linkReady (f : PortIx → Port → Port) : (s.mapPorts f).linkReady = s.linkReady := by simp only [State.mapPorts]
@[simp] theorem State.mapPorts_linkUp (f : PortIx → Port → Port) : (s.mapPorts f).linkUp = s.linkUp := by simp only [State.mapPorts]
@[simp] theorem State.mapPorts_inPartial (f : PortIx → Port → Port) : (s.mapPorts f).inPartial = s.inPartial := by simp only [State.mapPorts]
@[simp] theorem State.mapPorts_inWaiting (f : PortIx → Port → Port) : (s.mapPorts f).inWaiting = s.inWaiting := by simp only [State.mapPorts]
@[simp] theorem State.mapPorts_outQueue (f : PortIx → Port → Port) : (s.mapPorts f).outQueue = s.outQueue := by simp only [State.mapPorts]
@[simp] theorem State.mapPorts_badCount (f : PortIx → Port → Port) : (s.mapPorts f).badCount = s.badCount := by simp only [State.mapPorts]
@[simp] theorem State.mapPorts_channels (f : PortIx → Port → Port) : (s.mapPorts f).channels = s.channels := by simp only [State.mapPorts]
@[simp] theorem State.mapPorts_executor (f : PortIx → Port → Port) : (s.mapPorts f).executor = s.executor := by simp only [State.mapPorts]
@[simp] theorem State.mapPorts_tre (f : PortIx → Port → Port) : (s.mapPorts f).tre = s.tre := by simp only [State.mapPorts]
@[simp] theorem State.mapPorts_attn (f : PortIx → Port → Port) : (s.mapPorts f).attn = s.attn := by simp only [State.mapPorts]
@[simp] theorem State.mapPorts_attnMask (f : PortIx → Port → Port) : (s.mapPorts f).attnMask = s.attnMask := by simp only [State.mapPorts]
@[simp] theorem State.mapPorts_cardMem (f : PortIx → Port → Port) : (s.mapPorts f).cardMem = s.cardMem := by simp only [State.mapPorts]
@[simp] theorem State.mapPorts_freeCtr (f : PortIx → Port → Port) : (s.mapPorts f).freeCtr = s.freeCtr := by simp only [State.mapPorts]
@[simp] theorem State.mapPorts_retests (f : PortIx → Port → Port) : (s.mapPorts f).retests = s.retests := by simp only [State.mapPorts]
@[simp] theorem State.mapPorts_pending (f : PortIx → Port → Port) : (s.mapPorts f).pending = s.pending := by simp only [State.mapPorts]

/-! ### updLane -/

@[simp] theorem State.updLane_freeCount (p : PortIx) (src : SourceIx) (f : Lane → Lane) : (s.updLane p src f).freeCount = s.freeCount := rfl
@[simp] theorem State.updLane_reserve (p : PortIx) (src : SourceIx) (f : Lane → Lane) : (s.updLane p src f).reserve = s.reserve := rfl
@[simp] theorem State.updLane_warning (p : PortIx) (src : SourceIx) (f : Lane → Lane) : (s.updLane p src f).warning = s.warning := rfl
@[simp] theorem State.updLane_poolBelow (p : PortIx) (src : SourceIx) (f : Lane → Lane) : (s.updLane p src f).poolBelow = s.poolBelow := rfl
@[simp] theorem State.updLane_banks (p : PortIx) (src : SourceIx) (f : Lane → Lane) : (s.updLane p src f).banks = s.banks := rfl
@[simp] theorem State.updLane_windows (p : PortIx) (src : SourceIx) (f : Lane → Lane) : (s.updLane p src f).windows = s.windows := rfl
@[simp] theorem State.updLane_pins (p : PortIx) (src : SourceIx) (f : Lane → Lane) : (s.updLane p src f).pins = s.pins := rfl
@[simp] theorem State.updLane_minute (p : PortIx) (src : SourceIx) (f : Lane → Lane) : (s.updLane p src f).minute = s.minute := rfl
@[simp] theorem State.updLane_clockValid (p : PortIx) (src : SourceIx) (f : Lane → Lane) : (s.updLane p src f).clockValid = s.clockValid := rfl
@[simp] theorem State.updLane_linkReady (p : PortIx) (src : SourceIx) (f : Lane → Lane) : (s.updLane p src f).linkReady = s.linkReady := rfl
@[simp] theorem State.updLane_linkUp (p : PortIx) (src : SourceIx) (f : Lane → Lane) : (s.updLane p src f).linkUp = s.linkUp := rfl
@[simp] theorem State.updLane_inPartial (p : PortIx) (src : SourceIx) (f : Lane → Lane) : (s.updLane p src f).inPartial = s.inPartial := rfl
@[simp] theorem State.updLane_inWaiting (p : PortIx) (src : SourceIx) (f : Lane → Lane) : (s.updLane p src f).inWaiting = s.inWaiting := rfl
@[simp] theorem State.updLane_outQueue (p : PortIx) (src : SourceIx) (f : Lane → Lane) : (s.updLane p src f).outQueue = s.outQueue := rfl
@[simp] theorem State.updLane_badCount (p : PortIx) (src : SourceIx) (f : Lane → Lane) : (s.updLane p src f).badCount = s.badCount := rfl
@[simp] theorem State.updLane_channels (p : PortIx) (src : SourceIx) (f : Lane → Lane) : (s.updLane p src f).channels = s.channels := rfl
@[simp] theorem State.updLane_executor (p : PortIx) (src : SourceIx) (f : Lane → Lane) : (s.updLane p src f).executor = s.executor := rfl
@[simp] theorem State.updLane_tre (p : PortIx) (src : SourceIx) (f : Lane → Lane) : (s.updLane p src f).tre = s.tre := rfl
@[simp] theorem State.updLane_attn (p : PortIx) (src : SourceIx) (f : Lane → Lane) : (s.updLane p src f).attn = s.attn := rfl
@[simp] theorem State.updLane_attnMask (p : PortIx) (src : SourceIx) (f : Lane → Lane) : (s.updLane p src f).attnMask = s.attnMask := rfl
@[simp] theorem State.updLane_cardMem (p : PortIx) (src : SourceIx) (f : Lane → Lane) : (s.updLane p src f).cardMem = s.cardMem := rfl
@[simp] theorem State.updLane_freeCtr (p : PortIx) (src : SourceIx) (f : Lane → Lane) : (s.updLane p src f).freeCtr = s.freeCtr := rfl
@[simp] theorem State.updLane_retests (p : PortIx) (src : SourceIx) (f : Lane → Lane) : (s.updLane p src f).retests = s.retests := rfl
@[simp] theorem State.updLane_pending (p : PortIx) (src : SourceIx) (f : Lane → Lane) : (s.updLane p src f).pending = s.pending := rfl

/-! ### updPortTally -/

@[simp] theorem State.updPortTally_freeCount (p : PortIx) (f : PortTally → PortTally) : (s.updPortTally p f).freeCount = s.freeCount := rfl
@[simp] theorem State.updPortTally_reserve (p : PortIx) (f : PortTally → PortTally) : (s.updPortTally p f).reserve = s.reserve := rfl
@[simp] theorem State.updPortTally_warning (p : PortIx) (f : PortTally → PortTally) : (s.updPortTally p f).warning = s.warning := rfl
@[simp] theorem State.updPortTally_poolBelow (p : PortIx) (f : PortTally → PortTally) : (s.updPortTally p f).poolBelow = s.poolBelow := rfl
@[simp] theorem State.updPortTally_banks (p : PortIx) (f : PortTally → PortTally) : (s.updPortTally p f).banks = s.banks := rfl
@[simp] theorem State.updPortTally_windows (p : PortIx) (f : PortTally → PortTally) : (s.updPortTally p f).windows = s.windows := rfl
@[simp] theorem State.updPortTally_pins (p : PortIx) (f : PortTally → PortTally) : (s.updPortTally p f).pins = s.pins := rfl
@[simp] theorem State.updPortTally_minute (p : PortIx) (f : PortTally → PortTally) : (s.updPortTally p f).minute = s.minute := rfl
@[simp] theorem State.updPortTally_clockValid (p : PortIx) (f : PortTally → PortTally) : (s.updPortTally p f).clockValid = s.clockValid := rfl
@[simp] theorem State.updPortTally_linkReady (p : PortIx) (f : PortTally → PortTally) : (s.updPortTally p f).linkReady = s.linkReady := rfl
@[simp] theorem State.updPortTally_linkUp (p : PortIx) (f : PortTally → PortTally) : (s.updPortTally p f).linkUp = s.linkUp := rfl
@[simp] theorem State.updPortTally_inPartial (p : PortIx) (f : PortTally → PortTally) : (s.updPortTally p f).inPartial = s.inPartial := rfl
@[simp] theorem State.updPortTally_inWaiting (p : PortIx) (f : PortTally → PortTally) : (s.updPortTally p f).inWaiting = s.inWaiting := rfl
@[simp] theorem State.updPortTally_outQueue (p : PortIx) (f : PortTally → PortTally) : (s.updPortTally p f).outQueue = s.outQueue := rfl
@[simp] theorem State.updPortTally_badCount (p : PortIx) (f : PortTally → PortTally) : (s.updPortTally p f).badCount = s.badCount := rfl
@[simp] theorem State.updPortTally_channels (p : PortIx) (f : PortTally → PortTally) : (s.updPortTally p f).channels = s.channels := rfl
@[simp] theorem State.updPortTally_executor (p : PortIx) (f : PortTally → PortTally) : (s.updPortTally p f).executor = s.executor := rfl
@[simp] theorem State.updPortTally_tre (p : PortIx) (f : PortTally → PortTally) : (s.updPortTally p f).tre = s.tre := rfl
@[simp] theorem State.updPortTally_attn (p : PortIx) (f : PortTally → PortTally) : (s.updPortTally p f).attn = s.attn := rfl
@[simp] theorem State.updPortTally_attnMask (p : PortIx) (f : PortTally → PortTally) : (s.updPortTally p f).attnMask = s.attnMask := rfl
@[simp] theorem State.updPortTally_cardMem (p : PortIx) (f : PortTally → PortTally) : (s.updPortTally p f).cardMem = s.cardMem := rfl
@[simp] theorem State.updPortTally_freeCtr (p : PortIx) (f : PortTally → PortTally) : (s.updPortTally p f).freeCtr = s.freeCtr := rfl
@[simp] theorem State.updPortTally_retests (p : PortIx) (f : PortTally → PortTally) : (s.updPortTally p f).retests = s.retests := rfl
@[simp] theorem State.updPortTally_pending (p : PortIx) (f : PortTally → PortTally) : (s.updPortTally p f).pending = s.pending := rfl

/-! ### drain -/

@[simp] theorem State.drain_freeCount (p : PortIx) : (s.drain p).freeCount = s.freeCount := rfl
@[simp] theorem State.drain_reserve (p : PortIx) : (s.drain p).reserve = s.reserve := rfl
@[simp] theorem State.drain_warning (p : PortIx) : (s.drain p).warning = s.warning := rfl
@[simp] theorem State.drain_poolBelow (p : PortIx) : (s.drain p).poolBelow = s.poolBelow := rfl
@[simp] theorem State.drain_banks (p : PortIx) : (s.drain p).banks = s.banks := rfl
@[simp] theorem State.drain_windows (p : PortIx) : (s.drain p).windows = s.windows := rfl
@[simp] theorem State.drain_pins (p : PortIx) : (s.drain p).pins = s.pins := rfl
@[simp] theorem State.drain_minute (p : PortIx) : (s.drain p).minute = s.minute := rfl
@[simp] theorem State.drain_clockValid (p : PortIx) : (s.drain p).clockValid = s.clockValid := rfl
@[simp] theorem State.drain_linkReady (p : PortIx) : (s.drain p).linkReady = s.linkReady := rfl
@[simp] theorem State.drain_linkUp (p : PortIx) : (s.drain p).linkUp = s.linkUp := rfl
@[simp] theorem State.drain_inPartial (p : PortIx) : (s.drain p).inPartial = s.inPartial := rfl
@[simp] theorem State.drain_inWaiting (p : PortIx) : (s.drain p).inWaiting = s.inWaiting := rfl
@[simp] theorem State.drain_outQueue (p : PortIx) : (s.drain p).outQueue = s.outQueue := rfl
@[simp] theorem State.drain_badCount (p : PortIx) : (s.drain p).badCount = s.badCount := rfl
@[simp] theorem State.drain_channels (p : PortIx) : (s.drain p).channels = s.channels := rfl
@[simp] theorem State.drain_executor (p : PortIx) : (s.drain p).executor = s.executor := rfl
@[simp] theorem State.drain_tre (p : PortIx) : (s.drain p).tre = s.tre := rfl
@[simp] theorem State.drain_attn (p : PortIx) : (s.drain p).attn = s.attn := rfl
@[simp] theorem State.drain_attnMask (p : PortIx) : (s.drain p).attnMask = s.attnMask := rfl
@[simp] theorem State.drain_cardMem (p : PortIx) : (s.drain p).cardMem = s.cardMem := rfl
@[simp] theorem State.drain_freeCtr (p : PortIx) : (s.drain p).freeCtr = s.freeCtr := rfl
@[simp] theorem State.drain_retests (p : PortIx) : (s.drain p).retests = s.retests := rfl
@[simp] theorem State.drain_pending (p : PortIx) : (s.drain p).pending = s.pending := rfl

/-! ### setFree -/

@[simp] theorem State.setFree_ports (n : Nat) : (s.setFree n).ports = s.ports := rfl
@[simp] theorem State.setFree_reserve (n : Nat) : (s.setFree n).reserve = s.reserve := rfl
@[simp] theorem State.setFree_warning (n : Nat) : (s.setFree n).warning = s.warning := rfl
@[simp] theorem State.setFree_banks (n : Nat) : (s.setFree n).banks = s.banks := rfl
@[simp] theorem State.setFree_windows (n : Nat) : (s.setFree n).windows = s.windows := rfl
@[simp] theorem State.setFree_pins (n : Nat) : (s.setFree n).pins = s.pins := rfl
@[simp] theorem State.setFree_minute (n : Nat) : (s.setFree n).minute = s.minute := rfl
@[simp] theorem State.setFree_clockValid (n : Nat) : (s.setFree n).clockValid = s.clockValid := rfl
@[simp] theorem State.setFree_linkReady (n : Nat) : (s.setFree n).linkReady = s.linkReady := rfl
@[simp] theorem State.setFree_linkUp (n : Nat) : (s.setFree n).linkUp = s.linkUp := rfl
@[simp] theorem State.setFree_inPartial (n : Nat) : (s.setFree n).inPartial = s.inPartial := rfl
@[simp] theorem State.setFree_inWaiting (n : Nat) : (s.setFree n).inWaiting = s.inWaiting := rfl
@[simp] theorem State.setFree_outQueue (n : Nat) : (s.setFree n).outQueue = s.outQueue := rfl
@[simp] theorem State.setFree_badCount (n : Nat) : (s.setFree n).badCount = s.badCount := rfl
@[simp] theorem State.setFree_channels (n : Nat) : (s.setFree n).channels = s.channels := rfl
@[simp] theorem State.setFree_executor (n : Nat) : (s.setFree n).executor = s.executor := rfl
@[simp] theorem State.setFree_tre (n : Nat) : (s.setFree n).tre = s.tre := rfl
@[simp] theorem State.setFree_attn (n : Nat) : (s.setFree n).attn = s.attn := rfl
@[simp] theorem State.setFree_attnMask (n : Nat) : (s.setFree n).attnMask = s.attnMask := rfl
@[simp] theorem State.setFree_cardMem (n : Nat) : (s.setFree n).cardMem = s.cardMem := rfl
@[simp] theorem State.setFree_freeCtr (n : Nat) : (s.setFree n).freeCtr = s.freeCtr := rfl
@[simp] theorem State.setFree_retests (n : Nat) : (s.setFree n).retests = s.retests := rfl
@[simp] theorem State.setFree_pending (n : Nat) : (s.setFree n).pending = s.pending := rfl

/-! ### handOver -/

@[simp] theorem State.handOver_ports (ms : List Message) : (s.handOver ms).ports = s.ports := by unfold State.handOver; split <;> rfl
@[simp] theorem State.handOver_freeCount (ms : List Message) : (s.handOver ms).freeCount = s.freeCount := by unfold State.handOver; split <;> rfl
@[simp] theorem State.handOver_reserve (ms : List Message) : (s.handOver ms).reserve = s.reserve := by unfold State.handOver; split <;> rfl
@[simp] theorem State.handOver_warning (ms : List Message) : (s.handOver ms).warning = s.warning := by unfold State.handOver; split <;> rfl
@[simp] theorem State.handOver_poolBelow (ms : List Message) : (s.handOver ms).poolBelow = s.poolBelow := by unfold State.handOver; split <;> rfl
@[simp] theorem State.handOver_banks (ms : List Message) : (s.handOver ms).banks = s.banks := by unfold State.handOver; split <;> rfl
@[simp] theorem State.handOver_windows (ms : List Message) : (s.handOver ms).windows = s.windows := by unfold State.handOver; split <;> rfl
@[simp] theorem State.handOver_pins (ms : List Message) : (s.handOver ms).pins = s.pins := by unfold State.handOver; split <;> rfl
@[simp] theorem State.handOver_minute (ms : List Message) : (s.handOver ms).minute = s.minute := by unfold State.handOver; split <;> rfl
@[simp] theorem State.handOver_clockValid (ms : List Message) : (s.handOver ms).clockValid = s.clockValid := by unfold State.handOver; split <;> rfl
@[simp] theorem State.handOver_linkReady (ms : List Message) : (s.handOver ms).linkReady = s.linkReady := by unfold State.handOver; split <;> rfl
@[simp] theorem State.handOver_linkUp (ms : List Message) : (s.handOver ms).linkUp = s.linkUp := by unfold State.handOver; split <;> rfl
@[simp] theorem State.handOver_inPartial (ms : List Message) : (s.handOver ms).inPartial = s.inPartial := by unfold State.handOver; split <;> rfl
@[simp] theorem State.handOver_inWaiting (ms : List Message) : (s.handOver ms).inWaiting = s.inWaiting := by unfold State.handOver; split <;> rfl
@[simp] theorem State.handOver_badCount (ms : List Message) : (s.handOver ms).badCount = s.badCount := by unfold State.handOver; split <;> rfl
@[simp] theorem State.handOver_channels (ms : List Message) : (s.handOver ms).channels = s.channels := by unfold State.handOver; split <;> rfl
@[simp] theorem State.handOver_executor (ms : List Message) : (s.handOver ms).executor = s.executor := by unfold State.handOver; split <;> rfl
@[simp] theorem State.handOver_tre (ms : List Message) : (s.handOver ms).tre = s.tre := by unfold State.handOver; split <;> rfl
@[simp] theorem State.handOver_attn (ms : List Message) : (s.handOver ms).attn = s.attn := by unfold State.handOver; split <;> rfl
@[simp] theorem State.handOver_attnMask (ms : List Message) : (s.handOver ms).attnMask = s.attnMask := by unfold State.handOver; split <;> rfl
@[simp] theorem State.handOver_cardMem (ms : List Message) : (s.handOver ms).cardMem = s.cardMem := by unfold State.handOver; split <;> rfl
@[simp] theorem State.handOver_freeCtr (ms : List Message) : (s.handOver ms).freeCtr = s.freeCtr := by unfold State.handOver; split <;> rfl
@[simp] theorem State.handOver_retests (ms : List Message) : (s.handOver ms).retests = s.retests := by unfold State.handOver; split <;> rfl
@[simp] theorem State.handOver_pending (ms : List Message) : (s.handOver ms).pending = s.pending := by unfold State.handOver; split <;> rfl

/-! ### offer -/

@[simp] theorem State.offer_ports (os : List Offer) : (s.offer os).ports = s.ports := rfl
@[simp] theorem State.offer_freeCount (os : List Offer) : (s.offer os).freeCount = s.freeCount := rfl
@[simp] theorem State.offer_reserve (os : List Offer) : (s.offer os).reserve = s.reserve := rfl
@[simp] theorem State.offer_warning (os : List Offer) : (s.offer os).warning = s.warning := rfl
@[simp] theorem State.offer_poolBelow (os : List Offer) : (s.offer os).poolBelow = s.poolBelow := rfl
@[simp] theorem State.offer_banks (os : List Offer) : (s.offer os).banks = s.banks := rfl
@[simp] theorem State.offer_windows (os : List Offer) : (s.offer os).windows = s.windows := rfl
@[simp] theorem State.offer_pins (os : List Offer) : (s.offer os).pins = s.pins := rfl
@[simp] theorem State.offer_minute (os : List Offer) : (s.offer os).minute = s.minute := rfl
@[simp] theorem State.offer_clockValid (os : List Offer) : (s.offer os).clockValid = s.clockValid := rfl
@[simp] theorem State.offer_linkReady (os : List Offer) : (s.offer os).linkReady = s.linkReady := rfl
@[simp] theorem State.offer_linkUp (os : List Offer) : (s.offer os).linkUp = s.linkUp := rfl
@[simp] theorem State.offer_inPartial (os : List Offer) : (s.offer os).inPartial = s.inPartial := rfl
@[simp] theorem State.offer_inWaiting (os : List Offer) : (s.offer os).inWaiting = s.inWaiting := rfl
@[simp] theorem State.offer_outQueue (os : List Offer) : (s.offer os).outQueue = s.outQueue := rfl
@[simp] theorem State.offer_badCount (os : List Offer) : (s.offer os).badCount = s.badCount := rfl
@[simp] theorem State.offer_channels (os : List Offer) : (s.offer os).channels = s.channels := rfl
@[simp] theorem State.offer_executor (os : List Offer) : (s.offer os).executor = s.executor := rfl
@[simp] theorem State.offer_attn (os : List Offer) : (s.offer os).attn = s.attn := rfl
@[simp] theorem State.offer_attnMask (os : List Offer) : (s.offer os).attnMask = s.attnMask := rfl
@[simp] theorem State.offer_cardMem (os : List Offer) : (s.offer os).cardMem = s.cardMem := rfl
@[simp] theorem State.offer_freeCtr (os : List Offer) : (s.offer os).freeCtr = s.freeCtr := rfl
@[simp] theorem State.offer_retests (os : List Offer) : (s.offer os).retests = s.retests := rfl
@[simp] theorem State.offer_pending (os : List Offer) : (s.offer os).pending = s.pending := rfl

/-! ### latch -/

@[simp] theorem State.latch_ports (i : Nat) : (s.latch i).ports = s.ports := rfl
@[simp] theorem State.latch_freeCount (i : Nat) : (s.latch i).freeCount = s.freeCount := rfl
@[simp] theorem State.latch_reserve (i : Nat) : (s.latch i).reserve = s.reserve := rfl
@[simp] theorem State.latch_warning (i : Nat) : (s.latch i).warning = s.warning := rfl
@[simp] theorem State.latch_poolBelow (i : Nat) : (s.latch i).poolBelow = s.poolBelow := rfl
@[simp] theorem State.latch_banks (i : Nat) : (s.latch i).banks = s.banks := rfl
@[simp] theorem State.latch_windows (i : Nat) : (s.latch i).windows = s.windows := rfl
@[simp] theorem State.latch_pins (i : Nat) : (s.latch i).pins = s.pins := rfl
@[simp] theorem State.latch_minute (i : Nat) : (s.latch i).minute = s.minute := rfl
@[simp] theorem State.latch_clockValid (i : Nat) : (s.latch i).clockValid = s.clockValid := rfl
@[simp] theorem State.latch_linkReady (i : Nat) : (s.latch i).linkReady = s.linkReady := rfl
@[simp] theorem State.latch_linkUp (i : Nat) : (s.latch i).linkUp = s.linkUp := rfl
@[simp] theorem State.latch_inPartial (i : Nat) : (s.latch i).inPartial = s.inPartial := rfl
@[simp] theorem State.latch_inWaiting (i : Nat) : (s.latch i).inWaiting = s.inWaiting := rfl
@[simp] theorem State.latch_outQueue (i : Nat) : (s.latch i).outQueue = s.outQueue := rfl
@[simp] theorem State.latch_badCount (i : Nat) : (s.latch i).badCount = s.badCount := rfl
@[simp] theorem State.latch_channels (i : Nat) : (s.latch i).channels = s.channels := rfl
@[simp] theorem State.latch_executor (i : Nat) : (s.latch i).executor = s.executor := rfl
@[simp] theorem State.latch_tre (i : Nat) : (s.latch i).tre = s.tre := rfl
@[simp] theorem State.latch_attnMask (i : Nat) : (s.latch i).attnMask = s.attnMask := rfl
@[simp] theorem State.latch_cardMem (i : Nat) : (s.latch i).cardMem = s.cardMem := rfl
@[simp] theorem State.latch_freeCtr (i : Nat) : (s.latch i).freeCtr = s.freeCtr := rfl
@[simp] theorem State.latch_retests (i : Nat) : (s.latch i).retests = s.retests := rfl
@[simp] theorem State.latch_pending (i : Nat) : (s.latch i).pending = s.pending := rfl

/-! ### latchIf -/

@[simp] theorem State.latchIf_ports (c : Bool) (i : Nat) : (s.latchIf c i).ports = s.ports := by unfold State.latchIf; split <;> rfl
@[simp] theorem State.latchIf_freeCount (c : Bool) (i : Nat) : (s.latchIf c i).freeCount = s.freeCount := by unfold State.latchIf; split <;> rfl
@[simp] theorem State.latchIf_reserve (c : Bool) (i : Nat) : (s.latchIf c i).reserve = s.reserve := by unfold State.latchIf; split <;> rfl
@[simp] theorem State.latchIf_warning (c : Bool) (i : Nat) : (s.latchIf c i).warning = s.warning := by unfold State.latchIf; split <;> rfl
@[simp] theorem State.latchIf_poolBelow (c : Bool) (i : Nat) : (s.latchIf c i).poolBelow = s.poolBelow := by unfold State.latchIf; split <;> rfl
@[simp] theorem State.latchIf_banks (c : Bool) (i : Nat) : (s.latchIf c i).banks = s.banks := by unfold State.latchIf; split <;> rfl
@[simp] theorem State.latchIf_windows (c : Bool) (i : Nat) : (s.latchIf c i).windows = s.windows := by unfold State.latchIf; split <;> rfl
@[simp] theorem State.latchIf_pins (c : Bool) (i : Nat) : (s.latchIf c i).pins = s.pins := by unfold State.latchIf; split <;> rfl
@[simp] theorem State.latchIf_minute (c : Bool) (i : Nat) : (s.latchIf c i).minute = s.minute := by unfold State.latchIf; split <;> rfl
@[simp] theorem State.latchIf_clockValid (c : Bool) (i : Nat) : (s.latchIf c i).clockValid = s.clockValid := by unfold State.latchIf; split <;> rfl
@[simp] theorem State.latchIf_linkReady (c : Bool) (i : Nat) : (s.latchIf c i).linkReady = s.linkReady := by unfold State.latchIf; split <;> rfl
@[simp] theorem State.latchIf_linkUp (c : Bool) (i : Nat) : (s.latchIf c i).linkUp = s.linkUp := by unfold State.latchIf; split <;> rfl
@[simp] theorem State.latchIf_inPartial (c : Bool) (i : Nat) : (s.latchIf c i).inPartial = s.inPartial := by unfold State.latchIf; split <;> rfl
@[simp] theorem State.latchIf_inWaiting (c : Bool) (i : Nat) : (s.latchIf c i).inWaiting = s.inWaiting := by unfold State.latchIf; split <;> rfl
@[simp] theorem State.latchIf_outQueue (c : Bool) (i : Nat) : (s.latchIf c i).outQueue = s.outQueue := by unfold State.latchIf; split <;> rfl
@[simp] theorem State.latchIf_badCount (c : Bool) (i : Nat) : (s.latchIf c i).badCount = s.badCount := by unfold State.latchIf; split <;> rfl
@[simp] theorem State.latchIf_channels (c : Bool) (i : Nat) : (s.latchIf c i).channels = s.channels := by unfold State.latchIf; split <;> rfl
@[simp] theorem State.latchIf_executor (c : Bool) (i : Nat) : (s.latchIf c i).executor = s.executor := by unfold State.latchIf; split <;> rfl
@[simp] theorem State.latchIf_tre (c : Bool) (i : Nat) : (s.latchIf c i).tre = s.tre := by unfold State.latchIf; split <;> rfl
@[simp] theorem State.latchIf_attnMask (c : Bool) (i : Nat) : (s.latchIf c i).attnMask = s.attnMask := by unfold State.latchIf; split <;> rfl
@[simp] theorem State.latchIf_cardMem (c : Bool) (i : Nat) : (s.latchIf c i).cardMem = s.cardMem := by unfold State.latchIf; split <;> rfl
@[simp] theorem State.latchIf_freeCtr (c : Bool) (i : Nat) : (s.latchIf c i).freeCtr = s.freeCtr := by unfold State.latchIf; split <;> rfl
@[simp] theorem State.latchIf_retests (c : Bool) (i : Nat) : (s.latchIf c i).retests = s.retests := by unfold State.latchIf; split <;> rfl
@[simp] theorem State.latchIf_pending (c : Bool) (i : Nat) : (s.latchIf c i).pending = s.pending := by unfold State.latchIf; split <;> rfl

/-! ### unlatch -/

@[simp] theorem State.unlatch_ports (i : Nat) : (s.unlatch i).ports = s.ports := rfl
@[simp] theorem State.unlatch_freeCount (i : Nat) : (s.unlatch i).freeCount = s.freeCount := rfl
@[simp] theorem State.unlatch_reserve (i : Nat) : (s.unlatch i).reserve = s.reserve := rfl
@[simp] theorem State.unlatch_warning (i : Nat) : (s.unlatch i).warning = s.warning := rfl
@[simp] theorem State.unlatch_poolBelow (i : Nat) : (s.unlatch i).poolBelow = s.poolBelow := rfl
@[simp] theorem State.unlatch_banks (i : Nat) : (s.unlatch i).banks = s.banks := rfl
@[simp] theorem State.unlatch_windows (i : Nat) : (s.unlatch i).windows = s.windows := rfl
@[simp] theorem State.unlatch_pins (i : Nat) : (s.unlatch i).pins = s.pins := rfl
@[simp] theorem State.unlatch_minute (i : Nat) : (s.unlatch i).minute = s.minute := rfl
@[simp] theorem State.unlatch_clockValid (i : Nat) : (s.unlatch i).clockValid = s.clockValid := rfl
@[simp] theorem State.unlatch_linkReady (i : Nat) : (s.unlatch i).linkReady = s.linkReady := rfl
@[simp] theorem State.unlatch_linkUp (i : Nat) : (s.unlatch i).linkUp = s.linkUp := rfl
@[simp] theorem State.unlatch_inPartial (i : Nat) : (s.unlatch i).inPartial = s.inPartial := rfl
@[simp] theorem State.unlatch_inWaiting (i : Nat) : (s.unlatch i).inWaiting = s.inWaiting := rfl
@[simp] theorem State.unlatch_outQueue (i : Nat) : (s.unlatch i).outQueue = s.outQueue := rfl
@[simp] theorem State.unlatch_badCount (i : Nat) : (s.unlatch i).badCount = s.badCount := rfl
@[simp] theorem State.unlatch_channels (i : Nat) : (s.unlatch i).channels = s.channels := rfl
@[simp] theorem State.unlatch_executor (i : Nat) : (s.unlatch i).executor = s.executor := rfl
@[simp] theorem State.unlatch_tre (i : Nat) : (s.unlatch i).tre = s.tre := rfl
@[simp] theorem State.unlatch_attnMask (i : Nat) : (s.unlatch i).attnMask = s.attnMask := rfl
@[simp] theorem State.unlatch_cardMem (i : Nat) : (s.unlatch i).cardMem = s.cardMem := rfl
@[simp] theorem State.unlatch_freeCtr (i : Nat) : (s.unlatch i).freeCtr = s.freeCtr := rfl
@[simp] theorem State.unlatch_retests (i : Nat) : (s.unlatch i).retests = s.retests := rfl
@[simp] theorem State.unlatch_pending (i : Nat) : (s.unlatch i).pending = s.pending := rfl

/-! ### setChannel -/

@[simp] theorem State.setChannel_ports (c : ChannelIx) (ch : Channel) : (s.setChannel c ch).ports = s.ports := rfl
@[simp] theorem State.setChannel_freeCount (c : ChannelIx) (ch : Channel) : (s.setChannel c ch).freeCount = s.freeCount := rfl
@[simp] theorem State.setChannel_reserve (c : ChannelIx) (ch : Channel) : (s.setChannel c ch).reserve = s.reserve := rfl
@[simp] theorem State.setChannel_warning (c : ChannelIx) (ch : Channel) : (s.setChannel c ch).warning = s.warning := rfl
@[simp] theorem State.setChannel_poolBelow (c : ChannelIx) (ch : Channel) : (s.setChannel c ch).poolBelow = s.poolBelow := rfl
@[simp] theorem State.setChannel_banks (c : ChannelIx) (ch : Channel) : (s.setChannel c ch).banks = s.banks := rfl
@[simp] theorem State.setChannel_windows (c : ChannelIx) (ch : Channel) : (s.setChannel c ch).windows = s.windows := rfl
@[simp] theorem State.setChannel_pins (c : ChannelIx) (ch : Channel) : (s.setChannel c ch).pins = s.pins := rfl
@[simp] theorem State.setChannel_minute (c : ChannelIx) (ch : Channel) : (s.setChannel c ch).minute = s.minute := rfl
@[simp] theorem State.setChannel_clockValid (c : ChannelIx) (ch : Channel) : (s.setChannel c ch).clockValid = s.clockValid := rfl
@[simp] theorem State.setChannel_linkReady (c : ChannelIx) (ch : Channel) : (s.setChannel c ch).linkReady = s.linkReady := rfl
@[simp] theorem State.setChannel_linkUp (c : ChannelIx) (ch : Channel) : (s.setChannel c ch).linkUp = s.linkUp := rfl
@[simp] theorem State.setChannel_inPartial (c : ChannelIx) (ch : Channel) : (s.setChannel c ch).inPartial = s.inPartial := rfl
@[simp] theorem State.setChannel_inWaiting (c : ChannelIx) (ch : Channel) : (s.setChannel c ch).inWaiting = s.inWaiting := rfl
@[simp] theorem State.setChannel_outQueue (c : ChannelIx) (ch : Channel) : (s.setChannel c ch).outQueue = s.outQueue := rfl
@[simp] theorem State.setChannel_badCount (c : ChannelIx) (ch : Channel) : (s.setChannel c ch).badCount = s.badCount := rfl
@[simp] theorem State.setChannel_executor (c : ChannelIx) (ch : Channel) : (s.setChannel c ch).executor = s.executor := rfl
@[simp] theorem State.setChannel_tre (c : ChannelIx) (ch : Channel) : (s.setChannel c ch).tre = s.tre := rfl
@[simp] theorem State.setChannel_attn (c : ChannelIx) (ch : Channel) : (s.setChannel c ch).attn = s.attn := rfl
@[simp] theorem State.setChannel_attnMask (c : ChannelIx) (ch : Channel) : (s.setChannel c ch).attnMask = s.attnMask := rfl
@[simp] theorem State.setChannel_cardMem (c : ChannelIx) (ch : Channel) : (s.setChannel c ch).cardMem = s.cardMem := rfl
@[simp] theorem State.setChannel_freeCtr (c : ChannelIx) (ch : Channel) : (s.setChannel c ch).freeCtr = s.freeCtr := rfl
@[simp] theorem State.setChannel_retests (c : ChannelIx) (ch : Channel) : (s.setChannel c ch).retests = s.retests := rfl
@[simp] theorem State.setChannel_pending (c : ChannelIx) (ch : Channel) : (s.setChannel c ch).pending = s.pending := rfl

/-! ### setExecutor -/

@[simp] theorem State.setExecutor_ports (x : Executor) : (s.setExecutor x).ports = s.ports := rfl
@[simp] theorem State.setExecutor_freeCount (x : Executor) : (s.setExecutor x).freeCount = s.freeCount := rfl
@[simp] theorem State.setExecutor_reserve (x : Executor) : (s.setExecutor x).reserve = s.reserve := rfl
@[simp] theorem State.setExecutor_warning (x : Executor) : (s.setExecutor x).warning = s.warning := rfl
@[simp] theorem State.setExecutor_poolBelow (x : Executor) : (s.setExecutor x).poolBelow = s.poolBelow := rfl
@[simp] theorem State.setExecutor_banks (x : Executor) : (s.setExecutor x).banks = s.banks := rfl
@[simp] theorem State.setExecutor_windows (x : Executor) : (s.setExecutor x).windows = s.windows := rfl
@[simp] theorem State.setExecutor_pins (x : Executor) : (s.setExecutor x).pins = s.pins := rfl
@[simp] theorem State.setExecutor_minute (x : Executor) : (s.setExecutor x).minute = s.minute := rfl
@[simp] theorem State.setExecutor_clockValid (x : Executor) : (s.setExecutor x).clockValid = s.clockValid := rfl
@[simp] theorem State.setExecutor_linkReady (x : Executor) : (s.setExecutor x).linkReady = s.linkReady := rfl
@[simp] theorem State.setExecutor_linkUp (x : Executor) : (s.setExecutor x).linkUp = s.linkUp := rfl
@[simp] theorem State.setExecutor_inPartial (x : Executor) : (s.setExecutor x).inPartial = s.inPartial := rfl
@[simp] theorem State.setExecutor_inWaiting (x : Executor) : (s.setExecutor x).inWaiting = s.inWaiting := rfl
@[simp] theorem State.setExecutor_outQueue (x : Executor) : (s.setExecutor x).outQueue = s.outQueue := rfl
@[simp] theorem State.setExecutor_badCount (x : Executor) : (s.setExecutor x).badCount = s.badCount := rfl
@[simp] theorem State.setExecutor_channels (x : Executor) : (s.setExecutor x).channels = s.channels := rfl
@[simp] theorem State.setExecutor_tre (x : Executor) : (s.setExecutor x).tre = s.tre := rfl
@[simp] theorem State.setExecutor_attn (x : Executor) : (s.setExecutor x).attn = s.attn := rfl
@[simp] theorem State.setExecutor_attnMask (x : Executor) : (s.setExecutor x).attnMask = s.attnMask := rfl
@[simp] theorem State.setExecutor_cardMem (x : Executor) : (s.setExecutor x).cardMem = s.cardMem := rfl
@[simp] theorem State.setExecutor_freeCtr (x : Executor) : (s.setExecutor x).freeCtr = s.freeCtr := rfl
@[simp] theorem State.setExecutor_retests (x : Executor) : (s.setExecutor x).retests = s.retests := rfl
@[simp] theorem State.setExecutor_pending (x : Executor) : (s.setExecutor x).pending = s.pending := rfl

/-! ### busWrite -/

@[simp] theorem State.busWrite_ports (a : Nat) (bs : List Byte) : (s.busWrite a bs).ports = s.ports := rfl
@[simp] theorem State.busWrite_freeCount (a : Nat) (bs : List Byte) : (s.busWrite a bs).freeCount = s.freeCount := rfl
@[simp] theorem State.busWrite_reserve (a : Nat) (bs : List Byte) : (s.busWrite a bs).reserve = s.reserve := rfl
@[simp] theorem State.busWrite_warning (a : Nat) (bs : List Byte) : (s.busWrite a bs).warning = s.warning := rfl
@[simp] theorem State.busWrite_poolBelow (a : Nat) (bs : List Byte) : (s.busWrite a bs).poolBelow = s.poolBelow := rfl
@[simp] theorem State.busWrite_banks (a : Nat) (bs : List Byte) : (s.busWrite a bs).banks = s.banks := rfl
@[simp] theorem State.busWrite_windows (a : Nat) (bs : List Byte) : (s.busWrite a bs).windows = s.windows := rfl
@[simp] theorem State.busWrite_pins (a : Nat) (bs : List Byte) : (s.busWrite a bs).pins = s.pins := rfl
@[simp] theorem State.busWrite_minute (a : Nat) (bs : List Byte) : (s.busWrite a bs).minute = s.minute := rfl
@[simp] theorem State.busWrite_clockValid (a : Nat) (bs : List Byte) : (s.busWrite a bs).clockValid = s.clockValid := rfl
@[simp] theorem State.busWrite_linkReady (a : Nat) (bs : List Byte) : (s.busWrite a bs).linkReady = s.linkReady := rfl
@[simp] theorem State.busWrite_linkUp (a : Nat) (bs : List Byte) : (s.busWrite a bs).linkUp = s.linkUp := rfl
@[simp] theorem State.busWrite_inPartial (a : Nat) (bs : List Byte) : (s.busWrite a bs).inPartial = s.inPartial := rfl
@[simp] theorem State.busWrite_inWaiting (a : Nat) (bs : List Byte) : (s.busWrite a bs).inWaiting = s.inWaiting := rfl
@[simp] theorem State.busWrite_outQueue (a : Nat) (bs : List Byte) : (s.busWrite a bs).outQueue = s.outQueue := rfl
@[simp] theorem State.busWrite_badCount (a : Nat) (bs : List Byte) : (s.busWrite a bs).badCount = s.badCount := rfl
@[simp] theorem State.busWrite_channels (a : Nat) (bs : List Byte) : (s.busWrite a bs).channels = s.channels := rfl
@[simp] theorem State.busWrite_executor (a : Nat) (bs : List Byte) : (s.busWrite a bs).executor = s.executor := rfl
@[simp] theorem State.busWrite_tre (a : Nat) (bs : List Byte) : (s.busWrite a bs).tre = s.tre := rfl
@[simp] theorem State.busWrite_attn (a : Nat) (bs : List Byte) : (s.busWrite a bs).attn = s.attn := rfl
@[simp] theorem State.busWrite_attnMask (a : Nat) (bs : List Byte) : (s.busWrite a bs).attnMask = s.attnMask := rfl
@[simp] theorem State.busWrite_freeCtr (a : Nat) (bs : List Byte) : (s.busWrite a bs).freeCtr = s.freeCtr := rfl
@[simp] theorem State.busWrite_retests (a : Nat) (bs : List Byte) : (s.busWrite a bs).retests = s.retests := rfl
@[simp] theorem State.busWrite_pending (a : Nat) (bs : List Byte) : (s.busWrite a bs).pending = s.pending := rfl

/-! ### addGap -/

@[simp] theorem State.addGap_ports (n : Nat) : (s.addGap n).ports = s.ports := rfl
@[simp] theorem State.addGap_freeCount (n : Nat) : (s.addGap n).freeCount = s.freeCount := rfl
@[simp] theorem State.addGap_reserve (n : Nat) : (s.addGap n).reserve = s.reserve := rfl
@[simp] theorem State.addGap_warning (n : Nat) : (s.addGap n).warning = s.warning := rfl
@[simp] theorem State.addGap_poolBelow (n : Nat) : (s.addGap n).poolBelow = s.poolBelow := rfl
@[simp] theorem State.addGap_banks (n : Nat) : (s.addGap n).banks = s.banks := rfl
@[simp] theorem State.addGap_windows (n : Nat) : (s.addGap n).windows = s.windows := rfl
@[simp] theorem State.addGap_pins (n : Nat) : (s.addGap n).pins = s.pins := rfl
@[simp] theorem State.addGap_minute (n : Nat) : (s.addGap n).minute = s.minute := rfl
@[simp] theorem State.addGap_clockValid (n : Nat) : (s.addGap n).clockValid = s.clockValid := rfl
@[simp] theorem State.addGap_linkReady (n : Nat) : (s.addGap n).linkReady = s.linkReady := rfl
@[simp] theorem State.addGap_linkUp (n : Nat) : (s.addGap n).linkUp = s.linkUp := rfl
@[simp] theorem State.addGap_inPartial (n : Nat) : (s.addGap n).inPartial = s.inPartial := rfl
@[simp] theorem State.addGap_inWaiting (n : Nat) : (s.addGap n).inWaiting = s.inWaiting := rfl
@[simp] theorem State.addGap_outQueue (n : Nat) : (s.addGap n).outQueue = s.outQueue := rfl
@[simp] theorem State.addGap_badCount (n : Nat) : (s.addGap n).badCount = s.badCount := rfl
@[simp] theorem State.addGap_channels (n : Nat) : (s.addGap n).channels = s.channels := rfl
@[simp] theorem State.addGap_executor (n : Nat) : (s.addGap n).executor = s.executor := rfl
@[simp] theorem State.addGap_attn (n : Nat) : (s.addGap n).attn = s.attn := rfl
@[simp] theorem State.addGap_attnMask (n : Nat) : (s.addGap n).attnMask = s.attnMask := rfl
@[simp] theorem State.addGap_cardMem (n : Nat) : (s.addGap n).cardMem = s.cardMem := rfl
@[simp] theorem State.addGap_freeCtr (n : Nat) : (s.addGap n).freeCtr = s.freeCtr := rfl
@[simp] theorem State.addGap_retests (n : Nat) : (s.addGap n).retests = s.retests := rfl
@[simp] theorem State.addGap_pending (n : Nat) : (s.addGap n).pending = s.pending := rfl

/-! ### addGapOf -/

@[simp] theorem State.addGapOf_ports (o : Option Offer) : (s.addGapOf o).ports = s.ports := by unfold State.addGapOf; split <;> rfl
@[simp] theorem State.addGapOf_freeCount (o : Option Offer) : (s.addGapOf o).freeCount = s.freeCount := by unfold State.addGapOf; split <;> rfl
@[simp] theorem State.addGapOf_reserve (o : Option Offer) : (s.addGapOf o).reserve = s.reserve := by unfold State.addGapOf; split <;> rfl
@[simp] theorem State.addGapOf_warning (o : Option Offer) : (s.addGapOf o).warning = s.warning := by unfold State.addGapOf; split <;> rfl
@[simp] theorem State.addGapOf_poolBelow (o : Option Offer) : (s.addGapOf o).poolBelow = s.poolBelow := by unfold State.addGapOf; split <;> rfl
@[simp] theorem State.addGapOf_banks (o : Option Offer) : (s.addGapOf o).banks = s.banks := by unfold State.addGapOf; split <;> rfl
@[simp] theorem State.addGapOf_windows (o : Option Offer) : (s.addGapOf o).windows = s.windows := by unfold State.addGapOf; split <;> rfl
@[simp] theorem State.addGapOf_pins (o : Option Offer) : (s.addGapOf o).pins = s.pins := by unfold State.addGapOf; split <;> rfl
@[simp] theorem State.addGapOf_minute (o : Option Offer) : (s.addGapOf o).minute = s.minute := by unfold State.addGapOf; split <;> rfl
@[simp] theorem State.addGapOf_clockValid (o : Option Offer) : (s.addGapOf o).clockValid = s.clockValid := by unfold State.addGapOf; split <;> rfl
@[simp] theorem State.addGapOf_linkReady (o : Option Offer) : (s.addGapOf o).linkReady = s.linkReady := by unfold State.addGapOf; split <;> rfl
@[simp] theorem State.addGapOf_linkUp (o : Option Offer) : (s.addGapOf o).linkUp = s.linkUp := by unfold State.addGapOf; split <;> rfl
@[simp] theorem State.addGapOf_inPartial (o : Option Offer) : (s.addGapOf o).inPartial = s.inPartial := by unfold State.addGapOf; split <;> rfl
@[simp] theorem State.addGapOf_inWaiting (o : Option Offer) : (s.addGapOf o).inWaiting = s.inWaiting := by unfold State.addGapOf; split <;> rfl
@[simp] theorem State.addGapOf_outQueue (o : Option Offer) : (s.addGapOf o).outQueue = s.outQueue := by unfold State.addGapOf; split <;> rfl
@[simp] theorem State.addGapOf_badCount (o : Option Offer) : (s.addGapOf o).badCount = s.badCount := by unfold State.addGapOf; split <;> rfl
@[simp] theorem State.addGapOf_channels (o : Option Offer) : (s.addGapOf o).channels = s.channels := by unfold State.addGapOf; split <;> rfl
@[simp] theorem State.addGapOf_executor (o : Option Offer) : (s.addGapOf o).executor = s.executor := by unfold State.addGapOf; split <;> rfl
@[simp] theorem State.addGapOf_attn (o : Option Offer) : (s.addGapOf o).attn = s.attn := by unfold State.addGapOf; split <;> rfl
@[simp] theorem State.addGapOf_attnMask (o : Option Offer) : (s.addGapOf o).attnMask = s.attnMask := by unfold State.addGapOf; split <;> rfl
@[simp] theorem State.addGapOf_cardMem (o : Option Offer) : (s.addGapOf o).cardMem = s.cardMem := by unfold State.addGapOf; split <;> rfl
@[simp] theorem State.addGapOf_freeCtr (o : Option Offer) : (s.addGapOf o).freeCtr = s.freeCtr := by unfold State.addGapOf; split <;> rfl
@[simp] theorem State.addGapOf_retests (o : Option Offer) : (s.addGapOf o).retests = s.retests := by unfold State.addGapOf; split <;> rfl
@[simp] theorem State.addGapOf_pending (o : Option Offer) : (s.addGapOf o).pending = s.pending := by unfold State.addGapOf; split <;> rfl

/-! ### installBank -/

@[simp] theorem State.installBank_ports (k : ProfileIx) (p : PortIx) (es : Vector BankEntry 64) : (s.installBank k p es).ports = s.ports := rfl
@[simp] theorem State.installBank_freeCount (k : ProfileIx) (p : PortIx) (es : Vector BankEntry 64) : (s.installBank k p es).freeCount = s.freeCount := rfl
@[simp] theorem State.installBank_reserve (k : ProfileIx) (p : PortIx) (es : Vector BankEntry 64) : (s.installBank k p es).reserve = s.reserve := rfl
@[simp] theorem State.installBank_warning (k : ProfileIx) (p : PortIx) (es : Vector BankEntry 64) : (s.installBank k p es).warning = s.warning := rfl
@[simp] theorem State.installBank_poolBelow (k : ProfileIx) (p : PortIx) (es : Vector BankEntry 64) : (s.installBank k p es).poolBelow = s.poolBelow := rfl
@[simp] theorem State.installBank_windows (k : ProfileIx) (p : PortIx) (es : Vector BankEntry 64) : (s.installBank k p es).windows = s.windows := rfl
@[simp] theorem State.installBank_pins (k : ProfileIx) (p : PortIx) (es : Vector BankEntry 64) : (s.installBank k p es).pins = s.pins := rfl
@[simp] theorem State.installBank_minute (k : ProfileIx) (p : PortIx) (es : Vector BankEntry 64) : (s.installBank k p es).minute = s.minute := rfl
@[simp] theorem State.installBank_clockValid (k : ProfileIx) (p : PortIx) (es : Vector BankEntry 64) : (s.installBank k p es).clockValid = s.clockValid := rfl
@[simp] theorem State.installBank_linkReady (k : ProfileIx) (p : PortIx) (es : Vector BankEntry 64) : (s.installBank k p es).linkReady = s.linkReady := rfl
@[simp] theorem State.installBank_linkUp (k : ProfileIx) (p : PortIx) (es : Vector BankEntry 64) : (s.installBank k p es).linkUp = s.linkUp := rfl
@[simp] theorem State.installBank_inPartial (k : ProfileIx) (p : PortIx) (es : Vector BankEntry 64) : (s.installBank k p es).inPartial = s.inPartial := rfl
@[simp] theorem State.installBank_inWaiting (k : ProfileIx) (p : PortIx) (es : Vector BankEntry 64) : (s.installBank k p es).inWaiting = s.inWaiting := rfl
@[simp] theorem State.installBank_outQueue (k : ProfileIx) (p : PortIx) (es : Vector BankEntry 64) : (s.installBank k p es).outQueue = s.outQueue := rfl
@[simp] theorem State.installBank_badCount (k : ProfileIx) (p : PortIx) (es : Vector BankEntry 64) : (s.installBank k p es).badCount = s.badCount := rfl
@[simp] theorem State.installBank_channels (k : ProfileIx) (p : PortIx) (es : Vector BankEntry 64) : (s.installBank k p es).channels = s.channels := rfl
@[simp] theorem State.installBank_executor (k : ProfileIx) (p : PortIx) (es : Vector BankEntry 64) : (s.installBank k p es).executor = s.executor := rfl
@[simp] theorem State.installBank_tre (k : ProfileIx) (p : PortIx) (es : Vector BankEntry 64) : (s.installBank k p es).tre = s.tre := rfl
@[simp] theorem State.installBank_attn (k : ProfileIx) (p : PortIx) (es : Vector BankEntry 64) : (s.installBank k p es).attn = s.attn := rfl
@[simp] theorem State.installBank_attnMask (k : ProfileIx) (p : PortIx) (es : Vector BankEntry 64) : (s.installBank k p es).attnMask = s.attnMask := rfl
@[simp] theorem State.installBank_cardMem (k : ProfileIx) (p : PortIx) (es : Vector BankEntry 64) : (s.installBank k p es).cardMem = s.cardMem := rfl
@[simp] theorem State.installBank_freeCtr (k : ProfileIx) (p : PortIx) (es : Vector BankEntry 64) : (s.installBank k p es).freeCtr = s.freeCtr := rfl
@[simp] theorem State.installBank_retests (k : ProfileIx) (p : PortIx) (es : Vector BankEntry 64) : (s.installBank k p es).retests = s.retests := rfl
@[simp] theorem State.installBank_pending (k : ProfileIx) (p : PortIx) (es : Vector BankEntry 64) : (s.installBank k p es).pending = s.pending := rfl

/-! ### markDone -/

@[simp] theorem State.markDone_ports (c : ChannelIx) (fault : Bool) : (s.markDone c fault).ports = s.ports := rfl
@[simp] theorem State.markDone_freeCount (c : ChannelIx) (fault : Bool) : (s.markDone c fault).freeCount = s.freeCount := rfl
@[simp] theorem State.markDone_reserve (c : ChannelIx) (fault : Bool) : (s.markDone c fault).reserve = s.reserve := rfl
@[simp] theorem State.markDone_warning (c : ChannelIx) (fault : Bool) : (s.markDone c fault).warning = s.warning := rfl
@[simp] theorem State.markDone_poolBelow (c : ChannelIx) (fault : Bool) : (s.markDone c fault).poolBelow = s.poolBelow := rfl
@[simp] theorem State.markDone_banks (c : ChannelIx) (fault : Bool) : (s.markDone c fault).banks = s.banks := rfl
@[simp] theorem State.markDone_windows (c : ChannelIx) (fault : Bool) : (s.markDone c fault).windows = s.windows := rfl
@[simp] theorem State.markDone_pins (c : ChannelIx) (fault : Bool) : (s.markDone c fault).pins = s.pins := rfl
@[simp] theorem State.markDone_minute (c : ChannelIx) (fault : Bool) : (s.markDone c fault).minute = s.minute := rfl
@[simp] theorem State.markDone_clockValid (c : ChannelIx) (fault : Bool) : (s.markDone c fault).clockValid = s.clockValid := rfl
@[simp] theorem State.markDone_linkReady (c : ChannelIx) (fault : Bool) : (s.markDone c fault).linkReady = s.linkReady := rfl
@[simp] theorem State.markDone_linkUp (c : ChannelIx) (fault : Bool) : (s.markDone c fault).linkUp = s.linkUp := rfl
@[simp] theorem State.markDone_inPartial (c : ChannelIx) (fault : Bool) : (s.markDone c fault).inPartial = s.inPartial := rfl
@[simp] theorem State.markDone_inWaiting (c : ChannelIx) (fault : Bool) : (s.markDone c fault).inWaiting = s.inWaiting := rfl
@[simp] theorem State.markDone_outQueue (c : ChannelIx) (fault : Bool) : (s.markDone c fault).outQueue = s.outQueue := rfl
@[simp] theorem State.markDone_badCount (c : ChannelIx) (fault : Bool) : (s.markDone c fault).badCount = s.badCount := rfl
@[simp] theorem State.markDone_executor (c : ChannelIx) (fault : Bool) : (s.markDone c fault).executor = s.executor := rfl
@[simp] theorem State.markDone_tre (c : ChannelIx) (fault : Bool) : (s.markDone c fault).tre = s.tre := rfl
@[simp] theorem State.markDone_attnMask (c : ChannelIx) (fault : Bool) : (s.markDone c fault).attnMask = s.attnMask := rfl
@[simp] theorem State.markDone_cardMem (c : ChannelIx) (fault : Bool) : (s.markDone c fault).cardMem = s.cardMem := rfl
@[simp] theorem State.markDone_freeCtr (c : ChannelIx) (fault : Bool) : (s.markDone c fault).freeCtr = s.freeCtr := rfl
@[simp] theorem State.markDone_retests (c : ChannelIx) (fault : Bool) : (s.markDone c fault).retests = s.retests := rfl
@[simp] theorem State.markDone_pending (c : ChannelIx) (fault : Bool) : (s.markDone c fault).pending = s.pending := rfl

/-! ### beginExecuting -/

@[simp] theorem State.beginExecuting_ports (c : ChannelIx) : (s.beginExecuting c).ports = s.ports := rfl
@[simp] theorem State.beginExecuting_freeCount (c : ChannelIx) : (s.beginExecuting c).freeCount = s.freeCount := rfl
@[simp] theorem State.beginExecuting_reserve (c : ChannelIx) : (s.beginExecuting c).reserve = s.reserve := rfl
@[simp] theorem State.beginExecuting_warning (c : ChannelIx) : (s.beginExecuting c).warning = s.warning := rfl
@[simp] theorem State.beginExecuting_poolBelow (c : ChannelIx) : (s.beginExecuting c).poolBelow = s.poolBelow := rfl
@[simp] theorem State.beginExecuting_banks (c : ChannelIx) : (s.beginExecuting c).banks = s.banks := rfl
@[simp] theorem State.beginExecuting_windows (c : ChannelIx) : (s.beginExecuting c).windows = s.windows := rfl
@[simp] theorem State.beginExecuting_pins (c : ChannelIx) : (s.beginExecuting c).pins = s.pins := rfl
@[simp] theorem State.beginExecuting_minute (c : ChannelIx) : (s.beginExecuting c).minute = s.minute := rfl
@[simp] theorem State.beginExecuting_clockValid (c : ChannelIx) : (s.beginExecuting c).clockValid = s.clockValid := rfl
@[simp] theorem State.beginExecuting_linkReady (c : ChannelIx) : (s.beginExecuting c).linkReady = s.linkReady := rfl
@[simp] theorem State.beginExecuting_linkUp (c : ChannelIx) : (s.beginExecuting c).linkUp = s.linkUp := rfl
@[simp] theorem State.beginExecuting_inPartial (c : ChannelIx) : (s.beginExecuting c).inPartial = s.inPartial := rfl
@[simp] theorem State.beginExecuting_inWaiting (c : ChannelIx) : (s.beginExecuting c).inWaiting = s.inWaiting := rfl
@[simp] theorem State.beginExecuting_outQueue (c : ChannelIx) : (s.beginExecuting c).outQueue = s.outQueue := rfl
@[simp] theorem State.beginExecuting_badCount (c : ChannelIx) : (s.beginExecuting c).badCount = s.badCount := rfl
@[simp] theorem State.beginExecuting_executor (c : ChannelIx) : (s.beginExecuting c).executor = .free := rfl
@[simp] theorem State.beginExecuting_tre (c : ChannelIx) : (s.beginExecuting c).tre = s.tre := rfl
@[simp] theorem State.beginExecuting_attn (c : ChannelIx) : (s.beginExecuting c).attn = s.attn := rfl
@[simp] theorem State.beginExecuting_attnMask (c : ChannelIx) : (s.beginExecuting c).attnMask = s.attnMask := rfl
@[simp] theorem State.beginExecuting_cardMem (c : ChannelIx) : (s.beginExecuting c).cardMem = s.cardMem := rfl
@[simp] theorem State.beginExecuting_freeCtr (c : ChannelIx) : (s.beginExecuting c).freeCtr = s.freeCtr := rfl
@[simp] theorem State.beginExecuting_retests (c : ChannelIx) : (s.beginExecuting c).retests = s.retests := rfl
@[simp] theorem State.beginExecuting_pending (c : ChannelIx) : (s.beginExecuting c).pending = s.pending := rfl

/-! ### takeChannel -/

@[simp] theorem State.takeChannel_ports (c : ChannelIx) : (s.takeChannel c).ports = s.ports := rfl
@[simp] theorem State.takeChannel_freeCount (c : ChannelIx) : (s.takeChannel c).freeCount = s.freeCount := rfl
@[simp] theorem State.takeChannel_reserve (c : ChannelIx) : (s.takeChannel c).reserve = s.reserve := rfl
@[simp] theorem State.takeChannel_warning (c : ChannelIx) : (s.takeChannel c).warning = s.warning := rfl
@[simp] theorem State.takeChannel_poolBelow (c : ChannelIx) : (s.takeChannel c).poolBelow = s.poolBelow := rfl
@[simp] theorem State.takeChannel_banks (c : ChannelIx) : (s.takeChannel c).banks = s.banks := rfl
@[simp] theorem State.takeChannel_windows (c : ChannelIx) : (s.takeChannel c).windows = s.windows := rfl
@[simp] theorem State.takeChannel_pins (c : ChannelIx) : (s.takeChannel c).pins = s.pins := rfl
@[simp] theorem State.takeChannel_minute (c : ChannelIx) : (s.takeChannel c).minute = s.minute := rfl
@[simp] theorem State.takeChannel_clockValid (c : ChannelIx) : (s.takeChannel c).clockValid = s.clockValid := rfl
@[simp] theorem State.takeChannel_linkReady (c : ChannelIx) : (s.takeChannel c).linkReady = s.linkReady := rfl
@[simp] theorem State.takeChannel_linkUp (c : ChannelIx) : (s.takeChannel c).linkUp = s.linkUp := rfl
@[simp] theorem State.takeChannel_inPartial (c : ChannelIx) : (s.takeChannel c).inPartial = s.inPartial := rfl
@[simp] theorem State.takeChannel_inWaiting (c : ChannelIx) : (s.takeChannel c).inWaiting = s.inWaiting := rfl
@[simp] theorem State.takeChannel_outQueue (c : ChannelIx) : (s.takeChannel c).outQueue = s.outQueue := rfl
@[simp] theorem State.takeChannel_badCount (c : ChannelIx) : (s.takeChannel c).badCount = s.badCount := rfl
@[simp] theorem State.takeChannel_tre (c : ChannelIx) : (s.takeChannel c).tre = s.tre := rfl
@[simp] theorem State.takeChannel_attn (c : ChannelIx) : (s.takeChannel c).attn = s.attn := rfl
@[simp] theorem State.takeChannel_attnMask (c : ChannelIx) : (s.takeChannel c).attnMask = s.attnMask := rfl
@[simp] theorem State.takeChannel_cardMem (c : ChannelIx) : (s.takeChannel c).cardMem = s.cardMem := rfl
@[simp] theorem State.takeChannel_retests (c : ChannelIx) : (s.takeChannel c).retests = s.retests := rfl
@[simp] theorem State.takeChannel_freeCtr (c : ChannelIx) : (s.takeChannel c).freeCtr = s.freeCtr := rfl
@[simp] theorem State.takeChannel_pending (c : ChannelIx) : (s.takeChannel c).pending = s.pending := rfl

/-! ### takeNext -/

@[simp] theorem State.takeNext_ports : s.takeNext.ports = s.ports := by unfold State.takeNext; split <;> (try split) <;> rfl
@[simp] theorem State.takeNext_freeCount : s.takeNext.freeCount = s.freeCount := by unfold State.takeNext; split <;> (try split) <;> rfl
@[simp] theorem State.takeNext_reserve : s.takeNext.reserve = s.reserve := by unfold State.takeNext; split <;> (try split) <;> rfl
@[simp] theorem State.takeNext_warning : s.takeNext.warning = s.warning := by unfold State.takeNext; split <;> (try split) <;> rfl
@[simp] theorem State.takeNext_poolBelow : s.takeNext.poolBelow = s.poolBelow := by unfold State.takeNext; split <;> (try split) <;> rfl
@[simp] theorem State.takeNext_banks : s.takeNext.banks = s.banks := by unfold State.takeNext; split <;> (try split) <;> rfl
@[simp] theorem State.takeNext_windows : s.takeNext.windows = s.windows := by unfold State.takeNext; split <;> (try split) <;> rfl
@[simp] theorem State.takeNext_pins : s.takeNext.pins = s.pins := by unfold State.takeNext; split <;> (try split) <;> rfl
@[simp] theorem State.takeNext_minute : s.takeNext.minute = s.minute := by unfold State.takeNext; split <;> (try split) <;> rfl
@[simp] theorem State.takeNext_clockValid : s.takeNext.clockValid = s.clockValid := by unfold State.takeNext; split <;> (try split) <;> rfl
@[simp] theorem State.takeNext_linkReady : s.takeNext.linkReady = s.linkReady := by unfold State.takeNext; split <;> (try split) <;> rfl
@[simp] theorem State.takeNext_linkUp : s.takeNext.linkUp = s.linkUp := by unfold State.takeNext; split <;> (try split) <;> rfl
@[simp] theorem State.takeNext_inPartial : s.takeNext.inPartial = s.inPartial := by unfold State.takeNext; split <;> (try split) <;> rfl
@[simp] theorem State.takeNext_inWaiting : s.takeNext.inWaiting = s.inWaiting := by unfold State.takeNext; split <;> (try split) <;> rfl
@[simp] theorem State.takeNext_outQueue : s.takeNext.outQueue = s.outQueue := by unfold State.takeNext; split <;> (try split) <;> rfl
@[simp] theorem State.takeNext_badCount : s.takeNext.badCount = s.badCount := by unfold State.takeNext; split <;> (try split) <;> rfl
@[simp] theorem State.takeNext_tre : s.takeNext.tre = s.tre := by unfold State.takeNext; split <;> (try split) <;> rfl
@[simp] theorem State.takeNext_attn : s.takeNext.attn = s.attn := by unfold State.takeNext; split <;> (try split) <;> rfl
@[simp] theorem State.takeNext_attnMask : s.takeNext.attnMask = s.attnMask := by unfold State.takeNext; split <;> (try split) <;> rfl
@[simp] theorem State.takeNext_cardMem : s.takeNext.cardMem = s.cardMem := by unfold State.takeNext; split <;> (try split) <;> rfl
@[simp] theorem State.takeNext_retests : s.takeNext.retests = s.retests := by unfold State.takeNext; split <;> (try split) <;> rfl
@[simp] theorem State.takeNext_freeCtr : s.takeNext.freeCtr = s.freeCtr := by unfold State.takeNext; split <;> (try split) <;> rfl
@[simp] theorem State.takeNext_pending : s.takeNext.pending = s.pending := by unfold State.takeNext; split <;> (try split) <;> rfl

/-! ### setRetests -/

@[simp] theorem State.setRetests_ports (ps : List PortIx) : (s.setRetests ps).ports = s.ports := rfl
@[simp] theorem State.setRetests_freeCount (ps : List PortIx) : (s.setRetests ps).freeCount = s.freeCount := rfl
@[simp] theorem State.setRetests_reserve (ps : List PortIx) : (s.setRetests ps).reserve = s.reserve := rfl
@[simp] theorem State.setRetests_warning (ps : List PortIx) : (s.setRetests ps).warning = s.warning := rfl
@[simp] theorem State.setRetests_poolBelow (ps : List PortIx) : (s.setRetests ps).poolBelow = s.poolBelow := rfl
@[simp] theorem State.setRetests_banks (ps : List PortIx) : (s.setRetests ps).banks = s.banks := rfl
@[simp] theorem State.setRetests_windows (ps : List PortIx) : (s.setRetests ps).windows = s.windows := rfl
@[simp] theorem State.setRetests_pins (ps : List PortIx) : (s.setRetests ps).pins = s.pins := rfl
@[simp] theorem State.setRetests_minute (ps : List PortIx) : (s.setRetests ps).minute = s.minute := rfl
@[simp] theorem State.setRetests_clockValid (ps : List PortIx) : (s.setRetests ps).clockValid = s.clockValid := rfl
@[simp] theorem State.setRetests_linkReady (ps : List PortIx) : (s.setRetests ps).linkReady = s.linkReady := rfl
@[simp] theorem State.setRetests_linkUp (ps : List PortIx) : (s.setRetests ps).linkUp = s.linkUp := rfl
@[simp] theorem State.setRetests_inPartial (ps : List PortIx) : (s.setRetests ps).inPartial = s.inPartial := rfl
@[simp] theorem State.setRetests_inWaiting (ps : List PortIx) : (s.setRetests ps).inWaiting = s.inWaiting := rfl
@[simp] theorem State.setRetests_outQueue (ps : List PortIx) : (s.setRetests ps).outQueue = s.outQueue := rfl
@[simp] theorem State.setRetests_badCount (ps : List PortIx) : (s.setRetests ps).badCount = s.badCount := rfl
@[simp] theorem State.setRetests_channels (ps : List PortIx) : (s.setRetests ps).channels = s.channels := rfl
@[simp] theorem State.setRetests_executor (ps : List PortIx) : (s.setRetests ps).executor = s.executor := rfl
@[simp] theorem State.setRetests_tre (ps : List PortIx) : (s.setRetests ps).tre = s.tre := rfl
@[simp] theorem State.setRetests_attn (ps : List PortIx) : (s.setRetests ps).attn = s.attn := rfl
@[simp] theorem State.setRetests_attnMask (ps : List PortIx) : (s.setRetests ps).attnMask = s.attnMask := rfl
@[simp] theorem State.setRetests_cardMem (ps : List PortIx) : (s.setRetests ps).cardMem = s.cardMem := rfl
@[simp] theorem State.setRetests_freeCtr (ps : List PortIx) : (s.setRetests ps).freeCtr = s.freeCtr := rfl
@[simp] theorem State.setRetests_pending (ps : List PortIx) : (s.setRetests ps).pending = s.pending := rfl

/-! ### setPartial -/

@[simp] theorem State.setPartial_ports (bs : List Byte) : (s.setPartial bs).ports = s.ports := rfl
@[simp] theorem State.setPartial_freeCount (bs : List Byte) : (s.setPartial bs).freeCount = s.freeCount := rfl
@[simp] theorem State.setPartial_reserve (bs : List Byte) : (s.setPartial bs).reserve = s.reserve := rfl
@[simp] theorem State.setPartial_warning (bs : List Byte) : (s.setPartial bs).warning = s.warning := rfl
@[simp] theorem State.setPartial_poolBelow (bs : List Byte) : (s.setPartial bs).poolBelow = s.poolBelow := rfl
@[simp] theorem State.setPartial_banks (bs : List Byte) : (s.setPartial bs).banks = s.banks := rfl
@[simp] theorem State.setPartial_windows (bs : List Byte) : (s.setPartial bs).windows = s.windows := rfl
@[simp] theorem State.setPartial_pins (bs : List Byte) : (s.setPartial bs).pins = s.pins := rfl
@[simp] theorem State.setPartial_minute (bs : List Byte) : (s.setPartial bs).minute = s.minute := rfl
@[simp] theorem State.setPartial_clockValid (bs : List Byte) : (s.setPartial bs).clockValid = s.clockValid := rfl
@[simp] theorem State.setPartial_linkReady (bs : List Byte) : (s.setPartial bs).linkReady = s.linkReady := rfl
@[simp] theorem State.setPartial_linkUp (bs : List Byte) : (s.setPartial bs).linkUp = s.linkUp := rfl
@[simp] theorem State.setPartial_inWaiting (bs : List Byte) : (s.setPartial bs).inWaiting = s.inWaiting := rfl
@[simp] theorem State.setPartial_outQueue (bs : List Byte) : (s.setPartial bs).outQueue = s.outQueue := rfl
@[simp] theorem State.setPartial_badCount (bs : List Byte) : (s.setPartial bs).badCount = s.badCount := rfl
@[simp] theorem State.setPartial_channels (bs : List Byte) : (s.setPartial bs).channels = s.channels := rfl
@[simp] theorem State.setPartial_executor (bs : List Byte) : (s.setPartial bs).executor = s.executor := rfl
@[simp] theorem State.setPartial_tre (bs : List Byte) : (s.setPartial bs).tre = s.tre := rfl
@[simp] theorem State.setPartial_attn (bs : List Byte) : (s.setPartial bs).attn = s.attn := rfl
@[simp] theorem State.setPartial_attnMask (bs : List Byte) : (s.setPartial bs).attnMask = s.attnMask := rfl
@[simp] theorem State.setPartial_cardMem (bs : List Byte) : (s.setPartial bs).cardMem = s.cardMem := rfl
@[simp] theorem State.setPartial_retests (bs : List Byte) : (s.setPartial bs).retests = s.retests := rfl
@[simp] theorem State.setPartial_freeCtr (bs : List Byte) : (s.setPartial bs).freeCtr = s.freeCtr := rfl
@[simp] theorem State.setPartial_pending (bs : List Byte) : (s.setPartial bs).pending = s.pending := rfl

/-! ### markAbort -/

@[simp] theorem State.markAbort_ports (c : ChannelIx) : (s.markAbort c).ports = s.ports := rfl
@[simp] theorem State.markAbort_freeCount (c : ChannelIx) : (s.markAbort c).freeCount = s.freeCount := rfl
@[simp] theorem State.markAbort_reserve (c : ChannelIx) : (s.markAbort c).reserve = s.reserve := rfl
@[simp] theorem State.markAbort_warning (c : ChannelIx) : (s.markAbort c).warning = s.warning := rfl
@[simp] theorem State.markAbort_poolBelow (c : ChannelIx) : (s.markAbort c).poolBelow = s.poolBelow := rfl
@[simp] theorem State.markAbort_banks (c : ChannelIx) : (s.markAbort c).banks = s.banks := rfl
@[simp] theorem State.markAbort_windows (c : ChannelIx) : (s.markAbort c).windows = s.windows := rfl
@[simp] theorem State.markAbort_pins (c : ChannelIx) : (s.markAbort c).pins = s.pins := rfl
@[simp] theorem State.markAbort_minute (c : ChannelIx) : (s.markAbort c).minute = s.minute := rfl
@[simp] theorem State.markAbort_clockValid (c : ChannelIx) : (s.markAbort c).clockValid = s.clockValid := rfl
@[simp] theorem State.markAbort_linkReady (c : ChannelIx) : (s.markAbort c).linkReady = s.linkReady := rfl
@[simp] theorem State.markAbort_linkUp (c : ChannelIx) : (s.markAbort c).linkUp = s.linkUp := rfl
@[simp] theorem State.markAbort_inPartial (c : ChannelIx) : (s.markAbort c).inPartial = s.inPartial := rfl
@[simp] theorem State.markAbort_inWaiting (c : ChannelIx) : (s.markAbort c).inWaiting = s.inWaiting := rfl
@[simp] theorem State.markAbort_outQueue (c : ChannelIx) : (s.markAbort c).outQueue = s.outQueue := rfl
@[simp] theorem State.markAbort_badCount (c : ChannelIx) : (s.markAbort c).badCount = s.badCount := rfl
@[simp] theorem State.markAbort_executor (c : ChannelIx) : (s.markAbort c).executor = s.executor := rfl
@[simp] theorem State.markAbort_tre (c : ChannelIx) : (s.markAbort c).tre = s.tre := rfl
@[simp] theorem State.markAbort_attn (c : ChannelIx) : (s.markAbort c).attn = s.attn := rfl
@[simp] theorem State.markAbort_attnMask (c : ChannelIx) : (s.markAbort c).attnMask = s.attnMask := rfl
@[simp] theorem State.markAbort_cardMem (c : ChannelIx) : (s.markAbort c).cardMem = s.cardMem := rfl
@[simp] theorem State.markAbort_freeCtr (c : ChannelIx) : (s.markAbort c).freeCtr = s.freeCtr := rfl
@[simp] theorem State.markAbort_retests (c : ChannelIx) : (s.markAbort c).retests = s.retests := rfl
@[simp] theorem State.markAbort_pending (c : ChannelIx) : (s.markAbort c).pending = s.pending := rfl

/-! ### releaseChannel -/

@[simp] theorem State.releaseChannel_ports (c : ChannelIx) : (s.releaseChannel c).ports = s.ports := rfl
@[simp] theorem State.releaseChannel_freeCount (c : ChannelIx) : (s.releaseChannel c).freeCount = s.freeCount := rfl
@[simp] theorem State.releaseChannel_reserve (c : ChannelIx) : (s.releaseChannel c).reserve = s.reserve := rfl
@[simp] theorem State.releaseChannel_warning (c : ChannelIx) : (s.releaseChannel c).warning = s.warning := rfl
@[simp] theorem State.releaseChannel_poolBelow (c : ChannelIx) : (s.releaseChannel c).poolBelow = s.poolBelow := rfl
@[simp] theorem State.releaseChannel_banks (c : ChannelIx) : (s.releaseChannel c).banks = s.banks := rfl
@[simp] theorem State.releaseChannel_windows (c : ChannelIx) : (s.releaseChannel c).windows = s.windows := rfl
@[simp] theorem State.releaseChannel_pins (c : ChannelIx) : (s.releaseChannel c).pins = s.pins := rfl
@[simp] theorem State.releaseChannel_minute (c : ChannelIx) : (s.releaseChannel c).minute = s.minute := rfl
@[simp] theorem State.releaseChannel_clockValid (c : ChannelIx) : (s.releaseChannel c).clockValid = s.clockValid := rfl
@[simp] theorem State.releaseChannel_linkReady (c : ChannelIx) : (s.releaseChannel c).linkReady = s.linkReady := rfl
@[simp] theorem State.releaseChannel_linkUp (c : ChannelIx) : (s.releaseChannel c).linkUp = s.linkUp := rfl
@[simp] theorem State.releaseChannel_inPartial (c : ChannelIx) : (s.releaseChannel c).inPartial = s.inPartial := rfl
@[simp] theorem State.releaseChannel_inWaiting (c : ChannelIx) : (s.releaseChannel c).inWaiting = s.inWaiting := rfl
@[simp] theorem State.releaseChannel_outQueue (c : ChannelIx) : (s.releaseChannel c).outQueue = s.outQueue := rfl
@[simp] theorem State.releaseChannel_badCount (c : ChannelIx) : (s.releaseChannel c).badCount = s.badCount := rfl
@[simp] theorem State.releaseChannel_executor (c : ChannelIx) : (s.releaseChannel c).executor = s.executor := rfl
@[simp] theorem State.releaseChannel_tre (c : ChannelIx) : (s.releaseChannel c).tre = s.tre := rfl
@[simp] theorem State.releaseChannel_attnMask (c : ChannelIx) : (s.releaseChannel c).attnMask = s.attnMask := rfl
@[simp] theorem State.releaseChannel_cardMem (c : ChannelIx) : (s.releaseChannel c).cardMem = s.cardMem := rfl
@[simp] theorem State.releaseChannel_freeCtr (c : ChannelIx) : (s.releaseChannel c).freeCtr = s.freeCtr := rfl
@[simp] theorem State.releaseChannel_retests (c : ChannelIx) : (s.releaseChannel c).retests = s.retests := rfl
@[simp] theorem State.releaseChannel_pending (c : ChannelIx) : (s.releaseChannel c).pending = s.pending := rfl

/-! ### purge -/

@[simp] theorem State.purge_reserve (p : PortIx) (sel : SourceIx → Bool) (tell : Bool) : (s.purge p sel tell).reserve = s.reserve := by unfold State.purge; cases tell <;> simp
@[simp] theorem State.purge_warning (p : PortIx) (sel : SourceIx → Bool) (tell : Bool) : (s.purge p sel tell).warning = s.warning := by unfold State.purge; cases tell <;> simp
@[simp] theorem State.purge_banks (p : PortIx) (sel : SourceIx → Bool) (tell : Bool) : (s.purge p sel tell).banks = s.banks := by unfold State.purge; cases tell <;> simp
@[simp] theorem State.purge_windows (p : PortIx) (sel : SourceIx → Bool) (tell : Bool) : (s.purge p sel tell).windows = s.windows := by unfold State.purge; cases tell <;> simp
@[simp] theorem State.purge_pins (p : PortIx) (sel : SourceIx → Bool) (tell : Bool) : (s.purge p sel tell).pins = s.pins := by unfold State.purge; cases tell <;> simp
@[simp] theorem State.purge_minute (p : PortIx) (sel : SourceIx → Bool) (tell : Bool) : (s.purge p sel tell).minute = s.minute := by unfold State.purge; cases tell <;> simp
@[simp] theorem State.purge_clockValid (p : PortIx) (sel : SourceIx → Bool) (tell : Bool) : (s.purge p sel tell).clockValid = s.clockValid := by unfold State.purge; cases tell <;> simp
@[simp] theorem State.purge_linkReady (p : PortIx) (sel : SourceIx → Bool) (tell : Bool) : (s.purge p sel tell).linkReady = s.linkReady := by unfold State.purge; cases tell <;> simp
@[simp] theorem State.purge_linkUp (p : PortIx) (sel : SourceIx → Bool) (tell : Bool) : (s.purge p sel tell).linkUp = s.linkUp := by unfold State.purge; cases tell <;> simp
@[simp] theorem State.purge_inPartial (p : PortIx) (sel : SourceIx → Bool) (tell : Bool) : (s.purge p sel tell).inPartial = s.inPartial := by unfold State.purge; cases tell <;> simp
@[simp] theorem State.purge_inWaiting (p : PortIx) (sel : SourceIx → Bool) (tell : Bool) : (s.purge p sel tell).inWaiting = s.inWaiting := by unfold State.purge; cases tell <;> simp
@[simp] theorem State.purge_badCount (p : PortIx) (sel : SourceIx → Bool) (tell : Bool) : (s.purge p sel tell).badCount = s.badCount := by unfold State.purge; cases tell <;> simp
@[simp] theorem State.purge_channels (p : PortIx) (sel : SourceIx → Bool) (tell : Bool) : (s.purge p sel tell).channels = s.channels := by unfold State.purge; cases tell <;> simp
@[simp] theorem State.purge_executor (p : PortIx) (sel : SourceIx → Bool) (tell : Bool) : (s.purge p sel tell).executor = s.executor := by unfold State.purge; cases tell <;> simp
@[simp] theorem State.purge_attn (p : PortIx) (sel : SourceIx → Bool) (tell : Bool) : (s.purge p sel tell).attn = s.attn := by unfold State.purge; cases tell <;> simp
@[simp] theorem State.purge_attnMask (p : PortIx) (sel : SourceIx → Bool) (tell : Bool) : (s.purge p sel tell).attnMask = s.attnMask := by unfold State.purge; cases tell <;> simp
@[simp] theorem State.purge_cardMem (p : PortIx) (sel : SourceIx → Bool) (tell : Bool) : (s.purge p sel tell).cardMem = s.cardMem := by unfold State.purge; cases tell <;> simp
@[simp] theorem State.purge_freeCtr (p : PortIx) (sel : SourceIx → Bool) (tell : Bool) : (s.purge p sel tell).freeCtr = s.freeCtr := by unfold State.purge; cases tell <;> simp
@[simp] theorem State.purge_retests (p : PortIx) (sel : SourceIx → Bool) (tell : Bool) : (s.purge p sel tell).retests = s.retests := by unfold State.purge; cases tell <;> simp
@[simp] theorem State.purge_pending (p : PortIx) (sel : SourceIx → Bool) (tell : Bool) : (s.purge p sel tell).pending = s.pending := by unfold State.purge; cases tell <;> simp

/-! ## Ports -/

theorem State.port_eq (p : PortIx) : s.port p = s.ports[p] := rfl

@[simp] theorem State.setPort_port (p p' : PortIx) (q : Port) :
    (s.setPort p q).port p' = if p' = p then q else s.port p' := by
  simp only [State.port, State.setPort]
  by_cases h : p' = p
  · subst h; simp
  · have : p.val ≠ p'.val := fun e => h (Fin.ext e.symm)
    simp [h, Vector.getElem_set_ne, this]

@[simp] theorem State.updPort_port (p p' : PortIx) (f : Port → Port) :
    (s.updPort p f).port p' = if p' = p then f (s.port p) else s.port p' := by
  simp [State.updPort]

@[simp] theorem State.mapPorts_port (f : PortIx → Port → Port) (p : PortIx) :
    (s.mapPorts f).port p = f p (s.port p) := by
  simp [State.port, State.mapPorts]

@[simp] theorem State.updLane_port (p p' : PortIx) (src : SourceIx) (f : Lane → Lane) :
    (s.updLane p src f).port p' = if p' = p then (s.port p).setLane src (f ((s.port p).lane src)) else s.port p' := by
  simp [State.updLane]

@[simp] theorem State.updPortTally_port (p p' : PortIx) (f : PortTally → PortTally) :
    (s.updPortTally p f).port p' = if p' = p then { s.port p with tally := f (s.port p).tally } else s.port p' := by
  simp [State.updPortTally]

@[simp] theorem State.drain_port (p p' : PortIx) :
    (s.drain p).port p' = if p' = p then (s.port p).drainRule else s.port p' := by
  simp [State.drain]

/-- An update that leaves the ports leaves each port. -/
theorem State.port_of_ports {s t : State} (h : t.ports = s.ports) (p : PortIx) : t.port p = s.port p := by
  simp [State.port, h]

@[simp] theorem State.setFree_port (n : Nat) (p : PortIx) : (s.setFree n).port p = s.port p := State.port_of_ports (by simp) p
@[simp] theorem State.handOver_port (ms : List Message) (p : PortIx) : (s.handOver ms).port p = s.port p := State.port_of_ports (by simp) p
@[simp] theorem State.offer_port (os : List Offer) (p : PortIx) : (s.offer os).port p = s.port p := State.port_of_ports (by simp) p
@[simp] theorem State.latch_port (i : Nat) (p : PortIx) : (s.latch i).port p = s.port p := State.port_of_ports (by simp) p
@[simp] theorem State.latchIf_port (c : Bool) (i : Nat) (p : PortIx) : (s.latchIf c i).port p = s.port p := State.port_of_ports (by simp) p
@[simp] theorem State.unlatch_port (i : Nat) (p : PortIx) : (s.unlatch i).port p = s.port p := State.port_of_ports (by simp) p
@[simp] theorem State.setChannel_port (c : ChannelIx) (ch : Channel) (p : PortIx) : (s.setChannel c ch).port p = s.port p := State.port_of_ports (by simp) p
@[simp] theorem State.setExecutor_port (x : Executor) (p : PortIx) : (s.setExecutor x).port p = s.port p := State.port_of_ports (by simp) p
@[simp] theorem State.busWrite_port (a : Nat) (bs : List Byte) (p : PortIx) : (s.busWrite a bs).port p = s.port p := State.port_of_ports (by simp) p
@[simp] theorem State.addGap_port (n : Nat) (p : PortIx) : (s.addGap n).port p = s.port p := State.port_of_ports (by simp) p
@[simp] theorem State.addGapOf_port (o : Option Offer) (p : PortIx) : (s.addGapOf o).port p = s.port p := State.port_of_ports (by simp) p
@[simp] theorem State.installBank_port (k : ProfileIx) (p₀ : PortIx) (es : Vector BankEntry 64) (p : PortIx) : (s.installBank k p₀ es).port p = s.port p := State.port_of_ports (by simp) p
@[simp] theorem State.markDone_port (c : ChannelIx) (fault : Bool) (p : PortIx) : (s.markDone c fault).port p = s.port p := State.port_of_ports (by simp) p
@[simp] theorem State.beginExecuting_port (c : ChannelIx) (p : PortIx) : (s.beginExecuting c).port p = s.port p := State.port_of_ports (by simp) p
@[simp] theorem State.takeChannel_port (c : ChannelIx) (p : PortIx) : (s.takeChannel c).port p = s.port p := State.port_of_ports (by simp) p
@[simp] theorem State.takeNext_port (p : PortIx) : s.takeNext.port p = s.port p := State.port_of_ports (by simp) p
@[simp] theorem State.setRetests_port (ps : List PortIx) (p : PortIx) : (s.setRetests ps).port p = s.port p := State.port_of_ports (by simp) p
@[simp] theorem State.setPartial_port (bs : List Byte) (p : PortIx) : (s.setPartial bs).port p = s.port p := State.port_of_ports (by simp) p
@[simp] theorem State.markAbort_port (c : ChannelIx) (p : PortIx) : (s.markAbort c).port p = s.port p := State.port_of_ports (by simp) p
@[simp] theorem State.releaseChannel_port (c : ChannelIx) (p : PortIx) : (s.releaseChannel c).port p = s.port p := State.port_of_ports (by simp) p

/-- Two states with the same value at every port have the same ports. -/
theorem State.ports_ext {s t : State} (h : ∀ p : PortIx, t.port p = s.port p) : t.ports = s.ports := by
  apply Vector.ext
  intro i hi
  exact h ⟨i, hi⟩

/-- A port replaced by itself is no change. -/
@[simp] theorem State.setPort_self (p : PortIx) : s.setPort p (s.port p) = s := by
  have h : (s.setPort p (s.port p)).ports = s.ports := State.ports_ext fun p' => by
    by_cases e : p' = p <;> simp [e]
  cases s
  simp_all [State.setPort]

/-! ## Lanes of a port -/

@[simp] theorem Port.setLane_lane (q : Port) (src src' : SourceIx) (l : Lane) :
    (q.setLane src l).lane src' = if src' = src then l else q.lane src' := by
  simp only [Port.lane, Port.setLane]
  by_cases h : src' = src
  · subst h; simp
  · have : src.val ≠ src'.val := fun e => h (Fin.ext e.symm)
    simp [h, Vector.getElem_set_ne, this]

@[simp] theorem Port.mapLanes_lane (q : Port) (f : SourceIx → Lane → Lane) (src : SourceIx) :
    (q.mapLanes f).lane src = f src (q.lane src) := by
  simp [Port.lane, Port.mapLanes]

@[simp] theorem Port.setLane_state (q : Port) (src : SourceIx) (l : Lane) : (q.setLane src l).state = q.state := by simp only [Port.setLane]
@[simp] theorem Port.setLane_flow (q : Port) (src : SourceIx) (l : Lane) : (q.setLane src l).flow = q.flow := by simp only [Port.setLane]
@[simp] theorem Port.setLane_holdAge (q : Port) (src : SourceIx) (l : Lane) : (q.setLane src l).holdAge = q.holdAge := by simp only [Port.setLane]
@[simp] theorem Port.setLane_timer (q : Port) (src : SourceIx) (l : Lane) : (q.setLane src l).timer = q.timer := by simp only [Port.setLane]
@[simp] theorem Port.setLane_roundCount (q : Port) (src : SourceIx) (l : Lane) : (q.setLane src l).roundCount = q.roundCount := by simp only [Port.setLane]
@[simp] theorem Port.setLane_refreshFlag (q : Port) (src : SourceIx) (l : Lane) : (q.setLane src l).refreshFlag = q.refreshFlag := by simp only [Port.setLane]
@[simp] theorem Port.setLane_selected (q : Port) (src : SourceIx) (l : Lane) : (q.setLane src l).selected = q.selected := by simp only [Port.setLane]
@[simp] theorem Port.setLane_applied (q : Port) (src : SourceIx) (l : Lane) : (q.setLane src l).applied = q.applied := by simp only [Port.setLane]
@[simp] theorem Port.setLane_assuredCursor (q : Port) (src : SourceIx) (l : Lane) : (q.setLane src l).assuredCursor = q.assuredCursor := by simp only [Port.setLane]
@[simp] theorem Port.setLane_tier1Cursor (q : Port) (src : SourceIx) (l : Lane) : (q.setLane src l).tier1Cursor = q.tier1Cursor := by simp only [Port.setLane]
@[simp] theorem Port.setLane_tier2Cursor (q : Port) (src : SourceIx) (l : Lane) : (q.setLane src l).tier2Cursor = q.tier2Cursor := by simp only [Port.setLane]
@[simp] theorem Port.setLane_tier3Cursor (q : Port) (src : SourceIx) (l : Lane) : (q.setLane src l).tier3Cursor = q.tier3Cursor := by simp only [Port.setLane]
@[simp] theorem Port.setLane_older (q : Port) (src : SourceIx) (l : Lane) : (q.setLane src l).older = q.older := by simp only [Port.setLane]
@[simp] theorem Port.setLane_younger (q : Port) (src : SourceIx) (l : Lane) : (q.setLane src l).younger = q.younger := by simp only [Port.setLane]
@[simp] theorem Port.setLane_nextTag (q : Port) (src : SourceIx) (l : Lane) : (q.setLane src l).nextTag = q.nextTag := by simp only [Port.setLane]
@[simp] theorem Port.setLane_watchMode (q : Port) (src : SourceIx) (l : Lane) : (q.setLane src l).watchMode = q.watchMode := by simp only [Port.setLane]
@[simp] theorem Port.setLane_watchLatch (q : Port) (src : SourceIx) (l : Lane) : (q.setLane src l).watchLatch = q.watchLatch := by simp only [Port.setLane]
@[simp] theorem Port.setLane_roundLength (q : Port) (src : SourceIx) (l : Lane) : (q.setLane src l).roundLength = q.roundLength := by simp only [Port.setLane]
@[simp] theorem Port.setLane_kc (q : Port) (src : SourceIx) (l : Lane) : (q.setLane src l).kc = q.kc := by simp only [Port.setLane]
@[simp] theorem Port.setLane_kf (q : Port) (src : SourceIx) (l : Lane) : (q.setLane src l).kf = q.kf := by simp only [Port.setLane]
@[simp] theorem Port.setLane_holdLimit (q : Port) (src : SourceIx) (l : Lane) : (q.setLane src l).holdLimit = q.holdLimit := by simp only [Port.setLane]
@[simp] theorem Port.setLane_doneLimit (q : Port) (src : SourceIx) (l : Lane) : (q.setLane src l).doneLimit = q.doneLimit := by simp only [Port.setLane]
@[simp] theorem Port.setLane_tally (q : Port) (src : SourceIx) (l : Lane) : (q.setLane src l).tally = q.tally := by simp only [Port.setLane]
@[simp] theorem Port.mapLanes_state (q : Port) (f : SourceIx → Lane → Lane) : (q.mapLanes f).state = q.state := by simp only [Port.mapLanes]
@[simp] theorem Port.mapLanes_flow (q : Port) (f : SourceIx → Lane → Lane) : (q.mapLanes f).flow = q.flow := by simp only [Port.mapLanes]
@[simp] theorem Port.mapLanes_holdAge (q : Port) (f : SourceIx → Lane → Lane) : (q.mapLanes f).holdAge = q.holdAge := by simp only [Port.mapLanes]
@[simp] theorem Port.mapLanes_timer (q : Port) (f : SourceIx → Lane → Lane) : (q.mapLanes f).timer = q.timer := by simp only [Port.mapLanes]
@[simp] theorem Port.mapLanes_roundCount (q : Port) (f : SourceIx → Lane → Lane) : (q.mapLanes f).roundCount = q.roundCount := by simp only [Port.mapLanes]
@[simp] theorem Port.mapLanes_refreshFlag (q : Port) (f : SourceIx → Lane → Lane) : (q.mapLanes f).refreshFlag = q.refreshFlag := by simp only [Port.mapLanes]
@[simp] theorem Port.mapLanes_selected (q : Port) (f : SourceIx → Lane → Lane) : (q.mapLanes f).selected = q.selected := by simp only [Port.mapLanes]
@[simp] theorem Port.mapLanes_applied (q : Port) (f : SourceIx → Lane → Lane) : (q.mapLanes f).applied = q.applied := by simp only [Port.mapLanes]
@[simp] theorem Port.mapLanes_assuredCursor (q : Port) (f : SourceIx → Lane → Lane) : (q.mapLanes f).assuredCursor = q.assuredCursor := by simp only [Port.mapLanes]
@[simp] theorem Port.mapLanes_tier1Cursor (q : Port) (f : SourceIx → Lane → Lane) : (q.mapLanes f).tier1Cursor = q.tier1Cursor := by simp only [Port.mapLanes]
@[simp] theorem Port.mapLanes_tier2Cursor (q : Port) (f : SourceIx → Lane → Lane) : (q.mapLanes f).tier2Cursor = q.tier2Cursor := by simp only [Port.mapLanes]
@[simp] theorem Port.mapLanes_tier3Cursor (q : Port) (f : SourceIx → Lane → Lane) : (q.mapLanes f).tier3Cursor = q.tier3Cursor := by simp only [Port.mapLanes]
@[simp] theorem Port.mapLanes_older (q : Port) (f : SourceIx → Lane → Lane) : (q.mapLanes f).older = q.older := by simp only [Port.mapLanes]
@[simp] theorem Port.mapLanes_younger (q : Port) (f : SourceIx → Lane → Lane) : (q.mapLanes f).younger = q.younger := by simp only [Port.mapLanes]
@[simp] theorem Port.mapLanes_nextTag (q : Port) (f : SourceIx → Lane → Lane) : (q.mapLanes f).nextTag = q.nextTag := by simp only [Port.mapLanes]
@[simp] theorem Port.mapLanes_watchMode (q : Port) (f : SourceIx → Lane → Lane) : (q.mapLanes f).watchMode = q.watchMode := by simp only [Port.mapLanes]
@[simp] theorem Port.mapLanes_watchLatch (q : Port) (f : SourceIx → Lane → Lane) : (q.mapLanes f).watchLatch = q.watchLatch := by simp only [Port.mapLanes]
@[simp] theorem Port.mapLanes_roundLength (q : Port) (f : SourceIx → Lane → Lane) : (q.mapLanes f).roundLength = q.roundLength := by simp only [Port.mapLanes]
@[simp] theorem Port.mapLanes_kc (q : Port) (f : SourceIx → Lane → Lane) : (q.mapLanes f).kc = q.kc := by simp only [Port.mapLanes]
@[simp] theorem Port.mapLanes_kf (q : Port) (f : SourceIx → Lane → Lane) : (q.mapLanes f).kf = q.kf := by simp only [Port.mapLanes]
@[simp] theorem Port.mapLanes_holdLimit (q : Port) (f : SourceIx → Lane → Lane) : (q.mapLanes f).holdLimit = q.holdLimit := by simp only [Port.mapLanes]
@[simp] theorem Port.mapLanes_doneLimit (q : Port) (f : SourceIx → Lane → Lane) : (q.mapLanes f).doneLimit = q.doneLimit := by simp only [Port.mapLanes]
@[simp] theorem Port.mapLanes_tally (q : Port) (f : SourceIx → Lane → Lane) : (q.mapLanes f).tally = q.tally := by simp only [Port.mapLanes]

/-! ## Channels -/

@[simp] theorem State.setChannel_channel (c c' : ChannelIx) (ch : Channel) :
    (s.setChannel c ch).channel c' = if c' = c then ch else s.channel c' := by
  simp only [State.channel, State.setChannel]
  by_cases h : c' = c
  · subst h; simp
  · have : c.val ≠ c'.val := fun e => h (Fin.ext e.symm)
    simp [h, Vector.getElem_set_ne, this]

/-- An update that leaves the channels leaves each channel. -/
theorem State.channel_of_channels {s t : State} (h : t.channels = s.channels) (c : ChannelIx) :
    t.channel c = s.channel c := by
  simp [State.channel, h]

@[simp] theorem State.setPort_channel (p : PortIx) (q : Port) (c' : ChannelIx) : (s.setPort p q).channel c' = s.channel c' := State.channel_of_channels (by simp) c'
@[simp] theorem State.updPort_channel (p : PortIx) (f : Port → Port) (c' : ChannelIx) : (s.updPort p f).channel c' = s.channel c' := State.channel_of_channels (by simp) c'
@[simp] theorem State.mapPorts_channel (f : PortIx → Port → Port) (c' : ChannelIx) : (s.mapPorts f).channel c' = s.channel c' := State.channel_of_channels (by simp) c'
@[simp] theorem State.updLane_channel (p : PortIx) (src : SourceIx) (f : Lane → Lane) (c' : ChannelIx) : (s.updLane p src f).channel c' = s.channel c' := State.channel_of_channels (by simp) c'
@[simp] theorem State.updPortTally_channel (p : PortIx) (f : PortTally → PortTally) (c' : ChannelIx) : (s.updPortTally p f).channel c' = s.channel c' := State.channel_of_channels (by simp) c'
@[simp] theorem State.drain_channel (p : PortIx) (c' : ChannelIx) : (s.drain p).channel c' = s.channel c' := State.channel_of_channels (by simp) c'
@[simp] theorem State.setFree_channel (n : Nat) (c' : ChannelIx) : (s.setFree n).channel c' = s.channel c' := State.channel_of_channels (by simp) c'
@[simp] theorem State.handOver_channel (ms : List Message) (c' : ChannelIx) : (s.handOver ms).channel c' = s.channel c' := State.channel_of_channels (by simp) c'
@[simp] theorem State.offer_channel (os : List Offer) (c' : ChannelIx) : (s.offer os).channel c' = s.channel c' := State.channel_of_channels (by simp) c'
@[simp] theorem State.latch_channel (i : Nat) (c' : ChannelIx) : (s.latch i).channel c' = s.channel c' := State.channel_of_channels (by simp) c'
@[simp] theorem State.latchIf_channel (c : Bool) (i : Nat) (c' : ChannelIx) : (s.latchIf c i).channel c' = s.channel c' := State.channel_of_channels (by simp) c'
@[simp] theorem State.unlatch_channel (i : Nat) (c' : ChannelIx) : (s.unlatch i).channel c' = s.channel c' := State.channel_of_channels (by simp) c'
@[simp] theorem State.setExecutor_channel (x : Executor) (c' : ChannelIx) : (s.setExecutor x).channel c' = s.channel c' := State.channel_of_channels (by simp) c'
@[simp] theorem State.busWrite_channel (a : Nat) (bs : List Byte) (c' : ChannelIx) : (s.busWrite a bs).channel c' = s.channel c' := State.channel_of_channels (by simp) c'
@[simp] theorem State.addGap_channel (n : Nat) (c' : ChannelIx) : (s.addGap n).channel c' = s.channel c' := State.channel_of_channels (by simp) c'
@[simp] theorem State.addGapOf_channel (o : Option Offer) (c' : ChannelIx) : (s.addGapOf o).channel c' = s.channel c' := State.channel_of_channels (by simp) c'
@[simp] theorem State.installBank_channel (k : ProfileIx) (p : PortIx) (es : Vector BankEntry 64) (c' : ChannelIx) : (s.installBank k p es).channel c' = s.channel c' := State.channel_of_channels (by simp) c'
@[simp] theorem State.purge_channel (p : PortIx) (sel : SourceIx → Bool) (tell : Bool) (c' : ChannelIx) : (s.purge p sel tell).channel c' = s.channel c' := State.channel_of_channels (by simp) c'

@[simp] theorem State.markDone_channel (c c' : ChannelIx) (fault : Bool) :
    (s.markDone c fault).channel c' =
      if c' = c then { s.channel c with phase := .done fault, abortReq := false } else s.channel c' := by
  simp [State.markDone]

@[simp] theorem State.beginExecuting_channel (c c' : ChannelIx) :
    (s.beginExecuting c).channel c' = if c' = c then { s.channel c with phase := .executing } else s.channel c' := by
  exact State.setChannel_channel s c c' { s.channel c with phase := .executing }

@[simp] theorem State.takeChannel_channel (c c' : ChannelIx) :
    (s.takeChannel c).channel c' = if c' = c then { s.channel c with phase := .executing } else s.channel c' := by
  exact State.setChannel_channel s c c' { s.channel c with phase := .executing }

@[simp] theorem State.setRetests_channel (ps : List PortIx) (c' : ChannelIx) : (s.setRetests ps).channel c' = s.channel c' := State.channel_of_channels (by simp) c'

@[simp] theorem State.setPartial_channel (bs : List Byte) (c' : ChannelIx) : (s.setPartial bs).channel c' = s.channel c' := State.channel_of_channels (by simp) c'

@[simp] theorem State.markAbort_channel (c c' : ChannelIx) :
    (s.markAbort c).channel c' = if c' = c then { s.channel c with abortReq := true } else s.channel c' := by
  simp [State.markAbort]

@[simp] theorem State.releaseChannel_channel (c c' : ChannelIx) :
    (s.releaseChannel c).channel c' = if c' = c then Channel.reset else s.channel c' := by
  simp [State.releaseChannel]

/-! ## What an update writes -/

@[simp] theorem State.setFree_freeCount (n : Nat) : (s.setFree n).freeCount = n := rfl

@[simp] theorem State.setFree_poolBelow (n : Nat) : (s.setFree n).poolBelow = decide (n < s.warning.toNat) := rfl

@[simp] theorem State.offer_tre (os : List Offer) :
    (s.offer os).tre = { s.tre with offered := s.tre.offered ++ os } := rfl

@[simp] theorem State.latch_attn (i : Nat) : (s.latch i).attn = s.attn ||| flagBit i := rfl

@[simp] theorem State.latchIf_attn (c : Bool) (i : Nat) :
    (s.latchIf c i).attn = if c then s.attn ||| flagBit i else s.attn := by
  unfold State.latchIf; split <;> rfl

@[simp] theorem State.unlatch_attn (i : Nat) : (s.unlatch i).attn = s.attn &&& ~~~ (flagBit i) := rfl

@[simp] theorem State.setExecutor_executor (x : Executor) : (s.setExecutor x).executor = x := rfl

@[simp] theorem State.setRetests_retests (ps : List PortIx) : (s.setRetests ps).retests = ps := rfl

@[simp] theorem State.setPartial_inPartial (bs : List Byte) : (s.setPartial bs).inPartial = bs := rfl

@[simp] theorem State.takeChannel_executor (c : ChannelIx) :
    (s.takeChannel c).executor = .taken c (s.channel c).abortReq := rfl

@[simp] theorem State.markDone_attn (c : ChannelIx) (fault : Bool) :
    (s.markDone c fault).attn = s.attn ||| flagBit c.val := rfl

@[simp] theorem State.releaseChannel_attn (c : ChannelIx) :
    (s.releaseChannel c).attn = s.attn &&& ~~~ (flagBit c.val) := rfl

@[simp] theorem State.busWrite_cardMem (a : Nat) (bs : List Byte) :
    (s.busWrite a bs).cardMem = Memory.writeBytes s.cardMem a bs := rfl

@[simp] theorem State.handOver_outQueue (ms : List Message) :
    (s.handOver ms).outQueue = if s.linkUp then s.outQueue ++ ms else s.outQueue := by
  unfold State.handOver; split <;> simp_all

@[simp] theorem State.addGap_tre (n : Nat) :
    (s.addGap n).tre = { s.tre with gapCount := satAdd s.tre.gapCount n } := rfl

/-- Two states with the same fields are the same. -/
theorem State.eq_of_fields {s t : State}
    (ports_eq : s.ports = t.ports) (freeCount_eq : s.freeCount = t.freeCount) (reserve_eq : s.reserve = t.reserve)
    (warning_eq : s.warning = t.warning) (poolBelow_eq : s.poolBelow = t.poolBelow) (banks_eq : s.banks = t.banks)
    (windows_eq : s.windows = t.windows) (pins_eq : s.pins = t.pins) (minute_eq : s.minute = t.minute)
    (clockValid_eq : s.clockValid = t.clockValid) (linkReady_eq : s.linkReady = t.linkReady)
    (linkUp_eq : s.linkUp = t.linkUp) (inPartial_eq : s.inPartial = t.inPartial)
    (inWaiting_eq : s.inWaiting = t.inWaiting) (outQueue_eq : s.outQueue = t.outQueue)
    (badCount_eq : s.badCount = t.badCount) (channels_eq : s.channels = t.channels)
    (executor_eq : s.executor = t.executor) (tre_eq : s.tre = t.tre) (attn_eq : s.attn = t.attn)
    (attnMask_eq : s.attnMask = t.attnMask) (cardMem_eq : s.cardMem = t.cardMem)
    (retests_eq : s.retests = t.retests) (freeCtr_eq : s.freeCtr = t.freeCtr)
    (pending_eq : s.pending = t.pending) : s = t := by
  cases s; cases t; simp_all

/-- Two ports with the same fields are the same. -/
theorem Port.eq_of_fields {s t : Port}
    (lanes_eq : s.lanes = t.lanes) (state_eq : s.state = t.state) (flow_eq : s.flow = t.flow)
    (holdAge_eq : s.holdAge = t.holdAge) (timer_eq : s.timer = t.timer) (roundCount_eq : s.roundCount = t.roundCount)
    (refreshFlag_eq : s.refreshFlag = t.refreshFlag) (selected_eq : s.selected = t.selected)
    (applied_eq : s.applied = t.applied) (assuredCursor_eq : s.assuredCursor = t.assuredCursor)
    (tier1Cursor_eq : s.tier1Cursor = t.tier1Cursor) (tier2Cursor_eq : s.tier2Cursor = t.tier2Cursor)
    (tier3Cursor_eq : s.tier3Cursor = t.tier3Cursor) (older_eq : s.older = t.older) (younger_eq : s.younger = t.younger)
    (nextTag_eq : s.nextTag = t.nextTag) (watchMode_eq : s.watchMode = t.watchMode)
    (watchLatch_eq : s.watchLatch = t.watchLatch) (roundLength_eq : s.roundLength = t.roundLength) (kc_eq : s.kc = t.kc)
    (kf_eq : s.kf = t.kf) (holdLimit_eq : s.holdLimit = t.holdLimit) (doneLimit_eq : s.doneLimit = t.doneLimit)
    (tally_eq : s.tally = t.tally) : s = t := by
  cases s; cases t; simp_all

/-- Two ports with the same lane at every source have the same lanes. -/
theorem Port.lanes_ext {q q' : Port} (h : ∀ src : SourceIx, q.lane src = q'.lane src) : q.lanes = q'.lanes := by
  apply Vector.ext
  intro i hi
  exact h ⟨i, hi⟩

/-- A port replaced twice. -/
theorem State.setPort_setPort (s : State) (p : PortIx) (q q' : Port) : (s.setPort p q).setPort p q' = s.setPort p q' := by
  simp only [State.setPort, Vector.set_set]

/-- A port changed twice. -/
theorem State.updPort_updPort (s : State) (p : PortIx) (f g : Port → Port) :
    (s.updPort p f).updPort p g = s.updPort p fun q => g (f q) := by
  have h : (s.setPort p (f (s.port p))).port p = f (s.port p) := by rw [State.setPort_port, if_pos rfl]
  simp only [State.updPort, h, State.setPort_setPort]

end Sys2Proof.Machine
end

