-- ==== Sys2Proof/Laws/Memory.lean ====
section
/-! SUPPORT. Card memory: what a read gives after a write, and the canonical form, which every write keeps. -/

namespace Sys2Proof.Machine

/-- A read after a write of one byte. -/
theorem Memory.read_write (m : List Host.Cell) (a k : Nat) (b : Byte) :
    Memory.read (Memory.write m a b) k = if k = a then some b else Memory.read m k := by
  induction m with
  | nil => simp [Memory.write, Memory.read]
  | cons x rest ih =>
    obtain ⟨y, c⟩ := x
    simp only [Memory.write]
    by_cases h1 : a < y
    · simp [h1, Memory.read]
    · by_cases h2 : a = y
      · subst h2
        simp only [Nat.lt_irrefl, if_false, if_true, Memory.read]
        split <;> simp_all
      · simp only [h1, h2, if_false, Memory.read, ih]
        by_cases h3 : k = y
        · have : ¬ k = a := by omega
          simp [h3, Ne.symm h2]
        · simp [h3]

/-- A read after a write of several bytes that do not run past the last address. -/
theorem Memory.read_writeBytes (bs : List Byte) (m : List Host.Cell) (a k : Nat) (h : a + bs.length ≤ Config.memorySize) :
    Memory.read (Memory.writeBytes m a bs) k =
      if a ≤ k ∧ k < a + bs.length then bs[k - a]? else Memory.read m k := by
  induction bs generalizing m a with
  | nil =>
    have : ¬ (a ≤ k ∧ k < a) := by omega
    simp [Memory.writeBytes, this]
  | cons b rest ih =>
    simp only [List.length_cons] at h
    have hm : a % Config.memorySize = a := Nat.mod_eq_of_lt (by omega)
    simp only [Memory.writeBytes, hm]
    rw [ih _ (a + 1) (by omega), Memory.read_write]
    by_cases h1 : k = a
    · subst h1; simp
    · by_cases h2 : a + 1 ≤ k ∧ k < a + 1 + rest.length
      · have h3 : a ≤ k ∧ k < a + (rest.length + 1) := by omega
        have h4 : k - a = (k - (a + 1)) + 1 := by omega
        simp only [List.length_cons, h2, h3, and_self, if_true, h4, List.getElem?_cons_succ]
      · have h3 : ¬ (a ≤ k ∧ k < a + (rest.length + 1)) := by omega
        simp only [List.length_cons, h2, h3, h1, if_false]

/-- Card memory holds the bytes just written. -/
theorem Memory.holds_writeBytes (bs : List Byte) (m : List Host.Cell) (a : Nat) (h : a + bs.length ≤ Config.memorySize) :
    Memory.Holds (Memory.writeBytes m a bs) a bs := by
  intro i
  rw [Memory.read_writeBytes bs m a _ h]
  have : a ≤ a + i.val ∧ a + i.val < a + bs.length := by omega
  simp [this]

/-- A write leaves the bytes that lie outside it. -/
theorem Memory.holds_writeBytes_other (bs cs : List Byte) (m : List Host.Cell) (a b : Nat)
    (h : b + cs.length ≤ Config.memorySize) (hd : a + bs.length ≤ b ∨ b + cs.length ≤ a) (hh : Memory.Holds m a bs) :
    Memory.Holds (Memory.writeBytes m b cs) a bs := by
  intro i
  rw [Memory.read_writeBytes cs m b _ h]
  have : ¬ (b ≤ a + i.val ∧ a + i.val < b + cs.length) := by omega
  simp only [this, if_false]
  exact hh i

/-! ## The canonical form -/

/-- A bound may be lowered. -/
theorem Memory.wfFrom_mono {x y : Nat} (m : List Host.Cell) (h : y ≤ x) (w : Memory.wfFrom x m = true) :
    Memory.wfFrom y m = true := by
  cases m with
  | nil => rfl
  | cons c rest =>
    simp only [Memory.wfFrom, Bool.and_eq_true, decide_eq_true_eq] at w ⊢
    exact ⟨⟨by omega, w.1.2⟩, w.2⟩

/-- A write at an address above the bound keeps the form above the bound. -/
theorem Memory.wfFrom_write (m : List Host.Cell) (x a : Nat) (b : Byte) (ha : x ≤ a) (hs : a < Config.memorySize)
    (w : Memory.wfFrom x m = true) : Memory.wfFrom x (Memory.write m a b) = true := by
  induction m generalizing x with
  | nil => simp [Memory.write, Memory.wfFrom, ha, hs]
  | cons c rest ih =>
    obtain ⟨k, d⟩ := c
    simp only [Memory.wfFrom, Bool.and_eq_true, decide_eq_true_eq] at w
    simp only [Memory.write]
    by_cases h1 : a < k
    · simp [h1, Memory.wfFrom, ha, hs, w.1.2, w.2]
    · by_cases h2 : a = k
      · subst h2; simp [Memory.wfFrom, ha, hs, w.2]
      · simp only [h1, h2, if_false, Memory.wfFrom, Bool.and_eq_true, decide_eq_true_eq]
        exact ⟨w.1, ih (k + 1) (by omega) w.2⟩

/-- A write of one byte keeps the canonical form. -/
theorem Memory.wf_write (m : List Host.Cell) (a : Nat) (b : Byte) (hs : a < Config.memorySize) (w : Memory.wf m = true) :
    Memory.wf (Memory.write m a b) = true :=
  Memory.wfFrom_write m 0 a b (Nat.zero_le a) hs w

/-- A write of several bytes keeps the canonical form, wherever it lies. -/
theorem Memory.wf_writeBytes (bs : List Byte) (m : List Host.Cell) (a : Nat) (w : Memory.wf m = true) :
    Memory.wf (Memory.writeBytes m a bs) = true := by
  induction bs generalizing m a with
  | nil => exact w
  | cons b rest ih => exact ih _ _ (Memory.wf_write m _ b (Nat.mod_lt _ (by decide)) w)

/-- A bus write keeps the canonical form. -/
theorem State.busWrite_memoryOk (s : State) (a : Nat) (bs : List Byte) (w : s.MemoryOk) : (s.busWrite a bs).MemoryOk :=
  Memory.wf_writeBytes bs s.cardMem a w

/-! ## Little-endian bytes -/

@[simp] theorem leBytes_length (n v : Nat) : (leBytes n v).length = n := by
  induction n generalizing v with
  | zero => rfl
  | succ k ih => simp [leBytes, ih]

/-- Byte `i` of a number. -/
theorem leBytes_getElem? (n v i : Nat) (h : i < n) : (leBytes n v)[i]? = some (BitVec.ofNat 8 (v / 256 ^ i)) := by
  induction n generalizing v i with
  | zero => omega
  | succ k ih =>
    cases i with
    | zero => simp [leBytes]
    | succ j =>
      simp only [leBytes, List.getElem?_cons_succ]
      rw [ih (v / 256) j (by omega), Nat.div_div_eq_div_mul, Nat.pow_succ, Nat.mul_comm]

@[simp] theorem wordBytes_length (w : Word) : (wordBytes w).length = 4 := by simp [wordBytes]

end Sys2Proof.Machine
end

