-- ==== Sys2Proof/Laws/Frames.lean ====
section
/-! SUPPORT. What the events of a port leave untouched: the channels and the executor, card memory, the armed trace, the shares,
the levels and the link's own state. One structure says it, and each operation of a port's events has it. -/

namespace Sys2Proof.Machine

/-- Channels, executor, card memory, mask, queue of commands, CHn flags, and the trace engine but for records offered. -/
structure State.ExecSame (s t : State) : Prop where
  channels : t.channels = s.channels
  executor : t.executor = s.executor
  cardMem : t.cardMem = s.cardMem
  attnMask : t.attnMask = s.attnMask
  pending : t.pending = s.pending
  flags : ∀ c : ChannelIx, t.attn.getLsbD c.val = s.attn.getLsbD c.val
  tre : t.tre = { s.tre with offered := t.tre.offered }

/-- Banks, windows, pins and every port's capacity. -/
structure State.SharesSame (s t : State) : Prop where
  banks : t.banks = s.banks
  windows : t.windows = s.windows
  pins : t.pins = s.pins
  kc : ∀ p : PortIx, (t.port p).kc = (s.port p).kc
  kf : ∀ p : PortIx, (t.port p).kf = (s.port p).kf

/-- The line, the link state, the part of a message received and the messages that wait on the link. -/
structure State.LinkSame (s t : State) : Prop where
  linkReady : t.linkReady = s.linkReady
  linkUp : t.linkUp = s.linkUp
  inPartial : t.inPartial = s.inPartial
  inWaiting : t.inWaiting = s.inWaiting

/-- What the events of a port leave. -/
structure State.PortSide (s t : State) : Prop where
  exec : s.ExecSame t
  shares : s.SharesSame t
  link : s.LinkSame t
  reserve : t.reserve = s.reserve
  warning : t.warning = s.warning

theorem State.ExecSame.refl (s : State) : s.ExecSame s := ⟨rfl, rfl, rfl, rfl, rfl, fun _ => rfl, rfl⟩

theorem State.ExecSame.trans {s t u : State} (h : s.ExecSame t) (k : t.ExecSame u) : s.ExecSame u :=
  ⟨k.channels.trans h.channels, k.executor.trans h.executor, k.cardMem.trans h.cardMem, k.attnMask.trans h.attnMask,
    k.pending.trans h.pending, fun c => (k.flags c).trans (h.flags c), by rw [k.tre, h.tre]⟩

theorem State.PortSide.refl (s : State) : s.PortSide s :=
  ⟨State.ExecSame.refl s, ⟨rfl, rfl, rfl, fun _ => rfl, fun _ => rfl⟩, ⟨rfl, rfl, rfl, rfl⟩, rfl, rfl⟩

theorem State.PortSide.trans {s t u : State} (h : s.PortSide t) (k : t.PortSide u) : s.PortSide u :=
  ⟨h.exec.trans k.exec,
    ⟨k.shares.banks.trans h.shares.banks, k.shares.windows.trans h.shares.windows, k.shares.pins.trans h.shares.pins,
      fun p => (k.shares.kc p).trans (h.shares.kc p), fun p => (k.shares.kf p).trans (h.shares.kf p)⟩,
    ⟨k.link.linkReady.trans h.link.linkReady, k.link.linkUp.trans h.link.linkUp,
      k.link.inPartial.trans h.link.inPartial, k.link.inWaiting.trans h.link.inWaiting⟩,
    k.reserve.trans h.reserve, k.warning.trans h.warning⟩

/-! ## The elementary operations -/

section
variable (s : State)

theorem State.portSide_setPort (p : PortIx) (q : Port) (hc : q.kc = (s.port p).kc) (hf : q.kf = (s.port p).kf) :
    s.PortSide (s.setPort p q) := by
  refine ⟨⟨rfl, rfl, rfl, rfl, rfl, fun _ => rfl, rfl⟩, ⟨rfl, rfl, rfl, ?_, ?_⟩, ⟨rfl, rfl, rfl, rfl⟩, rfl, rfl⟩
  · intro p'; rw [State.setPort_port]; split
    · rename_i h; subst h; exact hc
    · rfl
  · intro p'; rw [State.setPort_port]; split
    · rename_i h; subst h; exact hf
    · rfl

theorem State.portSide_updPort (p : PortIx) (f : Port → Port) (hc : ∀ q, (f q).kc = q.kc) (hf : ∀ q, (f q).kf = q.kf) :
    s.PortSide (s.updPort p f) :=
  s.portSide_setPort p _ (hc _) (hf _)

theorem State.portSide_updLane (p : PortIx) (src : SourceIx) (f : Lane → Lane) : s.PortSide (s.updLane p src f) :=
  s.portSide_updPort p _ (by intro; simp) (by intro; simp)

theorem State.portSide_updPortTally (p : PortIx) (f : PortTally → PortTally) : s.PortSide (s.updPortTally p f) :=
  s.portSide_updPort p _ (by intro; rfl) (by intro; rfl)

theorem State.portSide_mapPorts (f : PortIx → Port → Port) (hc : ∀ p q, (f p q).kc = q.kc) (hf : ∀ p q, (f p q).kf = q.kf) :
    s.PortSide (s.mapPorts f) := by
  refine ⟨⟨by simp, by simp, by simp, by simp, by simp, by simp, by simp⟩, ⟨by simp, by simp, by simp, ?_, ?_⟩,
    ⟨by simp, by simp, by simp, by simp⟩, by simp, by simp⟩
  · intro p; simp [hc]
  · intro p; simp [hf]

theorem State.portSide_setFree (n : Nat) : s.PortSide (s.setFree n) :=
  ⟨⟨rfl, rfl, rfl, rfl, rfl, fun _ => rfl, rfl⟩, ⟨rfl, rfl, rfl, fun _ => rfl, fun _ => rfl⟩, ⟨rfl, rfl, rfl, rfl⟩, rfl, rfl⟩

theorem State.portSide_handOver (ms : List Message) : s.PortSide (s.handOver ms) := by
  unfold State.handOver
  split
  · exact ⟨⟨rfl, rfl, rfl, rfl, rfl, fun _ => rfl, rfl⟩, ⟨rfl, rfl, rfl, fun _ => rfl, fun _ => rfl⟩, ⟨rfl, rfl, rfl, rfl⟩, rfl, rfl⟩
  · exact State.PortSide.refl s

theorem State.portSide_offer (os : List Offer) : s.PortSide (s.offer os) :=
  ⟨⟨rfl, rfl, rfl, rfl, rfl, fun _ => rfl, rfl⟩, ⟨rfl, rfl, rfl, fun _ => rfl, fun _ => rfl⟩, ⟨rfl, rfl, rfl, rfl⟩, rfl, rfl⟩

/-- A latched flag other than CHn leaves every CHn. -/
theorem State.portSide_latch (i : Nat) (hi : 4 ≤ i) : s.PortSide (s.latch i) := by
  refine ⟨⟨rfl, rfl, rfl, rfl, rfl, ?_, rfl⟩, ⟨rfl, rfl, rfl, fun _ => rfl, fun _ => rfl⟩, ⟨rfl, rfl, rfl, rfl⟩, rfl, rfl⟩
  intro c
  have : c.val < i := by omega
  simp [State.latch, flagBit, this]

theorem State.portSide_latchIf (c : Bool) (i : Nat) (hi : 4 ≤ i) : s.PortSide (s.latchIf c i) := by
  unfold State.latchIf
  split
  · exact s.portSide_latch i hi
  · exact State.PortSide.refl s

/-! ## Purges, refreshes, selection -/

theorem State.portSide_purge (p : PortIx) (sel : SourceIx → Bool) (tell : Bool) : s.PortSide (s.purge p sel tell) := by
  unfold State.purge
  refine State.PortSide.trans (State.PortSide.trans (State.PortSide.trans ?_ (State.portSide_updPort _ p _ ?_ ?_))
    (State.portSide_setFree _ _)) (State.portSide_offer _ _)
  · split
    · exact s.portSide_handOver _
    · exact State.PortSide.refl s
  · intro q; simp
  · intro q; simp

theorem State.portSide_replaceEntries (p : PortIx) : s.PortSide (s.replaceEntries p) :=
  s.portSide_updPort p _ (by intro; simp) (by intro; simp)

theorem State.portSide_switchProfile (p : PortIx) : s.PortSide (s.switchProfile p) := by
  unfold State.switchProfile
  refine State.PortSide.trans ?_ (State.portSide_updPort _ p _ (by intro; rfl) (by intro; rfl))
  split
  · exact State.PortSide.refl s
  · exact s.portSide_offer _

theorem State.portSide_refresh (p : PortIx) : s.PortSide (s.refresh p) := by
  have h := (s.portSide_replaceEntries p).trans (State.portSide_switchProfile _ p)
  have h' := h.trans (State.portSide_purge _ p (((s.replaceEntries p).switchProfile p).closedLane p) true)
  exact h'.trans (State.portSide_updPort _ p (fun q => { q with refreshFlag := false }) (fun _ => rfl) (fun _ => rfl))

theorem State.portSide_refreshIf (p : PortIx) : s.PortSide (s.refreshIf p) := by
  unfold State.refreshIf
  split
  · exact s.portSide_refresh p
  · exact State.PortSide.refl s

theorem Port.reselect_kc (q : Port) (k : ProfileIx) : (q.reselect k).kc = q.kc := by unfold Port.reselect; split <;> rfl

theorem Port.reselect_kf (q : Port) (k : ProfileIx) : (q.reselect k).kf = q.kf := by unfold Port.reselect; split <;> rfl

theorem State.portSide_recomputeSelection : s.PortSide s.recomputeSelection :=
  s.portSide_mapPorts _ (fun _ _ => Port.reselect_kc _ _) (fun _ _ => Port.reselect_kf _ _)

theorem State.portSide_takeClock (m : BitVec 16) : s.PortSide (s.takeClock m) := by
  unfold State.takeClock
  split
  · dsimp only
    split
    · exact State.PortSide.refl s
    · refine State.PortSide.trans ?_ (State.portSide_recomputeSelection _)
      exact ⟨⟨rfl, rfl, rfl, rfl, rfl, fun _ => rfl, rfl⟩, ⟨rfl, rfl, rfl, fun _ => rfl, fun _ => rfl⟩, ⟨rfl, rfl, rfl, rfl⟩, rfl, rfl⟩
  · exact State.PortSide.refl s

/-! ## Releases, the drain rule, slots -/

theorem Port.setTierCursor_kc (q : Port) (t : Tier) (src : SourceIx) : (q.setTierCursor t src).kc = q.kc := by
  cases t <;> rfl

theorem Port.setTierCursor_kf (q : Port) (t : Tier) (src : SourceIx) : (q.setTierCursor t src).kf = q.kf := by
  cases t <;> rfl

/-- A decision moves a cursor and nothing else. -/
theorem Port.decision_cases {q q' : Port} {src : SourceIx} {kind : SendKind} (h : q.decision = some (src, kind, q')) :
    (kind = .assured ∧ q.assuredChoice = some src ∧ q' = { q with assuredCursor := src }) ∨
    (kind = .surplus ∧ q.assuredChoice = none ∧ ∃ t, q.chainChoice = some (t, src) ∧ q' = q.setTierCursor t src) := by
  unfold Port.decision at h
  split at h
  · rename_i x hx
    simp only [Option.some.injEq, Prod.mk.injEq] at h
    obtain ⟨rfl, rfl, rfl⟩ := h
    exact Or.inl ⟨rfl, hx, rfl⟩
  · rename_i hx
    split at h
    · rename_i t x hc
      simp only [Option.some.injEq, Prod.mk.injEq] at h
      obtain ⟨rfl, rfl, rfl⟩ := h
      exact Or.inr ⟨rfl, hx, t, hc, rfl⟩
    · simp at h

theorem Port.fillSlot_kc (q : Port) (sl : Slot) : (q.fillSlot sl).kc = q.kc := by unfold Port.fillSlot; split <;> rfl

theorem Port.fillSlot_kf (q : Port) (sl : Slot) : (q.fillSlot sl).kf = q.kf := by unfold Port.fillSlot; split <;> rfl

/-- A release, as the choice it carries out. -/
theorem State.releaseOnce_cases {s t : State} {p : PortIx} (h : s.releaseOnce p = some t) :
    (s.port p).mayRelease = true ∧ ∃ (src : SourceIx) (kind : SendKind) (q' : Port) (e : Entry) (rest : List Entry),
      (s.port p).decision = some (src, kind, q') ∧ (s.lane p src).list = e :: rest ∧ t = s.carryOutRelease p src kind q' e := by
  unfold State.releaseOnce at h
  dsimp only at h
  split at h
  · rename_i hm
    refine ⟨hm, ?_⟩
    split at h
    · simp at h
    · rename_i src kind q' hd
      split at h
      · simp at h
      · rename_i e rest hl
        simp only [Option.some.injEq] at h
        exact ⟨src, kind, q', e, rest, hd, hl, h.symm⟩
  · simp at h

theorem Port.decision_kc {q q' : Port} {src : SourceIx} {kind : SendKind} (h : q.decision = some (src, kind, q')) :
    q'.kc = q.kc ∧ q'.kf = q.kf := by
  rcases Port.decision_cases h with ⟨_, _, rfl⟩ | ⟨_, _, t, _, rfl⟩
  · exact ⟨rfl, rfl⟩
  · exact ⟨Port.setTierCursor_kc _ _ _, Port.setTierCursor_kf _ _ _⟩

theorem State.portSide_releaseOnce {t : State} (p : PortIx) (h : s.releaseOnce p = some t) : s.PortSide t := by
  obtain ⟨_, src, kind, q', e, rest, hd, _, rfl⟩ := State.releaseOnce_cases h
  have hk := Port.decision_kc hd
  unfold State.carryOutRelease
  refine State.PortSide.trans (State.PortSide.trans (State.PortSide.trans (State.portSide_setPort s p _ ?_ ?_)
    (State.portSide_setFree _ _)) (State.portSide_handOver _ _)) (State.portSide_offer _ _)
  · simp only [Port.release, Port.setLane_kc, Port.fillSlot_kc]; exact hk.1
  · simp only [Port.release, Port.setLane_kf, Port.fillSlot_kf]; exact hk.2

/-- A relation that each release keeps is kept by the test of the release condition. -/
theorem State.releaseTest_induct (p : PortIx) (R : State → State → Prop) (refl : ∀ s, R s s)
    (trans : ∀ s t u, R s t → R t u → R s u) (once : ∀ s t, s.releaseOnce p = some t → R s t) : R s (s.releaseTest p) := by
  unfold State.releaseTest
  split
  · exact refl s
  · rename_i s1 h1
    split
    · exact once _ _ h1
    · rename_i s2 h2
      exact trans _ _ _ (once _ _ h1) (once _ _ h2)

theorem State.portSide_releaseTest (p : PortIx) : s.PortSide (s.releaseTest p) :=
  s.releaseTest_induct p State.PortSide State.PortSide.refl (fun _ _ _ => State.PortSide.trans)
    (fun s _ h => s.portSide_releaseOnce p h)

theorem State.portSide_drain (p : PortIx) : s.PortSide (s.drain p) :=
  s.portSide_updPort p _ (fun q => by unfold Port.drainRule; split <;> rfl) (fun q => by unfold Port.drainRule; split <;> rfl)

theorem State.portSide_testAndDrain (p : PortIx) : s.PortSide (s.testAndDrain p) :=
  (s.portSide_releaseTest p).trans (State.portSide_drain _ p)

theorem State.portSide_setRetests (ps : List PortIx) : s.PortSide (s.setRetests ps) :=
  ⟨⟨rfl, rfl, rfl, rfl, rfl, fun _ => rfl, rfl⟩, ⟨rfl, rfl, rfl, fun _ => rfl, fun _ => rfl⟩, ⟨rfl, rfl, rfl, rfl⟩, rfl, rfl⟩

/-- A relation that each release, the drain rule and a note of what is owed keep is kept by the end of an event, whether its
second decision is made at once or left for later. -/
theorem State.endEvent_induct (p : PortIx) (later : Bool) (R : State → State → Prop) (refl : ∀ s, R s s)
    (trans : ∀ s t u, R s t → R t u → R s u) (once : ∀ s t, s.releaseOnce p = some t → R s t)
    (owe : ∀ (s : State) (ps : List PortIx), R s (s.setRetests ps)) (drain : ∀ s : State, R s (s.drain p)) :
    R s (s.endEvent p later) := by
  unfold State.endEvent
  split
  · refine trans _ _ _ ?_ (drain _)
    unfold State.firstDecision
    split
    · exact refl s
    · rename_i t ht
      exact trans _ _ _ (once _ _ ht) (owe _ _)
  · exact trans _ _ _ (s.releaseTest_induct p R refl trans once) (drain _)

/-- The end of an event whose second decision is made at once. -/
@[simp] theorem State.endEvent_false (p : PortIx) : s.endEvent p false = s.testAndDrain p := rfl

theorem State.portSide_endEvent (p : PortIx) (later : Bool) : s.PortSide (s.endEvent p later) :=
  s.endEvent_induct p later State.PortSide State.PortSide.refl (fun _ _ _ => State.PortSide.trans)
    (fun s _ h => s.portSide_releaseOnce p h) (fun s ps => s.portSide_setRetests ps) (fun s => s.portSide_drain p)

theorem State.portSide_idle : s.PortSide s.idle := by
  unfold State.idle
  split
  · exact State.PortSide.refl s
  · exact (s.portSide_setRetests _).trans (State.portSide_testAndDrain _ _)

theorem State.portSide_takeDone (p : PortIx) (tag : Byte) (later : Bool) : s.PortSide (s.takeDone p tag later) := by
  unfold State.takeDone
  dsimp only
  split
  · exact (s.portSide_updPort p _ (by intro; rfl) (by intro; rfl)).trans (State.portSide_endEvent _ p later)
  · split
    · exact ((s.portSide_updPort p _ (by intro; rfl) (by intro; rfl)).trans (State.portSide_updPortTally _ p _)).trans
        (State.portSide_endEvent _ p later)
    · exact s.portSide_updPortTally p _

theorem State.portSide_expireOlder (p : PortIx) (sl : Slot) : s.PortSide (s.expireOlder p sl) :=
  ((s.portSide_updPort p _ (by intro; rfl) (by intro; rfl)).trans (State.portSide_updPortTally _ p _)).trans
    (State.portSide_offer _ _)

theorem State.portSide_expireYounger (p : PortIx) (sl : Slot) : s.PortSide (s.expireYounger p sl) :=
  ((s.portSide_updPort p _ (by intro; rfl) (by intro; rfl)).trans (State.portSide_updPortTally _ p _)).trans
    (State.portSide_offer _ _)

theorem State.portSide_expireOlderIf (p : PortIx) : s.PortSide (s.expireOlderIf p) := by
  unfold State.expireOlderIf
  split
  · exact State.PortSide.refl s
  · split
    · exact s.portSide_expireOlder p _
    · exact State.PortSide.refl s

theorem State.portSide_expireYoungerIf (p : PortIx) : s.PortSide (s.expireYoungerIf p) := by
  unfold State.expireYoungerIf
  split
  · exact State.PortSide.refl s
  · split
    · exact s.portSide_expireYounger p _
    · exact State.PortSide.refl s

theorem State.portSide_expireSlots (p : PortIx) : s.PortSide (s.expireSlots p) := by
  unfold State.expireSlots
  split
  · exact s.portSide_expireYoungerIf p
  · split
    · exact (s.portSide_expireOlder p _).trans (State.portSide_expireOlderIf _ p)
    · exact s.portSide_expireYoungerIf p

/-! ## Arrivals -/

theorem State.portSide_accept (p : PortIx) (src : SourceIx) (len : BitVec 14) (h : BitVec 16) :
    s.PortSide (s.accept p src len h) :=
  (((s.portSide_updLane p src _).trans (State.portSide_handOver _ _)).trans (State.portSide_setFree _ _)).trans
    (State.portSide_latchIf _ _ _ (by decide))

theorem State.portSide_refuse (p : PortIx) (src : SourceIx) (len : BitVec 14) (h : BitVec 16) (r : RefusalReason) :
    s.PortSide (s.refuse p src len h r) :=
  ((s.portSide_handOver _).trans (State.portSide_updLane _ p src _)).trans (State.portSide_offer _ _)

theorem State.portSide_takeArrival (p : PortIx) (src : SourceIx) (len : BitVec 14) (h : BitVec 16) (later : Bool) :
    s.PortSide (s.takeArrival p src len h later) := by
  unfold State.takeArrival
  split
  · exact s.portSide_refuse p src len h _
  · split
    · exact (s.portSide_accept p src len h).trans (State.portSide_endEvent _ p later)
    · exact s.portSide_accept p src len h

/-! ## Flow and the round expiry -/

theorem State.portSide_takeHold (p : PortIx) : s.PortSide (s.takeHold p) := by
  unfold State.takeHold
  refine State.PortSide.trans (State.PortSide.trans ?_ (State.portSide_updPort _ p _ (by intro; rfl) (by intro; rfl)))
    (State.portSide_latchIf _ _ _ (by decide))
  split
  · exact (s.portSide_updPort p _ (by intro; rfl) (by intro; rfl)).trans (State.portSide_offer _ _)
  · exact State.PortSide.refl s

theorem Port.startTimer_kc (q : Port) : q.startTimer.kc = q.kc := rfl

theorem State.portSide_startTimer (p : PortIx) : s.PortSide (s.updPort p Port.startTimer) :=
  s.portSide_updPort p _ (by intro; rfl) (by intro; rfl)

theorem State.portSide_takeResume (p : PortIx) (later : Bool) : s.PortSide (s.takeResume p later) := by
  have hw := (s.portSide_updPort p (fun q => { q with watchLatch := { q.watchLatch with resume := true } })
    (by intro; rfl) (by intro; rfl)).trans (State.portSide_latchIf _ (watchesResume (s.port p).watchMode) attnPortWatch (by decide))
  unfold State.takeResume
  dsimp only
  split
  · exact hw
  · refine ((hw.trans (State.portSide_updPort _ p _ ?_ ?_)).trans (State.portSide_offer _ _)).trans
      (State.portSide_endEvent _ p later)
    · intro q; unfold Port.resumeFlow; dsimp only; split <;> rfl
    · intro q; unfold Port.resumeFlow; dsimp only; split <;> rfl

theorem State.portSide_stallPort (p : PortIx) : s.PortSide (s.stallPort p) :=
  ((s.portSide_updPort p _ (by intro; rfl) (by intro; rfl)).trans (State.portSide_latch _ _ (by decide))).trans
    (State.portSide_offer _ _)

theorem State.portSide_holdWork (p : PortIx) : s.PortSide (s.holdWork p) := by
  unfold State.holdWork
  split
  · dsimp only
    have h := s.portSide_updPort p Port.ageHold (by intro; rfl) (by intro; rfl)
    split
    · exact h.trans (State.portSide_stallPort _ p)
    · exact h
  · exact State.PortSide.refl s

theorem State.portSide_expiryCredit (p : PortIx) : s.PortSide (s.expiryCredit p) :=
  ((s.portSide_refreshIf p).trans (State.portSide_updPort _ p _ (by intro; simp [Port.creditWork])
    (by intro; simp [Port.creditWork]))).trans (State.portSide_updPort _ p _ (by intro; rfl) (by intro; rfl))

theorem State.portSide_roundExpiry (p : PortIx) : s.PortSide (s.roundExpiry p) := by
  unfold State.roundExpiry
  split
  · exact State.PortSide.refl s
  · exact ((((s.portSide_expiryCredit p).trans (State.portSide_expireSlots _ p)).trans (State.portSide_holdWork _ p)).trans
      (State.portSide_startTimer _ p)).trans (State.portSide_testAndDrain _ p)

/-! ## PORT actions but SET -/

theorem State.portSide_openPort (p : PortIx) : s.PortSide (s.openPort p) :=
  (((s.portSide_updPort p _ (by intro; rfl) (by intro; rfl)).trans (State.portSide_refreshIf _ p)).trans
    (State.portSide_startTimer _ p)).trans (State.portSide_testAndDrain _ p)

theorem State.portSide_clearPort (p : PortIx) : s.PortSide (s.clearPort p) :=
  (s.portSide_purge p _ true).trans (State.portSide_updPort _ p _ (by intro; simp [Port.clear])
    (by intro; simp [Port.clear]))

theorem State.portSide_portOpenAction (p : PortIx) : s.PortSide (s.portOpenAction p).1 := by
  unfold State.portOpenAction
  split
  · exact s.portSide_openPort p
  · exact s.portSide_updPort p (fun q => { q with state := .opened }) (fun _ => rfl) (fun _ => rfl)
  · exact State.PortSide.refl s
  · exact s.portSide_openPort p

theorem State.portSide_portCloseAction (p : PortIx) : s.PortSide (s.portCloseAction p).1 := by
  unfold State.portCloseAction
  split
  · exact State.PortSide.refl s
  · exact State.PortSide.refl s
  · exact (s.portSide_updPort p _ (by intro; rfl) (by intro; rfl)).trans (State.portSide_drain _ p)
  · exact State.PortSide.refl s

theorem State.portSide_portClearAction (p : PortIx) : s.PortSide (s.portClearAction p).1 := by
  unfold State.portClearAction
  split
  · exact s.portSide_clearPort p
  · exact s.portSide_clearPort p
  · exact State.PortSide.refl s
  · exact State.PortSide.refl s

theorem State.portSide_portRetireAction (p : PortIx) (x : Option PortIx) : s.PortSide (s.portRetireAction p x).1 := by
  unfold State.portRetireAction
  repeat' split
  all_goals first
    | exact State.PortSide.refl s
    | exact s.portSide_updPort p (fun q => { q with state := .retired _ }) (fun _ => rfl) (fun _ => rfl)

/-! ## Delivery -/

/-- A message taken by its owner leaves what a port's events leave; a bad message too. -/
theorem State.portSide_deliver (m : Inbound) : s.PortSide (s.deliver m) := by
  cases m with
  | arrival p src len h later => exact s.portSide_takeArrival p src len h later
  | done p tag later => exact s.portSide_takeDone p tag later
  | hold p => exact s.portSide_takeHold p
  | resume p later => exact s.portSide_takeResume p later
  | clock m => exact s.portSide_takeClock m
  | bad =>
    refine State.PortSide.trans (t := { s with badCount := satAdd s.badCount 1 }) ?_ (State.portSide_latch _ _ (by decide))
    exact ⟨⟨rfl, rfl, rfl, rfl, rfl, fun _ => rfl, rfl⟩, ⟨rfl, rfl, rfl, fun _ => rfl, fun _ => rfl⟩, ⟨rfl, rfl, rfl, rfl⟩, rfl, rfl⟩

end

end Sys2Proof.Machine
end

