-- ==== Sys2Proof/Laws/Purge.lean ====
section
/-! SUPPORT. Purges and refreshes: what each leaves in the port, its lanes, the pool and the queues. -/

namespace Sys2Proof.Machine

variable (s : State)

/-- Two ports with the same lanes have the same lane at every source. -/
theorem Port.lane_congr {q q' : Port} (h : q'.lanes = q.lanes) (src : SourceIx) : q'.lane src = q.lane src := by
  simp only [Port.lane, h]

/-- A choice by a negated test. -/
theorem ite_bnot {α : Type} (b : Bool) (x y : α) : (if (!b) = true then x else y) = if b = true then y else x := by
  cases b <;> rfl

/-! ## Purges -/

/-- The ports after a purge. -/
theorem State.purge_port (p p' : PortIx) (sel : SourceIx → Bool) (tell : Bool) :
    (s.purge p sel tell).port p' =
      if p' = p then
        { (s.port p).mapLanes (fun src l => if sel src then { l with list := [] } else l) with
          tally := { (s.port p).tally with
            discards := satAdd (s.port p).tally.discards (s.entriesOn p (s.purgeVictims p sel)) } }
      else s.port p' := by
  unfold State.purge
  cases tell <;> simp only [State.offer_port, State.setFree_port, State.updPort_port, State.handOver_port, if_true,
    Bool.false_eq_true, if_false]

/-- A lane of the port after a purge. -/
theorem State.purge_lane (p : PortIx) (src : SourceIx) (sel : SourceIx → Bool) (tell : Bool) :
    (s.purge p sel tell).lane p src = if sel src then { s.lane p src with list := [] } else s.lane p src := by
  simp only [State.lane, State.purge_port, if_true]
  simp [Port.lane, Port.mapLanes]

theorem State.purge_freeCount (p : PortIx) (sel : SourceIx → Bool) (tell : Bool) :
    (s.purge p sel tell).freeCount = s.freeCount + s.entriesOn p (s.purgeVictims p sel) := by
  unfold State.purge; rfl

theorem State.purge_poolBelow (p : PortIx) (sel : SourceIx → Bool) (tell : Bool) :
    (s.purge p sel tell).poolBelow =
      decide (s.freeCount + s.entriesOn p (s.purgeVictims p sel) < s.warning.toNat) := by
  unfold State.purge
  cases tell <;> simp only [State.offer_poolBelow, State.setFree_poolBelow] <;> rw [decide_eq_decide] <;> simp

theorem State.purge_outQueue (p : PortIx) (sel : SourceIx → Bool) (tell : Bool) :
    (s.purge p sel tell).outQueue =
      if s.linkUp && tell then s.outQueue ++ s.discardMessages p (s.purgeVictims p sel) else s.outQueue := by
  unfold State.purge
  cases tell
  · simp
  · simp only [if_true, Bool.and_true, State.offer_outQueue, State.setFree_outQueue, State.updPort_outQueue]
    simp only [State.handOver]
    split <;> rfl

theorem State.purge_tre (p : PortIx) (sel : SourceIx → Bool) (tell : Bool) :
    (s.purge p sel tell).tre =
      { s.tre with offered := s.tre.offered ++ s.purgeRecords p (s.purgeVictims p sel) } := by
  unfold State.purge
  cases tell <;> simp

/-- A purge of lanes that hold nothing selects no victims. -/
theorem State.purgeVictims_nil (p : PortIx) (sel : SourceIx → Bool)
    (h : ∀ src : SourceIx, sel src = true → (s.lane p src).list = []) : s.purgeVictims p sel = [] := by
  simp only [State.purgeVictims, List.filter_eq_nil_iff]
  intro src _ hc
  simp only [Bool.and_eq_true, Bool.not_eq_eq_eq_not, Bool.not_true] at hc
  simp [h src hc.1] at hc

/-- A sum over the members of a list that a test selects, where those not selected count nothing. -/
theorem sum_filter_eq {α : Type} (l : List α) (c : α → Bool) (f : α → Nat) (h : ∀ x ∈ l, c x = false → f x = 0) :
    ((l.filter c).map f).sum = (l.map f).sum := by
  induction l with
  | nil => rfl
  | cons x rest ih =>
    have ih' := ih fun y hy => h y (List.mem_cons_of_mem x hy)
    by_cases hx : c x = true
    · simp [hx, ih']
    · have := h x List.mem_cons_self (by simpa using hx)
      simp [hx, ih', this]

/-- The victims of a purge of every lane hold the whole list total. -/
theorem State.entriesOn_all (p : PortIx) :
    s.entriesOn p (s.purgeVictims p fun _ => true) = (s.port p).listTotal := by
  simp only [State.entriesOn, State.purgeVictims, Port.listTotal, Bool.true_and]
  apply sum_filter_eq
  intro src _ h
  simpa using h

/-! ## Refreshes -/

theorem State.replaceEntries_port (p p' : PortIx) :
    (s.replaceEntries p).port p' =
      if p' = p then (s.port p).mapLanes fun src l => l.refresh (s.derived (s.port p).selected p src) else s.port p' := by
  simp [State.replaceEntries]

theorem State.switchProfile_port (p p' : PortIx) :
    (s.switchProfile p).port p' = if p' = p then { s.port p with applied := (s.port p).selected } else s.port p' := by
  unfold State.switchProfile
  dsimp only
  split <;> simp

theorem Lane.refresh_list (e : EffEntry) (l : Lane) : (l.refresh e).list = l.list := by
  unfold Lane.refresh; split <;> rfl

theorem Lane.refresh_entry (e : EffEntry) (l : Lane) : (l.refresh e).entry = e := by
  unfold Lane.refresh; split <;> rfl

/-- The lanes a refresh closes while they hold entries, in ascending order. -/
def State.closing (p : PortIx) : List SourceIx :=
  allSources.filter fun x => !(s.derived (s.port p).selected p x).isOpen && !(s.lane p x).list.isEmpty

/-- The number of entries a refresh discards. -/
def State.closingCount (p : PortIx) : Nat := ((s.closing p).map fun x => (s.lane p x).list.length).sum

/-- The state a refresh purges: the entries and the applied profile are replaced. -/
def State.refreshed (p : PortIx) : State := (s.replaceEntries p).switchProfile p

theorem State.refreshed_port (p p' : PortIx) :
    (s.refreshed p).port p' =
      if p' = p then
        { (s.port p).mapLanes (fun src l => l.refresh (s.derived (s.port p).selected p src)) with
          applied := (s.port p).selected }
      else s.port p' := by
  simp only [State.refreshed, State.switchProfile_port, State.replaceEntries_port, if_true]
  split <;> simp

theorem State.refreshed_lane (p : PortIx) (src : SourceIx) :
    (s.refreshed p).lane p src = (s.lane p src).refresh (s.derived (s.port p).selected p src) := by
  simp only [State.lane, State.refreshed_port, if_true]
  simp [Port.lane, Port.mapLanes]

theorem State.refreshed_victims (p : PortIx) :
    (s.refreshed p).purgeVictims p ((s.refreshed p).closedLane p) = s.closing p := by
  simp only [State.purgeVictims, State.closing, State.closedLane, State.refreshed_lane, Lane.refresh_list,
    Lane.refresh_entry]

theorem State.refreshed_entriesOn (p : PortIx) (xs : List SourceIx) :
    (s.refreshed p).entriesOn p xs = (xs.map fun x => (s.lane p x).list.length).sum := by
  simp only [State.entriesOn, State.refreshed_lane, Lane.refresh_list]

theorem State.refresh_def (p : PortIx) :
    s.refresh p = (((s.refreshed p).purge p ((s.refreshed p).closedLane p) true).updPort p
      fun q => { q with refreshFlag := false }) := rfl

/-- The fields of the state that `refreshed` leaves or changes. -/
theorem State.refreshed_tre (p : PortIx) :
    (s.refreshed p).tre = { s.tre with offered := s.tre.offered ++
      if (s.port p).selected = (s.port p).applied then [] else
        [⟨.switch, p, 0, BitVec.ofNat 8 (s.port p).selected.val, 0, (s.port p).roundCount, s.minute⟩] } := by
  have h : (s.replaceEntries p).port p =
      (s.port p).mapLanes fun src l => l.refresh (s.derived (s.port p).selected p src) := by
    rw [State.replaceEntries_port, if_pos rfl]
  unfold State.refreshed State.switchProfile
  simp only [h, Port.mapLanes_selected, Port.mapLanes_applied, State.stamp, Port.mapLanes_roundCount]
  split
  · simp [State.replaceEntries]
  · simp [State.replaceEntries]

theorem State.refreshed_frame (p : PortIx) :
    s.refreshed p = { s with ports := (s.refreshed p).ports, tre := (s.refreshed p).tre } := by
  unfold State.refreshed State.switchProfile
  dsimp only
  split <;> apply State.eq_of_fields <;> rfl

/-- The port after a refresh (R109). -/
theorem State.refresh_port (p p' : PortIx) :
    (s.refresh p).port p' =
      if p' = p then
        { (s.port p).mapLanes (fun src l =>
            if (s.derived (s.port p).selected p src).isOpen then l.refresh (s.derived (s.port p).selected p src)
            else { l.refresh (s.derived (s.port p).selected p src) with list := [] }) with
          applied := (s.port p).selected
          refreshFlag := false
          tally := { (s.port p).tally with discards := satAdd (s.port p).tally.discards (s.closingCount p) } }
      else s.port p' := by
  rw [State.refresh_def]
  simp only [State.updPort_port, State.purge_port, if_true]
  split
  · rw [State.refreshed_victims, State.refreshed_entriesOn]
    simp only [State.refreshed_port, if_true, State.closingCount]
    have hc : ∀ src, (s.refreshed p).closedLane p src = !(s.derived (s.port p).selected p src).isOpen := by
      intro src
      simp only [State.closedLane, State.refreshed_lane, Lane.refresh_entry]
    apply Port.eq_of_fields
    · apply Port.lanes_ext
      intro src
      simp only [Port.lane, Port.mapLanes, Fin.getElem_fin, Vector.getElem_ofFn, Fin.eta, hc, ite_bnot]
    all_goals simp
  · rename_i h; rw [State.refreshed_port, if_neg h]

/-- A lane of the port after a refresh. -/
theorem State.refresh_lane (p : PortIx) (src : SourceIx) :
    (s.refresh p).lane p src =
      if (s.derived (s.port p).selected p src).isOpen then (s.lane p src).refresh (s.derived (s.port p).selected p src)
      else { (s.lane p src).refresh (s.derived (s.port p).selected p src) with list := [] } := by
  simp only [State.lane, State.refresh_port, if_true]
  simp [Port.lane, Port.mapLanes]

theorem State.refresh_freeCount (p : PortIx) : (s.refresh p).freeCount = s.freeCount + s.closingCount p := by
  rw [State.refresh_def, State.updPort_freeCount, State.purge_freeCount, State.refreshed_victims,
    State.refreshed_entriesOn, State.refreshed_frame]
  rfl

theorem State.refresh_poolBelow (p : PortIx) :
    (s.refresh p).poolBelow = decide (s.freeCount + s.closingCount p < s.warning.toNat) := by
  rw [State.refresh_def, State.updPort_poolBelow, State.purge_poolBelow, State.refreshed_victims,
    State.refreshed_entriesOn, State.refreshed_frame]
  rfl

theorem State.refresh_outQueue (p : PortIx) :
    (s.refresh p).outQueue =
      if s.linkUp then
        s.outQueue ++ (s.closing p).flatMap fun x => (s.lane p x).list.map fun e => Message.ofDiscard p x e.handle
      else s.outQueue := by
  rw [State.refresh_def, State.updPort_outQueue, State.purge_outQueue, State.refreshed_victims]
  simp only [State.discardMessages, State.refreshed_lane, Lane.refresh_list]
  rw [State.refreshed_frame]
  simp only [Bool.and_true]

theorem State.refresh_tre (p : PortIx) :
    (s.refresh p).tre = { s.tre with offered := s.tre.offered ++
      ((if (s.port p).selected = (s.port p).applied then [] else
        [⟨.switch, p, 0, BitVec.ofNat 8 (s.port p).selected.val, 0, (s.port p).roundCount, s.minute⟩]) ++
      (s.closing p).map fun x =>
        ⟨.purge, p, x, 0, BitVec.ofNat 16 (s.lane p x).list.length, (s.port p).roundCount, s.minute⟩) } := by
  rw [State.refresh_def, State.updPort_tre, State.purge_tre, State.refreshed_victims, State.refreshed_tre]
  have h : (s.refreshed p).purgeRecords p (s.closing p) = (s.closing p).map fun x =>
      ⟨.purge, p, x, 0, BitVec.ofNat 16 (s.lane p x).list.length, (s.port p).roundCount, s.minute⟩ := by
    simp only [State.purgeRecords, State.stamp, State.refreshed_lane, Lane.refresh_list, State.refreshed_port, if_true,
      Port.mapLanes_roundCount]
    rw [State.refreshed_frame]
  rw [h, List.append_assoc]

/-- Everything a refresh leaves. -/
theorem State.refresh_frame (p : PortIx) :
    s.refresh p = { s with
      ports := (s.refresh p).ports
      freeCount := (s.refresh p).freeCount
      poolBelow := (s.refresh p).poolBelow
      outQueue := (s.refresh p).outQueue
      tre := (s.refresh p).tre } := by
  apply State.eq_of_fields <;> first | rfl | skip
  all_goals
    rw [State.refresh_def]
    simp only [State.updPort_reserve, State.updPort_warning, State.updPort_banks, State.updPort_windows,
      State.updPort_pins, State.updPort_minute, State.updPort_clockValid, State.updPort_linkReady, State.updPort_linkUp,
      State.updPort_inPartial, State.updPort_inWaiting, State.updPort_badCount, State.updPort_channels,
      State.updPort_executor, State.updPort_attn, State.updPort_attnMask, State.updPort_cardMem, State.updPort_freeCtr, State.updPort_retests,
      State.updPort_pending, State.purge_reserve, State.purge_warning, State.purge_banks, State.purge_windows,
      State.purge_pins, State.purge_minute, State.purge_clockValid, State.purge_linkReady, State.purge_linkUp,
      State.purge_inPartial, State.purge_inWaiting, State.purge_badCount, State.purge_channels, State.purge_executor,
      State.purge_attn, State.purge_attnMask, State.purge_cardMem, State.purge_freeCtr, State.purge_retests, State.purge_pending]
    rw [State.refreshed_frame]

end Sys2Proof.Machine
end

