-- ==== Sys2Proof/Laws/Release.lean ====
section
/-! SUPPORT. Releases: the state after one, the order in which lanes are met, the choices of the two passes, and when the test of
the release condition and the drain rule do nothing. -/

namespace Sys2Proof.Machine

/-! ## One release -/

/-- A port whose decision moved a cursor has the lanes and slots it had. -/
theorem Port.decision_port {q q' : Port} {src : SourceIx} {kind : SendKind} (h : q.decision = some (src, kind, q')) :
    q'.lanes = q.lanes ∧ q'.older = q.older ∧ q'.younger = q.younger ∧ q'.nextTag = q.nextTag ∧ q'.tally = q.tally ∧
    q'.state = q.state ∧ q'.flow = q.flow ∧ q'.timer = q.timer ∧ q'.roundLength = q.roundLength ∧
    q'.roundCount = q.roundCount := by
  rcases Port.decision_cases h with ⟨_, _, rfl⟩ | ⟨_, _, t, _, rfl⟩
  · exact ⟨rfl, rfl, rfl, rfl, rfl, rfl, rfl, rfl, rfl, rfl⟩
  · cases t <;> exact ⟨rfl, rfl, rfl, rfl, rfl, rfl, rfl, rfl, rfl, rfl⟩

theorem Port.fillSlot_eq (q : Port) (sl : Slot) :
    q.fillSlot sl = { q with
      older := if q.older = none then some sl else q.older
      younger := if q.older = none then q.younger else some sl } := by
  unfold Port.fillSlot
  split
  · rename_i h; rw [if_pos h, if_pos h]
  · rename_i x h; simp only [h, reduceCtorEq, if_false]

/-- The port after a release. -/
theorem Port.release_eq (q : Port) (src : SourceIx) (kind : SendKind) (e : Entry) :
    q.release src kind e = { q with
      lanes := q.lanes.set src ((q.lane src).send kind e.len)
      older := if q.older = none then some ⟨src, e.handle, e.len, kind, q.nextTag, 0⟩ else q.older
      younger := if q.older = none then q.younger else some ⟨src, e.handle, e.len, kind, q.nextTag, 0⟩
      nextTag := q.nextTag + 1
      tally := { q.tally with releases := satAdd q.tally.releases 1 } } := by
  simp only [Port.release, Port.fillSlot_eq, Port.setLane]

/-- A lane of the port after a release. -/
theorem Port.release_lane (q : Port) (src x : SourceIx) (kind : SendKind) (e : Entry) :
    (q.release src kind e).lane x = if x = src then (q.lane src).send kind e.len else q.lane x := by
  have h := Port.setLane_lane q src x ((q.lane src).send kind e.len)
  rw [← h, Port.release_eq]
  rfl

/-- A lane after a send. -/
theorem Lane.send_eq (l : Lane) (kind : SendKind) (len : BitVec 14) :
    l.send kind len = { l with
      list := l.list.tail
      balance := if kind = .assured then l.balance - (frameSize len : Int) else l.balance
      tally := { l.tally with
        framesReleased := satAdd l.tally.framesReleased 1
        assuredBytes := if kind = .assured then satAdd l.tally.assuredBytes len.toNat else l.tally.assuredBytes
        surplusBytes := if kind = .assured then l.tally.surplusBytes else satAdd l.tally.surplusBytes len.toNat } } := by
  cases kind <;> simp only [Lane.send, if_true, reduceCtorEq, if_false]

variable (s : State)

theorem State.carryOutRelease_port (p p' : PortIx) (src : SourceIx) (kind : SendKind) (q : Port) (e : Entry) :
    (s.carryOutRelease p src kind q e).port p' = if p' = p then q.release src kind e else s.port p' := by
  simp [State.carryOutRelease]

theorem State.carryOutRelease_freeCount (p : PortIx) (src : SourceIx) (kind : SendKind) (q : Port) (e : Entry) :
    (s.carryOutRelease p src kind q e).freeCount = s.freeCount + 1 := by
  simp [State.carryOutRelease]

/-- What a release leaves, and what it adds to the queue and to the records on their way. -/
theorem State.carryOutRelease_frame (p : PortIx) (src : SourceIx) (kind : SendKind) (q : Port) (e : Entry) :
    s.carryOutRelease p src kind q e = { s with
      ports := (s.carryOutRelease p src kind q e).ports
      freeCount := s.freeCount + 1
      poolBelow := decide (s.freeCount + 1 < s.warning.toNat)
      outQueue := if s.linkUp then s.outQueue ++ [Message.ofRelease p src e.handle q.nextTag e.len] else s.outQueue
      tre := { s.tre with offered := s.tre.offered ++ [⟨releaseKind kind, p, src, q.nextTag, e.len.setWidth 16,
        (s.port p).roundCount, s.minute⟩] } } := by
  unfold State.carryOutRelease State.handOver
  have h : ((s.setPort p (q.release src kind e)).setFree (s.freeCount + 1)).linkUp = s.linkUp := rfl
  rw [h]
  split <;> rfl

/-! ## Circular order -/

/-- The place of a source in ascending circular order after a cursor. -/
def circularPlace (c x : SourceIx) : Nat := (x.val + 63 - c.val) % 64

theorem circularPlace_lt (c x : SourceIx) : circularPlace c x < 64 := Nat.mod_lt _ (by decide)

theorem circularAfter_length (c : SourceIx) : (circularAfter c).length = 64 := by simp [circularAfter]

theorem circularAfter_getElem (c : SourceIx) (i : Nat) (h : i < (circularAfter c).length) :
    (circularAfter c)[i] = Fin.ofNat 64 (c.val + 1 + i) := by
  simp [circularAfter]

/-- Every source is met, at its place. -/
theorem circularAfter_place (c x : SourceIx) :
    (circularAfter c)[circularPlace c x]'(by rw [circularAfter_length]; exact circularPlace_lt c x) = x := by
  rw [circularAfter_getElem]
  apply Fin.ext
  simp only [circularPlace, Fin.val_ofNat]
  omega

theorem circularPlace_getElem (c : SourceIx) (i : Nat) (h : i < (circularAfter c).length) :
    circularPlace c ((circularAfter c)[i]) = i := by
  rw [circularAfter_getElem]
  rw [circularAfter_length] at h
  simp only [circularPlace, Fin.val_ofNat]
  omega

/-- The first source met that passes a test is the one with the least place. -/
theorem find_circularAfter {c x : SourceIx} {t : SourceIx → Bool} (h : (circularAfter c).find? t = some x) :
    t x = true ∧ ∀ y : SourceIx, t y = true → circularPlace c x ≤ circularPlace c y := by
  rw [List.find?_eq_some_iff_getElem] at h
  obtain ⟨hx, i, hi, he, hb⟩ := h
  refine ⟨hx, fun y hy => ?_⟩
  by_contra hlt
  have hp : circularPlace c x = i := by rw [← he]; exact circularPlace_getElem c i hi
  have := hb (circularPlace c y) (by omega)
  rw [circularAfter_place] at this
  simp [hy] at this

theorem find_circularAfter_none {c : SourceIx} {t : SourceIx → Bool} :
    (circularAfter c).find? t = none ↔ ∀ y : SourceIx, t y = false := by
  rw [List.find?_eq_none]
  constructor
  · intro h y
    have hm : y ∈ circularAfter c := by
      rw [← circularAfter_place c y]; exact List.getElem_mem _
    simpa using h y hm
  · intro h y _
    simp [h y]

/-! ## The assured pass -/

/-- No assured choice exactly when no lane is assured-eligible. -/
theorem Port.assuredChoice_none (q : Port) :
    q.assuredChoice = none ↔ ∀ x : SourceIx, (q.lane x).assuredEligible = false := by
  simp only [Port.assuredChoice, urgencies, List.findSome?_eq_none_iff, find_circularAfter_none]
  constructor
  · intro h x
    have hu : (q.lane x).entry.urgency ∈ ([0, 1, 2, 3] : List (BitVec 2)) := by
      generalize (q.lane x).entry.urgency = u
      revert u; decide
    have := h _ hu x
    simpa using this
  · intro h u _ x
    simp [h x]

/-- The assured choice: eligible, of the least urgency value, and met first among its equals. -/
theorem Port.assuredChoice_some {q : Port} {src : SourceIx} (h : q.assuredChoice = some src) :
    (q.lane src).assuredEligible = true ∧ ∀ x : SourceIx, (q.lane x).assuredEligible = true →
      (q.lane src).entry.urgency ≤ (q.lane x).entry.urgency ∧
      ((q.lane x).entry.urgency = (q.lane src).entry.urgency →
        circularPlace q.assuredCursor src ≤ circularPlace q.assuredCursor x) := by
  simp only [Port.assuredChoice] at h
  rw [List.findSome?_eq_some_iff] at h
  obtain ⟨before, u, after, hl, hf, hn⟩ := h
  obtain ⟨hs, hmin⟩ := find_circularAfter hf
  simp only [Bool.and_eq_true, beq_iff_eq] at hs hmin
  refine ⟨hs.1, fun x hx => ⟨?_, fun he => hmin x ⟨hx, he.trans hs.2⟩⟩⟩
  rw [hs.2]
  by_contra hlt
  have hb : (q.lane x).entry.urgency ∈ before := by
    have hlt' : (q.lane x).entry.urgency < u := by
      simp only [BitVec.le_def, BitVec.lt_def] at hlt ⊢; omega
    clear hn hf hmin hs
    generalize (q.lane x).entry.urgency = v at hlt' ⊢
    match before, hl with
    | [], hl =>
      simp only [urgencies, List.nil_append, List.cons.injEq] at hl
      rw [← hl.1] at hlt'; exact absurd hlt' (by revert v; decide)
    | [a], hl =>
      simp only [urgencies, List.cons_append, List.nil_append, List.cons.injEq] at hl
      obtain ⟨rfl, rfl, _⟩ := hl
      revert v; decide
    | [a, b], hl =>
      simp only [urgencies, List.cons_append, List.nil_append, List.cons.injEq] at hl
      obtain ⟨rfl, rfl, rfl, _⟩ := hl
      revert v; decide
    | [a, b, d], hl =>
      simp only [urgencies, List.cons_append, List.nil_append, List.cons.injEq] at hl
      obtain ⟨rfl, rfl, rfl, rfl, _⟩ := hl
      revert v; decide
    | a :: b :: d :: e :: r, hl => simp [urgencies] at hl
  have := hn _ hb
  rw [find_circularAfter_none] at this
  have := this x
  simp [hx] at this

/-! ## The spare-grant chain -/

/-- No choice of the chain exactly when no lane is surplus-eligible. -/
theorem Port.chainChoice_none (q : Port) :
    q.chainChoice = none ↔ ∀ x : SourceIx, (q.lane x).surplusEligible = false := by
  simp only [Port.chainChoice, List.findSome?_eq_none_iff, Option.map_eq_none_iff, find_circularAfter_none]
  constructor
  · intro h x
    by_contra hc
    simp only [Bool.not_eq_false] at hc
    have ht : (q.lane x).entry.tier ∈ chainTiers := by
      simp only [Lane.surplusEligible, Bool.and_eq_true, bne_iff_ne, ne_eq] at hc
      cases ht : (q.lane x).entry.tier <;> simp_all [chainTiers]
    have := h _ ht x
    simp [hc] at this
  · intro h t _ x
    simp [h x]

/-- The chain's choice: eligible, of the first tier that has a candidate, and met first in it. -/
theorem Port.chainChoice_some {q : Port} {t : Tier} {src : SourceIx} (h : q.chainChoice = some (t, src)) :
    (q.lane src).surplusEligible = true ∧ (q.lane src).entry.tier = t ∧
    ∀ x : SourceIx, (q.lane x).surplusEligible = true →
      chainTiers.idxOf t < chainTiers.idxOf (q.lane x).entry.tier ∨
      ((q.lane x).entry.tier = t ∧ circularPlace (q.tierCursor t) src ≤ circularPlace (q.tierCursor t) x) := by
  simp only [Port.chainChoice] at h
  rw [List.findSome?_eq_some_iff] at h
  obtain ⟨before, t', after, hl, hf, hn⟩ := h
  simp only [Option.map_eq_some_iff, Prod.mk.injEq] at hf
  obtain ⟨x', hf, rfl, rfl⟩ := hf
  obtain ⟨hs, hmin⟩ := find_circularAfter hf
  simp only [Bool.and_eq_true, beq_iff_eq] at hs hmin
  refine ⟨hs.1, hs.2, fun x hx => ?_⟩
  by_cases he : (q.lane x).entry.tier = t'
  · exact Or.inr ⟨he, hmin x ⟨hx, he⟩⟩
  · left
    have hnb : (q.lane x).entry.tier ∉ before := by
      intro hb
      have := hn _ hb
      simp only [Option.map_eq_none_iff] at this
      rw [find_circularAfter_none] at this
      have := this x
      simp [hx] at this
    have hnn : (q.lane x).entry.tier ≠ .none := by
      simp only [Lane.surplusEligible, Bool.and_eq_true, bne_iff_ne, ne_eq] at hx
      exact hx.2.2
    clear hn hf hmin hs hx
    generalize (q.lane x).entry.tier = v at he hnb hnn ⊢
    match before, hl with
    | [], hl =>
      simp only [chainTiers, List.nil_append, List.cons.injEq] at hl
      obtain ⟨rfl, _⟩ := hl
      cases v <;> first | (exact absurd rfl ‹_›) | decide
    | [a], hl =>
      simp only [chainTiers, List.cons_append, List.nil_append, List.cons.injEq] at hl
      obtain ⟨rfl, rfl, _⟩ := hl
      cases v <;> first | (exact absurd rfl ‹_›) | decide | simp_all
    | [a, b], hl =>
      simp only [chainTiers, List.cons_append, List.nil_append, List.cons.injEq] at hl
      obtain ⟨rfl, rfl, rfl, _⟩ := hl
      cases v <;> first | (exact absurd rfl ‹_›) | decide | simp_all
    | a :: b :: d :: r, hl => simp [chainTiers] at hl

/-- No decision exactly when no lane is eligible. -/
theorem Port.decision_none (q : Port) :
    q.decision = none ↔
      ∀ x : SourceIx, (q.lane x).assuredEligible = false ∧ (q.lane x).surplusEligible = false := by
  unfold Port.decision
  cases ha : q.assuredChoice with
  | some src =>
    simp only [reduceCtorEq, false_iff]
    intro h
    have := (Port.assuredChoice_some ha).1
    rw [(h src).1] at this
    simp at this
  | none =>
    rw [Port.assuredChoice_none] at ha
    cases hc : q.chainChoice with
    | some x =>
      obtain ⟨t, src⟩ := x
      simp only [reduceCtorEq, false_iff]
      intro h
      have := (Port.chainChoice_some hc).1
      rw [(h src).2] at this
      simp at this
    | none =>
      rw [Port.chainChoice_none] at hc
      simp only [true_iff]
      exact fun x => ⟨ha x, hc x⟩

/-- A lane that is eligible holds a frame. -/
theorem Lane.eligible_list {l : Lane} (h : l.assuredEligible = true ∨ l.surplusEligible = true) : l.list ≠ [] := by
  intro he
  simp [Lane.assuredEligible, Lane.headSize, Lane.surplusEligible, he] at h

/-- The lane decided on is eligible, so it holds a frame. -/
theorem Port.decision_list {q q' : Port} {src : SourceIx} {kind : SendKind} (h : q.decision = some (src, kind, q')) :
    (q.lane src).list ≠ [] := by
  apply Lane.eligible_list
  rcases Port.decision_cases h with ⟨_, ha, _⟩ | ⟨_, _, t, hc, _⟩
  · exact Or.inl (Port.assuredChoice_some ha).1
  · exact Or.inr (Port.chainChoice_some hc).1

/-! ## The test of the release condition -/

/-- A release is made exactly when the port may release and some lane is eligible. -/
theorem State.releaseOnce_isSome (p : PortIx) :
    (s.releaseOnce p).isSome = true ↔ (s.port p).mayRelease = true ∧
      ∃ x : SourceIx, (s.lane p x).assuredEligible = true ∨ (s.lane p x).surplusEligible = true := by
  unfold State.releaseOnce
  dsimp only
  by_cases hm : (s.port p).mayRelease = true
  · simp only [hm, if_true, true_and]
    cases hd : (s.port p).decision with
    | none =>
      rw [Port.decision_none] at hd
      simp only [Option.isSome_none, Bool.false_eq_true, false_iff, not_exists, not_or]
      intro x
      have := hd x
      simp only [State.lane]
      simp [this.1, this.2]
    | some y =>
      obtain ⟨src, kind, q'⟩ := y
      have hl := Port.decision_list hd
      have hne : ∃ x : SourceIx, (s.lane p x).assuredEligible = true ∨ (s.lane p x).surplusEligible = true := by
        by_contra hc
        have : (s.port p).decision = none := by
          rw [Port.decision_none]
          intro x
          simp only [not_exists, not_or, Bool.not_eq_true] at hc
          exact hc x
        rw [hd] at this
        simp at this
      cases he : ((s.port p).lane src).list with
      | nil => exact absurd he hl
      | cons e rest => simp [hne, he]
  · simp [hm]

/-- Where the port may not release, the test does nothing. -/
theorem State.releaseTest_of_not {p : PortIx} (h : (s.port p).mayRelease = false) : s.releaseTest p = s := by
  simp [State.releaseTest, State.releaseOnce, h]

/-- Where no release is made, the test does nothing. -/
theorem State.releaseTest_of_none {p : PortIx} (h : s.releaseOnce p = none) : s.releaseTest p = s := by
  simp [State.releaseTest, h]

/-- Where one release is made and no second, the test gives the state after the one. -/
theorem State.releaseTest_of_once {p : PortIx} {t : State} (h : s.releaseOnce p = some t) (h' : t.releaseOnce p = none) :
    s.releaseTest p = t := by
  simp [State.releaseTest, h, h']

/-- Without an eligible lane no release is made. -/
theorem State.releaseOnce_none_of {p : PortIx}
    (h : ∀ x : SourceIx, (s.lane p x).assuredEligible = false ∧ (s.lane p x).surplusEligible = false) :
    s.releaseOnce p = none := by
  have := s.releaseOnce_isSome p
  cases hr : s.releaseOnce p with
  | none => rfl
  | some t =>
    rw [hr] at this
    obtain ⟨_, x, hx⟩ := this.mp rfl
    simp [(h x).1, (h x).2] at hx

/-- Releases fill slots: after two, both are filled. -/
theorem Port.release_slots (q : Port) (src : SourceIx) (kind : SendKind) (e : Entry) :
    (q.release src kind e).older.isSome = true ∧
    (q.older.isSome = true → (q.release src kind e).younger.isSome = true) := by
  rw [Port.release_eq]
  dsimp only
  cases h : q.older <;> simp

/-- After the test no release can be made. -/
theorem State.releaseTest_exhausts (p : PortIx) : (s.releaseTest p).releaseOnce p = none := by
  unfold State.releaseTest
  split
  · assumption
  · rename_i s1 h1
    split
    · assumption
    · rename_i s2 h2
      obtain ⟨_, src1, kind1, q1, e1, rest1, hd1, _, rfl⟩ := State.releaseOnce_cases h1
      obtain ⟨_, src2, kind2, q2, e2, rest2, hd2, _, rfl⟩ := State.releaseOnce_cases h2
      have hp1 : ((s.carryOutRelease p src1 kind1 q1 e1).port p) = q1.release src1 kind1 e1 := by
        rw [State.carryOutRelease_port, if_pos rfl]
      rw [hp1] at hd2
      have ho := (Port.release_slots q1 src1 kind1 e1).1
      have ho2 : q2.older.isSome = true := by rw [(Port.decision_port hd2).2.1]; exact ho
      have hm : (((s.carryOutRelease p src1 kind1 q1 e1).carryOutRelease p src2 kind2 q2 e2).port p).mayRelease = false := by
        rw [State.carryOutRelease_port, if_pos rfl]
        have a := (Port.release_slots q2 src2 kind2 e2).1
        have b := (Port.release_slots q2 src2 kind2 e2).2 ho2
        simp only [Port.mayRelease]
        rw [Option.isNone_eq_false_iff.mpr a, Option.isNone_eq_false_iff.mpr b]
        simp
      unfold State.releaseOnce
      simp [hm]

/-! ## The drain rule -/

theorem Port.drainRule_of_not {q : Port} (h : q.drained = false) : q.drainRule = q := by simp [Port.drainRule, h]

theorem State.drain_of_not {p : PortIx} (h : (s.port p).drained = false) : s.drain p = s := by
  simp [State.drain, State.updPort, Port.drainRule_of_not h]

/-- Only a DRAINING port drains. -/
theorem Port.drained_state {q : Port} (h : q.state ≠ .draining) : q.drained = false := by
  have : (q.state == .draining) = false := by simpa using h
  simp [Port.drained, this]

theorem State.drain_of_state {p : PortIx} (h : (s.port p).state ≠ .draining) : s.drain p = s :=
  s.drain_of_not (Port.drained_state h)

/-- The list total is 0 exactly when every list is empty. -/
theorem Port.listTotal_zero (q : Port) : q.listTotal = 0 ↔ ∀ x : SourceIx, (q.lane x).list = [] := by
  simp only [Port.listTotal, List.sum_eq_zero_iff, List.mem_map, forall_exists_index, and_imp,
    forall_apply_eq_imp_iff₂, List.length_eq_zero_iff]
  constructor
  · intro h x; exact h x (List.mem_finRange x)
  · intro h x _; exact h x

/-- When a port is drained (R84). -/
theorem Port.drained_iff (q : Port) :
    q.drained = true ↔ q.state = .draining ∧ (∀ x : SourceIx, (q.lane x).list = []) ∧ q.older = none ∧ q.younger = none := by
  simp only [Port.drained, Bool.and_eq_true, beq_iff_eq, Port.listTotal_zero, Option.isNone_iff_eq_none]

/-- After the drain rule a port is not drained. -/
theorem Port.drainRule_drainOk (q : Port) : q.drainRule.drained = false := by
  unfold Port.drainRule
  by_cases h : q.drained = true
  · rw [if_pos h]; exact Port.drained_state (by simp)
  · rw [if_neg h]; simpa using h

/-- In a port that may release, no release is possible without an eligible lane; in the other cases the test is idle. -/
theorem State.testAndDrain_of_idle {p : PortIx} (h : (s.port p).mayRelease = false) (h' : (s.port p).state ≠ .draining) :
    s.testAndDrain p = s := by
  rw [State.testAndDrain, State.releaseTest_of_not s h, State.drain_of_state s h']

/-- A test of the release condition owes nothing: both its decisions are made (R48). -/
theorem State.releaseTest_retests (p : PortIx) : (s.releaseTest p).retests = s.retests := by
  have once : ∀ {s t : State}, s.releaseOnce p = some t → t.retests = s.retests := by
    intro s t h
    obtain ⟨_, src, kind, q', e, rest, _, _, rfl⟩ := State.releaseOnce_cases h
    rw [State.carryOutRelease_frame]
  unfold State.releaseTest
  split
  · rfl
  · rename_i t ht
    split
    · exact once ht
    · rename_i u hu; exact (once hu).trans (once ht)

@[simp] theorem State.testAndDrain_retests (p : PortIx) : (s.testAndDrain p).retests = s.retests := by
  unfold State.testAndDrain State.drain
  rw [State.updPort_retests, State.releaseTest_retests]

/-- A port whose flow is not FLOWING makes no release (R46). -/
theorem State.testAndDrain_of_flow {p : PortIx} (h : (s.port p).flow ≠ .flowing) : s.testAndDrain p = s.drain p := by
  have : ((s.port p).flow == .flowing) = false := beq_eq_false_iff_ne.mpr h
  rw [State.testAndDrain, State.releaseTest_of_not s (by simp [Port.mayRelease, this])]

/-! ## The end of an event -/

/-- The first decision alone, where no release is made. -/
theorem State.firstDecision_of_none {p : PortIx} (h : s.releaseOnce p = none) : s.firstDecision p = s := by
  simp [State.firstDecision, h]

/-- The first decision alone, where a release is made: the port owes the second. -/
theorem State.firstDecision_of_some {p : PortIx} {t : State} (h : s.releaseOnce p = some t) :
    s.firstDecision p = t.setRetests (t.retests ++ [p]) := by
  simp [State.firstDecision, h]

/-- Where no release is made, the second decision is not owed. -/
theorem State.endEvent_of_none {p : PortIx} (later : Bool) (h : s.releaseOnce p = none) :
    s.endEvent p later = s.drain p := by
  cases later
  · rw [State.endEvent_false, State.testAndDrain, State.releaseTest_of_none s h]
  · simp only [State.endEvent, if_true, State.firstDecision_of_none s h]

/-- At a port that may not release and is not DRAINING the end of an event does nothing. -/
theorem State.endEvent_of_idle {p : PortIx} (later : Bool) (h : (s.port p).mayRelease = false)
    (h' : (s.port p).state ≠ .draining) : s.endEvent p later = s := by
  rw [State.endEvent_of_none s later (by simp [State.releaseOnce, h]), State.drain_of_state s h']

/-! ## DONE -/

/-- A tag that no occupied slot of a place holds. -/
theorem slotHasTag_false {o : Option Slot} {tag : Byte} (h : ∀ a : Slot, o = some a → a.tag ≠ tag) :
    slotHasTag o tag = false := by
  cases o with
  | none => rfl
  | some a => simpa [slotHasTag] using h a rfl

/-- DONE of the older slot (R65). -/
theorem State.takeDone_older {p : PortIx} {tag : Byte} {later : Bool} {a : Slot} (ha : (s.port p).older = some a) (ht : a.tag = tag) :
    s.takeDone p tag later = (s.updPort p Port.freeOlder).endEvent p later := by
  have h : slotHasTag (s.port p).older tag = true := by rw [ha]; simpa [slotHasTag] using ht
  simp only [State.takeDone, h, if_true]

/-- DONE of the younger slot frees both (R65). -/
theorem State.takeDone_younger {p : PortIx} {tag : Byte} {later : Bool} {b : Slot} (ha : ∀ a : Slot, (s.port p).older = some a → a.tag ≠ tag)
    (hb : (s.port p).younger = some b) (ht : b.tag = tag) :
    s.takeDone p tag later = (s.updPort p fun q => { q with
      older := none
      younger := none
      tally := { q.tally with impliedDone := satAdd q.tally.impliedDone 1 } }).endEvent p later := by
  have h : slotHasTag (s.port p).younger tag = true := by rw [hb]; simpa [slotHasTag] using ht
  simp only [State.takeDone, slotHasTag_false ha, h, if_true, Bool.false_eq_true, if_false, State.updPortTally,
    State.updPort_updPort, Port.freeBoth]

/-- A stale DONE (R66). -/
theorem State.takeDone_stale {p : PortIx} {tag : Byte} {later : Bool} (ha : ∀ a : Slot, (s.port p).older = some a → a.tag ≠ tag)
    (hb : ∀ b : Slot, (s.port p).younger = some b → b.tag ≠ tag) :
    s.takeDone p tag later = s.updPortTally p fun t => { t with staleDone := satAdd t.staleDone 1 } := by
  simp only [State.takeDone, slotHasTag_false ha, slotHasTag_false hb, Bool.false_eq_true, if_false]

end Sys2Proof.Machine
end

