-- ==== Sys2Proof/Laws/Link.lean ====
section
/-! SUPPORT. The link: when a message is taken, what its check byte says, how its fields are read; and what the admission checks
mean. -/

namespace Sys2Proof.Machine

/-! ## Taking a message -/

/-- A message taken at once goes to its owner. -/
theorem State.receive_now {s : State} (h : s.TakesAtOnce) (m : Inbound) : s.receive m = s.deliver m := by
  obtain ⟨h1, _, h2, h3⟩ := h
  simp [State.receive, State.mayTake, h1, h2, h3]

/-- A message that may not be taken waits on the link. -/
theorem State.receive_waits {s : State} (hw : 256 ≤ s.outQueue.length ∨ s.inWaiting ≠ []) (m : Inbound) :
    s.receive m = { s with inWaiting := s.inWaiting ++ [m] } := by
  have hm : s.mayTake = false := by
    simp only [State.mayTake, Config.takeLimit, Bool.and_eq_false_iff]
    rcases hw with hw | hw
    · right; left; exact decide_eq_false (by omega)
    · right; right; simpa using hw
  simp [State.receive, hm]

/-! ## The byte stream (R133) -/

/-- A list that has not eight bytes is no message. -/
theorem Message.ofBytes?_none {bs : List Byte} (h : bs.length ≠ 8) : Message.ofBytes? bs = none := dif_neg h

/-- The bytes of a message are that message. -/
theorem Message.ofBytes?_toList (m : Message) : Message.ofBytes? m.toList = some m := by
  unfold Message.ofBytes?
  rw [dif_pos (Vector.length_toList)]
  congr 1

/-- Eight bytes are a message. -/
theorem Message.ofBytes?_some {bs : List Byte} (h : bs.length = 8) :
    ∃ m : Message, Message.ofBytes? bs = some m ∧ m.toList = bs := by
  refine ⟨⟨bs.toArray, by simpa using h⟩, dif_pos h, ?_⟩
  simp

/-- On a DOWN link bytes are lost. -/
theorem receiveBytes_down (bs : List Byte) (later : Bool) {s : State} (h : s.linkUp = false) :
    receiveBytes bs later s = s := by
  induction bs with
  | nil => rfl
  | cons b rest ih =>
    have : s.receiveByte b later = s := by simp [State.receiveByte, h]
    rw [receiveBytes, this, ih]

/-- Bytes sent one run after another. -/
theorem receiveBytes_append (bs cs : List Byte) (later : Bool) (s : State) :
    receiveBytes (bs ++ cs) later s = receiveBytes cs later (receiveBytes bs later s) := by
  induction bs generalizing s with
  | nil => rfl
  | cons b rest ih => exact ih _

/-- Bytes that do not make the message whole are held. -/
theorem receiveBytes_short (bs : List Byte) (later : Bool) {s : State} (h : s.linkUp = true)
    (hl : s.inPartial.length + bs.length < 8) : receiveBytes bs later s = s.setPartial (s.inPartial ++ bs) := by
  induction bs generalizing s with
  | nil => simp only [receiveBytes, List.append_nil]; rfl
  | cons b rest ih =>
    simp only [List.length_cons] at hl
    have hb : s.receiveByte b later = s.setPartial (s.inPartial ++ [b]) := by
      simp only [State.receiveByte, h, if_true]
      rw [Message.ofBytes?_none (by simp; omega)]
    have := ih (s := s.setPartial (s.inPartial ++ [b])) h (by simp; omega)
    rw [receiveBytes, hb, this]
    simp [State.setPartial]

/-- Bytes that make the message whole: it is received, and the next byte begins a new one. -/
theorem receiveBytes_whole (bs : List Byte) (later : Bool) {s : State} (m : Message) (h : s.linkUp = true) (hn : bs ≠ [])
    (hm : s.inPartial ++ bs = m.toList) :
    receiveBytes bs later s = (s.setPartial []).receive (parseMessage m later) := by
  have hlen : s.inPartial.length + bs.length = 8 := by
    have := congrArg List.length hm
    simpa using this
  obtain ⟨cs, b, rfl⟩ : ∃ cs b, bs = cs ++ [b] := ⟨bs.dropLast, bs.getLast hn, (List.dropLast_append_getLast hn).symm⟩
  simp only [List.length_append, List.length_cons, List.length_nil] at hlen
  rw [receiveBytes_append, receiveBytes_short cs later h (by omega)]
  have hj : s.inPartial ++ cs ++ [b] = m.toList := by simpa using hm
  simp only [receiveBytes, State.receiveByte, State.setPartial_linkUp, h, if_true, State.setPartial_inPartial, hj,
    Message.ofBytes?_toList]
  rfl

/-- A message sent where none is part-received is received whole. -/
theorem State.receiveMessage_whole {s : State} (m : Message) (later : Bool) (h : s.linkUp = true) (hp : s.inPartial = []) :
    s.receiveMessage m later = s.receive (parseMessage m later) := by
  have hs : s.setPartial [] = s := by rw [← hp]; rfl
  have := receiveBytes_whole m.toList later m h (by intro e; simpa using congrArg List.length e) (by simp [hp])
  rwa [hs] at this

/-- A message that LKI takes at once goes to its owner. -/
theorem State.receiveMessage_now {s : State} (m : Message) (later : Bool) (h : s.TakesAtOnce) :
    s.receiveMessage m later = s.deliver (parseMessage m later) := by
  rw [State.receiveMessage_whole m later h.1 h.2.1, State.receive_now h]

/-- A message sent while others wait outbound or before it waits on the link. -/
theorem State.receiveMessage_waits {s : State} (m : Message) (later : Bool) (h : s.linkUp = true) (hp : s.inPartial = [])
    (hw : 256 ≤ s.outQueue.length ∨ s.inWaiting ≠ []) :
    s.receiveMessage m later = { s with inWaiting := s.inWaiting ++ [parseMessage m later] } := by
  rw [State.receiveMessage_whole m later h hp, State.receive_waits hw]

/-- On a DOWN link a message is lost. -/
theorem State.receiveMessage_down {s : State} (m : Message) (later : Bool) (h : s.linkUp = false) :
    s.receiveMessage m later = s := receiveBytes_down _ _ h

/-- A relation that is kept by what is held of a message, by a message taken and by a message that waits is kept by the bytes of
the stream. -/
theorem receiveBytes_induct (bs : List Byte) (later : Bool) (R : State → State → Prop) (refl : ∀ s, R s s)
    (trans : ∀ s t u, R s t → R t u → R s u)
    (part : ∀ (s : State) (b : Byte), s.linkUp = true → s.inPartial.length + 1 ≠ 8 → R s (s.setPartial (s.inPartial ++ [b])))
    (whole : ∀ (s : State) (m : Inbound), s.linkUp = true → R s ((s.setPartial []).receive m)) (s : State) :
    R s (receiveBytes bs later s) := by
  induction bs generalizing s with
  | nil => exact refl s
  | cons b rest ih =>
    refine trans _ _ _ ?_ (ih _)
    unfold State.receiveByte
    split
    · rename_i h
      split
      · rename_i hn
        refine part s b h ?_
        intro e
        obtain ⟨m, hm, _⟩ := Message.ofBytes?_some (bs := s.inPartial ++ [b]) (by simpa using e)
        rw [hn] at hm
        simp at hm
      · exact whole s _ h
    · exact refl s

/-! ## Check bytes (R134) -/

theorem Message.goodCheck_iff (m : Message) :
    Message.goodCheck m = true ↔ m[0] + m[1] + m[2] + m[3] + m[4] + m[5] + m[6] + m[7] = 255#8 := by
  simp [Message.goodCheck, Message.sum]

theorem Message.withCheck_good (b0 b1 b2 b3 b4 b5 b6 : Byte) :
    Message.goodCheck (Message.withCheck b0 b1 b2 b3 b4 b5 b6) = true := by
  rw [Message.goodCheck_iff]
  simp [Message.withCheck]

/-- A message that is not good is read as bad (R136). -/
theorem parseMessage_bad {m : Message} (later : Bool) (h : Message.good m = false) : parseMessage m later = .bad := by
  simp only [Message.good, Bool.and_eq_false_iff] at h
  simp only [parseMessage]
  split
  · rename_i hg
    have hk : ¬ (1 ≤ (Message.kind m).toNat ∧ (Message.kind m).toNat ≤ 5) := by
      rintro ⟨a, b⟩
      rcases h with h | h | h
      · simp [h] at hg
      · simp [BitVec.le_def] at h; omega
      · simp [BitVec.le_def] at h; omega
    split <;> first | rfl | (exfalso; omega)
  · rfl

/-- A 16-bit value from its bytes. -/
theorem le16_eq (x y : Byte) : le16 x y = BitVec.ofNat 16 (x.toNat + 256 * y.toNat) := by
  apply BitVec.eq_of_toNat_eq
  simp only [le16, BitVec.toNat_append, Nat.shiftLeft_eq, BitVec.toNat_ofNat]
  have := x.isLt
  have := y.isLt
  rw [Nat.mul_comm, ← Nat.two_pow_add_eq_or_of_lt (i := 8) (by omega)]
  omega

/-! ## The messages the frame engine sends (Table 7-1) -/

/-- The kind of a message whose first byte carries a kind and a port. -/
theorem Message.kind_kindPort (k : Nat) (p : PortIx) (hk : k < 16) (b1 b2 b3 b4 b5 b6 : Byte) :
    (Message.kind (Message.withCheck (Message.kindPort k p) b1 b2 b3 b4 b5 b6)).toNat = k := by
  have : Message.kind (Message.withCheck (Message.kindPort k p) b1 b2 b3 b4 b5 b6) =
      (Message.kindPort k p).extractLsb' 4 4 := rfl
  rw [this]
  simp [Message.kindPort, Nat.shiftRight_eq_div_pow]
  omega

/-- Its port. -/
theorem Message.port_kindPort (k : Nat) (p : PortIx) (b1 b2 b3 b4 b5 b6 : Byte) :
    Message.port (Message.withCheck (Message.kindPort k p) b1 b2 b3 b4 b5 b6) = p := by
  have : Message.port (Message.withCheck (Message.kindPort k p) b1 b2 b3 b4 b5 b6) =
      Fin.ofNat 16 ((Message.kindPort k p).extractLsb' 0 4).toNat := rfl
  rw [this]
  apply Fin.ext
  simp [Message.kindPort]

/-- The low and the high byte of a value give the value. -/
theorem le16_lo_hi (v : BitVec 16) : le16 (Message.lo v) (Message.hi v) = v := by
  rw [le16_eq]
  apply BitVec.eq_of_toNat_eq
  have := v.isLt
  simp [Message.lo, Message.hi, Nat.shiftRight_eq_div_pow]
  omega

/-- LKI reads an ARRIVAL as it was sent. -/
theorem parseMessage_ofArrival (p : PortIx) (src : SourceIx) (len : BitVec 14) (h : BitVec 16) (later : Bool) :
    parseMessage (Message.ofArrival p src len h) later = .arrival p src len h later := by
  have hs : Message.source (Message.ofArrival p src len h) = src := by
    have : Message.source (Message.ofArrival p src len h) =
        Fin.ofNat 64 ((BitVec.ofNat 8 src.val).extractLsb' 0 6).toNat := rfl
    rw [this]
    apply Fin.ext
    simp
  have hl : Message.length (Message.ofArrival p src len h) = len := by
    have : Message.length (Message.ofArrival p src len h) =
        (le16 (Message.lo (len.setWidth 16)) (Message.hi (len.setWidth 16))).extractLsb' 0 14 := rfl
    rw [this, le16_lo_hi]
    apply BitVec.eq_of_toNat_eq
    have := len.isLt
    simp
    omega
  have hh : Message.handle (Message.ofArrival p src len h) = h := by
    have : Message.handle (Message.ofArrival p src len h) = le16 (Message.lo h) (Message.hi h) := rfl
    rw [this, le16_lo_hi]
  have hk : (Message.kind (Message.ofArrival p src len h)).toNat = 1 := Message.kind_kindPort 1 p (by omega) _ _ _ _ _ _
  have hp : Message.port (Message.ofArrival p src len h) = p := Message.port_kindPort 1 p _ _ _ _ _ _
  have hg : Message.goodCheck (Message.ofArrival p src len h) = true := Message.withCheck_good _ _ _ _ _ _ _
  simp only [parseMessage, hg, if_true, hk, hp, hs, hl, hh]

/-- LKI reads a DONE as it was sent. -/
theorem parseMessage_ofDone (p : PortIx) (tag : Byte) (later : Bool) :
    parseMessage (Message.ofDone p tag) later = .done p tag later := by
  have hk : (Message.kind (Message.ofDone p tag)).toNat = 2 := Message.kind_kindPort 2 p (by omega) _ _ _ _ _ _
  have hp : Message.port (Message.ofDone p tag) = p := Message.port_kindPort 2 p _ _ _ _ _ _
  have hg : Message.goodCheck (Message.ofDone p tag) = true := Message.withCheck_good _ _ _ _ _ _ _
  have ht : Message.tag (Message.ofDone p tag) = tag := rfl
  simp only [parseMessage, hg, if_true, hk, hp, ht]

/-- LKI reads a HOLD as it was sent. -/
theorem parseMessage_ofHold (p : PortIx) (later : Bool) : parseMessage (Message.ofHold p) later = .hold p := by
  have hk : (Message.kind (Message.ofHold p)).toNat = 3 := Message.kind_kindPort 3 p (by omega) _ _ _ _ _ _
  have hp : Message.port (Message.ofHold p) = p := Message.port_kindPort 3 p _ _ _ _ _ _
  have hg : Message.goodCheck (Message.ofHold p) = true := Message.withCheck_good _ _ _ _ _ _ _
  simp only [parseMessage, hg, if_true, hk, hp]

/-- LKI reads a RESUME as it was sent. -/
theorem parseMessage_ofResume (p : PortIx) (later : Bool) :
    parseMessage (Message.ofResume p) later = .resume p later := by
  have hk : (Message.kind (Message.ofResume p)).toNat = 4 := Message.kind_kindPort 4 p (by omega) _ _ _ _ _ _
  have hp : Message.port (Message.ofResume p) = p := Message.port_kindPort 4 p _ _ _ _ _ _
  have hg : Message.goodCheck (Message.ofResume p) = true := Message.withCheck_good _ _ _ _ _ _ _
  simp only [parseMessage, hg, if_true, hk, hp]

/-- LKI reads a CLOCK as it was sent. -/
theorem parseMessage_ofClock (m : BitVec 16) (later : Bool) : parseMessage (Message.ofClock m) later = .clock m := by
  have hk : (Message.kind (Message.ofClock m)).toNat = 5 := Message.kind_kindPort 5 0 (by omega) _ _ _ _ _ _
  have hg : Message.goodCheck (Message.ofClock m) = true := Message.withCheck_good _ _ _ _ _ _ _
  have hm : Message.minute (Message.ofClock m) = m := le16_lo_hi m
  simp only [parseMessage, hg, if_true, hk, hm]

/-! ## Lengths and counters -/

theorem storedLength_toNat (len : BitVec 14) : (storedLength len).toNat = max len.toNat 64 := by
  have hm : Config.minLength = 64 := rfl
  unfold storedLength
  by_cases h : len.toNat < Config.minLength
  · rw [if_pos h]; simp; omega
  · rw [if_neg h]; omega

theorem storedLength_eq (len : BitVec 14) : storedLength len = BitVec.ofNat 14 (max len.toNat 64) := by
  apply BitVec.eq_of_toNat_eq
  rw [storedLength_toNat, BitVec.toNat_ofNat]
  have := len.isLt
  omega

theorem storedLength_setWidth (len : BitVec 14) :
    (storedLength len).setWidth 16 = BitVec.ofNat 16 (max len.toNat 64) := by
  apply BitVec.eq_of_toNat_eq
  simp only [BitVec.toNat_setWidth, storedLength_toNat, BitVec.toNat_ofNat]

/-- A level is held as 8191 at most (R130). -/
theorem heldLevel_toNat (v : BitVec 16) : (heldLevel v).toNat = min v.toNat 8191 := by
  simp only [heldLevel]
  split
  · simp; omega
  · simp; omega

/-! ## Admission -/

/-- What an admitted frame finds (Table 2-1). -/
theorem State.admitted {s : State} {p : PortIx} {src : SourceIx} {len : BitVec 14} (ha : s.admissionCheck p src len = none) :
    (s.port p).state = .opened ∧ (s.lane p src).entry.isOpen = true ∧ len.toNat ≤ 9216 ∧
    (s.lane p src).list.length < (s.lane p src).entry.qmax.toNat ∧ s.freeCount ≠ 0 := by
  simp only [State.admissionCheck] at ha
  split at ha <;> try simp at ha
  rename_i hst
  simp only [State.laneCheck, Config.maxLength] at ha
  by_cases h1 : (s.lane p src).entry.isOpen = true
  · by_cases h2 : 9216 < len.toNat
    · simp [h1, h2] at ha
    · by_cases h3 : (s.lane p src).entry.qmax.toNat ≤ (s.lane p src).list.length
      · simp [h1, h2, h3] at ha
      · by_cases h4 : s.freeCount = 0
        · simp [h1, h2, h3, h4] at ha
        · exact ⟨hst, h1, by omega, by omega, h4⟩
  · simp [h1] at ha

/-- The state after an accepted arrival, before any release (R30). -/
theorem State.accept_eq (s : State) (p : PortIx) (src : SourceIx) (len : BitVec 14) (h : BitVec 16) :
    s.accept p src len h = { s with
      outQueue := if s.linkUp then s.outQueue ++ [Message.ofAnswer p src 0 0 h] else s.outQueue
      ports := s.ports.set p ((s.port p).setLane src ((s.lane p src).append ⟨h, storedLength len⟩))
      freeCount := s.freeCount - 1
      poolBelow := decide (s.freeCount - 1 < s.warning.toNat)
      attn := if s.poolBelow = false ∧ s.freeCount - 1 < s.warning.toNat then s.attn ||| 0x20#8 else s.attn } := by
  have hl : (s.updLane p src fun l => l.append ⟨h, storedLength len⟩) =
      { s with ports := s.ports.set p ((s.port p).setLane src ((s.lane p src).append ⟨h, storedLength len⟩)) } := rfl
  unfold State.accept
  dsimp only
  rw [hl]
  unfold State.handOver State.latchIf
  cases hb : s.poolBelow <;> by_cases hw : s.freeCount - 1 < s.warning.toNat <;> by_cases hu : s.linkUp = true <;>
    simp [hu, hw, State.setFree] <;> rfl

end Sys2Proof.Machine
end

