-- ==== Sys2Proof/Laws/Shares.lean ====
section
/-! SUPPORT. Shares: rates and caps, the acting pin, the selection of a profile, the clock. -/

namespace Sys2Proof.Machine

/-! ## Rates and caps -/

theorem hasRate_iff (gc : BitVec 8) (gf : BitVec 6) : hasRate gc gf = true ↔ gc ≠ 0 ∨ gf ≠ 0 := by
  simp only [hasRate, Bool.or_eq_true, bne_iff_ne]; rfl

theorem hasRate_false_iff (gc : BitVec 8) (gf : BitVec 6) : hasRate gc gf = false ↔ gc = 0 ∧ gf = 0 := by
  simp only [hasRate, Bool.or_eq_false_iff, bne_eq_false_iff_eq]; rfl

/-- The floor on the cap (R4). -/
theorem capFloor_toNat (gc : BitVec 8) (gf : BitVec 6) (cap : BitVec 16) :
    (capFloor gc gf cap).toNat = if gc = 0 ∧ gf = 0 then cap.toNat else max cap.toNat (gc.toNat + 1) := by
  unfold capFloor
  by_cases h : gc = 0 ∧ gf = 0
  · have hr := (hasRate_false_iff gc gf).mpr h
    rw [if_pos h]
    simp only [hr, Bool.false_and, Bool.false_eq_true, if_false]
  · have hr : hasRate gc gf = true := by
      rw [← Bool.not_eq_false, hasRate_false_iff]; exact h
    rw [if_neg h]
    by_cases h2 : cap.toNat < gc.toNat + 1
    · have hd : decide (cap.toNat < gc.toNat + 1) = true := decide_eq_true h2
      simp only [hr, hd, Bool.and_self, if_true, BitVec.toNat_ofNat]
      have := gc.isLt
      omega
    · have hd : decide (cap.toNat < gc.toNat + 1) = false := decide_eq_false h2
      simp only [hd, Bool.and_false, Bool.false_eq_true, if_false]
      omega

/-- A saturating counter that rises by nothing stays. -/
theorem satAdd_zero {w : Nat} (c : BitVec w) : satAdd c 0 = c := by
  apply BitVec.eq_of_toNat_eq
  have := c.isLt
  simp only [satAdd, BitVec.toNat_ofNat, Nat.add_zero]
  rw [Nat.min_eq_left (by omega), Nat.mod_eq_of_lt this]

/-! ## The acting pin (R103) -/

theorem pinAt_some {pins : PinList} {p : PortIx} {src : SourceIx} {i : Fin 4} {x : Pin} :
    pinAt pins p src i = some x ↔ pins[i] = some x ∧ x.port = p ∧ x.source = src := by
  simp only [pinAt]
  cases hp : pins[i] with
  | none => simp
  | some z =>
    simp only
    by_cases h : z.port = p ∧ z.source = src
    · rw [if_pos h]
      simp only [Option.some.injEq]
      constructor
      · rintro rfl; exact ⟨rfl, h⟩
      · rintro ⟨rfl, _⟩; rfl
    · rw [if_neg h]
      simp only [reduceCtorEq, Option.some.injEq, false_iff, not_and]
      rintro rfl h1 h2
      exact h ⟨h1, h2⟩

/-- The lowest-indexed valid pin that names a lane. -/
theorem firstPin_some {pins : PinList} {p : PortIx} {src : SourceIx} {x : Pin} :
    firstPin pins p src = some x ↔
      ∃ i : Fin 4, pinAt pins p src i = some x ∧ ∀ j : Fin 4, j < i → pinAt pins p src j = none := by
  simp only [firstPin, List.findSome?_eq_some_iff]
  constructor
  · rintro ⟨l1, i, l2, hl, hi, hn⟩
    refine ⟨i, hi, fun j hj => hn j ?_⟩
    have hm : j ∈ l1 ++ i :: l2 := by rw [← hl]; exact List.mem_finRange j
    have hs : (l1 ++ i :: l2).Pairwise (· < ·) := by rw [← hl]; decide
    rw [List.pairwise_append] at hs
    rcases List.mem_append.mp hm with h | h
    · exact h
    · rcases List.mem_cons.mp h with h | h
      · subst h; exact absurd hj (lt_irrefl _)
      · exact absurd (lt_trans hj ((List.pairwise_cons.mp hs.2.1).1 j h)) (lt_irrefl _)
  · rintro ⟨i, hi, hn⟩
    refine ⟨(List.finRange 4).take i.val, i, (List.finRange 4).drop (i.val + 1), ?_, hi, fun j hj => hn j ?_⟩
    · clear hi hn; revert i; decide
    · clear hi hn; revert hj; revert i j; decide

/-- The acting pin is one of the pins. -/
theorem firstPin_mem {pins : PinList} {p : PortIx} {src : SourceIx} {x : Pin} (h : firstPin pins p src = some x) :
    ∃ i : Fin 4, pins[i] = some x := by
  obtain ⟨i, hi, _⟩ := firstPin_some.mp h
  exact ⟨i, (pinAt_some.mp hi).1⟩

/-! ## Selection (R100, R101) -/

theorem Port.reselect_eq (q : Port) (k : ProfileIx) :
    q.reselect k = { q with selected := k, refreshFlag := q.refreshFlag || decide (q.selected ≠ k) } := by
  unfold Port.reselect
  by_cases hk : q.selected = k
  · rw [if_pos hk]; simp [← hk]
  · rw [if_neg hk]; simp [hk]

theorem State.newerWindow_ne_none (s : State) (b : Option ProfileIx) (k : ProfileIx) : s.newerWindow b k ≠ none := by
  unfold State.newerWindow
  cases b with
  | none => simp
  | some y => simp only; by_cases h : s.windowAge k < s.windowAge y <;> simp [h]

/-- One step of the choice: the newer of two, the lower-numbered on a tie. -/
theorem State.newerWindow_some {s : State} {b : Option ProfileIx} {k x : ProfileIx} (h : s.newerWindow b k = some x)
    (hb : ∀ y ∈ b, y < k) :
    (x = k ∨ b = some x) ∧
    ∀ z : ProfileIx, (z = k ∨ b = some z) → s.windowAge x < s.windowAge z ∨ (s.windowAge x = s.windowAge z ∧ x ≤ z) := by
  cases b with
  | none =>
    simp only [State.newerWindow, Option.some.injEq] at h
    subst h
    refine ⟨Or.inl rfl, ?_⟩
    rintro z (rfl | hz)
    · exact Or.inr ⟨rfl, le_refl _⟩
    · simp at hz
  | some y =>
    have hy : y < k := hb y rfl
    simp only [State.newerWindow] at h
    by_cases hlt : s.windowAge k < s.windowAge y
    · simp only [hlt, if_true, Option.some.injEq] at h
      subst h
      refine ⟨Or.inl rfl, ?_⟩
      rintro z (rfl | hz)
      · exact Or.inr ⟨rfl, le_refl _⟩
      · simp only [Option.some.injEq] at hz; subst hz; exact Or.inl hlt
    · simp only [hlt, if_false, Option.some.injEq] at h
      subst h
      refine ⟨Or.inr rfl, ?_⟩
      rintro z (rfl | hz)
      · rcases Nat.lt_or_ge (s.windowAge y) (s.windowAge z) with h | h
        · exact Or.inl h
        · exact Or.inr ⟨by omega, le_of_lt hy⟩
      · simp only [Option.some.injEq] at hz; subst hz; exact Or.inr ⟨rfl, le_refl _⟩

/-- The choice over a rising list of profiles: one of them, newest, lowest-numbered on a tie. -/
theorem State.foldl_newerWindow (s : State) (l : List ProfileIx) (hl : l.Pairwise (· < ·)) (b : Option ProfileIx)
    (hb : ∀ k ∈ l, ∀ x ∈ b, x < k) (r : ProfileIx) (h : l.foldl s.newerWindow b = some r) :
    (r ∈ l ∨ b = some r) ∧
    ∀ z : ProfileIx, (z ∈ l ∨ b = some z) → s.windowAge r < s.windowAge z ∨ (s.windowAge r = s.windowAge z ∧ r ≤ z) := by
  induction l generalizing b with
  | nil =>
    simp only [List.foldl_nil] at h
    subst h
    refine ⟨Or.inr rfl, ?_⟩
    rintro z (hz | hz)
    · simp at hz
    · simp only [Option.some.injEq] at hz; subst hz; exact Or.inr ⟨rfl, le_refl _⟩
  | cons a rest ih =>
    rw [List.pairwise_cons] at hl
    simp only [List.foldl_cons] at h
    cases hx : s.newerWindow b a with
    | none => exact absurd hx (s.newerWindow_ne_none b a)
    | some x =>
      obtain ⟨g1, g2⟩ := State.newerWindow_some hx (hb a List.mem_cons_self)
      rw [hx] at h
      obtain ⟨j1, j2⟩ := ih hl.2 (some x) (by
        intro k hk y hy
        simp only [Option.mem_def, Option.some.injEq] at hy
        subst hy
        rcases g1 with g1 | g1
        · rw [g1]; exact hl.1 k hk
        · exact hb k (List.mem_cons_of_mem _ hk) _ g1) h
      constructor
      · rcases j1 with j1 | j1
        · exact Or.inl (List.mem_cons_of_mem _ j1)
        · simp only [Option.some.injEq] at j1
          subst j1
          rcases g1 with g1 | g1
          · left; rw [g1]; exact List.mem_cons_self
          · exact Or.inr g1
      · intro z hz
        have hz' : z ∈ rest ∨ (z = a ∨ b = some z) := by
          rcases hz with hz | hz
          · rcases List.mem_cons.mp hz with h | h
            · exact Or.inr (Or.inl h)
            · exact Or.inl h
          · exact Or.inr (Or.inr hz)
        rcases hz' with hz' | hz'
        · exact j2 z (Or.inl hz')
        · have h1 := g2 z hz'
          have h2 := j2 x (Or.inr rfl)
          rcases h1 with h1 | ⟨h1, h1'⟩ <;> rcases h2 with h2 | ⟨h2, h2'⟩
          · left; omega
          · left; omega
          · left; omega
          · right; exact ⟨by omega, le_trans h2' h1'⟩

/-- Without a candidate the choice is empty. -/
theorem State.foldl_newerWindow_none (s : State) (l : List ProfileIx) (b : Option ProfileIx) (hb : b ≠ none) :
    l.foldl s.newerWindow b ≠ none := by
  induction l generalizing b with
  | nil => exact hb
  | cons a rest ih => exact ih _ (s.newerWindow_ne_none b a)

theorem State.candidates_mem (s : State) (p : PortIx) (k : ProfileIx) :
    k ∈ allProfiles.filter (s.candidate p) ↔ s.candidate p k = true := by
  simp [allProfiles]

/-! ## The clock (R98) -/

/-- A minute of 1440 or above is ignored. -/
theorem State.takeClock_out (s : State) {m : BitVec 16} (h : 1440 ≤ m.toNat) : s.takeClock m = s := by
  have : ¬ m.toNat < 1440 := by omega
  simp [State.takeClock, this]

/-- The minute a valid clock holds already changes nothing. -/
theorem State.takeClock_same (s : State) {m : BitVec 16} (hc : s.clockValid = true) (he : m.toNat = s.minute.val) :
    s.takeClock m = s := by
  have h : m.toNat < 1440 := by omega
  have : (s.clockValid && s.minute == ⟨m.toNat, h⟩) = true := by
    simp only [hc, Bool.true_and, beq_iff_eq]; apply Fin.ext; exact he.symm
  simp [State.takeClock, h, this]

/-- Any other minute is set, and every port reselected. -/
theorem State.takeClock_new (s : State) {m : BitVec 16} (h : m.toNat < 1440)
    (hn : s.clockValid = false ∨ m.toNat ≠ s.minute.val) :
    s.takeClock m = ({ s with minute := ⟨m.toNat, h⟩, clockValid := true } : State).recomputeSelection := by
  have : (s.clockValid && s.minute == ⟨m.toNat, h⟩) = false := by
    simp only [Bool.and_eq_false_iff, beq_eq_false_iff_ne, ne_eq]
    rcases hn with hn | hn
    · exact Or.inl hn
    · right; intro he; apply hn; rw [he]
  simp [State.takeClock, h, this]

theorem State.recomputeSelection_port (s : State) (p : PortIx) :
    s.recomputeSelection.port p = { s.port p with
      selected := s.selectFor p
      refreshFlag := (s.port p).refreshFlag || decide ((s.port p).selected ≠ s.selectFor p) } := by
  rw [State.recomputeSelection, State.mapPorts_port, Port.reselect_eq]

end Sys2Proof.Machine
end

