-- ==== Sys2Proof/Laws/PortEvents.lean ====
section
/-! SUPPORT. Round expiries, holds and stalls: what each stage gives in the cases that matter. -/

namespace Sys2Proof.Machine

/-! ## Ports -/

/-- A port whose flow becomes FLOWING (R79). -/
theorem Port.resumeFlow_eq (q : Port) :
    q.resumeFlow = { q with
      flow := .flowing
      timer :=
        if q.flow = .stalled then (if q.state = .opened ∨ q.state = .draining then some q.roundLength else none)
        else q.timer } := by
  obtain ⟨lanes, state, flow, ha, timer, rc, rf, sel, app, ac, c1, c2, c3, ol, yo, nt, wm, wl, rl, kc, kf, hl, dl, ta⟩ := q
  cases flow <;> cases state <;> rfl

/-- A port after the credit work of a round expiry. -/
theorem Port.creditWork_eq (q : Port) :
    q.creditWork = { q with lanes := q.creditWork.lanes, roundCount := q.roundCount + 1 } := by
  simp only [Port.creditWork, Port.mapLanes]

theorem Port.creditWork_lane (q : Port) (x : SourceIx) : q.creditWork.lane x = (q.lane x).accrue q.roundCount x := by
  have h : q.creditWork.lanes = (q.mapLanes fun src l => l.accrue q.roundCount src).lanes := rfl
  rw [Port.lane_congr h x, Port.mapLanes_lane]

/-- The link-loss work of a port (R93). -/
theorem Port.linkLoss_eq (q : Port) :
    q.linkLoss = { q with
      older := none
      younger := none
      flow := .held
      holdAge := 0
      watchLatch := { q.watchLatch with link := true }
      state := if q.state = .draining then .closed else q.state
      timer :=
        if q.state = .draining then none
        else if q.state = .opened ∧ q.flow = .stalled then some q.roundLength
        else q.timer } := by
  obtain ⟨lanes, state, flow, ha, timer, rc, rf, sel, app, ac, c1, c2, c3, ol, yo, nt, wm, wl, rl, kc, kf, hl, dl, ta⟩ := q
  cases state <;> cases flow <;> rfl

variable (s : State)

/-! ## The stages of a round expiry -/

/-- With no refresh pending the credit stage changes the port alone. -/
theorem State.expiryCredit_quiet {p : PortIx} (h : (s.port p).refreshFlag = false) :
    s.expiryCredit p = s.updPort p fun q => q.creditWork.ageSlots := by
  have hr : s.refreshIf p = s := by simp only [State.refreshIf, h, Bool.false_eq_true, if_false]
  rw [State.expiryCredit, hr, State.updPort_updPort]

/-- When no occupied slot has expired, none is freed. -/
theorem State.expireSlots_none {p : PortIx} (h : ∀ a : Slot, (s.port p).older = some a → (s.port p).expired a = false)
    (h' : ∀ b : Slot, (s.port p).younger = some b → (s.port p).expired b = false) : s.expireSlots p = s := by
  have hy : s.expireYoungerIf p = s := by
    unfold State.expireYoungerIf
    cases hb : (s.port p).younger with
    | none => rfl
    | some b => simp only [h' b hb, Bool.false_eq_true, if_false]
  unfold State.expireSlots
  cases ha : (s.port p).older with
  | none => exact hy
  | some a => simp only [h a ha, Bool.false_eq_true, if_false]; exact hy

/-- The older slot has expired, and the one that moves up, if any, has not. -/
theorem State.expireSlots_older {p : PortIx} {a : Slot} (ha : (s.port p).older = some a) (hx : (s.port p).expired a = true)
    (h' : ∀ b : Slot, (s.port p).younger = some b → (s.port p).expired b = false) :
    s.expireSlots p = s.expireOlder p a := by
  unfold State.expireSlots
  simp only [ha, hx, if_true]
  have hp : (s.expireOlder p a).port p = { (s.port p).freeOlder with
      tally := { (s.port p).tally with expiries := satAdd (s.port p).tally.expiries 1 } } := by
    simp [State.expireOlder, Port.freeOlder]
  unfold State.expireOlderIf
  rw [hp]
  cases hb : (s.port p).younger with
  | none => simp only [Port.freeOlder, hb]
  | some b =>
    have := h' b hb
    simp only [Port.expired] at this
    simp only [Port.freeOlder, hb, Port.expired, this, Bool.false_eq_true, if_false]

/-- Both slots have expired: the older is freed first, then the younger from the older place. -/
theorem State.expireSlots_both {p : PortIx} {a b : Slot} (ha : (s.port p).older = some a) (hx : (s.port p).expired a = true)
    (hb : (s.port p).younger = some b) (hy : (s.port p).expired b = true) :
    s.expireSlots p = (s.expireOlder p a).expireOlder p b := by
  unfold State.expireSlots
  simp only [ha, hx, if_true]
  have hp : (s.expireOlder p a).port p = { (s.port p).freeOlder with
      tally := { (s.port p).tally with expiries := satAdd (s.port p).tally.expiries 1 } } := by
    simp [State.expireOlder, Port.freeOlder]
  unfold State.expireOlderIf
  rw [hp]
  simp only [Port.expired] at hy
  simp only [Port.freeOlder, hb, Port.expired, hy, if_true]

/-- A slot freed as expired (R62). -/
theorem State.expireOlder_eq (p : PortIx) (sl : Slot) :
    s.expireOlder p sl = (s.updPort p fun q => { q with
        older := q.younger
        younger := none
        tally := { q.tally with expiries := satAdd q.tally.expiries 1 } }).offer
      [⟨.expiry, p, sl.source, sl.tag, sl.len.setWidth 16, (s.port p).roundCount, s.minute⟩] := by
  unfold State.expireOlder
  rw [State.updPortTally, State.updPort_updPort]
  simp only [Port.freeOlder, State.stamp]

/-- A held port whose hold does not reach its limit. -/
theorem State.holdWork_ages {p : PortIx} (h : (s.port p).flow = .held) (hn : (s.port p).ageHold.stallDue = false) :
    s.holdWork p = s.updPort p Port.ageHold := by
  have hb : ((s.port p).flow == .held) = true := by rw [h]; rfl
  have hp : (s.updPort p Port.ageHold).port p = (s.port p).ageHold := by rw [State.updPort_port, if_pos rfl]
  simp only [State.holdWork, hb, if_true, hp, hn, Bool.false_eq_true, if_false]

/-- A held port whose hold reaches its limit becomes stalled (R78). -/
theorem State.holdWork_stalls {p : PortIx} (h : (s.port p).flow = .held) (hn : (s.port p).ageHold.stallDue = true) :
    s.holdWork p = ((s.updPort p fun q => { q with
        holdAge := ageUp q.holdAge
        flow := .stalled
        tally := { q.tally with stalls := satAdd q.tally.stalls 1 }
        watchLatch := { q.watchLatch with stall := true } }).latch attnPortWatch).offer
      [⟨.stall, p, 0, 0, 0, (s.port p).roundCount, s.minute⟩] := by
  have hb : ((s.port p).flow == .held) = true := by rw [h]; rfl
  have hp : (s.updPort p Port.ageHold).port p = (s.port p).ageHold := by rw [State.updPort_port, if_pos rfl]
  simp only [State.holdWork, hb, if_true, hp, hn]
  unfold State.stallPort
  rw [State.updPort_updPort]
  simp only [State.stamp, hp]
  rfl

/-- A port that is not held does no hold work. -/
theorem State.holdWork_none {p : PortIx} (h : (s.port p).flow ≠ .held) : s.holdWork p = s := by
  have hb : ((s.port p).flow == .held) = false := beq_eq_false_iff_ne.mpr h
  simp only [State.holdWork, hb, Bool.false_eq_true, if_false]

/-- A round expiry, as its stages. -/
theorem State.roundExpiry_runs {p : PortIx} (h : (s.port p).timer ≠ none) :
    s.roundExpiry p =
      ((((s.expiryCredit p).expireSlots p).holdWork p).updPort p Port.startTimer).testAndDrain p := by
  unfold State.roundExpiry
  cases ht : (s.port p).timer with
  | none => exact absurd ht h
  | some r => rfl

/-- A port whose timer is stopped has no round expiry (R74). -/
theorem State.roundExpiry_stopped {p : PortIx} (h : (s.port p).timer = none) : s.roundExpiry p = s := by
  simp only [State.roundExpiry, h]

/-- A slot one round older (R61). -/
theorem Slot.older1_age (sl : Slot) : sl.older1 = { sl with age := BitVec.ofNat 8 (min (sl.age.toNat + 1) 255) } := rfl

/-- An age after one more round. -/
theorem ageUp_toNat (a : Byte) : (ageUp a).toNat = min (a.toNat + 1) 255 := by
  simp only [ageUp, satAdd, BitVec.toNat_ofNat]
  omega

theorem Port.expired_iff (q : Port) (sl : Slot) : q.expired sl = true ↔ q.doneLimit ≠ 0 ∧ q.doneLimit.toNat ≤ sl.age.toNat := by
  simp only [Port.expired, Bool.and_eq_true, bne_iff_ne, decide_eq_true_eq]
  rfl

theorem Port.stallDue_iff (q : Port) : q.stallDue = true ↔ q.holdLimit ≠ 0 ∧ q.holdLimit.toNat ≤ q.holdAge.toNat := by
  simp only [Port.stallDue, Bool.and_eq_true, bne_iff_ne, decide_eq_true_eq]
  rfl

/-! ## One more round -/

/-- A port after the credit work and the ageing of its slots (R9, R14, R61). -/
theorem Port.aged_eq (q : Port) :
    q.creditWork.ageSlots = { q with
      lanes := q.creditWork.lanes
      roundCount := q.roundCount + 1
      older := q.older.map Slot.older1
      younger := q.younger.map Slot.older1 } := by
  have h := Port.creditWork_eq q
  generalize q.creditWork.lanes = ls at h ⊢
  rw [h]; rfl

theorem Port.aged_lane (q : Port) (x : SourceIx) : q.creditWork.ageSlots.lane x = (q.lane x).accrue q.roundCount x := by
  rw [← Port.creditWork_lane]; exact Port.lane_congr (by rw [Port.aged_eq]) x

/-- The next round of an OPEN port (R74, R76). -/
theorem Port.startTimer_opened {q : Port} (h : q.state = .opened) :
    q.startTimer = { q with timer := if q.flow = .stalled then none else some q.roundLength } := by
  obtain ⟨lanes, state, flow, ha, timer, rc, rf, sel, app, ac, c1, c2, c3, ol, yo, nt, wm, wl, rl, kc, kf, hl, dl, ta⟩ := q
  simp only at h; subst h
  cases flow <;> rfl

/-- A port that is neither FLOWING nor DRAINING makes no release and does not drain. -/
theorem State.testAndDrain_quiet (s : State) {p : PortIx} (h : (s.port p).flow ≠ .flowing) (h' : (s.port p).state ≠ .draining) :
    s.testAndDrain p = s := by
  apply State.testAndDrain_of_idle s _ h'
  have : ((s.port p).flow == .flowing) = false := beq_eq_false_iff_ne.mpr h
  simp [Port.mayRelease, this]

/-- A hold that has not reached its limit after one more round. -/
theorem Port.stallDue_not (q : Port) (h : q.holdLimit = 0 ∨ q.holdAge.toNat + 1 < q.holdLimit.toNat) :
    q.ageHold.stallDue = false := by
  rw [Bool.eq_false_iff]; intro hh
  rw [Port.stallDue_iff] at hh
  have e : (q.ageHold.holdAge).toNat = min (q.holdAge.toNat + 1) 255 := ageUp_toNat _
  have e2 : q.ageHold.holdLimit = q.holdLimit := rfl
  rw [e, e2] at hh
  rcases h with h | h
  · exact hh.1 h
  · omega

/-- A slot of one more round whose age is below the done limit, or a port of no done limit (R61). -/
theorem Port.expired_older1_not (q : Port) (sl : Slot) (h : q.doneLimit = 0 ∨ sl.age.toNat + 1 < q.doneLimit.toNat) :
    q.expired sl.older1 = false := by
  rw [Bool.eq_false_iff]; intro hh
  rw [Port.expired_iff] at hh
  have e : (sl.older1.age).toNat = min (sl.age.toNat + 1) 255 := ageUp_toNat _
  rw [e] at hh
  rcases h with h | h
  · exact hh.1 h
  · omega

/-- A slot of one more round whose age reaches a nonzero done limit (R61). -/
theorem Port.expired_older1 (q : Port) (sl : Slot) (h : q.doneLimit ≠ 0) (h' : q.doneLimit.toNat ≤ min (sl.age.toNat + 1) 255) :
    q.expired sl.older1 = true := by
  rw [Port.expired_iff]
  have e : (sl.older1.age).toNat = min (sl.age.toNat + 1) 255 := ageUp_toNat _
  rw [e]; exact ⟨h, h'⟩

/-! ## A port as set, after records offered -/

/-- A port of a state that has made records, changed. -/
theorem State.setPort_offer_updPort (s : State) (p : PortIx) (q : Port) (f : Port → Port) (os : List Offer) :
    ((s.setPort p q).offer os).updPort p f = (s.setPort p (f q)).offer os := by
  have h : ((s.setPort p q).offer os).port p = q := by
    show (s.setPort p q).port p = q
    rw [State.setPort_port, if_pos rfl]
  unfold State.updPort; rw [h]
  show ((s.setPort p q).setPort p (f q)).offer os = _
  rw [State.setPort_setPort]

/-- No record offered changes nothing. -/
theorem State.offer_nil (s : State) : s.offer [] = s := by
  apply State.eq_of_fields <;> first | rfl | simp [State.offer]

/-- Records offered twice are offered in order. -/
theorem State.offer_offer (s : State) (os os' : List Offer) : (s.offer os).offer os' = s.offer (os ++ os') := by
  simp [State.offer]

/-- The port set, after records offered. -/
theorem State.setPort_offer_port (s : State) (p : PortIx) (q : Port) (os : List Offer) :
    ((s.setPort p q).offer os).port p = q := by
  show (s.setPort p q).port p = q
  rw [State.setPort_port, if_pos rfl]

/-- A slot freed as expired at a port as set (R62). -/
theorem State.expireOlder_set (s : State) (p : PortIx) (q : Port) (os : List Offer) (sl : Slot) :
    ((s.setPort p q).offer os).expireOlder p sl =
      (s.setPort p { q with
        older := q.younger, younger := none, tally := { q.tally with expiries := satAdd q.tally.expiries 1 } }).offer
      (os ++ [⟨.expiry, p, sl.source, sl.tag, sl.len.setWidth 16, q.roundCount, s.minute⟩]) := by
  rw [State.expireOlder_eq, State.setPort_offer_updPort, State.offer_offer, State.setPort_offer_port]; rfl

end Sys2Proof.Machine
end

