-- ==== Sys2Proof/Laws/LinkLoss.lean ====
section
/-! SUPPORT. Link loss: the purges that tell nothing, the ports, the records it makes, and all that it leaves. -/

namespace Sys2Proof.Machine
variable (s : State)

/-- A port emptied with its entries counted as discards (R44). -/
def Port.emptied (q : Port) : Port :=
  { q.mapLanes (fun _ l => { l with list := [] }) with
    tally := { q.tally with discards := satAdd q.tally.discards q.listTotal } }

theorem State.purge_untold_frame (p : PortIx) (sel : SourceIx → Bool) :
    s.purge p sel false = { s with
      ports := (s.purge p sel false).ports
      freeCount := (s.purge p sel false).freeCount
      poolBelow := (s.purge p sel false).poolBelow
      tre := (s.purge p sel false).tre } := by
  apply State.eq_of_fields <;> rfl

/-- The ports after the purges of link loss. -/
theorem State.purgeAll_port (ps : List PortIx) (hn : ps.Nodup) (p : PortIx) :
    (s.purgeAll ps).port p = if p ∈ ps then (s.port p).emptied else s.port p := by
  induction ps generalizing s with
  | nil => rfl
  | cons x rest ih =>
    have hx := List.nodup_cons.mp hn
    show ((s.purge x (fun _ => true) false).purgeAll rest).port p = _
    rw [ih _ hx.2, State.purge_port]
    by_cases h : p = x
    · subst h
      simp [hx.1, State.entriesOn_all, Port.emptied]
    · simp [h]

theorem State.purgeAll_frame (ps : List PortIx) :
    s.purgeAll ps = { s with
      ports := (s.purgeAll ps).ports
      freeCount := (s.purgeAll ps).freeCount
      poolBelow := (s.purgeAll ps).poolBelow
      tre := (s.purgeAll ps).tre } := by
  induction ps generalizing s with
  | nil => rfl
  | cons x rest ih =>
    show (s.purge x (fun _ => true) false).purgeAll rest = _
    rw [ih]
    conv_lhs => rw [State.purge_untold_frame]
    rfl

theorem State.purgeAll_tre (ps : List PortIx) (hn : ps.Nodup) :
    (s.purgeAll ps).tre = { s.tre with offered := s.tre.offered ++
      (ps.flatMap fun p => (allSources.filter fun src => !(s.lane p src).list.isEmpty).map fun src =>
        ⟨.purge, p, src, 0, BitVec.ofNat 16 (s.lane p src).list.length, (s.port p).roundCount, s.minute⟩) } := by
  induction ps generalizing s with
  | nil => simp [State.purgeAll]
  | cons x rest ih =>
    have hx := List.nodup_cons.mp hn
    show ((s.purge x (fun _ => true) false).purgeAll rest).tre = _
    rw [ih _ hx.2, State.purge_tre]
    have hm : (s.purge x (fun _ => true) false).minute = s.minute := by rw [State.purge_untold_frame]
    have hpt : ∀ p ∈ rest, (s.purge x (fun _ => true) false).port p = s.port p := by
      intro p hp
      rw [State.purge_port, if_neg (by rintro rfl; exact hx.1 hp)]
    simp only [List.flatMap_cons, List.append_assoc]
    congr 3
    apply List.flatMap_congr
    intro p hp
    simp only [State.lane, hpt p hp, hm]

theorem State.admissionLoss_port (p : PortIx) : s.admissionLoss.port p = (s.port p).emptied := by
  rw [State.admissionLoss, State.setFree_port, State.purgeAll_port s allPorts (List.nodup_finRange 16), if_pos (show p ∈ allPorts from List.mem_finRange p)]

theorem lossOrder_all {order : List PortIx} (hn : order.Nodup) (hl : order.length = 16) : lossOrder order = order := by
  have hd : order.dedup = order := List.dedup_eq_self.mpr hn
  have hall : ∀ p : PortIx, p ∈ order := by
    intro p
    have h1 : order.toFinset.card = 16 := by rw [List.toFinset_card_of_nodup hn, hl]
    have h2 : order.toFinset = Finset.univ := (Finset.card_eq_iff_eq_univ _).mp (by rw [h1]; rfl)
    have h3 : p ∈ order.toFinset := by rw [h2]; exact Finset.mem_univ p
    simpa using h3
  have : (allPorts.filter fun p => !order.contains p) = [] := by
    simp [hall]
  rw [lossOrder, hd, this, List.append_nil]

theorem State.portsLoss_port (order : List PortIx) (p : PortIx) : (s.portsLoss order).port p = (s.port p).linkLoss := by
  unfold State.portsLoss
  rw [State.offer_port, State.latch_port, State.mapPorts_port]

theorem State.portsLoss_tre (order : List PortIx) :
    (s.portsLoss order).tre = { s.tre with
      offered := s.tre.offered ++ (lossOrder order).map fun p => s.stamp .link p 0 0 0 } := rfl

theorem State.portsLoss_frame (order : List PortIx) :
    s.portsLoss order = { s with
      ports := (s.portsLoss order).ports
      attn := s.attn ||| 0x40#8
      tre := (s.portsLoss order).tre } := by
  unfold State.portsLoss
  generalize (lossOrder order).map (fun p => s.stamp .link p 0 0 0) = os
  rfl

theorem State.linkLoss_port (order : List PortIx) (p : PortIx) :
    (s.linkLoss order).port p = (s.port p).emptied.linkLoss := by
  rw [State.linkLoss, State.portsLoss_port, State.admissionLoss_port]
  rfl

theorem State.admissionLoss_frame :
    s.admissionLoss = { s with
      ports := s.admissionLoss.ports
      freeCount := 8192
      poolBelow := decide (8192 < s.warning.toNat)
      tre := (s.purgeAll allPorts).tre } := by
  have h := s.purgeAll_frame allPorts
  unfold State.admissionLoss
  generalize s.purgeAll allPorts = u at h ⊢
  rw [h]; rfl

theorem State.linkLoss_tre {order : List PortIx} (hn : order.Nodup) (hl : order.length = 16) :
    (s.linkLoss order).tre = { s.tre with offered := s.tre.offered ++
      ((allPorts.flatMap fun p => (allSources.filter fun src => !(s.lane p src).list.isEmpty).map fun src =>
        ⟨.purge, p, src, 0, BitVec.ofNat 16 (s.lane p src).list.length, (s.port p).roundCount, s.minute⟩) ++
      order.map (fun p => ⟨.link, p, 0, 0, 0, (s.port p).roundCount, s.minute⟩)) } := by
  have hf := s.dropLink.admissionLoss_frame
  have ht := State.purgeAll_tre s.dropLink allPorts (List.nodup_finRange 16)
  have htre : s.dropLink.admissionLoss.tre = (s.dropLink.purgeAll allPorts).tre := by conv_lhs => rw [hf]
  rw [ht] at htre
  have hp : ∀ p, (s.dropLink.admissionLoss.port p).roundCount = (s.port p).roundCount := by
    intro p; rw [State.admissionLoss_port]
    have : s.dropLink.port p = s.port p := rfl
    rw [this]; simp [Port.emptied]
  rw [State.linkLoss, State.portsLoss_tre, lossOrder_all hn hl]
  generalize s.dropLink.admissionLoss = u at hf htre hp ⊢
  have hm : u.minute = s.minute := by rw [hf]; rfl
  simp only [State.stamp, hp, hm, htre, List.append_assoc]
  rfl

theorem State.linkLoss_frame (order : List PortIx) :
    s.linkLoss order = { s with
      ports := (s.linkLoss order).ports, linkUp := false, inPartial := [], inWaiting := [], outQueue := []
      freeCount := 8192, poolBelow := false, attn := s.attn ||| 0x40#8, tre := (s.linkLoss order).tre } := by
  have hf := s.dropLink.admissionLoss_frame
  rw [State.linkLoss]
  have hg := s.dropLink.admissionLoss.portsLoss_frame order
  have hb : decide (8192 < s.dropLink.warning.toNat) = false := by
    have := s.dropLink.warning.isLt
    simp; omega
  rw [hb] at hf
  generalize s.dropLink.admissionLoss = u at hf hg ⊢
  generalize hv : u.portsLoss order = v at hg ⊢
  rw [hg, hf]
  rfl
end Sys2Proof.Machine
end

