-- ==== Sys2Proof/Laws/Orders.lean ====
section
/-! SUPPORT. Channels and the executor: register reads by width, what a completion does, and what the taking of a channel
gives. -/

namespace Sys2Proof.Machine

/-! ## Register reads -/

/-- A read of a whole word is the register at its offset, or zero (R147). -/
theorem State.busRead_word (s : State) (offset : Nat) : s.busRead offset 4 = (s.readRegister offset).toNat := rfl

/-- A narrower read is the addressed bytes of the register that holds them (R147). -/
theorem State.busRead_narrow (s : State) {offset width : Nat} (h : width < 4) :
    s.busRead offset width = registerBytes (s.readRegister (offset - offset % 4)) (offset % 4) width := if_pos h

/-! ## Completion -/

/-- An order block lies below the last address. -/
theorem Channel.blockAddress_add_le (c : Channel) : c.blockAddress + 32 ≤ Config.memorySize := by
  have := c.addr.isLt
  simp only [Channel.blockAddress, Config.memorySize]
  omega

/-- What a completion leaves in card memory, as the writes made. -/
theorem State.complete_cardMem (s : State) (c : ChannelIx) (r : OrderResult) (w1 : Word) (bus : CompletionBus) :
    (s.complete c r w1 bus).cardMem =
      if bus.progressOk then
        if r.status = .moved ∧ bus.successorOk = false then
          Memory.writeBytes s.cardMem ((s.channel c).blockAddress + 24) (wordBytes r.progress)
        else
          if bus.terminationOk then
            Memory.writeBytes (if r.status = .moved then
              Memory.writeBytes (Memory.writeBytes s.cardMem ((s.channel c).blockAddress + 24) (wordBytes r.progress))
                ((s.channel c).blockAddress + 4) (wordBytes (word1With w1 r.successor))
              else Memory.writeBytes s.cardMem ((s.channel c).blockAddress + 24) (wordBytes r.progress))
              ((s.channel c).blockAddress + 28) (wordBytes (terminationWord r.status r.detail))
          else (if r.status = .moved then
              Memory.writeBytes (Memory.writeBytes s.cardMem ((s.channel c).blockAddress + 24) (wordBytes r.progress))
                ((s.channel c).blockAddress + 4) (wordBytes (word1With w1 r.successor))
              else Memory.writeBytes s.cardMem ((s.channel c).blockAddress + 24) (wordBytes r.progress))
      else s.cardMem := by
  unfold State.complete
  dsimp only
  split
  · split
    · rfl
    · split
      · split <;> rfl
      · split <;> rfl
  · rfl

/-- A completion marks the channel DONE, whatever the bus answers. -/
theorem State.complete_eq (s : State) (c : ChannelIx) (r : OrderResult) (w1 : Word) (bus : CompletionBus) :
    s.complete c r w1 bus =
      { s.markDone c (completionFails bus r.status) with cardMem := (s.complete c r w1 bus).cardMem } := by
  rw [State.complete_cardMem]
  unfold State.complete completionFails
  dsimp only
  by_cases h1 : bus.progressOk = true
  · by_cases h2 : r.status = .moved
    · by_cases h3 : bus.successorOk = true
      · by_cases h4 : bus.terminationOk = true
        · simp only [h1, h2, h3, h4, if_true, reduceCtorEq, and_false, if_false]; rfl
        · simp only [h1, h2, h3, h4, if_true, reduceCtorEq, and_false, if_false]; rfl
      · simp only [h1, h2, h3, if_true, and_self]; rfl
    · have h2' : (r.status != .moved) = true := by simpa using h2
      by_cases h4 : bus.terminationOk = true
      · simp only [h1, h2, h2', h4, if_true, false_and, if_false]; rfl
      · simp only [h1, h2, h2', h4, if_true, false_and, if_false]; rfl
  · simp only [h1]; rfl

/-- The fields a completion leaves. -/
@[simp] theorem State.complete_ports (s : State) (c : ChannelIx) (r : OrderResult) (w1 : Word) (bus : CompletionBus) :
    (s.complete c r w1 bus).ports = s.ports := by rw [State.complete_eq]; rfl

@[simp] theorem State.complete_freeCount (s : State) (c : ChannelIx) (r : OrderResult) (w1 : Word) (bus : CompletionBus) :
    (s.complete c r w1 bus).freeCount = s.freeCount := by rw [State.complete_eq]; rfl

@[simp] theorem State.complete_executor (s : State) (c : ChannelIx) (r : OrderResult) (w1 : Word) (bus : CompletionBus) :
    (s.complete c r w1 bus).executor = s.executor := by rw [State.complete_eq]; rfl

@[simp] theorem State.complete_tre (s : State) (c : ChannelIx) (r : OrderResult) (w1 : Word) (bus : CompletionBus) :
    (s.complete c r w1 bus).tre = s.tre := by rw [State.complete_eq]; rfl

@[simp] theorem State.complete_pending (s : State) (c : ChannelIx) (r : OrderResult) (w1 : Word) (bus : CompletionBus) :
    (s.complete c r w1 bus).pending = s.pending := by rw [State.complete_eq]; rfl

@[simp] theorem State.complete_attn (s : State) (c : ChannelIx) (r : OrderResult) (w1 : Word) (bus : CompletionBus) :
    (s.complete c r w1 bus).attn = s.attn ||| flagBit c.val := by rw [State.complete_eq]; rfl

@[simp] theorem State.complete_channels (s : State) (c : ChannelIx) (r : OrderResult) (w1 : Word) (bus : CompletionBus) :
    (s.complete c r w1 bus).channels = (s.markDone c (completionFails bus r.status)).channels := by
  rw [State.complete_eq]

@[simp] theorem State.complete_reserve (s : State) (c : ChannelIx) (r : OrderResult) (w1 : Word) (bus : CompletionBus) :
    (s.complete c r w1 bus).reserve = s.reserve := by rw [State.complete_eq]; rfl

@[simp] theorem State.complete_warning (s : State) (c : ChannelIx) (r : OrderResult) (w1 : Word) (bus : CompletionBus) :
    (s.complete c r w1 bus).warning = s.warning := by rw [State.complete_eq]; rfl

@[simp] theorem State.complete_poolBelow (s : State) (c : ChannelIx) (r : OrderResult) (w1 : Word) (bus : CompletionBus) :
    (s.complete c r w1 bus).poolBelow = s.poolBelow := by rw [State.complete_eq]; rfl

@[simp] theorem State.complete_banks (s : State) (c : ChannelIx) (r : OrderResult) (w1 : Word) (bus : CompletionBus) :
    (s.complete c r w1 bus).banks = s.banks := by rw [State.complete_eq]; rfl

@[simp] theorem State.complete_windows (s : State) (c : ChannelIx) (r : OrderResult) (w1 : Word) (bus : CompletionBus) :
    (s.complete c r w1 bus).windows = s.windows := by rw [State.complete_eq]; rfl

@[simp] theorem State.complete_pins (s : State) (c : ChannelIx) (r : OrderResult) (w1 : Word) (bus : CompletionBus) :
    (s.complete c r w1 bus).pins = s.pins := by rw [State.complete_eq]; rfl

@[simp] theorem State.complete_minute (s : State) (c : ChannelIx) (r : OrderResult) (w1 : Word) (bus : CompletionBus) :
    (s.complete c r w1 bus).minute = s.minute := by rw [State.complete_eq]; rfl

@[simp] theorem State.complete_clockValid (s : State) (c : ChannelIx) (r : OrderResult) (w1 : Word) (bus : CompletionBus) :
    (s.complete c r w1 bus).clockValid = s.clockValid := by rw [State.complete_eq]; rfl

@[simp] theorem State.complete_linkReady (s : State) (c : ChannelIx) (r : OrderResult) (w1 : Word) (bus : CompletionBus) :
    (s.complete c r w1 bus).linkReady = s.linkReady := by rw [State.complete_eq]; rfl

@[simp] theorem State.complete_linkUp (s : State) (c : ChannelIx) (r : OrderResult) (w1 : Word) (bus : CompletionBus) :
    (s.complete c r w1 bus).linkUp = s.linkUp := by rw [State.complete_eq]; rfl

@[simp] theorem State.complete_inPartial (s : State) (c : ChannelIx) (r : OrderResult) (w1 : Word) (bus : CompletionBus) :
    (s.complete c r w1 bus).inPartial = s.inPartial := by rw [State.complete_eq]; rfl

@[simp] theorem State.complete_inWaiting (s : State) (c : ChannelIx) (r : OrderResult) (w1 : Word) (bus : CompletionBus) :
    (s.complete c r w1 bus).inWaiting = s.inWaiting := by rw [State.complete_eq]; rfl

@[simp] theorem State.complete_outQueue (s : State) (c : ChannelIx) (r : OrderResult) (w1 : Word) (bus : CompletionBus) :
    (s.complete c r w1 bus).outQueue = s.outQueue := by rw [State.complete_eq]; rfl

@[simp] theorem State.complete_badCount (s : State) (c : ChannelIx) (r : OrderResult) (w1 : Word) (bus : CompletionBus) :
    (s.complete c r w1 bus).badCount = s.badCount := by rw [State.complete_eq]; rfl

@[simp] theorem State.complete_attnMask (s : State) (c : ChannelIx) (r : OrderResult) (w1 : Word) (bus : CompletionBus) :
    (s.complete c r w1 bus).attnMask = s.attnMask := by rw [State.complete_eq]; rfl

@[simp] theorem State.complete_retests (s : State) (c : ChannelIx) (r : OrderResult) (w1 : Word) (bus : CompletionBus) :
    (s.complete c r w1 bus).retests = s.retests := by rw [State.complete_eq]; rfl

@[simp] theorem State.complete_freeCtr (s : State) (c : ChannelIx) (r : OrderResult) (w1 : Word) (bus : CompletionBus) :
    (s.complete c r w1 bus).freeCtr = s.freeCtr := by rw [State.complete_eq]; rfl

/-- Everything but the channels, ATTN and card memory is as it was. -/
theorem State.complete_frame (s : State) (c : ChannelIx) (r : OrderResult) (w1 : Word) (bus : CompletionBus) :
    s.complete c r w1 bus = { s with
      channels := (s.complete c r w1 bus).channels
      attn := (s.complete c r w1 bus).attn
      cardMem := (s.complete c r w1 bus).cardMem } := by
  rw [State.complete_eq]; rfl

/-- A completion keeps the canonical form of card memory. -/
theorem State.complete_memoryOk (s : State) (c : ChannelIx) (r : OrderResult) (w1 : Word) (bus : CompletionBus)
    (w : s.MemoryOk) : (s.complete c r w1 bus).MemoryOk := by
  unfold State.MemoryOk
  rw [State.complete_cardMem]
  have h1 := Memory.wf_writeBytes (wordBytes r.progress) _ ((s.channel c).blockAddress + 24) w
  have h2 := Memory.wf_writeBytes (wordBytes (word1With w1 r.successor)) _ ((s.channel c).blockAddress + 4) h1
  split
  · split
    · exact h1
    · split
      · apply Memory.wf_writeBytes; split
        · exact h2
        · exact h1
      · split
        · exact h2
        · exact h1
  · exact w

/-- A completion completes the channel (R155, R156). -/
theorem State.complete_completed (s : State) (c : ChannelIx) (r : OrderResult) (w1 : Word) (bus : CompletionBus) :
    s.Completed (s.complete c r w1 bus) c r.status r.progress r.detail bus := by
  have hb := (s.channel c).blockAddress_add_le
  refine ⟨?_, ?_, ?_, ?_, ?_, ?_⟩
  · rw [State.complete_channels]; rfl
  · rw [State.complete_attn]
  · intro k hk
    simp only [State.complete_cardMem]
    repeat' split
    all_goals first
      | rfl
      | (repeat rw [Memory.read_writeBytes _ _ _ _ (by simp only [wordBytes_length]; omega)]
         simp only [wordBytes_length]
         repeat rw [if_neg (by omega)])
  · intro i hi
    have hlt := i.isLt
    simp only [State.complete_cardMem]
    repeat' split
    all_goals first
      | rfl
      | (rename_i hm; have hi' := hi hm
         repeat rw [Memory.read_writeBytes _ _ _ _ (by simp only [wordBytes_length]; omega)]
         simp only [wordBytes_length]
         repeat rw [if_neg (by omega)])
      | (repeat rw [Memory.read_writeBytes _ _ _ _ (by simp only [wordBytes_length]; omega)]
         simp only [wordBytes_length]
         repeat rw [if_neg (by omega)])
  · intro hf
    simp only [completionFails, Bool.not_eq_eq_eq_not, Bool.not_false, Bool.and_eq_true, Bool.or_eq_true, bne_iff_ne,
      ne_eq] at hf
    obtain ⟨h1, h2, h3⟩ := hf
    simp only [State.complete_cardMem, h1, h3, if_true]
    have hn : ¬ (r.status = .moved ∧ bus.successorOk = false) := by
      rintro ⟨e, f⟩; rcases h2 with h2 | h2 <;> simp_all
    rw [if_neg hn]
    apply Memory.holds_writeBytes_other _ _ _ _ _ (by simp only [wordBytes_length]; omega)
      (Or.inl (by simp only [wordBytes_length]; omega))
    split
    · apply Memory.holds_writeBytes_other _ _ _ _ _ (by simp only [wordBytes_length]; omega)
        (Or.inr (by simp only [wordBytes_length]; omega))
      exact Memory.holds_writeBytes _ _ _ (by simp only [wordBytes_length]; omega)
    · exact Memory.holds_writeBytes _ _ _ (by simp only [wordBytes_length]; omega)
  · intro hf
    simp only [completionFails, Bool.not_eq_eq_eq_not, Bool.not_false, Bool.and_eq_true, Bool.or_eq_true, bne_iff_ne,
      ne_eq] at hf
    obtain ⟨h1, h2, h3⟩ := hf
    simp only [State.complete_cardMem, h1, h3, if_true]
    have hn : ¬ (r.status = .moved ∧ bus.successorOk = false) := by
      rintro ⟨e, f⟩; rcases h2 with h2 | h2 <;> simp_all
    rw [if_neg hn]
    exact Memory.holds_writeBytes _ _ _ (by simp only [wordBytes_length]; omega)

/-- Word 1 with the successor: bits 27..24 hold it, the others are as they were. -/
theorem word1With_bits (w : Word) (x : PortIx) :
    (word1With w x).extractLsb' 24 4 = BitVec.ofNat 4 x.val ∧ (word1With w x).extractLsb' 0 24 = w.extractLsb' 0 24 ∧
    (word1With w x).extractLsb' 28 4 = w.extractLsb' 28 4 := by
  have hv : BitVec.ofNat 32 (x.val * 2 ^ 24) = (BitVec.ofNat 4 x.val).setWidth 32 <<< 24 := by revert x; decide
  simp only [word1With, hv]
  refine ⟨?_, ?_, ?_⟩ <;>
    (apply BitVec.eq_of_getLsbD_eq
     intro i hi
     simp only [BitVec.getLsbD_extractLsb', BitVec.getLsbD_or, BitVec.getLsbD_and, BitVec.getLsbD_not]
     interval_cases i <;> simp)

/-- On MOVED a completion writes the successor into word 1 (R155 step 2). -/
theorem State.complete_namesSuccessor (s : State) (c : ChannelIx) (r : OrderResult) (w1 : Word) (bus : CompletionBus)
    (hr : r.status = .moved) : s.NamesSuccessor (s.complete c r w1 bus) c w1 r.successor bus := by
  have hb := (s.channel c).blockAddress_add_le
  intro hf
  simp only [completionFails, Bool.not_eq_eq_eq_not, Bool.not_false, Bool.and_eq_true, Bool.or_eq_true, bne_iff_ne,
    ne_eq, not_true_eq_false, false_or] at hf
  obtain ⟨h1, h2, h3⟩ := hf
  refine ⟨word1With w1 r.successor, ?_, ?_, ?_, ?_⟩
  · simp only [State.complete_cardMem, h1, h2, h3, hr, if_true, Bool.true_eq_false, and_false, if_false]
    apply Memory.holds_writeBytes_other _ _ _ _ _ (by simp only [wordBytes_length]; omega)
      (Or.inl (by simp only [wordBytes_length]; omega))
    exact Memory.holds_writeBytes _ _ _ (by simp only [wordBytes_length]; omega)
  all_goals first
    | exact (word1With_bits w1 r.successor).1
    | exact (word1With_bits w1 r.successor).2.1
    | exact (word1With_bits w1 r.successor).2.2

/-! ## The executor's completion -/

/-- The executor's completion is a completion that leaves the executor free. -/
theorem State.finish_eq (s : State) (c : ChannelIx) (r : OrderResult) (w1 : Word) (bus : CompletionBus) :
    s.finish c r w1 bus = { s.complete c r w1 bus with executor := .free } := rfl

/-- The fields the executor's completion leaves. -/
@[simp] theorem State.finish_ports (s : State) (c : ChannelIx) (r : OrderResult) (w1 : Word) (bus : CompletionBus) :
    (s.finish c r w1 bus).ports = s.ports := by rw [State.finish_eq]; exact State.complete_ports s c r w1 bus

@[simp] theorem State.finish_freeCount (s : State) (c : ChannelIx) (r : OrderResult) (w1 : Word) (bus : CompletionBus) :
    (s.finish c r w1 bus).freeCount = s.freeCount := by rw [State.finish_eq]; exact State.complete_freeCount s c r w1 bus

@[simp] theorem State.finish_tre (s : State) (c : ChannelIx) (r : OrderResult) (w1 : Word) (bus : CompletionBus) :
    (s.finish c r w1 bus).tre = s.tre := by rw [State.finish_eq]; exact State.complete_tre s c r w1 bus

@[simp] theorem State.finish_pending (s : State) (c : ChannelIx) (r : OrderResult) (w1 : Word) (bus : CompletionBus) :
    (s.finish c r w1 bus).pending = s.pending := by rw [State.finish_eq]; exact State.complete_pending s c r w1 bus

@[simp] theorem State.finish_reserve (s : State) (c : ChannelIx) (r : OrderResult) (w1 : Word) (bus : CompletionBus) :
    (s.finish c r w1 bus).reserve = s.reserve := by rw [State.finish_eq]; exact State.complete_reserve s c r w1 bus

@[simp] theorem State.finish_warning (s : State) (c : ChannelIx) (r : OrderResult) (w1 : Word) (bus : CompletionBus) :
    (s.finish c r w1 bus).warning = s.warning := by rw [State.finish_eq]; exact State.complete_warning s c r w1 bus

@[simp] theorem State.finish_poolBelow (s : State) (c : ChannelIx) (r : OrderResult) (w1 : Word) (bus : CompletionBus) :
    (s.finish c r w1 bus).poolBelow = s.poolBelow := by rw [State.finish_eq]; exact State.complete_poolBelow s c r w1 bus

@[simp] theorem State.finish_banks (s : State) (c : ChannelIx) (r : OrderResult) (w1 : Word) (bus : CompletionBus) :
    (s.finish c r w1 bus).banks = s.banks := by rw [State.finish_eq]; exact State.complete_banks s c r w1 bus

@[simp] theorem State.finish_windows (s : State) (c : ChannelIx) (r : OrderResult) (w1 : Word) (bus : CompletionBus) :
    (s.finish c r w1 bus).windows = s.windows := by rw [State.finish_eq]; exact State.complete_windows s c r w1 bus

@[simp] theorem State.finish_pins (s : State) (c : ChannelIx) (r : OrderResult) (w1 : Word) (bus : CompletionBus) :
    (s.finish c r w1 bus).pins = s.pins := by rw [State.finish_eq]; exact State.complete_pins s c r w1 bus

@[simp] theorem State.finish_minute (s : State) (c : ChannelIx) (r : OrderResult) (w1 : Word) (bus : CompletionBus) :
    (s.finish c r w1 bus).minute = s.minute := by rw [State.finish_eq]; exact State.complete_minute s c r w1 bus

@[simp] theorem State.finish_clockValid (s : State) (c : ChannelIx) (r : OrderResult) (w1 : Word) (bus : CompletionBus) :
    (s.finish c r w1 bus).clockValid = s.clockValid := by rw [State.finish_eq]; exact State.complete_clockValid s c r w1 bus

@[simp] theorem State.finish_linkReady (s : State) (c : ChannelIx) (r : OrderResult) (w1 : Word) (bus : CompletionBus) :
    (s.finish c r w1 bus).linkReady = s.linkReady := by rw [State.finish_eq]; exact State.complete_linkReady s c r w1 bus

@[simp] theorem State.finish_linkUp (s : State) (c : ChannelIx) (r : OrderResult) (w1 : Word) (bus : CompletionBus) :
    (s.finish c r w1 bus).linkUp = s.linkUp := by rw [State.finish_eq]; exact State.complete_linkUp s c r w1 bus

@[simp] theorem State.finish_inPartial (s : State) (c : ChannelIx) (r : OrderResult) (w1 : Word) (bus : CompletionBus) :
    (s.finish c r w1 bus).inPartial = s.inPartial := by rw [State.finish_eq]; exact State.complete_inPartial s c r w1 bus

@[simp] theorem State.finish_inWaiting (s : State) (c : ChannelIx) (r : OrderResult) (w1 : Word) (bus : CompletionBus) :
    (s.finish c r w1 bus).inWaiting = s.inWaiting := by rw [State.finish_eq]; exact State.complete_inWaiting s c r w1 bus

@[simp] theorem State.finish_outQueue (s : State) (c : ChannelIx) (r : OrderResult) (w1 : Word) (bus : CompletionBus) :
    (s.finish c r w1 bus).outQueue = s.outQueue := by rw [State.finish_eq]; exact State.complete_outQueue s c r w1 bus

@[simp] theorem State.finish_badCount (s : State) (c : ChannelIx) (r : OrderResult) (w1 : Word) (bus : CompletionBus) :
    (s.finish c r w1 bus).badCount = s.badCount := by rw [State.finish_eq]; exact State.complete_badCount s c r w1 bus

@[simp] theorem State.finish_attnMask (s : State) (c : ChannelIx) (r : OrderResult) (w1 : Word) (bus : CompletionBus) :
    (s.finish c r w1 bus).attnMask = s.attnMask := by rw [State.finish_eq]; exact State.complete_attnMask s c r w1 bus

@[simp] theorem State.finish_retests (s : State) (c : ChannelIx) (r : OrderResult) (w1 : Word) (bus : CompletionBus) :
    (s.finish c r w1 bus).retests = s.retests := by rw [State.finish_eq]; exact State.complete_retests s c r w1 bus

@[simp] theorem State.finish_freeCtr (s : State) (c : ChannelIx) (r : OrderResult) (w1 : Word) (bus : CompletionBus) :
    (s.finish c r w1 bus).freeCtr = s.freeCtr := by rw [State.finish_eq]; exact State.complete_freeCtr s c r w1 bus

@[simp] theorem State.finish_executor (s : State) (c : ChannelIx) (r : OrderResult) (w1 : Word) (bus : CompletionBus) :
    (s.finish c r w1 bus).executor = .free := rfl

/-- Everything but the channels, ATTN, card memory and the executor is as it was. -/
theorem State.finish_frame (s : State) (c : ChannelIx) (r : OrderResult) (w1 : Word) (bus : CompletionBus) :
    s.finish c r w1 bus = { s with
      executor := .free
      channels := (s.finish c r w1 bus).channels
      attn := (s.finish c r w1 bus).attn
      cardMem := (s.finish c r w1 bus).cardMem } := by
  rw [State.finish_eq, State.complete_frame]

/-- The executor's completion keeps the canonical form of card memory. -/
theorem State.finish_memoryOk (s : State) (c : ChannelIx) (r : OrderResult) (w1 : Word) (bus : CompletionBus)
    (w : s.MemoryOk) : (s.finish c r w1 bus).MemoryOk := State.complete_memoryOk s c r w1 bus w

/-- What completes a state also completes any other with the same channels, ATTN and card memory. -/
theorem State.Completed.congr {s s' t : State} {c : ChannelIx} {st : Status} {progress : Word} {detail : BitVec 16}
    {bus : CompletionBus} (h : s.Completed t c st progress detail bus)
    (hc : (s'.channel c).addr = (s.channel c).addr)
    (ho : s'.channels.set c ⟨.done (completionFails bus st), (s.channel c).addr, false⟩ = t.channels)
    (ha : s'.attn = s.attn) (hm : s'.cardMem = s.cardMem) : s'.Completed t c st progress detail bus := by
  have hb : (s'.channel c).blockAddress = (s.channel c).blockAddress := by simp only [Channel.blockAddress, hc]
  exact ⟨by rw [hc, ho], by rw [ha]; exact h.attn, by rw [hb, hm]; exact h.others, by rw [hb, hm]; exact h.kept,
    by rw [hb]; exact h.progressWord, by rw [hb]; exact h.terminationWord⟩

/-- The executor's completion of the order of channel `c`, from a state that may differ from `s` elsewhere and in the phase of
`c`, completes `c` from `s`. -/
theorem State.finish_completed {s u : State} (c : ChannelIx) (ph : ChannelPhase) (ab : Bool) (r : OrderResult) (w1 : Word)
    (bus : CompletionBus) (hc : u.channels = s.channels.set c ⟨ph, (s.channel c).addr, ab⟩) (ha : u.attn = s.attn)
    (hm : u.cardMem = s.cardMem) :
    s.Completed (u.finish c r w1 bus) c r.status r.progress r.detail bus := by
  have hu : u.channel c = ⟨ph, (s.channel c).addr, ab⟩ := by simp [State.channel, hc]
  have h := State.complete_completed u c r w1 bus
  have hcc : (u.finish c r w1 bus).channels = (u.complete c r w1 bus).channels := rfl
  refine State.Completed.congr (s := u) (t := u.finish c r w1 bus) ⟨h.channels, h.attn, h.others, h.kept, h.progressWord,
    h.terminationWord⟩ (by rw [hu]) ?_ ha.symm hm.symm
  rw [hcc, h.channels, hu, hc, Vector.set_set]

/-- The executor's completion of an order that ends MOVED names the successor, from a state with the same block address. -/
theorem State.finish_namesSuccessor {s u : State} (c : ChannelIx) (r : OrderResult) (w1 : Word) (bus : CompletionBus)
    (hc : (u.channel c).addr = (s.channel c).addr) (hr : r.status = .moved) :
    s.NamesSuccessor (u.finish c r w1 bus) c w1 r.successor bus := by
  have hb : (s.channel c).blockAddress = (u.channel c).blockAddress := by simp only [Channel.blockAddress, hc]
  have h := State.complete_namesSuccessor u c r w1 bus hr
  unfold State.NamesSuccessor at h ⊢
  rw [hb]
  exact h

/-! ## The executor takes a channel -/

/-- The lowest-numbered waiting channel. -/
theorem State.lowestWaiting_of {s : State} {c : ChannelIx} (h : s.WaitsLowest c) : s.lowestWaiting = some c := by
  obtain ⟨h2, h3⟩ := h
  rw [State.lowestWaiting, allChannels, List.find?_eq_some_iff_getElem]
  refine ⟨by simp [h2], c.val, by simp, by simp, ?_⟩
  intro j hj
  have := h3 ⟨j, by omega⟩ (by simpa [Fin.lt_def] using hj)
  simpa using this

/-- What is found waits, and no lower-numbered channel does. -/
theorem State.waitsLowest_of {s : State} {c : ChannelIx} (h : s.lowestWaiting = some c) : s.WaitsLowest c := by
  rw [State.lowestWaiting, allChannels, List.find?_eq_some_iff_getElem] at h
  obtain ⟨h1, i, hi, hc, hl⟩ := h
  refine ⟨by simpa using h1, ?_⟩
  intro d hd
  have hcd : c.val = i := by rw [← hc]; simp
  have := hl d.val (by rw [← hcd]; exact hd)
  simpa using this

/-- Where no channel waits, none is found. -/
theorem State.lowestWaiting_none {s : State} (h : ∀ c : ChannelIx, (s.channel c).phase ≠ .waiting) :
    s.lowestWaiting = none := by
  rw [State.lowestWaiting, List.find?_eq_none]
  intro c _
  simpa using h c

/-- A busy executor takes no channel. -/
theorem State.takeNext_busy {s : State} (h : s.executor ≠ .free) : s.takeNext = s := by
  unfold State.takeNext
  split <;> first | rfl | (exfalso; exact h (by assumption))

/-- A free executor takes the lowest-numbered waiting channel. -/
theorem State.takeNext_takes {s : State} {c : ChannelIx} (h : s.executor = .free) (hc : s.WaitsLowest c) :
    s.takeNext = s.takeChannel c := by
  simp only [State.takeNext, h, State.lowestWaiting_of hc]

/-- With none waiting it stays free. -/
theorem State.takeNext_none {s : State} (h : ∀ c : ChannelIx, (s.channel c).phase ≠ .waiting) : s.takeNext = s := by
  unfold State.takeNext
  split
  · rw [State.lowestWaiting_none h]
  all_goals rfl

/-- What the executor's taking can do: nothing, or it takes a waiting channel while free. -/
theorem State.takeNext_cases (s : State) :
    s.takeNext = s ∨ ∃ c : ChannelIx, s.executor = .free ∧ s.WaitsLowest c ∧ s.takeNext = s.takeChannel c := by
  unfold State.takeNext
  split
  · rename_i hf
    split
    · exact Or.inl rfl
    · rename_i c hc
      exact Or.inr ⟨c, hf, State.waitsLowest_of hc, rfl⟩
  all_goals exact Or.inl rfl

/-- The executor's taking keeps what each taking of a waiting channel keeps. -/
theorem State.takeNext_induct (s : State) (P : State → Prop) (h : P s)
    (take : ∀ c : ChannelIx, s.executor = .free → (s.channel c).phase = .waiting → P (s.takeChannel c)) : P s.takeNext := by
  rcases s.takeNext_cases with e | ⟨c, hf, hw, e⟩
  · rw [e]; exact h
  · rw [e]; exact take c hf hw.1

/-- The channel whose order the executor begins. -/
theorem State.nextChannel_of_begins {s : State} {c : ChannelIx} {unread : Bool} (h : s.Begins c unread) :
    s.nextChannel = some (c, unread) := by
  rcases h with h | ⟨h, hw, ha⟩
  · simp only [State.nextChannel, h]
  · simp only [State.nextChannel, h, State.lowestWaiting_of hw, Option.map_some, ha]

/-- The channel found is one that the executor has taken or takes now. -/
theorem State.begins_of_nextChannel {s : State} {c : ChannelIx} {unread : Bool} (h : s.nextChannel = some (c, unread)) :
    s.Begins c unread := by
  unfold State.nextChannel at h
  split at h
  · rename_i hf
    rw [Option.map_eq_some_iff] at h
    obtain ⟨d, hd, he⟩ := h
    simp only [Prod.mk.injEq] at he
    obtain ⟨rfl, rfl⟩ := he
    exact Or.inr ⟨hf, State.waitsLowest_of hd, rfl⟩
  · rename_i d u hf
    simp only [Option.some.injEq, Prod.mk.injEq] at h
    obtain ⟨rfl, rfl⟩ := h
    exact Or.inl hf
  all_goals simp at h

/-- An order whose block is read runs on the channel's state in the executing phase. -/
theorem State.takeOrder_of_carriesOut {s : State} {c : ChannelIx} (h : s.CarriesOut c) (b : OrderBlock) (bus : CompletionBus)
    (run : ChannelIx → OrderBlock → State → State) :
    s.takeOrder (some b) bus run = run c b (s.beginExecuting c) := by
  simp [State.takeOrder, State.nextChannel_of_begins h]

/-- The channels after the taking of a channel. -/
theorem State.beginExecuting_channels (s : State) (c : ChannelIx) :
    (s.beginExecuting c).channels = s.channels.set c ⟨.executing, (s.channel c).addr, (s.channel c).abortReq⟩ := rfl

/-- A channel that was marked for abort when taken ends ABORTED, whatever its block holds (R154). -/
theorem State.takeOrder_aborted {s : State} {c : ChannelIx} (h : s.Begins c true)
    (block : Option OrderBlock) (bus : CompletionBus) (run : ChannelIx → OrderBlock → State → State) :
    s.takeOrder block bus run = (s.beginExecuting c).finish c (OrderResult.of .aborted 0 0) 0 bus := by
  simp [State.takeOrder, State.nextChannel_of_begins h]

/-- A block whose read failed marks the channel DONE with FAULT and leaves the executor free (R156). -/
theorem State.takeOrder_unread {s : State} {c : ChannelIx} (h : s.CarriesOut c) (bus : CompletionBus)
    (run : ChannelIx → OrderBlock → State → State) :
    s.takeOrder none bus run = { s with
      executor := .free
      channels := s.channels.set c ⟨.done true, (s.channel c).addr, false⟩
      attn := s.attn ||| flagBit c.val } := by
  simp only [State.takeOrder, State.nextChannel_of_begins h]
  simp only [State.markDone, State.beginExecuting, State.setChannel, State.channel, State.latch]
  simp

/-- Setting a channel to itself changes nothing. -/
theorem State.channels_set_self (s : State) (c : ChannelIx) :
    s.channels.set c ⟨(s.channel c).phase, (s.channel c).addr, (s.channel c).abortReq⟩ = s.channels :=
  Vector.set_getElem_self c.isLt

/-- The executor's completion of an order of which nothing was carried out. -/
theorem State.finish_ended (s : State) (x : Executor) (c : ChannelIx) (ph : ChannelPhase) (ab : Bool) (r : OrderResult)
    (w1 : Word) (bus : CompletionBus) :
    s.EndedUntouched
      (({ s with executor := x, channels := s.channels.set c ⟨ph, (s.channel c).addr, ab⟩ } : State).finish c r w1 bus)
      c r.status r.progress r.detail bus :=
  ⟨State.finish_completed c ph ab r w1 bus rfl rfl rfl, State.finish_frame _ c r w1 bus⟩

/-- The executor's completion of the order it carries out, from the state as it stands. -/
theorem State.finish_ended_self (s : State) (c : ChannelIx) (r : OrderResult) (w1 : Word) (bus : CompletionBus) :
    s.EndedUntouched (s.finish c r w1 bus) c r.status r.progress r.detail bus := by
  have h := State.finish_ended s s.executor c (s.channel c).phase (s.channel c).abortReq r w1 bus
  rwa [State.channels_set_self] at h

/-- The executor's completion of the order it has just taken. -/
theorem State.finish_ended_taken (s : State) (c : ChannelIx) (r : OrderResult) (w1 : Word) (bus : CompletionBus) :
    s.EndedUntouched ((s.beginExecuting c).finish c r w1 bus) c r.status r.progress r.detail bus :=
  State.finish_ended s .free c .executing (s.channel c).abortReq r w1 bus

/-- A PORT order of which nothing was carried out. -/
theorem State.port_ended (s : State) (c : ChannelIx) (r : OrderResult) (w1 : Word)
    (bus : CompletionBus) :
    s.PortEndedUntouched (({ s.beginExecuting c with freeCtr := s.freeCtr + 1 } : State).finish c r w1 bus)
      c r.status r.detail bus := by
  refine ⟨⟨r.progress, State.finish_completed c .executing (s.channel c).abortReq r w1 bus rfl rfl rfl⟩, ?_⟩
  apply State.eq_of_fields <;> first | rfl | simp [State.beginExecuting]

/-- The end of an armed trace (R158), from a state `u` that differs from `s` in the trace engine, in card memory and in the phase
and mark of the trace's channel. -/
theorem State.endTrace_ended (s : State) (m : List Host.Cell) (e : Option ArmedTrace) (tr : ArmedTrace) (ph : ChannelPhase)
    (ab : Bool) (gap : Nat) (st : Status) (detail : Nat) (bus : CompletionBus) :
    s.TraceEnded { s with cardMem := m }
      (({ s with
        channels := s.channels.set tr.channel ⟨ph, (s.channel tr.channel).addr, ab⟩
        cardMem := m
        tre := { s.tre with armed := e, gapCount := BitVec.ofNat 32 (min gap 4294967295) } } : State).endTrace
          tr st (BitVec.ofNat 16 detail) bus) tr st tr.written detail gap bus := by
  constructor
  · have h := State.complete_completed { s with
        channels := s.channels.set tr.channel ⟨ph, (s.channel tr.channel).addr, ab⟩
        cardMem := m
        tre := { s.tre with armed := none, gapCount := BitVec.ofNat 32 (min gap 4294967295) } } tr.channel
      (OrderResult.of st (BitVec.ofNat 32 tr.written) (BitVec.ofNat 16 detail)) 0 bus
    refine State.Completed.congr h ?_ ?_ rfl rfl
    · simp [State.channel]
    · have h2 := h.channels
      refine Eq.trans ?_ h2.symm
      simp [State.channel, OrderResult.of]
  · exact State.complete_frame _ _ _ _ _

/-- A 32-bit count that does not rise is its own saturated value. -/
theorem count_keeps (g : BitVec 32) : BitVec.ofNat 32 (min g.toNat 4294967295) = g := by
  have := g.isLt
  rw [Nat.min_eq_left (by omega)]
  simp

/-- The end of an armed trace that leaves the gap count. -/
theorem State.endTrace_ended_keep (s : State) (m : List Host.Cell) (e : Option ArmedTrace) (tr : ArmedTrace)
    (ph : ChannelPhase) (ab : Bool) (st : Status) (detail : Nat) (bus : CompletionBus) :
    s.TraceEnded { s with cardMem := m }
      (({ s with
        channels := s.channels.set tr.channel ⟨ph, (s.channel tr.channel).addr, ab⟩
        cardMem := m
        tre := { s.tre with armed := e } } : State).endTrace
          tr st (BitVec.ofNat 16 detail) bus) tr st tr.written detail s.tre.gapCount.toNat bus := by
  have h := State.endTrace_ended s m e tr ph ab s.tre.gapCount.toNat st detail bus
  rwa [count_keeps] at h

end Sys2Proof.Machine
end

