-- ==== Sys2Proof/Laws/ShareOrders.lean ====
section
/-! SUPPORT. The orders of Chapter 6 that are one event each, WINDOW and PIN: their checks and what each outcome changes. -/

namespace Sys2Proof.Machine
variable (s : State)

/-- The first entry of a strictly ordered list that a test selects. -/
theorem find?_first {α : Type} {l : List α} {t : α → Bool} {x : α} (lt : α → α → Prop) (hl : l.Pairwise lt)
    (hx : x ∈ l) (ht : t x = true) (hb : ∀ y ∈ l, lt y x → t y = false) : l.find? t = some x := by
  induction l with
  | nil => simp at hx
  | cons a rest ih =>
    rw [List.pairwise_cons] at hl
    rcases List.mem_cons.mp hx with rfl | hx'
    · simp [ht]
    · have : t a = false := hb a List.mem_cons_self (hl.1 x hx')
      simp only [List.find?_cons, this]
      exact ih hl.2 hx' fun y hy => hb y (List.mem_cons_of_mem a hy)

theorem find?_nothing {α : Type} {l : List α} {t : α → Bool} (h : ∀ x ∈ l, t x = false) : l.find? t = none := by
  simp only [List.find?_eq_none]; intro x hx; simp [h x hx]

/-- A WINDOW that the profile or a minute makes BAD_ORDER (R125). -/
theorem State.windowOrder_bad (b : OrderBlock) (h : b.profile = 0 ∨ 1440 ≤ b.windowStart.toNat ∨ 1440 ≤ b.windowEnd.toNat) :
    s.windowOrder b = (s, OrderResult.of .badOrder 0 0) := by
  unfold State.windowOrder
  split
  · rename_i w a e hw ha he
    rcases h with h | h | h
    · rw [h] at hw; simp [State.window?] at hw
    · simp [minuteOf, h] at ha
    · simp [minuteOf, h] at he
  · rfl

theorem State.window?_succ {k : ProfileIx} {i : Fin 3} (h : k.val = i.val + 1) : s.window? k = some s.windows[i] := by
  obtain ⟨i, hi⟩ := i
  interval_cases i
  · obtain rfl : k = 1 := Fin.ext h; rfl
  · obtain rfl : k = 2 := Fin.ext h; rfl
  · obtain rfl : k = 3 := Fin.ext h; rfl

theorem State.setWindow_succ {k : ProfileIx} {i : Fin 3} (h : k.val = i.val + 1) (w : Window) :
    s.setWindow k w = { s with windows := s.windows.set i w } := by
  obtain ⟨i, hi⟩ := i
  interval_cases i
  · obtain rfl : k = 1 := Fin.ext h; rfl
  · obtain rfl : k = 2 := Fin.ext h; rfl
  · obtain rfl : k = 3 := Fin.ext h; rfl

theorem legalBooking_iff (es : Vector BankEntry 64) (pins : PinList) (p : PortIx) (n : Nat) :
    legalBooking es pins p n = true ↔ bookedSum es pins p ≤ n := by simp [legalBooking]

theorem legalBooking_false_iff (es : Vector BankEntry 64) (pins : PinList) (p : PortIx) (n : Nat) :
    legalBooking es pins p n = false ↔ n < bookedSum es pins p := by simp [legalBooking]

theorem State.recomputeSelection_frame : s.recomputeSelection = { s with ports := s.recomputeSelection.ports } := rfl

theorem mem_addedPorts {old new : BitVec 16} {p : PortIx} :
    p ∈ addedPorts old new ↔ new.getLsbD p.val = true ∧ old.getLsbD p.val = false := by
  simp [addedPorts, allPorts]

/-- A WINDOW with a newly added port whose booked sum is not legal (R126). -/
theorem State.windowOrder_overbook (b : OrderBlock) {i : Fin 3} (h1 : b.windowStart.toNat < 1440) (h2 : b.windowEnd.toNat < 1440)
    (hk : b.profile.val = i.val + 1) (p : PortIx) (hn : b.windowMask.getLsbD p.val = true)
    (ho : s.windows[i].mask.getLsbD p.val = false)
    (hf : ∀ p' : PortIx, p' < p → b.windowMask.getLsbD p'.val = true → s.windows[i].mask.getLsbD p'.val = false →
      bookedSum (s.bankPort b.profile p') s.pins p' ≤ s.figure p')
    (hx : s.figure p < bookedSum (s.bankPort b.profile p) s.pins p) :
    s.windowOrder b = (s, OrderResult.of .overbook 0 (BitVec.ofNat 16 (p.val + 256 * b.profile.val))) := by
  unfold State.windowOrder
  rw [State.window?_succ s hk]
  simp only [minuteOf, h1, h2, dif_pos]
  have : firstOverbook ((addedPorts s.windows[i].mask b.windowMask).map fun p => (b.profile, p))
      (fun k p => legalBooking (s.bankPort k p) s.pins p (s.figure p)) = some (b.profile, p) := by
    unfold firstOverbook
    rw [List.find?_map]
    have : (addedPorts s.windows[i].mask b.windowMask).find? ((fun c : ProfileIx × PortIx => !legalBooking (s.bankPort c.1 c.2) s.pins c.2 (s.figure c.2)) ∘ fun p => (b.profile, p)) = some p := by
      apply find?_first (· < ·)
      · apply List.Pairwise.filter; decide
      · exact mem_addedPorts.mpr ⟨hn, ho⟩
      · simp only [Function.comp, Bool.not_eq_true', legalBooking_false_iff]; exact hx
      · intro y hy hlt
        have := mem_addedPorts.mp hy
        simp only [Function.comp, Bool.not_eq_false', legalBooking_iff]; exact hf y hlt this.1 this.2
    rw [this]; rfl
  rw [this]; rfl

/-- A WINDOW carried out (R126). -/
theorem State.windowOrder_ok (b : OrderBlock) {i : Fin 3} (h1 : b.windowStart.toNat < 1440) (h2 : b.windowEnd.toNat < 1440)
    (hk : b.profile.val = i.val + 1)
    (hf : ∀ p : PortIx, b.windowMask.getLsbD p.val = true → s.windows[i].mask.getLsbD p.val = false →
      bookedSum (s.bankPort b.profile p) s.pins p ≤ s.figure p) :
    s.windowOrder b = (({ s with windows := s.windows.set i ⟨⟨b.windowStart.toNat, h1⟩, ⟨b.windowEnd.toNat, h2⟩, b.windowMask⟩ } : State).recomputeSelection, OrderResult.ok0) := by
  unfold State.windowOrder
  rw [State.window?_succ s hk]
  simp only [minuteOf, h1, h2, dif_pos]
  have : firstOverbook ((addedPorts s.windows[i].mask b.windowMask).map fun p => (b.profile, p))
      (fun k p => legalBooking (s.bankPort k p) s.pins p (s.figure p)) = none := by
    unfold firstOverbook
    apply find?_nothing
    intro x hx
    simp only [List.mem_map] at hx
    obtain ⟨p, hp, rfl⟩ := hx
    have := mem_addedPorts.mp hp
    simp only [Bool.not_eq_false', legalBooking_iff]; exact hf p this.1 this.2
  rw [this]
  simp only [State.setWindow_succ s hk]

/-- An order carried out as one event and completed. -/
theorem State.simpleOrder_of {s u : State} {c : ChannelIx} (h : s.CarriesOut c) (b : OrderBlock) (bus : CompletionBus)
    {act : OrderBlock → State → State × OrderResult} {r : OrderResult} (ha : act b (s.beginExecuting c) = (u, r)) :
    s.simpleOrder (some b) bus act = u.finish c r b.w1 bus := by
  unfold State.simpleOrder
  rw [State.takeOrder_of_carriesOut h, ha]

/-- An order carried out as one event that fails ends with nothing changed. -/
theorem State.simpleOrder_ended {s : State} {c : ChannelIx} (h : s.CarriesOut c) (b : OrderBlock) (bus : CompletionBus)
    {act : OrderBlock → State → State × OrderResult} {r : OrderResult}
    (ha : act b (s.beginExecuting c) = (s.beginExecuting c, r)) :
    s.EndedUntouched (s.simpleOrder (some b) bus act) c r.status r.progress r.detail bus := by
  rw [State.simpleOrder_of h b bus ha]
  exact State.finish_ended_taken s c r b.w1 bus

theorem State.selectFor_congr {s t : State} (hc : t.clockValid = s.clockValid) (hw : t.windows = s.windows)
    (hm : t.minute = s.minute) (p : PortIx) : t.selectFor p = s.selectFor p := by
  have h1 : ∀ k, t.window? k = s.window? k := by intro k; unfold State.window?; rw [hw]
  have h2 : t.candidate p = s.candidate p := by funext k; simp only [State.candidate, h1, hm]
  have h3 : t.windowAge = s.windowAge := by funext k; simp only [State.windowAge, h1, hm]
  have h4 : t.newerWindow = s.newerWindow := by funext b k; simp only [State.newerWindow, h3]
  simp only [State.selectFor, hc, h2, h4]

theorem State.finish_selectFor (c : ChannelIx) (r : OrderResult) (w1 : Word) (bus : CompletionBus) (p : PortIx) :
    (s.finish c r w1 bus).selectFor p = s.selectFor p :=
  State.selectFor_congr (s := s) (t := s.finish c r w1 bus) (by simp) (by simp) (by simp) p

theorem State.recomputeSelection_selectFor (p : PortIx) : s.recomputeSelection.selectFor p = s.selectFor p :=
  State.selectFor_congr (s := s) (t := s.recomputeSelection) rfl rfl rfl p

/-! ## PIN -/

/-- The port a pin entry names is one of the ports a change of it touches. -/
theorem namesPort_iff (o : Option PortIx) (p : PortIx) : namesPort o p = true ↔ o = some p := by
  simp [namesPort]

/-- The checks of a PIN, in order: profiles ascending and, within a profile, ports ascending (R128). -/
theorem State.mem_pinChecks (named : PortIx → Bool) (k : ProfileIx) (p : PortIx) :
    (k, p) ∈ s.pinChecks named ↔ named p = true ∧ s.governs k p = true := by
  simp only [State.pinChecks, List.mem_flatMap, List.mem_map, List.mem_filter, Prod.mk.injEq]
  constructor
  · rintro ⟨k', _, p', ⟨_, h⟩, rfl, rfl⟩
    simpa using h
  · intro h
    exact ⟨k, List.mem_finRange k, p, ⟨List.mem_finRange p, by simpa using h⟩, rfl, rfl⟩

/-- Profile, then port. -/
def checkBefore (a b : ProfileIx × PortIx) : Prop := a.1 < b.1 ∨ (a.1 = b.1 ∧ a.2 < b.2)

theorem State.pinChecks_ordered (named : PortIx → Bool) : (s.pinChecks named).Pairwise checkBefore := by
  unfold State.pinChecks
  rw [List.pairwise_flatMap]
  refine ⟨?_, ?_⟩
  · intro k _
    rw [List.pairwise_map]
    apply List.Pairwise.imp (R := (· < ·))
    · intro a b h; exact Or.inr ⟨rfl, h⟩
    · apply List.Pairwise.filter; decide
  · apply List.Pairwise.imp (R := (· < ·))
    · intro a b h x hx y hy
      simp only [List.mem_map] at hx hy
      obtain ⟨_, _, rfl⟩ := hx
      obtain ⟨_, _, rfl⟩ := hy
      exact Or.inl h
    · decide

/-- The change of a pin entry where some sum is not legal (R128). -/
theorem State.changePin_overbook (i : Fin 4) (new : Option Pin) (k : ProfileIx) (p : PortIx)
    (hn : new.map Pin.port = some p ∨ (s.pins[i]).map Pin.port = some p) (hg : s.governs k p = true)
    (hx : s.figure p < bookedSum (s.bankPort k p) (s.pins.set i new) p)
    (hf : ∀ (k' : ProfileIx) (p' : PortIx), k' < k ∨ (k' = k ∧ p' < p) →
      new.map Pin.port = some p' ∨ (s.pins[i]).map Pin.port = some p' → s.governs k' p' = true →
      bookedSum (s.bankPort k' p') (s.pins.set i new) p' ≤ s.figure p') :
    s.changePin i new = (s, OrderResult.of .overbook 0 (BitVec.ofNat 16 (p.val + 256 * k.val))) := by
  unfold State.changePin
  have hnamed : ∀ p, (namesPort (s.pinPort i) p || namesPort (new.map Pin.port) p) = true ↔
      new.map Pin.port = some p ∨ (s.pins[i]).map Pin.port = some p := by
    intro p; rw [Bool.or_eq_true, namesPort_iff, namesPort_iff, or_comm]; rfl
  have : firstOverbook (s.pinChecks fun p => namesPort (s.pinPort i) p || namesPort (new.map Pin.port) p)
      (fun k p => legalBooking (s.bankPort k p) (s.pins.set i new) p (s.figure p)) = some (k, p) := by
    apply find?_first checkBefore (s.pinChecks_ordered _)
    · rw [State.mem_pinChecks]; exact ⟨(hnamed p).mpr hn, hg⟩
    · simp only [Bool.not_eq_true', legalBooking_false_iff]; exact hx
    · rintro ⟨k', p'⟩ hm hlt
      rw [State.mem_pinChecks] at hm
      simp only [Bool.not_eq_false', legalBooking_iff]
      exact hf k' p' hlt ((hnamed p').mp hm.1) hm.2
  dsimp only
  rw [this]; rfl

/-- The change of a pin entry carried out (R128). -/
theorem State.changePin_ok (i : Fin 4) (new : Option Pin)
    (hf : ∀ (k : ProfileIx) (p : PortIx), new.map Pin.port = some p ∨ (s.pins[i]).map Pin.port = some p →
      s.governs k p = true → bookedSum (s.bankPort k p) (s.pins.set i new) p ≤ s.figure p) :
    s.changePin i new = (({ s with pins := s.pins.set i new } : State).mapPorts fun p q =>
      { q with refreshFlag := q.refreshFlag ||
          decide (new.map Pin.port = some p ∨ (s.pins[i]).map Pin.port = some p) }, OrderResult.ok0) := by
  unfold State.changePin
  have hnamed : ∀ p, (namesPort (s.pinPort i) p || namesPort (new.map Pin.port) p) = 
      decide (new.map Pin.port = some p ∨ (s.pins[i]).map Pin.port = some p) := by
    intro p; rw [Bool.eq_iff_iff, Bool.or_eq_true, namesPort_iff, namesPort_iff, or_comm, decide_eq_true_iff]; rfl
  have : firstOverbook (s.pinChecks fun p => namesPort (s.pinPort i) p || namesPort (new.map Pin.port) p)
      (fun k p => legalBooking (s.bankPort k p) (s.pins.set i new) p (s.figure p)) = none := by
    apply find?_nothing
    rintro ⟨k', p'⟩ hm
    rw [State.mem_pinChecks, hnamed, decide_eq_true_iff] at hm
    simp only [Bool.not_eq_false', legalBooking_iff]
    exact hf k' p' hm.1 hm.2
  dsimp only
  rw [this]
  dsimp only
  congr 2
  funext p q
  rw [← hnamed]
  by_cases hb : (namesPort (s.pinPort i) p || namesPort (new.map Pin.port) p) = true
  · rw [if_pos hb, hb, Bool.or_true]
  · rw [if_neg hb, Bool.eq_false_iff.mpr hb, Bool.or_false]

/-- The successor of a port that is RETIRED. -/
theorem State.retiredSuccessor_some {p r : PortIx} (h : (s.port p).state = .retired r) : s.retiredSuccessor (some p) = some r := by
  simp [State.retiredSuccessor, Port.successor?, h]

theorem Port.successor?_none {q : Port} (h : ∀ r : PortIx, q.state ≠ .retired r) : q.successor? = none := by
  unfold Port.successor?
  split <;> first | rfl | exact absurd ‹_› (h _)

theorem tierOfCode_none (c : BitVec 2) : tierOfCode c = .none ↔ c = 0 := by revert c; decide

/-- The values of a PIN SET that name neither a rate nor a tier. -/
theorem pinEmpty_iff (b : OrderBlock) :
    (!hasRate b.pinGc b.pinGf && tierOfCode b.pinTier == .none) = true ↔ b.pinGc = 0 ∧ b.pinGf = 0 ∧ b.pinTier = 0 := by
  rw [Bool.and_eq_true, Bool.not_eq_true', hasRate_false_iff, beq_iff_eq, tierOfCode_none, and_assoc]

theorem pinEmpty_false (b : OrderBlock) (h : b.pinGc ≠ 0 ∨ b.pinGf ≠ 0 ∨ b.pinTier ≠ 0) :
    (!hasRate b.pinGc b.pinGf && tierOfCode b.pinTier == .none) = false := by
  rw [Bool.eq_false_iff, ne_eq, pinEmpty_iff]; tauto

theorem OrderBlock.port?_none (b : OrderBlock) : b.port? = none ↔ 16 ≤ b.portField.toNat := by
  unfold OrderBlock.port?; split <;> simp <;> omega

theorem OrderBlock.port?_some (b : OrderBlock) (h : b.portField.toNat < 16) : ∃ p, b.port? = some p := by
  unfold OrderBlock.port?; rw [dif_pos h]; exact ⟨_, rfl⟩

end Sys2Proof.Machine
end

