-- ==== Sys2Proof/Laws/PortOrders.lean ====
section
/-! SUPPORT. The PORT order: what it runs on, how it ends, and what each action gives. -/

namespace Sys2Proof.Machine
variable (s : State)

/-- The state a PORT action acts on: the channel executing, the free value drawn. -/
def State.portBegun (s : State) (c : ChannelIx) : State := { s.beginExecuting c with freeCtr := s.freeCtr + 1 }

theorem State.portBegun_port (c : ChannelIx) (p : PortIx) : (s.portBegun c).port p = s.port p := rfl

theorem State.portBegun_ports (c : ChannelIx) : (s.portBegun c).ports = s.ports := rfl

theorem State.portBegun_lane (c : ChannelIx) (p : PortIx) (x : SourceIx) : (s.portBegun c).lane p x = s.lane p x := rfl

/-- A PORT order on a port of the device. -/
theorem State.portOrder_of {s u : State} {c : ChannelIx} (h : s.CarriesOut c) {b : OrderBlock} {p : PortIx} (hp : b.port? = some p)
    (bus : CompletionBus) {act : PortIx → OrderBlock → State → State × OrderResult} {r : OrderResult}
    (ha : act p b (s.portBegun c) = (u, r)) :
    s.portOrder (some b) bus act = u.finish c { r with progress := Config.freeWord s.freeCtr } b.w1 bus := by
  unfold State.portOrder
  rw [State.takeOrder_of_carriesOut h]
  dsimp only
  rw [hp]
  dsimp only
  have : act p b { s.beginExecuting c with freeCtr := (s.beginExecuting c).freeCtr + 1 } = (u, r) := ha
  rw [this]; rfl

/-- A PORT order of which nothing is carried out. -/
theorem State.portOrder_ended {s : State} {c : ChannelIx} (h : s.CarriesOut c) {b : OrderBlock} {p : PortIx} (hp : b.port? = some p)
    (bus : CompletionBus) {act : PortIx → OrderBlock → State → State × OrderResult} {r : OrderResult}
    (ha : act p b (s.portBegun c) = (s.portBegun c, r)) :
    s.PortEndedUntouched (s.portOrder (some b) bus act) c r.status r.detail bus := by
  rw [State.portOrder_of h hp bus ha]
  exact State.port_ended s c { r with progress := Config.freeWord s.freeCtr } b.w1 bus

/-- A PORT order that ends MOVED names the successor in word 1 (R85, R90, R155). -/
theorem State.portOrder_namesSuccessor {s u : State} {c : ChannelIx} (h : s.CarriesOut c) {b : OrderBlock} {p : PortIx}
    (hp : b.port? = some p) (bus : CompletionBus) {act : PortIx → OrderBlock → State → State × OrderResult} {r : OrderResult}
    (ha : act p b (s.portBegun c) = (u, r)) (hu : u.channels = (s.portBegun c).channels) (hr : r.status = .moved) :
    s.NamesSuccessor (s.portOrder (some b) bus act) c b.w1 r.successor bus := by
  rw [State.portOrder_of h hp bus ha]
  have hc : (u.channel c).addr = (s.channel c).addr := by
    have : u.channel c = (s.portBegun c).channel c := State.channel_of_channels hu c
    rw [this]
    show ((s.beginExecuting c).channel c).addr = _
    simp
  exact State.finish_namesSuccessor c { r with progress := Config.freeWord s.freeCtr } b.w1 bus hc hr

/-- A PORT order on no port of the device is BAD_PORT (R85). -/
theorem State.portOrder_badPort {s : State} {c : ChannelIx} (h : s.CarriesOut c) {b : OrderBlock} (hp : b.port? = none)
    (bus : CompletionBus) (act : PortIx → OrderBlock → State → State × OrderResult) :
    s.PortEndedUntouched (s.portOrder (some b) bus act) c .badPort 0 bus := by
  unfold State.portOrder
  rw [State.takeOrder_of_carriesOut h]
  dsimp only
  rw [hp]
  exact State.port_ended s c { OrderResult.of .badPort 0 0 with progress := Config.freeWord s.freeCtr } b.w1 bus

/-- The completion of a PORT order whose action leaves the channels, ATTN's CHn and card memory. -/
theorem State.portOrder_completed {s u : State} {c : ChannelIx} (hc : u.channels = (s.portBegun c).channels)
    (ha : u.attn = s.attn) (hm : u.cardMem = s.cardMem) (r : OrderResult) (w1 : Word) (bus : CompletionBus) :
    s.Completed (u.finish c r w1 bus) c r.status r.progress r.detail bus :=
  State.finish_completed c .executing (s.channel c).abortReq r w1 bus hc ha hm

/-- An OPEN port that is closed with empty lists and free slots is CLOSED at once (R84, R87). -/
theorem Port.close_empty {q : Port} (h1 : ∀ x : SourceIx, (q.lane x).list = []) (h2 : q.older = none) (h3 : q.younger = none) :
    ({ q with state := .draining } : Port).drainRule = { q with state := .closed, timer := none } := by
  have : ({ q with state := .draining } : Port).drained = true := by
    rw [Port.drained_iff]
    refine ⟨rfl, ?_, h2, h3⟩
    intro x; rw [← h1 x]; rfl
  simp only [Port.drainRule]
  rw [if_pos this]

theorem Port.close_kept {q : Port} (h : (∃ x : SourceIx, (q.lane x).list ≠ []) ∨ q.older ≠ none ∨ q.younger ≠ none) :
    ({ q with state := .draining } : Port).drainRule = { q with state := .draining } := by
  apply Port.drainRule_of_not
  rw [Bool.eq_false_iff, ne_eq, Port.drained_iff]
  rintro ⟨_, h1, h2, h3⟩
  rcases h with ⟨x, hx⟩ | hx | hx
  · exact hx (h1 x)
  · exact hx h2
  · exact hx h3

theorem State.updPort_ports (p : PortIx) (f : Port → Port) : (s.updPort p f).ports = s.ports.set p (f (s.port p)) := rfl

/-! ## SET and CLEAR -/

/-- A round length as held (R91). -/
theorem heldRoundLength_eq (v : BitVec 16) : heldRoundLength v = BitVec.ofNat 16 (max 10 (min v.toNat 10000)) := by
  apply BitVec.eq_of_toNat_eq
  unfold heldRoundLength
  split
  · simp; omega
  · split
    · simp; omega
    · simp; omega

/-- A cleared port (R88). -/
theorem Port.clear_lane (q : Port) (x : SourceIx) : q.clear.lane x = { q.lane x with balance := 0 } := by
  have h : q.clear.lanes = (q.mapLanes fun _ l => { l with balance := 0 }).lanes := rfl
  rw [Port.lane_congr h x, Port.mapLanes_lane]

/-- A port after a clear (R88). -/
theorem Port.emptied_clear_eq (q : Port) : q.emptied.clear = { q with
    lanes := q.emptied.clear.lanes
    roundCount := 0
    assuredCursor := 0
    tier1Cursor := 0
    tier2Cursor := 0
    tier3Cursor := 0
    state := .closed
    timer := none
    tally := { q.tally with discards := satAdd q.tally.discards q.listTotal } } := by
  simp only [Port.clear, Port.emptied, Port.mapLanes]

theorem State.clearPort_port (p p' : PortIx) :
    (s.clearPort p).port p' = if p' = p then (s.port p).emptied.clear else s.port p' := by
  unfold State.clearPort
  rw [State.updPort_port, State.purge_port, State.purge_port]
  split
  · rw [if_pos rfl, State.entriesOn_all]
    simp only [if_true]
    rfl
  · rfl

theorem Port.emptied_lane (q : Port) (x : SourceIx) : q.emptied.lane x = { q.lane x with list := [] } := by
  have h : q.emptied.lanes = (q.mapLanes fun _ l => { l with list := [] }).lanes := rfl
  rw [Port.lane_congr h x, Port.mapLanes_lane]

theorem Port.emptied_eq (q : Port) : q.emptied = { q with
    lanes := q.emptied.lanes
    tally := { q.tally with discards := satAdd q.tally.discards q.listTotal } } := by
  simp only [Port.emptied, Port.mapLanes]

theorem State.flatMap_filter_empty (p : PortIx) {α : Type} (f : SourceIx → Entry → α) (l : List SourceIx) :
    ((l.filter fun x => !(s.lane p x).list.isEmpty).flatMap fun x => (s.lane p x).list.map (f x)) =
      l.flatMap fun x => (s.lane p x).list.map (f x) := by
  induction l with
  | nil => rfl
  | cons a rest ih =>
    by_cases h : (s.lane p a).list = []
    · simp [h, ih]
    · have : (!(s.lane p a).list.isEmpty) = true := by simp [h]
      simp [this, ih]

/-- Everything a clear leaves (R88). -/
theorem State.clearPort_frame (p : PortIx) :
    s.clearPort p = { s with
      ports := (s.clearPort p).ports
      freeCount := s.freeCount + (s.port p).listTotal
      poolBelow := decide (s.freeCount + (s.port p).listTotal < s.warning.toNat)
      outQueue :=
        if s.linkUp then
          s.outQueue ++ allSources.flatMap fun x => (s.lane p x).list.map fun e => Message.ofDiscard p x e.handle
        else s.outQueue
      tre := { s.tre with offered := s.tre.offered ++
        (allSources.filter fun x => !(s.lane p x).list.isEmpty).map fun x =>
          ⟨.purge, p, x, 0, BitVec.ofNat 16 (s.lane p x).list.length, (s.port p).roundCount, s.minute⟩ } } := by
  have hv : s.purgeVictims p (fun _ => true) = allSources.filter fun x => !(s.lane p x).list.isEmpty := by
    simp only [State.purgeVictims, Bool.true_and]
  apply State.eq_of_fields
  case freeCount_eq =>
    rw [State.clearPort, State.updPort_freeCount, State.purge_freeCount, State.entriesOn_all]
  case poolBelow_eq =>
    rw [State.clearPort, State.updPort_poolBelow, State.purge_poolBelow, State.entriesOn_all]
  case outQueue_eq =>
    rw [State.clearPort, State.updPort_outQueue, State.purge_outQueue, hv]
    simp only [Bool.and_true, State.discardMessages]
    rw [State.flatMap_filter_empty s p (fun x e => Message.ofDiscard p x e.handle)]
  case tre_eq =>
    rw [State.clearPort, State.updPort_tre, State.purge_tre, hv]
    rfl
  all_goals first | rfl | simp [State.clearPort, State.purge]

/-! ## OPEN -/

/-- With nothing on any list, a test of an OPEN port makes no release. -/
theorem State.testAndDrain_empty {p : PortIx} (h : ∀ x : SourceIx, (s.lane p x).list = []) (h' : (s.port p).state ≠ .draining) :
    s.testAndDrain p = s := by
  have hn : s.releaseOnce p = none := by
    cases ho : s.releaseOnce p with
    | none => rfl
    | some t =>
      obtain ⟨_, src, kind, q', e, rest, _, hl, _⟩ := State.releaseOnce_cases ho
      rw [h src] at hl; simp at hl
  unfold State.testAndDrain
  rw [State.releaseTest_of_none s hn, State.drain_of_state s h']

/-- Port vectors with the same ports are equal. -/
theorem ports_ext_vector {a b : Vector Port 16} (h : ∀ p : PortIx, a[p] = b[p]) : a = b := by
  apply Vector.ext
  intro i hi
  exact h ⟨i, hi⟩

theorem State.closing_empty {p : PortIx} (h : ∀ x : SourceIx, (s.lane p x).list = []) : s.closing p = [] := by
  simp [State.closing, h]

/-- A refresh of a port with nothing on its lists (R109). -/
theorem State.refresh_empty {p : PortIx} (h : ∀ x : SourceIx, (s.lane p x).list = []) :
    s.refresh p = { s with
      ports := (s.refresh p).ports
      poolBelow := decide (s.freeCount < s.warning.toNat)
      tre := { s.tre with offered := s.tre.offered ++
        if (s.port p).selected = (s.port p).applied then [] else
          [⟨.switch, p, 0, BitVec.ofNat 8 (s.port p).selected.val, 0, (s.port p).roundCount, s.minute⟩] } } := by
  have hc := s.closing_empty h
  have hn : s.closingCount p = 0 := by simp [State.closingCount, hc]
  have hq : (s.refresh p).outQueue = s.outQueue := by rw [State.refresh_outQueue, hc]; simp
  have hf := s.refresh_frame p
  rw [State.refresh_freeCount, State.refresh_poolBelow, hq, State.refresh_tre, hn, hc] at hf
  simp only [Nat.add_zero, List.map_nil, List.append_nil] at hf
  exact hf

theorem State.refresh_empty_port {p : PortIx} (h : ∀ x : SourceIx, (s.lane p x).list = []) (p' : PortIx) :
    (s.refresh p).port p' =
      if p' = p then
        { s.port p with
          lanes := ((s.port p).mapLanes fun src l => l.refresh (s.derived (s.port p).selected p src)).lanes
          applied := (s.port p).selected
          refreshFlag := false }
      else s.port p' := by
  have hn : s.closingCount p = 0 := by simp [State.closingCount, s.closing_empty h]
  rw [State.refresh_port]
  split
  · rw [hn, satAdd_zero]
    apply Port.eq_of_fields
    case lanes_eq =>
      apply Port.lanes_ext
      intro x
      have : ((s.port p).lane x).list = [] := h x
      have e : ∀ e : EffEntry, ({ ((s.port p).lane x).refresh e with list := [] } : Lane) = ((s.port p).lane x).refresh e := by
        intro e
        have : (((s.port p).lane x).refresh e).list = [] := by rw [Lane.refresh_list, this]
        rw [← this]
      simp only [Port.lane, Port.mapLanes, Fin.getElem_fin, Vector.getElem_ofFn]
      split
      · rfl
      · exact e _
    all_goals simp only [Port.mapLanes]
  · rfl

/-- The attention flags after releases and refreshes. -/
theorem State.carryOutRelease_attn (p : PortIx) (src : SourceIx) (kind : SendKind) (q : Port) (e : Entry) :
    (s.carryOutRelease p src kind q e).attn = s.attn := by
  rw [State.carryOutRelease_frame]

theorem State.releaseTest_attn (p : PortIx) : (s.releaseTest p).attn = s.attn := by
  apply s.releaseTest_induct p (fun s t => t.attn = s.attn) (fun _ => rfl) (fun _ _ _ h k => k.trans h)
  intro s t h
  obtain ⟨_, _, _, _, _, _, _, _, rfl⟩ := State.releaseOnce_cases h
  exact State.carryOutRelease_attn _ _ _ _ _ _

theorem State.testAndDrain_attn (p : PortIx) : (s.testAndDrain p).attn = s.attn := by
  rw [State.testAndDrain, State.drain_attn, State.releaseTest_attn]

theorem State.refreshIf_attn (p : PortIx) : (s.refreshIf p).attn = s.attn := by
  unfold State.refreshIf
  split
  · rw [State.refresh_frame]
  · rfl

theorem State.openPort_attn (p : PortIx) : (s.openPort p).attn = s.attn := by
  rw [State.openPort, State.testAndDrain_attn, State.updPort_attn, State.refreshIf_attn, State.updPort_attn]

theorem State.updPort_derived (p p' : PortIx) (f : Port → Port) (k : ProfileIx) (x : SourceIx) :
    (s.updPort p f).derived k p' x = s.derived k p' x := rfl

/-- OPEN on a port with empty lists and no refresh pending (R86). -/
theorem State.openPort_plain {p : PortIx} (hl : ∀ x : SourceIx, (s.lane p x).list = []) (hr : (s.port p).refreshFlag = false) :
    s.openPort p = s.setPort p { s.port p with
      state := .opened
      timer := if (s.port p).flow = .stalled then none else some (s.port p).roundLength } := by
  unfold State.openPort
  have hp : (s.updPort p fun q => { q with state := .opened }).port p = { s.port p with state := .opened } := by
    rw [State.updPort_port, if_pos rfl]
  have h1 : (s.updPort p fun q => { q with state := .opened }).refreshIf p = s.updPort p fun q => { q with state := .opened } := by
    unfold State.refreshIf
    rw [hp, hr]; rfl
  rw [h1, State.updPort_updPort]
  have h2 : (s.updPort p fun q => ({ q with state := .opened } : Port).startTimer) = s.setPort p { s.port p with
      state := .opened
      timer := if (s.port p).flow = .stalled then none else some (s.port p).roundLength } := by
    unfold State.updPort
    dsimp only
    rw [Port.startTimer_opened (by rfl)]
  rw [h2]
  apply State.testAndDrain_empty
  · intro x
    rw [← hl x]; unfold State.lane
    rw [State.setPort_port, if_pos rfl]; rfl
  · rw [State.setPort_port, if_pos rfl]; simp

/-- OPEN on a port with empty lists and a refresh pending (R86, R108). -/
theorem State.openPort_refreshes {p : PortIx} (hl : ∀ x : SourceIx, (s.lane p x).list = []) (hr : (s.port p).refreshFlag = true) :
    s.openPort p = { s with
      ports := s.ports.set p { s.port p with
        lanes := ((s.port p).mapLanes fun src l => l.refresh (s.derived (s.port p).selected p src)).lanes
        state := .opened
        refreshFlag := false
        applied := (s.port p).selected
        timer := if (s.port p).flow = .stalled then none else some (s.port p).roundLength }
      poolBelow := decide (s.freeCount < s.warning.toNat)
      tre := { s.tre with offered := s.tre.offered ++
        if (s.port p).selected = (s.port p).applied then [] else
          [⟨.switch, p, 0, BitVec.ofNat 8 (s.port p).selected.val, 0, (s.port p).roundCount, s.minute⟩] } } := by
  unfold State.openPort
  have hp : (s.updPort p fun q => { q with state := .opened }).port p = { s.port p with state := .opened } := by
    rw [State.updPort_port, if_pos rfl]
  have hl' : ∀ x : SourceIx, ((s.updPort p fun q => { q with state := .opened }).lane p x).list = [] := by
    intro x; unfold State.lane; rw [hp]; exact hl x
  have h1 : (s.updPort p fun q => { q with state := .opened }).refreshIf p = (s.updPort p fun q => { q with state := .opened }).refresh p := by
    unfold State.refreshIf
    rw [hp, hr]; rfl
  have he := State.refresh_empty (s.updPort p fun q => { q with state := .opened }) hl'
  have hep := State.refresh_empty_port (s.updPort p fun q => { q with state := .opened }) hl'
  rw [h1]
  rw [hp] at he hep
  generalize (s.updPort p fun q => { q with state := .opened }).refresh p = u at he hep ⊢
  have hup : (u.updPort p Port.startTimer).port p = { s.port p with
        lanes := ((s.port p).mapLanes fun src l => l.refresh (s.derived (s.port p).selected p src)).lanes
        state := .opened
        refreshFlag := false
        applied := (s.port p).selected
        timer := if (s.port p).flow = .stalled then none else some (s.port p).roundLength } := by
    rw [State.updPort_port, if_pos rfl, hep, if_pos rfl, Port.startTimer_opened (by rfl)]
    rfl
  have hports : (u.updPort p Port.startTimer).ports = s.ports.set p { s.port p with
        lanes := ((s.port p).mapLanes fun src l => l.refresh (s.derived (s.port p).selected p src)).lanes
        state := .opened
        refreshFlag := false
        applied := (s.port p).selected
        timer := if (s.port p).flow = .stalled then none else some (s.port p).roundLength } := by
    apply ports_ext_vector
    intro p'
    by_cases hpp : p' = p
    · subst hpp
      have := hup
      unfold State.port at this ⊢
      rw [this]; simp
    · have : (u.updPort p Port.startTimer).port p' = s.port p' := by
        rw [State.updPort_port, if_neg hpp, hep, if_neg hpp, State.updPort_port, if_neg hpp]
      unfold State.port at this
      rw [this]
      rw [Fin.getElem_fin, Fin.getElem_fin, Vector.getElem_set_ne]
      intro h; exact hpp (Fin.ext h.symm)
  have ht : (u.updPort p Port.startTimer).testAndDrain p = u.updPort p Port.startTimer := by
    apply State.testAndDrain_empty
    · intro x
      unfold State.lane
      rw [hup]
      refine Eq.trans (congrArg Lane.list (Port.lane_congr (q := (s.port p).mapLanes fun src l => l.refresh (s.derived (s.port p).selected p src)) rfl x)) ?_
      rw [Port.mapLanes_lane, Lane.refresh_list]; exact hl x
    · rw [hup]; simp
  rw [ht]
  generalize hw : u.updPort p Port.startTimer = w at hports ⊢
  have hwf : w = { u with ports := w.ports } := by rw [← hw]; rfl
  rw [hwf, hports, he]
  apply State.eq_of_fields <;> rfl
theorem State.setPort_ports (p : PortIx) (q : Port) : (s.setPort p q).ports = s.ports.set p q := rfl

end Sys2Proof.Machine
end

