-- ==== Sys2Proof/Laws/LongOrders.lean ====
section
/-! SUPPORT. LOAD, COLLECT and SURVEY: the install point of a LOAD, the sampling and the records of the other two. -/

namespace Sys2Proof.Machine
variable (s : State)

/-- The bank entries after an install (R96). -/
theorem State.installBank_bankPort (k k' : ProfileIx) (p p' : PortIx) (es : Vector BankEntry 64) :
    (s.installBank k p es).bankPort k' p' = if k' = k ∧ p' = p then es else s.bankPort k' p' := by
  unfold State.installBank State.bankPort
  by_cases hk : k' = k
  · subst hk
    by_cases hp : p' = p
    · subst hp; simp
    · have : p.val ≠ p'.val := fun h => hp (Fin.ext h.symm)
      simp [hp, this]
  · have : k.val ≠ k'.val := fun h => hk (Fin.ext h.symm)
    simp [hk, this]

theorem State.bankPort_congr {s t : State} (h : t.banks = s.banks) (k : ProfileIx) (p : PortIx) : t.bankPort k p = s.bankPort k p := by
  unfold State.bankPort; rw [h]

/-- The install point of a LOAD (R122), from a state that may differ from `s` in the executor and the phase of the channel. -/
theorem State.finishInstall_installed (x : Executor) (c : ChannelIx) (ph : ChannelPhase) (ab : Bool) (k : ProfileIx) (p : PortIx)
    (staged : Vector BankEntry 64) (progress : Nat) (bus : CompletionBus) :
    s.Installed
      (({ s with executor := x, channels := s.channels.set c ⟨ph, (s.channel c).addr, ab⟩ } : State).finishInstall
        c k p staged progress bus) c k p staged progress bus := by
  obtain ⟨u, hu⟩ : ∃ u : State, u = { s with executor := x, channels := s.channels.set c ⟨ph, (s.channel c).addr, ab⟩ } := ⟨_, rfl⟩
  rw [← hu]
  have h1 : u.figure p = s.figure p := by rw [hu]; rfl
  have h2 : u.pins = s.pins := by rw [hu]
  refine ⟨?_, ?_⟩
  · intro hx
    have hl : legalBooking staged u.pins p (u.figure p) = false := by rw [h1, h2, legalBooking_false_iff]; exact hx
    have : u.finishInstall c k p staged progress bus =
        u.finish c (OrderResult.of .overbook (BitVec.ofNat 32 progress) (overbookDetail p k)) 0 bus := by
      simp only [State.finishInstall, State.installPoint, hl, Bool.false_eq_true, if_false]
    rw [this, hu]
    exact State.finish_ended s x c ph ab _ 0 bus
  · intro hx
    have hl : legalBooking staged u.pins p (u.figure p) = true := by rw [h1, h2, legalBooking_iff]; exact hx
    obtain ⟨v, hv⟩ : ∃ v : State, v = (u.installBank k p staged).updPort p fun q => if q.selected = k then { q with refreshFlag := true } else q := ⟨_, rfl⟩
    have he : u.finishInstall c k p staged progress bus = v.finish c (OrderResult.of .ok (BitVec.ofNat 32 progress) 0) 0 bus := by
      simp only [State.finishInstall, State.installPoint, hl, if_true, hv]
    rw [he]
    have hq : (if (s.port p).selected = k then { s.port p with refreshFlag := true } else s.port p) =
        { s.port p with refreshFlag := (s.port p).refreshFlag || decide ((s.port p).selected = k) } := by
      generalize s.port p = q
      by_cases h : q.selected = k
      · simp [h]
      · simp [h]
    have hports : v.ports = (s.setPort p { s.port p with refreshFlag := (s.port p).refreshFlag || decide ((s.port p).selected = k) }).ports := by
      rw [← hq, hv, hu]; rfl
    refine ⟨?_, ?_, ?_⟩
    · exact State.finish_completed c ph ab _ 0 bus (by rw [hv, hu]; rfl) (by rw [hv, hu]; rfl) (by rw [hv, hu]; rfl)
    · have hf := State.finish_frame v c (OrderResult.of .ok (BitVec.ofNat 32 progress) 0) 0 bus
      generalize v.finish c (OrderResult.of .ok (BitVec.ofNat 32 progress) 0) 0 bus = w at hf ⊢
      rw [hf]
      apply State.eq_of_fields
      case ports_eq => exact hports
      all_goals first | rfl | (rw [hv, hu]; rfl)
    · intro k' p'
      rw [← State.installBank_bankPort]
      apply State.bankPort_congr
      rw [State.finish_banks, hv, hu]; rfl

/-! ## COLLECT and SURVEY -/

section
variable (s : State)

/-- A lane record sampled (R165). -/
theorem State.sampleCollect_lane (c : ChannelIx) (p : PortIx) (area : Nat) (clear : Bool) (x : SourceIx) :
    s.sampleCollect c p area clear x.val = { s with
      executor := .collecting ⟨c, p, area, clear, x.val, .lane x (s.lane p x).tally, laneRecord (s.lane p x) x⟩
      ports := if clear then s.ports.set p ((s.port p).setLane x { s.lane p x with
          tally := ⟨0, 0, 0, 0, 0, BitVec.ofNat 8 (min (s.lane p x).list.length 255)⟩ })
        else s.ports } := by
  unfold State.sampleCollect
  rw [dif_pos x.isLt]
  dsimp only
  cases clear <;> rfl

/-- The port record sampled (R165). -/
theorem State.sampleCollect_port (c : ChannelIx) (p : PortIx) (area : Nat) (clear : Bool) :
    s.sampleCollect c p area clear 64 = { s with
      executor := .collecting ⟨c, p, area, clear, 64, .port (s.port p).tally, portRecord (s.port p) p⟩
      ports := if clear then s.ports.set p { s.port p with tally := ⟨0, 0, 0, 0, 0, 0, 0⟩ } else s.ports } := by
  unfold State.sampleCollect
  rw [dif_neg (by decide)]
  cases clear <;> rfl

/-- A port record of a SURVEY sampled (R167). -/
theorem State.sampleSurvey_port (c : ChannelIx) (area : Nat) (p : PortIx) :
    s.sampleSurvey c area p.val = { s with
      ports := s.ports.set p { s.port p with watchLatch := ⟨false, false, false, false⟩ }
      freeCtr := s.freeCtr + 2
      executor := .surveying ⟨c, area, p.val, (s.port p).watchLatch, surveyPortRecord (s.port p) s.freeCtr⟩ } := by
  unfold State.sampleSurvey
  rw [dif_pos p.isLt]
  rfl

/-- The pool record of a SURVEY sampled (R167). -/
theorem State.sampleSurvey_pool (c : ChannelIx) (area : Nat) :
    s.sampleSurvey c area 16 = { s with executor := .surveying ⟨c, area, 16, ⟨false, false, false, false⟩, s.poolRecord⟩ } := by
  unfold State.sampleSurvey
  rw [dif_neg (by decide)]
  rfl

end

end Sys2Proof.Machine
end

