-- ==== Sys2Proof/Laws/TraceEngine.lean ====
section
/-! SUPPORT. The trace engine: how an armed trace ends, which offers a mask selects, which write is in progress. -/

namespace Sys2Proof.Machine

/-- The end of an armed trace, from a state that differs from `s` in card memory and the trace engine alone. -/
theorem State.endTrace_ended_of {s u v : State} (tr tr' : ArmedTrace) (st : Status) (detail gap : Nat) (bus : CompletionBus)
    (hc : tr'.channel = tr.channel) (hu : u = { s with cardMem := u.cardMem })
    (hv : v = { s with
      cardMem := u.cardMem
      tre := { s.tre with armed := v.tre.armed, gapCount := BitVec.ofNat 32 (min gap 4294967295) } }) :
    s.TraceEnded u (v.endTrace tr' st (BitVec.ofNat 16 detail) bus) tr st tr'.written detail gap bus := by
  have h := State.endTrace_ended s u.cardMem v.tre.armed tr' (s.channel tr'.channel).phase (s.channel tr'.channel).abortReq
    gap st detail bus
  rw [State.channels_set_self, ← hv] at h
  rw [hu]
  exact ⟨by rw [← hc]; exact h.completed, h.frame⟩

/-- A count raised, saturating, as the number it becomes (R163, R176). -/
theorem satAdd_count (g : BitVec 32) (n : Nat) : satAdd g n = BitVec.ofNat 32 (min (g.toNat + n) 4294967295) := rfl

/-- An offer selected by two masks. -/
theorem Offer.selectedBy_iff (o : Offer) (k : BitVec 11) (m : BitVec 16) :
    o.selectedBy k m = true ↔ k.getLsbD o.kind.code = true ∧ m.getLsbD o.port.val = true := by
  simp [Offer.selectedBy]

/-- No write is in progress in an armed trace whose write field is empty. -/
theorem TraceEngine.write_none {e : TraceEngine} (h : e.writing = none) {tr : ArmedTrace} (ha : e.armed = some tr) :
    tr.write = none := by
  unfold TraceEngine.writing at h
  rw [ha] at h
  dsimp only at h
  split at h
  · assumption
  · cases h

/-- The write in progress. -/
theorem TraceEngine.writing_some {e : TraceEngine} {tr : ArmedTrace} {w : AreaWrite} (ha : e.armed = some tr)
    (hw : tr.write = some w) : e.writing = some (tr, w) := by
  unfold TraceEngine.writing
  rw [ha]; dsimp only; rw [hw]

end Sys2Proof.Machine
end

