-- ==== Sys2Proof/Laws/Pending.lean ====
section
/-! SUPPORT. No operation of a command touches the queue of commands that wait: one lemma per operation. -/

namespace Sys2Proof.Machine
section
variable (s : State)

/-- An order keeps the queue of commands, if its run keeps it. -/
theorem State.takeOrder_pending (block : Option OrderBlock) (bus : CompletionBus)
    (run : ChannelIx → OrderBlock → State → State) (h : ∀ c b t, (run c b t).pending = t.pending) :
    (s.takeOrder block bus run).pending = s.pending := by
  unfold State.takeOrder
  split
  · rfl
  · dsimp only
    split
    · rw [State.finish_pending]; rfl
    · split
      · rfl
      · rw [h]; rfl

theorem State.installPoint_pending (k : ProfileIx) (p : PortIx) (es) (w : Word)
    : (s.installPoint k p es w).1.pending = s.pending := by
  unfold State.installPoint; split <;> rfl

theorem State.beginLoad_pending (c : ChannelIx) (b : OrderBlock) (f : Bool) (bus : CompletionBus) :
    (s.beginLoad c b f bus).pending = s.pending := by
  unfold State.beginLoad State.finishInstall
  repeat' split
  all_goals simp [State.installPoint_pending]

theorem State.loadEntry_pending (j : LoadJob) (e : Option TableEntry) (f : Bool) (bus : CompletionBus) :
    (s.loadEntry j e f bus).pending = s.pending := by
  unfold State.loadEntry State.loadStaged State.finishInstall
  dsimp only
  repeat' split
  all_goals simp [State.installPoint_pending]

theorem State.sampleCollect_pending (c : ChannelIx) (p : PortIx) (a : Nat) (cl : Bool) (i : Nat) :
    (s.sampleCollect c p a cl i).pending = s.pending := by
  unfold State.sampleCollect
  split <;> dsimp only <;> split <;> simp

theorem State.returnSample_pending (j : CollectJob) : (s.returnSample j).pending = s.pending := by
  unfold State.returnSample
  repeat' split
  all_goals simp

theorem State.beginCollect_pending (c : ChannelIx) (b : OrderBlock) (bus : CompletionBus) :
    (s.beginCollect c b bus).pending = s.pending := by
  unfold State.beginCollect
  repeat' split
  all_goals simp [State.sampleCollect_pending]

theorem State.collectWritten_pending (j : CollectJob) (w : Bool) (bus : CompletionBus) :
    (s.collectWritten j w bus).pending = s.pending := by
  unfold State.collectWritten
  dsimp only
  repeat' split
  all_goals simp [State.sampleCollect_pending, State.returnSample_pending]

theorem State.sampleSurvey_pending (c : ChannelIx) (a i : Nat) : (s.sampleSurvey c a i).pending = s.pending := by
  unfold State.sampleSurvey
  split <;> rfl

theorem State.beginSurvey_pending (c : ChannelIx) (b : OrderBlock) (bus : CompletionBus) :
    (s.beginSurvey c b bus).pending = s.pending := by
  unfold State.beginSurvey
  split
  · simp
  · rw [State.sampleSurvey_pending]

theorem State.returnLatch_pending (j : SurveyJob) : (s.returnLatch j).pending = s.pending := by
  unfold State.returnLatch
  split <;> rfl

theorem State.surveyWritten_pending (j : SurveyJob) (w : Bool) (bus : CompletionBus) :
    (s.surveyWritten j w bus).pending = s.pending := by
  unfold State.surveyWritten
  dsimp only
  repeat' split
  all_goals simp [State.sampleSurvey_pending, State.returnLatch_pending]

theorem State.endTrace_pending (t : ArmedTrace) (st : Status) (d : BitVec 16) (bus : CompletionBus) :
    (s.endTrace t st d bus).pending = s.pending := by
  unfold State.endTrace; rw [State.complete_pending]

theorem State.abortTrace_pending (t : ArmedTrace) (bus : CompletionBus) : (s.abortTrace t bus).pending = s.pending := by
  unfold State.abortTrace State.beginClose
  split
  · rfl
  · rw [State.endTrace_pending]

theorem State.traceAbortRequest_pending (c : ChannelIx) (bus : CompletionBus) :
    (s.traceAbortRequest c bus).pending = s.pending := by
  unfold State.traceAbortRequest
  repeat' split
  · rfl
  · rw [State.abortTrace_pending]
  · rfl

theorem State.abortIfMarked_pending (c : ChannelIx) (bus : CompletionBus) : (s.abortIfMarked c bus).pending = s.pending := by
  unfold State.abortIfMarked
  split
  · rw [State.traceAbortRequest_pending]
  · rfl

theorem State.beginTrace_pending (c : ChannelIx) (b : OrderBlock) (bus : CompletionBus) :
    (s.beginTrace c b bus).pending = s.pending := by
  unfold State.beginTrace
  repeat' split
  · simp
  · simp
  · rw [State.abortIfMarked_pending]; rfl

theorem State.takeOffer_pending (o : Offer) : (s.takeOffer o).pending = s.pending := by
  unfold State.takeOffer State.takeRecord State.beginClose
  dsimp only
  repeat' split
  all_goals rfl

theorem State.offerStep_pending : s.offerStep.pending = s.pending := by
  unfold State.offerStep State.queueOffer
  repeat' split
  all_goals first | rfl | simp [State.takeOffer_pending]

theorem State.staleExpire_pending (t : ArmedTrace) (bus : CompletionBus) : (s.staleExpire t bus).pending = s.pending := by
  unfold State.staleExpire State.beginClose
  dsimp only
  repeat' split
  all_goals first | rfl | simp [State.endTrace_pending]

theorem State.settleTrace_pending (t : ArmedTrace) (bus : CompletionBus) : (s.settleTrace t bus).pending = s.pending := by
  unfold State.settleTrace
  repeat' split
  all_goals simp [State.abortTrace_pending, State.staleExpire_pending]

theorem State.areaWritten_pending (t : ArmedTrace) (w : AreaWrite) (bus : CompletionBus) :
    (s.areaWritten t w bus).pending = s.pending := by
  unfold State.areaWritten State.traceGoesOn
  repeat' split
  all_goals simp [State.endTrace_pending, State.settleTrace_pending]

theorem State.traceWritten_pending (w : Bool) (bus : CompletionBus) : (s.traceWritten w bus).pending = s.pending := by
  unfold State.traceWritten
  repeat' split
  all_goals simp [State.endTrace_pending, State.areaWritten_pending]

theorem State.staleTimer_pending (bus : CompletionBus) : (s.staleTimer bus).pending = s.pending := by
  unfold State.staleTimer
  repeat' split
  all_goals simp [State.staleExpire_pending]

theorem State.pointerAddressWrite_pending (c : ChannelIx) (v : Word) :
    (s.pointerAddressWrite c v).pending = s.pending := by
  unfold State.pointerAddressWrite
  split <;> rfl

theorem State.pointerWrite_pending (c : ChannelIx) (v : Word) (lag : Bool) (bus : CompletionBus) :
    (s.pointerWrite c v lag bus).pending = s.pending := by
  unfold State.pointerWrite State.pointerZeroWrite
  repeat' split
  all_goals first | rfl | simp [State.traceAbortRequest_pending, State.pointerAddressWrite_pending]

theorem State.registerWrite_pending (o w : Nat) (v : Word) : (s.registerWrite o w v).pending = s.pending := by
  unfold State.registerWrite
  repeat' split
  all_goals first | rfl | simp [State.pointerWrite_pending]

theorem takeWaiting_pending (ms : List Inbound) (s : State) : (takeWaiting ms s).pending = s.pending := by
  induction ms generalizing s with
  | nil => rfl
  | cons m rest ih =>
    unfold takeWaiting
    split
    · rw [ih]; exact (s.portSide_deliver m).exec.pending
    · rfl

theorem State.receive_pending (m : Inbound) : (s.receive m).pending = s.pending := by
  unfold State.receive
  split
  · exact (State.portSide_deliver _ m).exec.pending
  · rfl

theorem receiveBytes_pending (bs : List Byte) (later : Bool) : (receiveBytes bs later s).pending = s.pending :=
  receiveBytes_induct bs later (fun s t => t.pending = s.pending) (fun _ => rfl) (fun _ _ _ h k => k.trans h)
    (fun _ _ _ _ => rfl) (fun s m _ => by rw [State.receive_pending]; rfl) s

theorem State.sendHead_pending : s.sendHead.pending = s.pending := by
  unfold State.sendHead
  repeat' split
  · rfl
  · rw [takeWaiting_pending]
  · rfl

theorem State.portOrder_pending (block : Option OrderBlock) (bus : CompletionBus)
    (act : PortIx → OrderBlock → State → State × OrderResult)
    (h : ∀ p b t, (act p b t).1.pending = t.pending) : (s.portOrder block bus act).pending = s.pending := by
  unfold State.portOrder
  apply State.takeOrder_pending
  intro c b t
  dsimp only
  split <;> simp [h]

theorem State.simpleOrder_pending (block : Option OrderBlock) (bus : CompletionBus)
    (act : OrderBlock → State → State × OrderResult)
    (h : ∀ b t, (act b t).1.pending = t.pending) : (s.simpleOrder block bus act).pending = s.pending := by
  unfold State.simpleOrder
  apply State.takeOrder_pending
  intro c b t
  rw [State.finish_pending, h]

theorem State.windowOrder_pending (b : OrderBlock) : (s.windowOrder b).1.pending = s.pending := by
  unfold State.windowOrder
  split
  · dsimp only
    split
    · rfl
    · rw [(State.portSide_recomputeSelection _).exec.pending]
      unfold State.setWindow; split <;> rfl
  · rfl

theorem State.changePin_pending (i : Fin 4) (x : Option Pin) : (s.changePin i x).1.pending = s.pending := by
  unfold State.changePin
  dsimp only
  split
  · rfl
  · simp

theorem State.pinOrder_pending (b : OrderBlock) : (s.pinOrder b).1.pending = s.pending := by
  unfold State.pinOrder State.pinSet State.pinClear
  dsimp only
  repeat' split
  all_goals simp [State.changePin_pending]

theorem State.portSetAction_pending (p : PortIx) (b : OrderBlock) : (s.portSetAction p b).1.pending = s.pending := by
  unfold State.portSetAction
  dsimp only
  repeat' split
  all_goals simp

end
end Sys2Proof.Machine
end

