-- ==== Sys2Proof/Laws/ExecKeeps.lean ====
section
/-! SUPPORT. What the executor, the channels and the trace engine keep, operation by operation: card memory's form, the job's
bounds, the trace, and the agreement of channels, flags, executor and armed trace. First, that the ports' events leave them. -/

namespace Sys2Proof.Machine

/-! ## Port events leave the executor's side -/

theorem takeWaiting_execSame (ms : List Inbound) (s : State) : s.ExecSame (takeWaiting ms s) := by
  induction ms generalizing s with
  | nil => exact ⟨rfl, rfl, rfl, rfl, rfl, fun _ => rfl, rfl⟩
  | cons m rest ih =>
    unfold takeWaiting
    split
    · exact (s.portSide_deliver m).exec.trans (ih _)
    · exact ⟨rfl, rfl, rfl, rfl, rfl, fun _ => rfl, rfl⟩

theorem State.receive_execSame (s : State) (m : Inbound) : s.ExecSame (s.receive m) := by
  unfold State.receive
  split
  · exact (State.portSide_deliver _ m).exec
  · exact ⟨rfl, rfl, rfl, rfl, rfl, fun _ => rfl, rfl⟩

theorem receiveBytes_execSame (bs : List Byte) (later : Bool) (s : State) : s.ExecSame (receiveBytes bs later s) :=
  receiveBytes_induct bs later State.ExecSame State.ExecSame.refl (fun _ _ _ => State.ExecSame.trans)
    (fun _ _ _ _ => ⟨rfl, rfl, rfl, rfl, rfl, fun _ => rfl, rfl⟩)
    (fun s m _ => State.ExecSame.trans (t := s.setPartial []) ⟨rfl, rfl, rfl, rfl, rfl, fun _ => rfl, rfl⟩
      (State.receive_execSame _ m)) s

theorem State.sendHead_execSame (s : State) : s.ExecSame s.sendHead := by
  unfold State.sendHead
  repeat' split
  · exact State.ExecSame.refl s
  · rename_i m rest h
    exact State.ExecSame.trans (t := { s with outQueue := rest }) ⟨rfl, rfl, rfl, rfl, rfl, fun _ => rfl,
        rfl⟩ (takeWaiting_execSame _ _)
  · exact State.ExecSame.refl s

theorem State.purgeAll_execSame (s : State) (ps : List PortIx) : s.ExecSame (s.purgeAll ps) := by
  induction ps generalizing s with
  | nil => exact State.ExecSame.refl s
  | cons p rest ih => exact (s.portSide_purge p (fun _ => true) false).exec.trans (ih _)

theorem State.mapPorts_execSame (s : State) (f : PortIx → Port → Port) : s.ExecSame (s.mapPorts f) :=
  ⟨by simp, by simp, by simp, by simp, by simp, by simp, by simp⟩

theorem State.linkLoss_execSame (s : State) (o : List PortIx) : s.ExecSame (s.linkLoss o) := by
  unfold State.linkLoss State.portsLoss State.admissionLoss
  refine State.ExecSame.trans (t := s.dropLink) ⟨rfl, rfl, rfl, rfl, rfl, fun _ => rfl, rfl⟩ ?_
  refine State.ExecSame.trans (State.purgeAll_execSame _ allPorts) ?_
  refine State.ExecSame.trans (State.portSide_setFree _ Config.poolEntries).exec ?_
  refine State.ExecSame.trans (State.mapPorts_execSame _ fun _ q => q.linkLoss) ?_
  exact State.ExecSame.trans (State.portSide_latch _ _ (by decide)).exec (State.portSide_offer _ _).exec

theorem State.setLinkReady_execSame (s : State) (b : Bool) : s.ExecSame { s with linkReady := b } :=
  ⟨rfl, rfl, rfl, rfl, rfl, fun _ => rfl, rfl⟩

theorem State.withdrawLine_execSame (s : State) (o : List PortIx) : s.ExecSame (s.withdrawLine o) := by
  unfold State.withdrawLine
  split
  · exact (s.linkLoss_execSame o).trans (State.setLinkReady_execSame _ false)
  · exact s.setLinkReady_execSame false

theorem State.assertLine_execSame (s : State) : s.ExecSame s.assertLine := by
  unfold State.assertLine
  split <;> exact ⟨rfl, rfl, rfl, rfl, rfl, fun _ => rfl, rfl⟩

/-! ## The executor's side, its invariants -/

theorem State.ExecSame.memoryOk {s t : State} (h : s.ExecSame t) : s.MemoryOk → t.MemoryOk := by
  unfold State.MemoryOk; rw [h.cardMem]; exact id
theorem State.ExecSame.jobOk {s t : State} (h : s.ExecSame t) : s.JobOk → t.JobOk := by
  unfold State.JobOk; rw [h.executor]; exact id
theorem State.ExecSame.traceOk {s t : State} (h : s.ExecSame t) : s.TraceOk → t.TraceOk := by
  unfold State.TraceOk; rw [h.tre]; exact id
theorem State.ExecSame.channel {s t : State} (h : s.ExecSame t) (c : ChannelIx) : t.channel c = s.channel c := by
  unfold State.channel; rw [h.channels]
theorem State.ExecSame.channelOk {s t : State} (h : s.ExecSame t) {c : ChannelIx} : s.ChannelOk c → t.ChannelOk c := by
  unfold State.ChannelOk; rw [h.channel, h.flags]; exact id
theorem State.ExecSame.phasesOk {s t : State} (h : s.ExecSame t) : s.PhasesOk → t.PhasesOk := by
  intro k c; rw [h.channel, h.executor, h.tre]; exact k c

/-- Channels, flags, executor and armed trace are consistent. -/
structure State.ChanOk (s : State) : Prop where
  chan : ∀ c : ChannelIx, s.ChannelOk c
  phases : s.PhasesOk

theorem State.ExecSame.chanOk {s t : State} (h : s.ExecSame t) (k : s.ChanOk) : t.ChanOk :=
  ⟨fun c => h.channelOk (k.chan c), h.phasesOk k.phases⟩

/-- What the channel invariants look at. -/
theorem State.ChanOk.congr {s t : State} (h : s.ChanOk) (hc : t.channels = s.channels) (ha : t.attn = s.attn)
    (he : t.executor.channel? = s.executor.channel?)
    (hk : ∀ c, t.executor = .taken c true → s.executor = .taken c true)
    (hr : t.tre.armed.map ArmedTrace.channel = s.tre.armed.map ArmedTrace.channel) : t.ChanOk := by
  have hch : ∀ c, t.channel c = s.channel c := fun c => by unfold State.channel; rw [hc]
  refine ⟨fun c => ?_, fun c => ?_⟩
  · have := h.chan c; unfold State.ChannelOk at this ⊢; rw [hch, ha]; exact this
  · have := h.phases c; rw [hch, he, hr]; exact ⟨this.1, this.2.1, fun x => this.2.2 (hk c x)⟩

theorem flagBit_getLsbD (i : Fin 4) (j : Fin 4) : (flagBit i.val).getLsbD j.val = decide (i = j) := by
  revert i j; decide

/-- A channel that was not IDLE becomes DONE: the channel invariants hold where the executor and the trace engine no longer have
it. -/
theorem State.ChanOk.completed {s t : State} {c : ChannelIx} {f : Bool} (h : s.ChanOk) (hp : (s.channel c).phase ≠ .idle)
    (hc : t.channels = s.channels.set c ⟨.done f, (s.channel c).addr, false⟩) (ha : ∀ d : ChannelIx, t.attn.getLsbD d.val =
        (s.attn.getLsbD d.val || decide (c = d)))
    (he : ∀ d : ChannelIx, t.executor.channel? = some d ↔ d ≠ c ∧ s.executor.channel? = some d)
    (hk : ∀ d : ChannelIx, t.executor = .taken d true → s.executor = .taken d true)
    (hr : ∀ d : ChannelIx, t.tre.armed.map ArmedTrace.channel = some d ↔ d ≠ c ∧ s.tre.armed.map ArmedTrace.channel = some d) :
    t.ChanOk := by
  have hch : ∀ d, t.channel d = if d = c then ⟨.done f, (s.channel c).addr, false⟩ else s.channel d := by
    intro d
    unfold State.channel; simp only [hc, Fin.getElem_fin]
    rw [Vector.getElem_set]
    by_cases e : d = c
    · subst e; simp [State.channel]
    · rw [if_neg (fun x => e (Fin.ext x.symm)), if_neg e]
  refine ⟨fun d => ?_, fun d => ?_⟩
  · have hd := h.chan d
    unfold State.ChannelOk at hd ⊢
    rw [hch, ha d]
    by_cases e : d = c
    · subst e
      rw [if_pos rfl]
      refine ⟨?_, by simp, ?_⟩
      · simp; exact fun x => hp (hd.1.2 x)
      · simp
    · rw [if_neg e]
      refine ⟨hd.1, hd.2.1, ?_⟩
      rw [hd.2.2]
      simp [Ne.symm e]
  · have hd := h.phases d
    have hx := fun x : t.executor = .taken d true => (he d).1 (by rw [x]; rfl)
    rw [hch, he, hr]
    by_cases e : d = c
    · subst e; rw [if_pos rfl]; simp; exact fun x => (hx x).1 rfl
    · rw [if_neg e]; simp only [e, not_false_eq_true, true_and, ne_eq]
      exact ⟨hd.1, hd.2.1, fun x => hd.2.2 (hk d x)⟩

/-! ## Orders -/

/-- The channel whose order the executor begins is BUSY, and the executor works for no other. -/
theorem State.nextChannel_some {s : State} {c : ChannelIx} {unread : Bool} (h : s.nextChannel = some (c, unread)) :
    (s.executor.channel? = none ∨ s.executor.channel? = some c) ∧
      (s.ChanOk → (s.channel c).phase = .executing ∨ (s.channel c).phase = .waiting) := by
  rcases State.begins_of_nextChannel h with e | ⟨e, w, _⟩
  · rw [e]; exact ⟨Or.inr rfl, fun k => Or.inl ((k.phases c).1.2 (by rw [e]; rfl))⟩
  · rw [e]; exact ⟨Or.inl rfl, fun _ => Or.inr w.1⟩

/-- The executor works for no other channel than the one whose order it begins. -/
theorem State.nextChannel_only {s : State} {c d : ChannelIx} {unread : Bool} (h : s.nextChannel = some (c, unread))
    (hd : s.executor.channel? = some d) : d = c := by
  rcases (State.nextChannel_some h).1 with e | e <;> rw [e] at hd <;> cases hd
  rfl

/-- An order of channel `c` ends, made by the executor. -/
theorem State.ChanOk.finished {s u : State} {c : ChannelIx} (h : s.ChanOk)
    (hp : (s.channel c).phase = .executing ∨ (s.channel c).phase = .waiting)
    (he : s.executor.channel? = none ∨ s.executor.channel? = some c)
    (ph : ChannelPhase) (ab : Bool) (r : OrderResult) (w1 : Word) (bus : CompletionBus)
    (hc : u.channels = s.channels.set c ⟨ph, (s.channel c).addr, ab⟩) (ha : ∀ d : ChannelIx, u.attn.getLsbD d.val =
        s.attn.getLsbD d.val)
    (hr : u.tre.armed.map ArmedTrace.channel = s.tre.armed.map ArmedTrace.channel) : (u.finish c r w1 bus).ChanOk := by
  have hu : u.channel c = ⟨ph, (s.channel c).addr, ab⟩ := by simp [State.channel, hc]
  have k := State.complete_completed u c r w1 bus
  refine h.completed (c := c) (f := completionFails bus r.status) ?_ ?_ ?_ ?_ ?_ ?_
  · rcases hp with e | e <;> rw [e] <;> simp
  · show (u.complete c r w1 bus).channels = _
    rw [k.channels, hu, hc, Vector.set_set]
  · intro d
    show (u.complete c r w1 bus).attn.getLsbD d.val = _
    rw [k.attn, BitVec.getLsbD_or, ha, flagBit_getLsbD]
  · intro d
    show Executor.channel? .free = some d ↔ _
    refine ⟨fun x => (by cases x), fun ⟨hd, e⟩ => ?_⟩
    exfalso
    rcases he with e' | e' <;> rw [e'] at e
    · cases e
    · exact hd (Option.some.inj e).symm
  · intro d x
    cases (show Executor.free = .taken d true from x)
  · intro d
    have : (u.finish c r w1 bus).tre = u.tre := State.finish_tre u c r w1 bus
    rw [this, hr]
    refine ⟨fun e => ⟨?_, e⟩, fun e => e.2⟩
    rintro rfl
    have := (h.phases d).2.1.2 e
    rcases hp with e' | e' <;> rw [e'] at this <;> cases this

/-- What an order's run does where it ends the order on the taken channel. -/
theorem State.ChanOk.taken {s u : State} {c : ChannelIx} {unread : Bool} (h : s.ChanOk)
    (hn : s.nextChannel = some (c, unread))
    (hu : (s.beginExecuting c).ExecSame u) (r : OrderResult) (w1 : Word) (bus : CompletionBus) : (u.finish c r w1
        bus).ChanOk := by
  obtain ⟨he, hp⟩ := State.nextChannel_some hn
  refine h.finished (hp h) he .executing (s.channel c).abortReq r w1 bus ?_ ?_ ?_
  · rw [hu.channels]; rfl
  · intro d; rw [hu.flags]; rfl
  · rw [hu.tre]; rfl

/-- What a step keeps at the executor's side: card memory's form, the job's bounds, the trace, the channels. -/
structure State.ExecKeeps (s t : State) : Prop where
  memory : s.MemoryOk → t.MemoryOk
  job : s.JobOk → t.JobOk
  trace : s.TraceOk → t.TraceOk
  chan : s.ChanOk → t.ChanOk

theorem State.ExecKeeps.refl (s : State) : s.ExecKeeps s := ⟨id, id, id, id⟩

theorem State.ExecSame.keeps {s t : State} (h : s.ExecSame t) : s.ExecKeeps t :=
  ⟨h.memoryOk, h.jobOk, h.traceOk, h.chanOk⟩

theorem State.ExecSame.of_frame {s t : State} (hc : t.channels = s.channels) (he : t.executor = s.executor)
    (hm : t.cardMem = s.cardMem)
    (hk : t.attnMask = s.attnMask) (hp : t.pending = s.pending) (ha : t.attn = s.attn)
    (hr : t.tre = { s.tre with offered := t.tre.offered }) : s.ExecSame t := ⟨hc, he, hm, hk, hp, fun c => by rw [ha], hr⟩

/-! ## The acts of simple orders -/

theorem State.recomputeSelection_execSame (s : State) : s.ExecSame s.recomputeSelection :=
    (State.portSide_recomputeSelection s).exec

theorem State.setWindow_execSame (s : State) (k : ProfileIx) (w : Window) : s.ExecSame (s.setWindow k w) := by
  unfold State.setWindow
  split
  · exact State.ExecSame.refl s
  all_goals exact ⟨rfl, rfl, rfl, rfl, rfl, fun _ => rfl, rfl⟩

theorem State.windowOrder_execSame (s : State) (b : OrderBlock) : s.ExecSame (s.windowOrder b).1 := by
  unfold State.windowOrder
  split
  · dsimp only
    split
    · exact State.ExecSame.refl s
    · exact (s.setWindow_execSame _ _).trans (State.recomputeSelection_execSame _)
  · exact State.ExecSame.refl s

theorem State.changePin_execSame (s : State) (i : Fin 4) (x : Option Pin) : s.ExecSame (s.changePin i x).1 := by
  unfold State.changePin
  dsimp only
  split
  · exact State.ExecSame.refl s
  · exact State.ExecSame.trans (t := { s with pins := s.pins.set i x }) ⟨rfl, rfl, rfl, rfl, rfl, fun _ => rfl,
        rfl⟩ (State.mapPorts_execSame _ _)

theorem State.pinOrder_execSame (s : State) (b : OrderBlock) : s.ExecSame (s.pinOrder b).1 := by
  unfold State.pinOrder State.pinSet State.pinClear
  dsimp only
  repeat' split
  all_goals first | exact State.ExecSame.refl s | exact s.changePin_execSame _ _

theorem State.portSetAction_execSame (s : State) (p : PortIx) (b : OrderBlock) : s.ExecSame (s.portSetAction p b).1 := by
  unfold State.portSetAction
  dsimp only
  repeat' split
  all_goals first | exact State.ExecSame.refl s | exact ⟨rfl, rfl, rfl, rfl, rfl, fun _ => rfl, rfl⟩

theorem State.installPoint_execSame (s : State) (k : ProfileIx) (p : PortIx) (es : Vector BankEntry 64) (w : Word) :
    s.ExecSame (s.installPoint k p es w).1 := by
  unfold State.installPoint
  split
  · exact ⟨rfl, rfl, rfl, rfl, rfl, fun _ => rfl, rfl⟩
  · exact State.ExecSame.refl s

theorem State.updPort_execSame (s : State) (p : PortIx) (f : Port → Port) : s.ExecSame (s.updPort p f) :=
  ⟨rfl, rfl, rfl, rfl, rfl, fun _ => rfl, rfl⟩

theorem State.returnSample_execSame (s : State) (j : CollectJob) : s.ExecSame (s.returnSample j) := by
  unfold State.returnSample
  repeat' split
  all_goals first | exact State.ExecSame.refl s | exact State.updPort_execSame _ _ _

theorem State.returnLatch_execSame (s : State) (j : SurveyJob) : s.ExecSame (s.returnLatch j) := by
  unfold State.returnLatch
  split
  · exact State.updPort_execSame _ _ _
  · exact State.ExecSame.refl s

/-! ## An order taken -/

/-- An order's run that ends it at once. -/
theorem State.takes_finish {s u : State} {c : ChannelIx} {unread : Bool} (hn : s.nextChannel = some (c, unread))
    (hu : (s.beginExecuting c).ExecSame u)
    (r : OrderResult) (w1 : Word) (bus : CompletionBus) : s.ExecKeeps (u.finish c r w1 bus) := by
  refine ⟨fun h => State.finish_memoryOk u c r w1 bus (hu.memoryOk h), fun _ => rfl, fun h => ?_, fun h => h.taken hn hu r
      w1 bus⟩
  unfold State.TraceOk
  rw [State.finish_tre]
  exact hu.traceOk h

/-- The channel invariants where channel `c`, BUSY, is in the executing or the tracing phase, and the executor and the trace
engine hold it accordingly. -/
theorem State.ChanOk.moved {s u : State} {c : ChannelIx} {ph : ChannelPhase} (h : s.ChanOk)
    (hp : (s.channel c).phase = .executing ∨ (s.channel c).phase = .waiting)
    (he : ∀ d : ChannelIx, d ≠ c → (u.executor.channel? = some d ↔ s.executor.channel? = some d))
    (hph : (ph = .executing ∧ u.executor.channel? = some c ∧
        u.tre.armed.map ArmedTrace.channel = s.tre.armed.map ArmedTrace.channel) ∨
      (ph = .tracing ∧ u.executor.channel? ≠ some c ∧ u.tre.armed.map ArmedTrace.channel = some c ∧ s.tre.armed = none))
    (hc : u.channels = s.channels.set c ⟨ph, (s.channel c).addr, (s.channel c).abortReq⟩)
    (ha : ∀ d : ChannelIx, u.attn.getLsbD d.val = s.attn.getLsbD d.val)
    (hk : ∀ d : ChannelIx, u.executor = .taken d true → s.executor = .taken d true ∨
      (d = c ∧ (s.channel c).abortReq = true)) : u.ChanOk := by
  have hch : ∀ d, u.channel d = if d = c then ⟨ph, (s.channel c).addr, (s.channel c).abortReq⟩ else s.channel d := by
    intro d
    have := State.setChannel_channel s c d ⟨ph, (s.channel c).addr, (s.channel c).abortReq⟩
    unfold State.channel State.setChannel at this
    unfold State.channel
    rw [hc]; exact this
  have hpn : ph ≠ .idle ∧ (ph = .waiting ∨ ph = .executing ∨ ph = .tracing) := by
    rcases hph with ⟨e, _⟩ | ⟨e, _⟩ <;> simp [e]
  have hnt : s.tre.armed.map ArmedTrace.channel ≠ some c := fun x => by
    have := (h.phases c).2.1.2 x
    rcases hp with e | e <;> rw [e] at this <;> cases this
  refine ⟨fun d => ?_, fun d => ?_⟩
  · have hd := h.chan d
    unfold State.ChannelOk at hd ⊢
    rw [hch, ha]
    by_cases e : d = c
    · subst e
      rw [if_pos rfl]
      have hz : (s.channel d).addr ≠ 0 := fun x => by
        have := hd.1.2 x
        rcases hp with e | e <;> rw [e] at this <;> cases this
      have hf : s.attn.getLsbD d.val = false := by rw [hd.2.2]; rcases hp with e | e <;> rw [e]
      exact ⟨⟨fun x => absurd x hpn.1, fun x => absurd x hz⟩, fun _ => hpn.2, by
        rw [hf]; rcases hph with ⟨e, _⟩ | ⟨e, _⟩ <;> simp [e]⟩
    · rw [if_neg e]; exact hd
  · have hd := h.phases d
    rw [hch]
    by_cases e : d = c
    · subst e
      rw [if_pos rfl]
      refine ⟨?_, ?_, fun x => ?_⟩
      · rcases hph with ⟨e1, e2, _⟩ | ⟨e1, e2, _⟩
        · exact ⟨fun _ => e2, fun _ => e1⟩
        · exact ⟨fun x => (by rw [e1] at x; cases x), fun x => absurd x e2⟩
      · rcases hph with ⟨e1, _, e3⟩ | ⟨e1, _, e3, _⟩
        · exact ⟨fun x => (by rw [e1] at x; cases x), fun x => absurd (e3 ▸ x) hnt⟩
        · exact ⟨fun _ => e3, fun _ => e1⟩
      · rcases hk d x with y | y
        · exact hd.2.2 y
        · exact y.2
    · rw [if_neg e, he d e]
      refine ⟨hd.1, ?_, fun x => ?_⟩
      · rcases hph with ⟨_, _, e3⟩ | ⟨_, _, e3, e4⟩
        · rw [e3]; exact hd.2.1
        · rw [hd.2.1, e3, e4]; simp [Ne.symm e]
      · rcases hk d x with y | y
        · exact hd.2.2 y
        · exact absurd y.1 e

theorem State.channels_beginExecuting (s : State) (c d : ChannelIx) :
    (s.beginExecuting c).channel d = if d = c then ⟨.executing, (s.channel c).addr,
        (s.channel c).abortReq⟩ else s.channel d := by
  unfold State.channel State.beginExecuting State.setChannel
  simp only [Fin.getElem_fin]
  rw [Vector.getElem_set]
  by_cases e : d = c
  · subst e; simp [State.channel]
  · rw [if_neg (fun x => e (Fin.ext x.symm)), if_neg e]

/-- An order's run that goes on with a job. -/
theorem State.takes_job {s u : State} {c : ChannelIx} {unread : Bool} (hn : s.nextChannel = some (c, unread)) (x : Executor)
    (hx : x.channel? = some c) (hnt : ∀ d b, x ≠ .taken d b) (hj : x.inBounds = true) (hc : u.channels = (s.beginExecuting c).channels) (ha : ∀ d : ChannelIx, u.attn.getLsbD d.val =
        s.attn.getLsbD d.val) (hm : u.cardMem = s.cardMem)
    (hr : u.tre = { s.tre with offered := u.tre.offered }) (hex : u.executor = x) : s.ExecKeeps u := by
  obtain ⟨_, hp⟩ := State.nextChannel_some hn
  refine ⟨fun h => ?_, fun _ => ?_, fun h => ?_, fun h => h.moved (hp h) (fun d hd => ?_) (Or.inl ⟨rfl, ?_, ?_⟩) hc ha
    (fun d y => absurd (hex ▸ y) (hnt d true))⟩
  · unfold State.MemoryOk; rw [hm]; exact h
  · unfold State.JobOk; rw [hex]; exact hj
  · unfold State.TraceOk; rw [hr]; exact h
  · rw [hex, hx]
    exact ⟨fun y => absurd (Option.some.inj y).symm hd, fun y => absurd (State.nextChannel_only hn y) hd⟩
  · rw [hex, hx]
  · rw [hr]

/-- The executor's taking of a waiting channel. -/
theorem State.takeNext_keeps (s : State) : s.ExecKeeps s.takeNext := by
  refine s.takeNext_induct (fun t => s.ExecKeeps t) (State.ExecKeeps.refl s) fun c hf hw => ?_
  refine ⟨id, fun _ => rfl, id, fun h => h.moved (c := c) (.inr hw) (fun d hd => ?_) (Or.inl ⟨rfl, rfl, rfl⟩) rfl
    (fun _ => rfl) (fun d x => Or.inr ?_)⟩
  · rw [hf]
    exact ⟨fun y => absurd (Option.some.inj y).symm hd, fun y => by cases y⟩
  · have := show Executor.taken c (s.channel c).abortReq = .taken d true from x
    injection this with e1 e2
    exact ⟨e1.symm, e2⟩

/-- The taking of an order keeps what its run keeps. -/
theorem State.takeOrder_keeps (s : State) (block : Option OrderBlock) (bus : CompletionBus)
    (run : ChannelIx → OrderBlock → State → State)
    (h : ∀ c b, s.nextChannel = some (c, false) → s.ExecKeeps (run c b (s.beginExecuting c))) : s.ExecKeeps (s.takeOrder block bus
        run) := by
  unfold State.takeOrder
  split
  · exact State.ExecKeeps.refl s
  · rename_i c unread hn
    dsimp only
    split
    · exact State.takes_finish hn (State.ExecSame.refl _) _ _ _
    · split
      · obtain ⟨he, hp⟩ := State.nextChannel_some hn
        have hcc : ((s.beginExecuting c).channel c) = ⟨.executing, (s.channel c).addr, (s.channel c).abortReq⟩ := by
          rw [State.channels_beginExecuting, if_pos rfl]
        refine ⟨id, fun _ => rfl, id, fun h => h.completed (c := c) (f := true) ?_ ?_ ?_ ?_ (fun d x => ?_) ?_⟩
        · rcases hp h with e | e <;> rw [e] <;> simp
        · unfold State.markDone State.setChannel State.latch
          dsimp only
          rw [hcc]
          simp [State.beginExecuting, State.setChannel]
        · intro d
          show ((s.attn ||| flagBit c.val)).getLsbD d.val = _
          rw [BitVec.getLsbD_or, flagBit_getLsbD]
        · intro d
          show (none : Option ChannelIx) = some d ↔ _
          exact ⟨fun x => (by cases x), fun x => absurd (State.nextChannel_only hn x.2) x.1⟩
        · cases (show Executor.free = .taken d true from x)
        · intro d
          show s.tre.armed.map _ = some d ↔ _
          refine ⟨fun e => ⟨?_, e⟩, fun e => e.2⟩
          rintro rfl
          have := (h.phases d).2.1.2 e
          rcases hp h with e' | e' <;> rw [e'] at this <;> cases this
      · rename_i hu _ _
        rw [Bool.not_eq_true] at hu
        subst hu
        exact h _ _ hn

theorem State.simpleOrder_keeps (s : State) (block : Option OrderBlock) (bus : CompletionBus)
    (act : OrderBlock → State → State × OrderResult) (h : ∀ b (t : State), t.ExecSame (act b t).1) :
    s.ExecKeeps (s.simpleOrder block bus act) :=
  s.takeOrder_keeps block bus _ fun _ b hn => State.takes_finish hn (h b _) _ _ _

theorem State.portOrder_keeps (s : State) (block : Option OrderBlock) (bus : CompletionBus)
    (act : PortIx → OrderBlock → State → State × OrderResult) (h : ∀ p b (t : State), t.ExecSame (act p b t).1) :
    s.ExecKeeps (s.portOrder block bus act) := by
  unfold State.portOrder
  refine s.takeOrder_keeps block bus _ fun c b hn => ?_
  dsimp only
  have h0 : (s.beginExecuting c).ExecSame { s.beginExecuting c with freeCtr := (s.beginExecuting c).freeCtr + 1 } :=
    ⟨rfl, rfl, rfl, rfl, rfl, fun _ => rfl, rfl⟩
  split
  · exact State.takes_finish hn h0 _ _ _
  · exact State.takes_finish hn (h0.trans (h _ _ _)) _ _ _

theorem State.ExecKeeps.trans {s t u : State} (h : s.ExecKeeps t) (k : t.ExecKeeps u) : s.ExecKeeps u :=
  ⟨fun x => k.memory (h.memory x), fun x => k.job (h.job x), fun x => k.trace (h.trace x), fun x => k.chan (h.chan x)⟩

theorem State.busWrite_keeps (s : State) (a : Nat) (bs : List Byte) : s.ExecKeeps (s.busWrite a bs) :=
  ⟨State.busWrite_memoryOk s a bs, id, id, fun h => h.congr rfl rfl rfl (fun _ => id) rfl⟩

/-- The executor's job ends. -/
theorem State.job_finish {s u : State} {c : ChannelIx} (hc : s.executor.channel? = some c) (hu : s.ExecSame u)
    (r : OrderResult) (w1 : Word) (bus : CompletionBus) : s.ExecKeeps (u.finish c r w1 bus) := by
  refine ⟨fun h => State.finish_memoryOk u c r w1 bus (hu.memoryOk h), fun _ => rfl, fun h => ?_, fun h => ?_⟩
  · unfold State.TraceOk
    rw [State.finish_tre]
    exact hu.traceOk h
  · refine h.finished (.inl ((h.phases c).1.2 hc)) (.inr hc) (s.channel c).phase (s.channel c).abortReq r w1 bus ?_ hu.flags ?_
    · rw [State.channels_set_self, hu.channels]
    · rw [hu.tre]

/-- The executor's job goes on. -/
theorem State.job_goes {s u : State} {c : ChannelIx} (hc : s.executor.channel? = some c) (x : Executor)
    (hx : x.channel? = some c) (hnt : ∀ d b, x ≠ .taken d b)
    (hj : s.JobOk → x.inBounds = true) (hu : s.ExecSame { u with executor := s.executor }) (he : u.executor = x) :
    s.ExecKeeps u := by
  refine ⟨hu.memoryOk, fun h => by unfold State.JobOk; rw [he]; exact hj h, hu.traceOk, fun h => ?_⟩
  have k := hu.chanOk h
  exact k.congr rfl rfl (by rw [he, hx]; exact hc.symm) (fun d y => absurd (he ▸ y) (hnt d true)) rfl

theorem State.beginLoad_keeps {s : State} {c : ChannelIx} {unread : Bool} (b : OrderBlock) (af : Bool) (bus : CompletionBus)
    (hn : s.nextChannel = some (c, unread)) : s.ExecKeeps ((s.beginExecuting c).beginLoad c b af bus) := by
  unfold State.beginLoad
  split
  · exact State.takes_finish hn (State.ExecSame.refl _) _ _ _
  · split
    · exact State.takes_finish hn (State.ExecSame.refl _) _ _ _
    · rename_i hle
      split
      · exact State.takes_finish hn (State.ExecSame.refl _) _ _ _
      · split
        · exact State.takes_finish hn (State.ExecSame.refl _) _ _ _
        · split
          · unfold State.finishInstall
            exact State.takes_finish hn (State.installPoint_execSame _ _ _ _ _) _ _ _
          · rename_i h0
            refine State.takes_job hn _ rfl (fun _ _ x => by cases x) ?_ rfl (fun _ => rfl) rfl rfl rfl
            show (decide (0 < b.count) && decide (b.count ≤ Config.maxTableEntries)) = true
            rw [Bool.and_eq_true, decide_eq_true_eq, decide_eq_true_eq]
            exact ⟨Nat.pos_of_ne_zero h0, Nat.not_lt.1 hle⟩

theorem State.loadEntry_keeps {s : State} {j : LoadJob} (hj : s.executor = .loading j) (e : Option TableEntry) (f : Bool)
    (bus : CompletionBus) : s.ExecKeeps (s.loadEntry j e f bus) := by
  have hc : s.executor.channel? = some j.channel := by rw [hj]; rfl
  unfold State.loadEntry
  dsimp only
  split
  · split <;> exact State.job_finish hc (State.ExecSame.refl _) _ _ _
  · split
    · split <;> exact State.job_finish hc (State.ExecSame.refl _) _ _ _
    · unfold State.loadStaged
      split
      · split
        · exact State.job_finish hc (State.ExecSame.refl _) _ _ _
        · unfold State.finishInstall
          exact State.job_finish hc (State.installPoint_execSame _ _ _ _ _) _ _ _
      · rename_i hlt
        split
        · exact State.job_finish hc (State.ExecSame.refl _) _ _ _
        · refine State.job_goes hc (.loading (j.stage _)) rfl (fun _ _ x => by cases x) (fun hb => ?_) ⟨rfl, rfl, rfl, rfl, rfl, fun _ => rfl, rfl⟩ rfl
          unfold State.JobOk at hb
          rw [hj] at hb
          simp only [Executor.inBounds, Bool.and_eq_true, decide_eq_true_eq] at hb ⊢
          exact ⟨by omega, hb.2⟩

theorem State.sampleCollect_frame (s : State) (c : ChannelIx) (p : PortIx) (a : Nat) (cl : Bool) (i : Nat) :
    ∃ (r : CollectSample) (bs : List Byte) (u : State), s.ExecSame u ∧ s.sampleCollect c p a cl i =
      { u with executor := .collecting ⟨c, p, a, cl, i, r, bs⟩ } := by
  unfold State.sampleCollect
  split <;> dsimp only
  · refine ⟨_, _, _, ?_, rfl⟩
    split
    · exact State.updPort_execSame _ _ _
    · exact State.ExecSame.refl s
  · refine ⟨_, _, _, ?_, rfl⟩
    split
    · exact State.updPort_execSame _ _ _
    · exact State.ExecSame.refl s

theorem State.sampleSurvey_frame (s : State) (c : ChannelIx) (a i : Nat) :
    ∃ (r : WatchLatch) (bs : List Byte) (u : State), s.ExecSame u ∧ s.sampleSurvey c a i =
      { u with executor := .surveying ⟨c, a, i, r, bs⟩ } := by
  unfold State.sampleSurvey
  split
  · rename_i hi
    refine ⟨_, _, ({ s with freeCtr := s.freeCtr + 2 } : State).updPort ⟨i, hi⟩ fun q =>
        { q with watchLatch := WatchLatch.empty }, ?_, rfl⟩
    exact State.ExecSame.trans (t := { s with freeCtr := s.freeCtr + 2 }) ⟨rfl, rfl, rfl, rfl, rfl, fun _ => rfl,
        rfl⟩ (State.updPort_execSame _ _ _)
  · exact ⟨_, _, s, State.ExecSame.refl s, rfl⟩

theorem State.beginCollect_keeps {s : State} {c : ChannelIx} {unread : Bool} (b : OrderBlock) (bus : CompletionBus)
    (hn : s.nextChannel = some (c, unread)) :
    s.ExecKeeps ((s.beginExecuting c).beginCollect c b bus) := by
  unfold State.beginCollect
  split
  · exact State.takes_finish hn (State.ExecSame.refl _) _ _ _
  · split
    · exact State.takes_finish hn (State.ExecSame.refl _) _ _ _
    · rename_i p _ _ _
      split
      · exact State.takes_finish hn (State.ExecSame.refl _) _ _ _
      obtain ⟨r, bs, u, hu, h⟩ := State.sampleCollect_frame (s.beginExecuting c) c p b.collectArea b.clearFlag 0
      rw [h]
      exact State.takes_job hn _ rfl (fun _ _ x => by cases x) rfl hu.channels (fun d => hu.flags d) hu.cardMem hu.tre rfl

theorem State.collectWritten_keeps {s : State} {j : CollectJob} (hj : s.executor = .collecting j) (w : Bool)
    (bus : CompletionBus) : s.ExecKeeps (s.collectWritten j w bus) := by
  have hc : s.executor.channel? = some j.channel := by rw [hj]; rfl
  unfold State.collectWritten
  dsimp only
  split
  · obtain ⟨v, hv⟩ : ∃ v, s.busWrite (j.area + 32 * j.index) j.record = v := ⟨_, rfl⟩
    have hvk : s.ExecKeeps v := by rw [← hv]; exact s.busWrite_keeps _ _
    have hvc : v.executor.channel? = some j.channel := by rw [← hv]; exact hc
    rw [hv]
    refine hvk.trans ?_
    split
    · exact State.job_finish hvc (State.ExecSame.refl _) _ _ _
    · split
      · exact State.job_finish hvc (State.ExecSame.refl _) _ _ _
      · rename_i hlt _
        obtain ⟨r, bs, u, hu, h⟩ := State.sampleCollect_frame v j.channel j.port j.area j.clear (j.index + 1)
        rw [h]
        refine State.job_goes hvc (.collecting ⟨j.channel, j.port, j.area, j.clear, j.index + 1, r, bs⟩) rfl
          (fun _ _ x => by cases x) (fun _ => ?_) ?_ rfl
        · show decide (j.index + 1 < collectRecords) = true
          exact decide_eq_true (Nat.not_le.1 hlt)
        · refine hu.trans ⟨rfl, ?_, rfl, rfl, rfl, fun _ => rfl, rfl⟩
          exact hu.executor.symm
  · exact State.job_finish hc (State.returnSample_execSame s j) _ _ _

theorem State.beginSurvey_keeps {s : State} {c : ChannelIx} {unread : Bool} (b : OrderBlock) (bus : CompletionBus)
    (hn : s.nextChannel = some (c, unread)) : s.ExecKeeps ((s.beginExecuting c).beginSurvey c b bus) := by
  unfold State.beginSurvey
  split
  · exact State.takes_finish hn (State.ExecSame.refl _) _ _ _
  obtain ⟨r, bs, u, hu, h⟩ := State.sampleSurvey_frame (s.beginExecuting c) c b.recordArea 0
  rw [h]
  exact State.takes_job hn _ rfl (fun _ _ x => by cases x) rfl hu.channels (fun d => hu.flags d) hu.cardMem hu.tre rfl

theorem State.surveyWritten_keeps {s : State} {j : SurveyJob} (hj : s.executor = .surveying j) (w : Bool)
    (bus : CompletionBus) : s.ExecKeeps (s.surveyWritten j w bus) := by
  have hc : s.executor.channel? = some j.channel := by rw [hj]; rfl
  unfold State.surveyWritten
  dsimp only
  split
  · obtain ⟨v, hv⟩ : ∃ v, s.busWrite (j.area + 16 * j.index) j.record = v := ⟨_, rfl⟩
    have hvk : s.ExecKeeps v := by rw [← hv]; exact s.busWrite_keeps _ _
    have hvc : v.executor.channel? = some j.channel := by rw [← hv]; exact hc
    rw [hv]
    refine hvk.trans ?_
    split
    · exact State.job_finish hvc (State.ExecSame.refl _) _ _ _
    · split
      · exact State.job_finish hvc (State.ExecSame.refl _) _ _ _
      · rename_i hlt _
        obtain ⟨r, bs, u, hu, h⟩ := State.sampleSurvey_frame v j.channel j.area (j.index + 1)
        rw [h]
        refine State.job_goes hvc (.surveying ⟨j.channel, j.area, j.index + 1, r, bs⟩) rfl (fun _ _ x => by cases x)
          (fun _ => ?_) ?_ rfl
        · show decide (j.index + 1 < surveyRecords) = true
          exact decide_eq_true (Nat.not_le.1 hlt)
        · refine hu.trans ⟨rfl, ?_, rfl, rfl, rfl, fun _ => rfl, rfl⟩
          exact hu.executor.symm
  · exact State.job_finish hc (State.returnLatch_execSame s j) _ _ _

/-! ## Trace -/

theorem State.addGap_keeps (s : State) (n : Nat) : s.ExecKeeps (s.addGap n) :=
  ⟨id, id, id, fun h => h.congr rfl rfl rfl (fun _ => id) rfl⟩

/-- The armed trace ends. -/
theorem State.endTrace_keeps {s : State} {t t' : ArmedTrace} (ha : s.tre.armed = some t) (hc : t'.channel = t.channel)
    (st : Status) (d : BitVec 16)
    (bus : CompletionBus) : s.ExecKeeps (s.endTrace t' st d bus) := by
  unfold State.endTrace
  refine ⟨fun h => State.complete_memoryOk _ _ _ _ _ h, fun h => ?_, fun h => ?_, fun h => ?_⟩
  · unfold State.JobOk; rw [State.complete_executor]; exact h
  · unfold State.TraceOk; rw [State.complete_tre]; exact ⟨h.1, by intro x hx; cases hx⟩
  · have hp : (s.channel t.channel).phase = .tracing := (h.phases _).2.1.2 (by rw [ha]; rfl)
    obtain ⟨u, hu⟩ : ∃ u : State, { s with tre := { s.tre with armed := none } } = u := ⟨_, rfl⟩
    rw [hu, hc]
    have k := State.complete_completed u t.channel (OrderResult.of st (BitVec.ofNat 32 t'.written) d) 0 bus
    refine h.completed (c := t.channel) (f := completionFails bus st) (by rw [hp]; simp) ?_ ?_ ?_ (fun d x => ?_) ?_
    · rw [k.channels, ← hu]; rfl
    · intro x; rw [k.attn, BitVec.getLsbD_or, flagBit_getLsbD, ← hu]
    · intro x
      rw [State.complete_executor, ← hu]
      refine ⟨fun e => ⟨?_, e⟩, fun e => e.2⟩
      rintro rfl
      have := (h.phases _).1.2 e
      rw [hp] at this; cases this
    · rwa [State.complete_executor, ← hu] at x
    · intro x
      rw [State.complete_tre, ← hu, ha]
      refine ⟨fun e => (by cases e), fun ⟨e, e'⟩ => ?_⟩
      exact absurd (Option.some.inj e').symm e

/-- The armed trace replaced by one on the same channel that is in order. -/
theorem State.setTrace_keeps {s u : State} {t t' : ArmedTrace} (ha : s.tre.armed = some t) (hc : t'.channel = t.channel)
    (hok : s.TraceOk → t'.Ok) (hu : u = { s with tre := { u.tre with armed := some t' } }) (hq : s.TraceOk →
        u.tre.queue.length ≤ Config.offerPlaces) :
    s.ExecKeeps u := by
  refine ⟨fun h => by rw [hu]; exact h, fun h => by rw [hu]; exact h, fun h => ?_, fun h => ?_⟩
  · refine ⟨hq h, ?_⟩
    intro x hx
    rw [hu] at hx
    obtain rfl := Option.some.inj hx
    exact hok h
  · refine h.congr (by rw [hu]) (by rw [hu]) (by rw [hu]) (fun _ x => by rwa [hu] at x) ?_
    rw [hu, ha]; exact congrArg some hc

theorem State.TraceOk.armed {s : State} (h : s.TraceOk) {t : ArmedTrace} (ha : s.tre.armed = some t) : t.Ok :=
  h.2 t ha

/-- The closing of a holding record begins. -/
theorem State.beginClose_keeps {s : State} {t t' : ArmedTrace} (ha : s.tre.armed = some t) (hc : t'.channel = t.channel)
    (h : Holding)
    (o : Option Offer) (why : CloseReason)
    (hok : s.TraceOk → t'.written < t'.count.toNat ∧ 1 ≤ h.count ∧ h.count ≤ maxRepeat ∧
        (t'.staleRunning = true → t'.staleTime ≠ 0)) :
    s.ExecKeeps (s.beginClose t' h o why) := by
  unfold State.beginClose
  refine State.setTrace_keeps ha (t' := { t' with holding := none, write := some (.holding h o why) }) hc (fun k =>
      ?_) rfl (fun k => k.1)
  obtain ⟨h1, h2, h3, h4⟩ := hok k
  refine ⟨h1, ?_, ?_, h4⟩
  · intro x hx; cases hx
  · intro w hw; obtain rfl := Option.some.inj hw; exact ⟨rfl, h2, h3⟩

theorem State.abortTrace_keeps {s : State} {t : ArmedTrace} (ha : s.tre.armed = some t) (bus : CompletionBus) :
    s.ExecKeeps (s.abortTrace t bus) := by
  unfold State.abortTrace
  split
  · rename_i h hh
    refine State.beginClose_keeps ha rfl h none .abort fun k => ?_
    obtain ⟨k1, k2, k3, k4⟩ := k.armed ha
    have := k2 h hh
    exact ⟨k1, this.1, Nat.le_of_lt this.2, k4⟩
  · exact State.endTrace_keeps ha rfl _ _ _

theorem State.traceAbortRequest_keeps (s : State) (c : ChannelIx) (bus : CompletionBus) :
    s.ExecKeeps (s.traceAbortRequest c bus) := by
  unfold State.traceAbortRequest
  split
  · exact State.ExecKeeps.refl _
  · rename_i t ha
    split
    · exact State.abortTrace_keeps ha bus
    · exact State.ExecKeeps.refl _

theorem State.staleExpire_keeps {s : State} {t : ArmedTrace} (ha : s.tre.armed = some t)
    (hr : s.TraceOk → t.written = 0 → t.staleTime ≠ 0) (bus : CompletionBus) :
    s.ExecKeeps (s.staleExpire t bus) := by
  unfold State.staleExpire
  dsimp only
  split
  · rename_i h hh
    refine State.beginClose_keeps ha (t' := { t with staleRunning := false, staleDue := false }) rfl h none .stale fun k => ?_
    obtain ⟨k1, k2, k3, k4⟩ := k.armed ha
    have := k2 h hh
    exact ⟨k1, this.1, Nat.le_of_lt this.2, by simp⟩
  · split
    · rename_i hh h0
      refine State.setTrace_keeps ha (t' := { t with staleRunning := true, staleDue := false }) rfl (fun k => ?_) rfl (fun k
          => k.1)
      obtain ⟨k1, k2, k3, k4⟩ := k.armed ha
      exact ⟨k1, k2, k3, fun _ => hr k h0⟩
    · exact State.endTrace_keeps ha rfl _ _ _

theorem State.staleTimer_keeps (s : State) (bus : CompletionBus) : s.ExecKeeps (s.staleTimer bus) := by
  unfold State.staleTimer
  split
  · exact State.ExecKeeps.refl s
  · rename_i t ha
    split
    · rename_i hrun
      split
      · exact State.staleExpire_keeps ha (fun k _ => (k.armed ha).2.2.2 hrun) bus
      · rename_i w hw
        refine State.setTrace_keeps ha (t' := { t with staleRunning := false, staleDue := true }) rfl (fun k => ?_) rfl (fun
            k => k.1)
        obtain ⟨k1, k2, k3, k4⟩ := k.armed ha
        exact ⟨k1, k2, k3, by simp⟩
    · exact State.ExecKeeps.refl s

theorem State.armTrace_keeps {s : State} {c : ChannelIx} {unread : Bool} (b : OrderBlock)
    (hn : s.nextChannel = some (c, unread)) (hnone : s.tre.armed = none) (hcount : b.traceCount ≠ 0#16) :
    s.ExecKeeps ((s.beginExecuting c).armTrace c b) := by
  obtain ⟨_, hp⟩ := State.nextChannel_some hn
  refine ⟨id, fun _ => rfl, fun h => ⟨h.1, ?_⟩, fun h => h.moved (hp h) (ph := .tracing) (fun d hd => ?_)
    (Or.inr ⟨rfl, (fun x => by cases x), rfl, hnone⟩) ?_ (fun _ => rfl)
    (fun d x => by cases (show Executor.free = .taken d true from x))⟩
  · intro t ht
    obtain rfl := Option.some.inj ht
    refine ⟨?_, ?_, ?_, ?_⟩
    · exact Nat.pos_of_ne_zero fun x => hcount (BitVec.eq_of_toNat_eq x)
    · intro h hh; cases hh
    · intro w hw
      simp only [gapWrite] at hw
      split at hw
      · cases hw
      · obtain rfl := Option.some.inj hw
        exact ⟨rfl, Nat.le_refl 1, (by decide : 1 ≤ 255)⟩
    · intro hx; simpa using hx
  · exact ⟨fun y => (by cases y), fun y => absurd (State.nextChannel_only hn y) hd⟩
  · simp [State.armTrace, State.beginExecuting, State.setChannel, State.channel]

theorem State.abortIfMarked_keeps (s : State) (c : ChannelIx) (bus : CompletionBus) : s.ExecKeeps (s.abortIfMarked c bus) := by
  unfold State.abortIfMarked
  split
  · exact s.traceAbortRequest_keeps c bus
  · exact State.ExecKeeps.refl s

theorem State.beginTrace_keeps {s : State} {c : ChannelIx} {unread : Bool} (b : OrderBlock) (bus : CompletionBus)
    (hn : s.nextChannel = some (c, unread)) :
    s.ExecKeeps ((s.beginExecuting c).beginTrace c b bus) := by
  unfold State.beginTrace
  split
  · exact State.takes_finish hn (State.ExecSame.refl _) _ _ _
  · rename_i hnone
    split
    · exact State.takes_finish hn (State.ExecSame.refl _) _ _ _
    · rename_i hcount
      exact (State.armTrace_keeps b hn hnone hcount).trans (State.abortIfMarked_keeps _ _ _)

theorem State.setOffered_keeps (s : State) (os : List Offer) : s.ExecKeeps { s with tre := { s.tre with offered := os } } :=
  ⟨id, id, id, fun h => h.congr rfl rfl rfl (fun _ => id) rfl⟩

theorem State.setQueue_keeps (s : State) (os : List Offer) (h : os.length ≤ s.tre.queue.length ∨ os.length ≤
    Config.offerPlaces) :
    s.ExecKeeps { s with tre := { s.tre with queue := os } } :=
  ⟨id, id, fun k => ⟨by rcases h with h | h; exact Nat.le_trans h k.1; exact h, k.2⟩, fun h => h.congr rfl rfl rfl (fun _ => id) rfl⟩

theorem State.takeRecord_keeps {s : State} {t : ArmedTrace} (ha : s.tre.armed = some t) (hw : t.write = none) (o : Offer) :
    s.ExecKeeps (s.takeRecord t o) := by
  unfold State.takeRecord
  dsimp only
  have hst : ((t.staleTime != 0#16) = true → t.staleTime ≠ 0) := by simp
  split
  · refine State.setTrace_keeps ha (t' := { t with staleRunning := t.staleTime != 0#16, holding := some ⟨o, 1⟩ }) rfl (fun k
        => ?_) rfl (fun k => k.1)
    obtain ⟨k1, k2, k3, k4⟩ := k.armed ha
    refine ⟨k1, ?_, ?_, hst⟩
    · intro h hh; obtain rfl := Option.some.inj hh; exact ⟨Nat.le_refl 1, (by decide : 1 < 255)⟩
    · intro w hw'; rw [show t.write = some w from hw'] at hw; cases hw
  · rename_i h hh
    split
    · split
      · rename_i hm
        refine State.beginClose_keeps ha (t' := { t with staleRunning := t.staleTime != 0#16 }) rfl _ none .taken fun k => ?_
        obtain ⟨k1, k2, k3, k4⟩ := k.armed ha
        exact ⟨k1, Nat.succ_pos _, Nat.le_of_eq hm, hst⟩
      · rename_i hm
        refine State.setTrace_keeps ha (t' :=
            { t with staleRunning := t.staleTime != 0#16, holding := some ⟨h.first, h.count + 1⟩ }) rfl (fun k => ?_) rfl
            (fun k => k.1)
        obtain ⟨k1, k2, k3, k4⟩ := k.armed ha
        refine ⟨k1, ?_, ?_, hst⟩
        · intro x hx; obtain rfl := Option.some.inj hx
          have := k2 h hh
          refine ⟨Nat.succ_pos _, ?_⟩
          show h.count + 1 < maxRepeat
          omega
        · intro w hw'; rw [show t.write = some w from hw'] at hw; cases hw
    · refine State.beginClose_keeps ha (t' := { t with staleRunning := t.staleTime != 0#16 }) rfl h (some o) .taken fun k => ?_
      obtain ⟨k1, k2, k3, k4⟩ := k.armed ha
      have := k2 h hh
      exact ⟨k1, this.1, Nat.le_of_lt this.2, hst⟩

theorem State.takeOffer_keeps (s : State) (o : Offer) (h : s.tre.writing = none) : s.ExecKeeps (s.takeOffer o) := by
  unfold State.takeOffer
  split
  · split
    · exact s.addGap_keeps 1
    · exact State.ExecKeeps.refl s
  · rename_i t ha
    split
    · refine State.takeRecord_keeps ha ?_ o
      unfold TraceEngine.writing at h
      rw [ha] at h
      dsimp only at h
      split at h
      · assumption
      · cases h
    · exact State.ExecKeeps.refl s

theorem State.queueOffer_keeps (s : State) (t : ArmedTrace) (o : Offer) : s.ExecKeeps (s.queueOffer t o) := by
  unfold State.queueOffer
  split
  · rename_i h
    refine s.setQueue_keeps _ (.inr ?_)
    rw [List.length_append]; exact h
  · split
    · exact s.addGap_keeps 1
    · exact State.ExecKeeps.refl s

theorem State.offerStep_keeps (s : State) : s.ExecKeeps s.offerStep := by
  unfold State.offerStep
  split
  · split
    · exact State.ExecKeeps.refl s
    · exact (s.setOffered_keeps _).trans (State.queueOffer_keeps _ _ _)
  · rename_i hw
    split
    · rename_i o rest hq
      exact (s.setQueue_keeps rest (.inl (by rw [hq]; simp))).trans (State.takeOffer_keeps _ _ hw)
    · split
      · exact State.ExecKeeps.refl s
      · exact (s.setOffered_keeps _).trans (State.takeOffer_keeps _ _ hw)

theorem TraceEngine.writing_eq {e : TraceEngine} {t : ArmedTrace} {w : AreaWrite} (h : e.writing = some (t, w)) :
    e.armed = some t ∧ t.write = some w := by
  unfold TraceEngine.writing at h
  split at h
  · cases h
  · split at h
    · cases h
    · cases h
      exact ⟨by assumption, by assumption⟩

theorem State.settleTrace_keeps {s : State} {t : ArmedTrace} (ha : s.tre.armed = some t) (h0 : t.written ≠ 0)
    (bus : CompletionBus) : s.ExecKeeps (s.settleTrace t bus) := by
  unfold State.settleTrace
  split
  · exact State.abortTrace_keeps ha bus
  · split
    · exact State.staleExpire_keeps ha (fun _ h => absurd h h0) bus
    · exact State.ExecKeeps.refl s

/-- A trace goes on after a write that has not filled the area. -/
theorem State.traceGoesOn_keeps {s : State} {t t0 : ArmedTrace} (ha : s.tre.armed = some t0)
    (ht : t = { t0 with written := t0.written + 1 })
    (hlt : t.written ≠ t.count.toNat) (h : Option Holding) (hh : ∀ x ∈ h, 1 ≤ x.count ∧ x.count < maxRepeat) (bus :
        CompletionBus) :
    s.ExecKeeps (s.traceGoesOn t h bus) := by
  unfold State.traceGoesOn
  dsimp only
  subst ht
  refine State.ExecKeeps.trans (t :=
      { s with tre := { s.tre with armed := some { t0 with written := t0.written + 1, holding := h, write := none } } }) ?_ ?_
  · refine State.setTrace_keeps ha (t' := { t0 with written := t0.written + 1, holding := h, write := none }) rfl (fun k =>
        ?_) rfl (fun k => k.1)
    obtain ⟨k1, k2, k3, k4⟩ := k.armed ha
    refine ⟨?_, hh, ?_, k4⟩
    · show t0.written + 1 < t0.count.toNat
      have : t0.written + 1 ≠ t0.count.toNat := hlt
      omega
    · intro x hx; cases hx
  · exact State.settleTrace_keeps rfl (by show t0.written + 1 ≠ 0; omega) bus

theorem State.addGapOf_keeps {s : State} {t0 : ArmedTrace} (ha : s.tre.armed = some t0) (n : Option Offer) :
    s.ExecKeeps (s.addGapOf n) ∧ (s.addGapOf n).tre.armed = some t0 := by
  unfold State.addGapOf; split
  · exact ⟨State.ExecKeeps.refl s, ha⟩
  · exact ⟨s.addGap_keeps 1, ha⟩

theorem State.areaWritten_keeps {s : State} {t0 t : ArmedTrace} {w : AreaWrite} (ha : s.tre.armed = some t0)
    (ht : t = { t0 with written := t0.written + 1 }) (hc : t.channel = t0.channel)
    (bus : CompletionBus) : s.ExecKeeps (s.areaWritten t w bus) := by
  rcases w with ⟨n, m⟩ | ⟨hd, next, why⟩
  · unfold State.areaWritten
    dsimp only
    split
    · exact State.endTrace_keeps ha hc _ _ _
    · rename_i h
      exact State.traceGoesOn_keeps ha ht h none (by intro x hx; cases hx) bus
  · cases why <;> unfold State.areaWritten <;> dsimp only
    · split
      · exact (State.addGapOf_keeps ha next).1.trans (State.endTrace_keeps (State.addGapOf_keeps ha next).2 hc _ _ _)
      · rename_i h
        refine State.traceGoesOn_keeps ha ht h _ (fun x hx => ?_) bus
        cases next with
        | none => cases hx
        | some o => obtain rfl := Option.some.inj hx; exact ⟨Nat.le_refl 1, (by decide : 1 < 255)⟩
    · split <;> exact State.endTrace_keeps ha hc _ _ _
    · exact State.endTrace_keeps ha hc _ _ _

theorem State.traceWritten_keeps (s : State) (w : Bool) (bus : CompletionBus) : s.ExecKeeps (s.traceWritten w bus) := by
  unfold State.traceWritten
  split
  · exact State.ExecKeeps.refl s
  · rename_i t wr h
    obtain ⟨ha, hw⟩ := TraceEngine.writing_eq h
    split
    · exact (s.busWrite_keeps _ _).trans (State.areaWritten_keeps (s := s.busWrite _ _) ha rfl rfl bus)
    · exact (s.addGap_keeps _).trans (State.endTrace_keeps (s := s.addGap _) ha rfl _ _ _)

/-! ## Pointer writes -/

/-- One channel changed, with its flag. -/
theorem State.setChannel_keeps {s u : State} {c : ChannelIx} {ch : Channel} (hc : u.channels = s.channels.set c ch)
    (he : u.executor = s.executor) (hm : u.cardMem = s.cardMem) (hr : u.tre = { s.tre with offered := u.tre.offered })
    (ha : ∀ d : ChannelIx, d ≠ c → u.attn.getLsbD d.val = s.attn.getLsbD d.val)
    (h1 : s.ChannelOk c → (ch.phase = .idle ↔ ch.addr = 0) ∧ (ch.abortReq = true → ch.phase = .waiting ∨ ch.phase =
        .executing ∨ ch.phase = .tracing) ∧
      u.attn.getLsbD c.val = (match ch.phase with | .done _ => true | _ => false))
    (h2 : (ch.phase = .executing ↔ (s.channel c).phase = .executing) ∧ (ch.phase = .tracing ↔ (s.channel c).phase = .tracing))
    (h3 : (s.channel c).phase = .executing → (s.channel c).abortReq = true → ch.abortReq = true) :
    s.ExecKeeps u := by
  have hch : ∀ d, u.channel d = if d = c then ch else s.channel d := by
    intro d
    have := State.setChannel_channel s c d ch
    unfold State.channel State.setChannel at this
    unfold State.channel
    rw [hc]; exact this
  refine ⟨fun h => ?_, fun h => ?_, fun h => ?_, fun h => ⟨fun d => ?_, fun d => ?_⟩⟩
  · unfold State.MemoryOk; rw [hm]; exact h
  · unfold State.JobOk; rw [he]; exact h
  · unfold State.TraceOk; rw [hr]; exact h
  · have hd := h.chan d
    unfold State.ChannelOk
    rw [hch]
    by_cases e : d = c
    · subst e; rw [if_pos rfl]; exact h1 hd
    · rw [if_neg e, ha d e]; exact hd
  · have hd := h.phases d
    rw [hch, he, hr]
    by_cases e : d = c
    · subst e; rw [if_pos rfl]
      exact ⟨h2.1.trans hd.1, h2.2.trans hd.2.1, fun x => h3 (hd.1.2 (by rw [x]; rfl)) (hd.2.2 x)⟩
    · rw [if_neg e]; exact hd

theorem State.markAbort_keeps (s : State) (c : ChannelIx) (hp : (s.channel c).phase = .waiting ∨ (s.channel c).phase =
    .executing ∨ (s.channel c).phase = .tracing) :
    s.ExecKeeps (s.markAbort c) := by
  refine State.setChannel_keeps (c := c) rfl rfl rfl rfl (fun _ _ => rfl) (fun h => ?_) ⟨Iff.rfl, Iff.rfl⟩ (fun _ _ => rfl)
  exact ⟨h.1, fun _ => hp, h.2.2⟩

theorem State.unlatch_getLsbD (s : State) (c d : ChannelIx) : (s.unlatch c.val).attn.getLsbD d.val =
    (s.attn.getLsbD d.val && decide (d ≠ c)) := by
  unfold State.unlatch
  simp only [BitVec.getLsbD_and, BitVec.getLsbD_not, flagBit_getLsbD]
  have : d.val < 8 := by omega
  simp [this]
  congr 1
  simp [eq_comm]

theorem State.pointerAddressWrite_keeps (s : State) (c : ChannelIx) (v : Word) (hz : ¬ isZeroWrite v = true) :
    s.ExecKeeps (s.pointerAddressWrite c v) := by
  unfold State.pointerAddressWrite
  split
  · rename_i h
    refine State.setChannel_keeps (c := c) rfl rfl rfl rfl (fun _ _ => rfl) (fun k => ?_) ?_
      (fun x => by rw [h] at x; cases x)
    · refine ⟨?_, by simp, ?_⟩
      · simp only [reduceCtorEq, false_iff]
        intro x
        apply hz
        unfold isZeroWrite
        simp [x]
      · show s.attn.getLsbD c.val = _
        rw [k.2.2, h]
    · rw [h]; simp
  all_goals exact (State.portSide_latch s _ (by decide)).exec.keeps

theorem State.pointerWrite_keeps (s : State) (c : ChannelIx) (v : Word) (lag : Bool) (bus : CompletionBus) :
    s.ExecKeeps (s.pointerWrite c v lag bus) := by
  unfold State.pointerWrite
  split
  · unfold State.pointerZeroWrite
    split
    · exact State.ExecKeeps.refl s
    · rename_i h; exact s.markAbort_keeps c (.inl h)
    · rename_i h; exact s.markAbort_keeps c (.inr (.inl h))
    · rename_i h
      split
      · exact State.ExecKeeps.refl s
      · exact (s.markAbort_keeps c (.inr (.inr h))).trans (State.traceAbortRequest_keeps _ c bus)
    · rename_i f h
      refine State.setChannel_keeps (c := c) (ch := Channel.reset) rfl rfl rfl rfl (fun d hd => ?_) (fun k => ?_) ?_
        (fun x => by rw [h] at x; cases x)
      · show ((s.setChannel c Channel.reset).unlatch c.val).attn.getLsbD d.val = _
        rw [State.unlatch_getLsbD]; simp [hd, State.setChannel]
      · refine ⟨by simp [Channel.reset], by simp [Channel.reset], ?_⟩
        show ((s.setChannel c Channel.reset).unlatch c.val).attn.getLsbD c.val = _
        rw [State.unlatch_getLsbD]; simp [Channel.reset]
      · rw [h]; simp [Channel.reset]
  · rename_i hz
    have hw : s.ExecKeeps (s.pointerAddressWrite c v) := s.pointerAddressWrite_keeps c v hz
    split
    · exact hw
    · exact hw.trans (State.takeNext_keeps _)

theorem State.writeAttn_keeps (s : State) (v : Word) : s.ExecKeeps (s.writeAttn v) := by
  unfold State.writeAttn
  refine State.ExecSame.keeps ⟨rfl, rfl, rfl, rfl, rfl, fun c => ?_, rfl⟩
  show (s.attn &&& ~~~ (v.extractLsb' 0 8 &&& 0xF0#8)).getLsbD c.val = _
  simp only [BitVec.getLsbD_and, BitVec.getLsbD_not]
  have h1 : (0xF0#8).getLsbD c.val = false := by revert c; decide
  have h2 : c.val < 8 := by omega
  rw [h1]; simp [h2]

theorem State.registerWrite_keeps (s : State) (o w : Nat) (v : Word) : s.ExecKeeps (s.registerWrite o w v) := by
  unfold State.registerWrite
  split
  · split
    all_goals first | exact s.pointerWrite_keeps _ _ _ _ | exact s.writeAttn_keeps v | exact State.ExecKeeps.refl s | skip
    exact ⟨id, id, id, fun h => h.congr rfl rfl rfl (fun _ => id) rfl⟩
  · exact State.ExecKeeps.refl s

theorem State.deviceReset_keeps (s : State) : s.ExecKeeps s.deviceReset := by
  have hr : ∀ u : State, u = { State.reset with linkReady := s.linkReady, cardMem := s.cardMem, freeCtr := s.freeCtr, pending := s.pending } → s.ExecKeeps u := by
    rintro u rfl
    refine ⟨id, fun _ => rfl, fun _ =>
        ⟨Nat.zero_le _,
        by intro t ht; cases ht⟩, fun _ => State.ChanOk.congr (s := State.reset) ⟨by decide, by decide⟩ rfl rfl rfl (fun _ => id) rfl⟩
  unfold State.deviceReset
  dsimp only
  split
  · exact (hr _ rfl).trans (State.assertLine_execSame _).keeps
  · exact hr _ rfl

end Sys2Proof.Machine
end

