-- ==== Sys2Proof/Laws/Flows.lean ====
section
/-! SUPPORT. The flow of entries between lane lists, pool and outbound queue: what each operation keeps of the pool's sum, the
pool-low state, the length of the outbound queue and the link. -/

namespace Sys2Proof.Machine

/-! ## Sums -/

theorem sum_change {α : Type} [DecidableEq α] (l : List α) (hn : l.Nodup) (x : α) (hx : x ∈ l) (f g : α → Nat)
    (h : ∀ y, y ≠ x → f y = g y) : (l.map f).sum + g x = (l.map g).sum + f x := by
  induction l with
  | nil => cases hx
  | cons a rest ih =>
    obtain ⟨hna, hnr⟩ := List.nodup_cons.1 hn
    simp only [List.map_cons, List.sum_cons]
    by_cases e : a = x
    · subst e
      have : rest.map f = rest.map g := List.map_congr_left fun y hy => h y (fun k => hna (k ▸ hy))
      rw [this]; omega
    · have hr : x ∈ rest := by
        rcases List.mem_cons.1 hx with k | k
        · exact absurd k.symm e
        · exact k
      have := ih hnr hr
      rw [h a e]; omega

theorem sum_split {α : Type} (l : List α) (c : α → Bool) (f : α → Nat) :
    ((l.filter c).map f).sum + (l.map fun x => if c x then 0 else f x).sum = (l.map f).sum := by
  induction l with
  | nil => rfl
  | cons a rest ih =>
    cases h : c a <;> simp [h] <;> omega

theorem allPorts_nodup : allPorts.Nodup := List.nodup_finRange 16
theorem mem_allPorts (p : PortIx) : p ∈ allPorts := List.mem_finRange p
theorem allSources_nodup : allSources.Nodup := List.nodup_finRange 64
theorem mem_allSources (p : SourceIx) : p ∈ allSources := List.mem_finRange p

theorem State.listed_congr {s t : State} (h : ∀ p, (t.port p).listTotal = (s.port p).listTotal) : t.listed = s.listed := by
  unfold State.listed
  exact congrArg List.sum (List.map_congr_left fun p _ => h p)

theorem State.listed_change {s t : State} (p : PortIx) (h : ∀ p', p' ≠ p → (t.port p').listTotal = (s.port p').listTotal) :
    t.listed + (s.port p).listTotal = s.listed + (t.port p).listTotal :=
  by
  unfold State.listed
  exact sum_change allPorts allPorts_nodup p (mem_allPorts p) (fun p => (t.port p).listTotal) (fun p => (s.port p).listTotal) h

theorem Port.listTotal_congr {q r : Port} (h : ∀ x, (q.lane x).list.length = (r.lane x).list.length) : q.listTotal =
    r.listTotal := by
  unfold Port.listTotal
  exact congrArg List.sum (List.map_congr_left fun p _ => h p)

theorem Port.listTotal_change {q r : Port} (x : SourceIx) (h : ∀ y, y ≠ x → (q.lane y).list.length = (r.lane y).list.length) :
    q.listTotal + (r.lane x).list.length = r.listTotal + (q.lane x).list.length :=
  by
  unfold Port.listTotal
  exact sum_change allSources allSources_nodup x (mem_allSources x) (fun x => (q.lane x).list.length) (fun x =>
      (r.lane x).list.length) h

/-! ## Flow -/

structure State.Flows (n : Nat) (s t : State) : Prop where
  pool : t.freeCount + t.listed = s.freeCount + s.listed
  below : s.poolBelow = decide (s.freeCount < s.warning.toNat) → t.poolBelow = decide (t.freeCount < t.warning.toNat)
  reserve : t.reserve = s.reserve
  warning : t.warning = s.warning
  link : s.LinkSame t
  grows : s.outQueue.length ≤ t.outQueue.length
  down : s.linkUp = false → t.outQueue = s.outQueue
  bound : t.outQueue.length + t.listed ≤ s.outQueue.length + s.listed + n

theorem State.Flows.trans {n m : Nat} {s t u : State} (h : s.Flows n t) (k : t.Flows m u) : s.Flows (n + m) u := by
  refine ⟨k.pool.trans h.pool, fun x => k.below (h.below x), k.reserve.trans h.reserve, k.warning.trans h.warning,
    ⟨k.link.linkReady.trans h.link.linkReady, k.link.linkUp.trans h.link.linkUp,
      k.link.inPartial.trans h.link.inPartial, k.link.inWaiting.trans h.link.inWaiting⟩,
    Nat.le_trans h.grows k.grows, fun x => (k.down (h.link.linkUp.trans x)).trans (h.down x), ?_⟩
  have := h.bound; have := k.bound; omega

theorem State.Flows.quiet {s t : State} (h : s.PortSide t) (hf : t.freeCount = s.freeCount) (hb : t.poolBelow = s.poolBelow)
    (ho : t.outQueue = s.outQueue) (hl : ∀ p x, (t.lane p x).list = (s.lane p x).list) : s.Flows 0 t := by
  have hL : t.listed = s.listed := State.listed_congr fun p => Port.listTotal_congr fun x => congrArg List.length (hl p x)
  refine ⟨by rw [hf, hL], fun x => by rw [hb, hf, h.warning, x], h.reserve, h.warning, h.link, by rw [ho], fun _ => ho, by rw [ho, hL]; omega⟩

theorem State.Flows.refl (s : State) : s.Flows 0 s := State.Flows.quiet (State.PortSide.refl s) rfl rfl rfl fun _ _ => rfl

theorem State.Flows.after {s t u : State} (k : t.Flows 0 u) (h : s.Flows 0 t) : s.Flows 0 u := h.trans k

theorem State.Flows.zero {s t u : State} (h : s.Flows 0 t) (k : t.Flows 0 u) : s.Flows 0 u := h.trans k

theorem State.updPort_lane (s : State) (p p' : PortIx) (f : Port → Port) (x : SourceIx) :
    (s.updPort p f).lane p' x = if p' = p then (f (s.port p)).lane x else s.lane p' x := by
  unfold State.lane State.updPort
  rw [State.setPort_port]
  split <;> rfl

theorem State.updPort_flows (s : State) (p : PortIx) (f : Port → Port) (hc : ∀ q, (f q).kc = q.kc) (hf : ∀ q, (f q).kf = q.kf)
    (hl : ∀ q x, ((f q).lane x).list = (q.lane x).list) : s.Flows 0 (s.updPort p f) := by
  refine State.Flows.quiet (s.portSide_updPort p f hc hf) rfl rfl rfl fun p' x => ?_
  rw [State.updPort_lane]
  split
  · rename_i h; rw [hl, h]; rfl
  · rfl

theorem State.updPort_flows' (s : State) (p : PortIx) (f : Port → Port)
    (h : ∀ q, (f q).kc = q.kc ∧ (f q).kf = q.kf ∧ (f q).lanes = q.lanes) :
    s.Flows 0 (s.updPort p f) :=
  s.updPort_flows p f (fun q => (h q).1) (fun q => (h q).2.1) fun q x => by unfold Port.lane; rw [(h q).2.2]

theorem State.offer_flows (s : State) (os : List Offer) : s.Flows 0 (s.offer os) :=
  State.Flows.quiet (s.portSide_offer os) rfl rfl rfl fun _ _ => rfl

theorem State.latch_flows (s : State) (i : Nat) (h : 4 ≤ i) : s.Flows 0 (s.latch i) :=
  State.Flows.quiet (s.portSide_latch i h) rfl rfl rfl fun _ _ => rfl

theorem State.latchIf_flows (s : State) (c : Bool) (i : Nat) (h : 4 ≤ i) : s.Flows 0 (s.latchIf c i) := by
  unfold State.latchIf; split
  · exact s.latch_flows i h
  · exact State.Flows.refl s

theorem State.updPortTally_flows (s : State) (p : PortIx) (f : PortTally → PortTally) : s.Flows 0 (s.updPortTally p f) :=
  s.updPort_flows' p _ fun _ => ⟨rfl, rfl, rfl⟩

theorem State.handOver_le (s : State) (ms : List Message) : s.outQueue.length ≤ (s.handOver ms).outQueue.length ∧
    (s.handOver ms).outQueue.length ≤ s.outQueue.length + ms.length := by
  rw [State.handOver_outQueue]; split
  · simp
  · exact ⟨Nat.le_refl _, Nat.le_add_right _ _⟩

/-! ## Releases -/

theorem Lane.send_list (l : Lane) (kind : SendKind) (len : BitVec 14) : (l.send kind len).list = l.list.tail := by
  rw [Lane.send_eq]

theorem State.carryOutRelease_flows (s : State) (p : PortIx) (src : SourceIx) (kind : SendKind) (q : Port) (e : Entry)
    (hc : q.kc = (s.port p).kc) (hf : q.kf = (s.port p).kf) (hl : q.lanes = (s.port p).lanes) (hne :
        ((s.port p).lane src).list ≠ []) :
    s.Flows 0 (s.carryOutRelease p src kind q e) := by
  have hside : s.PortSide (s.carryOutRelease p src kind q e) := by
    unfold State.carryOutRelease
    refine State.PortSide.trans (State.PortSide.trans (State.PortSide.trans (s.portSide_setPort p _ ?_ ?_)
      (State.portSide_setFree _ _)) (State.portSide_handOver _ _)) (State.portSide_offer _ _)
    · rw [Port.release_eq]; exact hc
    · rw [Port.release_eq]; exact hf
  have hlist : (s.carryOutRelease p src kind q e).listed + 1 = s.listed := by
    have h1 := State.listed_change (s := s) (t := s.carryOutRelease p src kind q e) p fun p' hp => by
      rw [State.carryOutRelease_port, if_neg hp]
    rw [State.carryOutRelease_port, if_pos rfl] at h1
    have h2 := Port.listTotal_change (q := q.release src kind e) (r := s.port p) src fun y hy => by
      rw [Port.release_lane, if_neg hy, Port.lane_congr hl]
    rw [Port.release_lane, if_pos rfl, Lane.send_list, Port.lane_congr hl, List.length_tail] at h2
    have := List.length_pos_of_ne_nil hne
    omega
  have hframe := s.carryOutRelease_frame p src kind q e
  have hfree := s.carryOutRelease_freeCount p src kind q e
  have hout : (s.carryOutRelease p src kind q e).outQueue = if s.linkUp then s.outQueue ++ [Message.ofRelease p src e.handle
      q.nextTag e.len] else s.outQueue := by
    rw [hframe]
  have hpb : (s.carryOutRelease p src kind q e).poolBelow = decide (s.freeCount + 1 < s.warning.toNat) := by rw [hframe]
  refine ⟨by rw [hfree]; omega, fun _ => by rw [hpb, hfree, hside.warning], hside.reserve, hside.warning, hside.link, ?_, ?_, ?_⟩
  · rw [hout]; split <;> simp
  · intro h; rw [hout, if_neg (by rw [h]; exact Bool.false_ne_true)]
  · rw [hout]; split
    · rw [List.length_append, List.length_singleton]; omega
    · omega

theorem Port.decision_capacity {q q' : Port} {src : SourceIx} {kind : SendKind} (h : q.decision = some (src, kind, q')) :
    q'.kc = q.kc ∧ q'.kf = q.kf ∧ q'.lanes = q.lanes := by
  rcases Port.decision_cases h with ⟨_, _, rfl⟩ | ⟨_, _, t, _, rfl⟩
  · exact ⟨rfl, rfl, rfl⟩
  · cases t <;> exact ⟨rfl, rfl, rfl⟩

theorem State.releaseOnce_flows {s t : State} {p : PortIx} (h : s.releaseOnce p = some t) : s.Flows 0 t := by
  unfold State.releaseOnce at h
  dsimp only at h
  split at h
  · split at h
    · cases h
    · rename_i src kind q' hd
      split at h
      · cases h
      · cases h
        obtain ⟨hc, hf, hl⟩ := Port.decision_capacity hd
        exact s.carryOutRelease_flows p src kind q' _ hc hf hl (Port.decision_list hd)
  · cases h

theorem State.releaseTest_flows (s : State) (p : PortIx) : s.Flows 0 (s.releaseTest p) := by
  unfold State.releaseTest
  split
  · exact State.Flows.refl s
  · rename_i s1 h1
    split
    · exact State.releaseOnce_flows h1
    · rename_i s2 h2
      exact (State.releaseOnce_flows h1).zero (State.releaseOnce_flows h2)

theorem State.drain_flows (s : State) (p : PortIx) : s.Flows 0 (s.drain p) :=
  s.updPort_flows' p _ fun q => by unfold Port.drainRule; split <;> exact ⟨rfl, rfl, rfl⟩

theorem State.testAndDrain_flows (s : State) (p : PortIx) : s.Flows 0 (s.testAndDrain p) :=
  (s.releaseTest_flows p).zero (State.drain_flows _ p)

theorem State.setRetests_flows (s : State) (ps : List PortIx) : s.Flows 0 (s.setRetests ps) :=
  State.Flows.quiet (s.portSide_setRetests ps) rfl rfl rfl fun _ _ => rfl

theorem State.endEvent_flows (s : State) (p : PortIx) (later : Bool) : s.Flows 0 (s.endEvent p later) :=
  s.endEvent_induct p later (State.Flows 0) State.Flows.refl (fun _ _ _ => State.Flows.zero)
    (fun _ _ => State.releaseOnce_flows) State.setRetests_flows fun s => s.drain_flows p

theorem State.idle_flows (s : State) : s.Flows 0 s.idle := by
  unfold State.idle
  split
  · exact State.Flows.refl s
  · exact (s.setRetests_flows _).zero (State.testAndDrain_flows _ _)

/-! ## Purges -/

theorem State.purge_listTotal (s : State) (p : PortIx) (sel : SourceIx → Bool) (tell : Bool) :
    ((s.purge p sel tell).port p).listTotal + s.entriesOn p (s.purgeVictims p sel) = (s.port p).listTotal := by
  have e1 : ((s.purge p sel tell).port p).listTotal =
      (allSources.map fun src => if (sel src && !(s.lane p src).list.isEmpty) then 0 else (s.lane p src).list.length).sum := by
    unfold Port.listTotal
    refine congrArg List.sum (List.map_congr_left fun x _ => ?_)
    show ((s.purge p sel tell).lane p x).list.length = _
    rw [State.purge_lane]
    cases hs : sel x
    · simp
    · cases hl : (s.lane p x).list <;> simp
  rw [e1, Nat.add_comm]
  exact sum_split _ _ _

theorem State.purge_flows (s : State) (p : PortIx) (sel : SourceIx → Bool) (tell : Bool) : s.Flows 0 (s.purge p sel tell) := by
  have hside := s.portSide_purge p sel tell
  have h0 : (s.purge p sel tell).listed + s.entriesOn p (s.purgeVictims p sel) = s.listed := by
    have h1 := State.listed_change (s := s) (t := s.purge p sel tell) p fun p' hp => by
      rw [State.purge_port, if_neg hp]
    have h2 := s.purge_listTotal p sel tell
    omega
  have hm : (s.discardMessages p (s.purgeVictims p sel)).length = s.entriesOn p (s.purgeVictims p sel) := by
    unfold State.discardMessages State.entriesOn
    rw [List.length_flatMap]
    simp
  refine ⟨by rw [State.purge_freeCount]; omega, fun _ => by rw [State.purge_poolBelow, State.purge_freeCount, hside.warning], hside.reserve, hside.warning, hside.link, ?_, ?_, ?_⟩
  · rw [State.purge_outQueue]; split <;> simp
  · intro h; rw [State.purge_outQueue, h]; rfl
  · rw [State.purge_outQueue]; split
    · rw [List.length_append, hm]; omega
    · omega

theorem State.refresh_flows (s : State) (p : PortIx) : s.Flows 0 (s.refresh p) := by
  unfold State.refresh
  have h1 : s.Flows 0 (s.replaceEntries p) := by
    refine s.updPort_flows p _ (fun _ => by simp) (fun _ => by simp) fun q x => ?_
    rw [Port.mapLanes_lane, Lane.refresh_list]
  have h2 : ∀ t : State, t.Flows 0 (t.switchProfile p) := by
    intro t
    unfold State.switchProfile
    refine State.Flows.zero ?_ (State.updPort_flows' _ p _ (by intro _; exact ⟨rfl, rfl, rfl⟩))
    split
    · exact State.Flows.refl t
    · exact t.offer_flows _
  exact ((h1.zero (h2 _)).zero (State.purge_flows _ p _ true)).zero (State.updPort_flows' _ p _
      (by intro _; exact ⟨rfl, rfl, rfl⟩))

theorem State.refreshIf_flows (s : State) (p : PortIx) : s.Flows 0 (s.refreshIf p) := by
  unfold State.refreshIf; split
  · exact s.refresh_flows p
  · exact State.Flows.refl s

/-! ## Events of a port -/

theorem Port.startTimer_same (q : Port) : q.startTimer.kc = q.kc ∧ q.startTimer.kf = q.kf ∧ q.startTimer.lanes = q.lanes :=
    ⟨rfl, rfl, rfl⟩

theorem State.expireOlder_flows (s : State) (p : PortIx) (sl : Slot) : s.Flows 0 (s.expireOlder p sl) := by
  unfold State.expireOlder
  exact (State.offer_flows _ _).after ((State.updPortTally_flows _ p _).after
      (State.updPort_flows' _ p _ (by intro _; exact ⟨rfl, rfl, rfl⟩)))

theorem State.expireYounger_flows (s : State) (p : PortIx) (sl : Slot) : s.Flows 0 (s.expireYounger p sl) := by
  unfold State.expireYounger
  exact (State.offer_flows _ _).after ((State.updPortTally_flows _ p _).after
      (State.updPort_flows' _ p _ (by intro _; exact ⟨rfl, rfl, rfl⟩)))

theorem State.expireYoungerIf_flows (s : State) (p : PortIx) : s.Flows 0 (s.expireYoungerIf p) := by
  unfold State.expireYoungerIf
  repeat' split
  all_goals first | exact State.Flows.refl s | exact s.expireYounger_flows p _

theorem State.expireOlderIf_flows (s : State) (p : PortIx) : s.Flows 0 (s.expireOlderIf p) := by
  unfold State.expireOlderIf
  repeat' split
  all_goals first | exact State.Flows.refl s | exact s.expireOlder_flows p _

theorem State.expireSlots_flows (s : State) (p : PortIx) : s.Flows 0 (s.expireSlots p) := by
  unfold State.expireSlots
  repeat' split
  all_goals first | exact s.expireYoungerIf_flows p | exact (s.expireOlder_flows p _).zero (State.expireOlderIf_flows _ p)

theorem State.stallPort_flows (s : State) (p : PortIx) : s.Flows 0 (s.stallPort p) := by
  unfold State.stallPort
  exact (State.offer_flows _ _).after ((State.latch_flows _ attnPortWatch
      (by decide)).after (State.updPort_flows' _ p _ (by intro _; exact ⟨rfl, rfl, rfl⟩)))

theorem State.holdWork_flows (s : State) (p : PortIx) : s.Flows 0 (s.holdWork p) := by
  unfold State.holdWork
  have h : s.Flows 0 (s.updPort p Port.ageHold) := State.updPort_flows' _ p _ (by intro _; exact ⟨rfl, rfl, rfl⟩)
  dsimp only
  repeat' split
  · exact h.zero (State.stallPort_flows _ p)
  · exact h
  · exact State.Flows.refl s

theorem Lane.accrue_list (n : BitVec 32) (x : SourceIx) (l : Lane) : (l.accrue n x).list = l.list := by
  unfold Lane.accrue Lane.withBalance; split <;> rfl

theorem State.expiryCredit_flows (s : State) (p : PortIx) : s.Flows 0 (s.expiryCredit p) := by
  unfold State.expiryCredit
  refine (State.updPort_flows' _ p Port.ageSlots (by intro _; exact ⟨rfl, rfl, rfl⟩)).after
    ((State.updPort_flows _ p Port.creditWork
        (fun _ => by rw [Port.creditWork_eq]) (fun _ => by rw [Port.creditWork_eq]) fun q x => ?_).after
      (s.refreshIf_flows p))
  rw [Port.creditWork_lane, Lane.accrue_list]

theorem State.roundExpiry_flows (s : State) (p : PortIx) : s.Flows 0 (s.roundExpiry p) := by
  unfold State.roundExpiry
  split
  · exact State.Flows.refl s
  · exact (State.testAndDrain_flows _ p).after ((State.updPort_flows' _ p Port.startTimer
        (by intro _; exact ⟨rfl, rfl, rfl⟩)).after
      ((State.holdWork_flows _ p).after ((State.expireSlots_flows _ p).after (s.expiryCredit_flows p))))

theorem State.takeDone_flows (s : State) (p : PortIx) (tag : Byte) (later : Bool) : s.Flows 0 (s.takeDone p tag later) := by
  unfold State.takeDone
  dsimp only
  repeat' split
  · exact (State.endEvent_flows _ p later).after (State.updPort_flows' _ p Port.freeOlder (by intro _; exact ⟨rfl, rfl, rfl⟩))
  · exact (State.endEvent_flows _ p later).after ((State.updPortTally_flows _ p _).after
        (State.updPort_flows' _ p Port.freeBoth (by intro _; exact ⟨rfl, rfl, rfl⟩)))
  · exact State.updPortTally_flows _ p _

theorem State.takeHold_flows (s : State) (p : PortIx) : s.Flows 0 (s.takeHold p) := by
  unfold State.takeHold
  dsimp only
  refine (State.latchIf_flows _ _ attnPortWatch
      (by decide)).after ((State.updPort_flows' _ p _ (by intro _; exact ⟨rfl, rfl, rfl⟩)).after ?_)
  split
  · exact (State.offer_flows _ _).after (State.updPort_flows' _ p _ (by intro _; exact ⟨rfl, rfl, rfl⟩))
  · exact State.Flows.refl s

theorem State.takeResume_flows (s : State) (p : PortIx) (later : Bool) : s.Flows 0 (s.takeResume p later) := by
  unfold State.takeResume
  dsimp only
  have h : s.Flows 0 ((s.updPort p fun q => { q with watchLatch := { q.watchLatch with resume := true } }).latchIf
      (watchesResume (s.port p).watchMode) attnPortWatch) :=
    (State.latchIf_flows _ _ attnPortWatch (by decide)).after (State.updPort_flows' _ p _ (by intro _; exact ⟨rfl, rfl, rfl⟩))
  split
  · exact h
  · refine (State.endEvent_flows _ p later).after ((State.offer_flows _ _).after
        ((State.updPort_flows' _ p Port.resumeFlow fun q => ?_).after h))
    rw [Port.resumeFlow_eq]; exact ⟨rfl, rfl, rfl⟩

theorem State.openPort_flows (s : State) (p : PortIx) : s.Flows 0 (s.openPort p) := by
  unfold State.openPort
  exact (State.testAndDrain_flows _ p).after ((State.updPort_flows' _ p Port.startTimer
      (by intro _; exact ⟨rfl, rfl, rfl⟩)).after
    ((State.refreshIf_flows _ p).after (State.updPort_flows' _ p _ (by intro _; exact ⟨rfl, rfl, rfl⟩))))

theorem State.clearPort_flows (s : State) (p : PortIx) : s.Flows 0 (s.clearPort p) := by
  unfold State.clearPort
  refine (State.updPort_flows _ p Port.clear
      (fun _ => by simp [Port.clear]) (fun _ => by simp [Port.clear]) fun q x => ?_).after (s.purge_flows p _ true)
  have : q.clear.lane x = (q.mapLanes fun _ l => { l with balance := 0 }).lane x := rfl
  rw [this, Port.mapLanes_lane]

theorem State.mapPorts_flows (s : State) (f : PortIx → Port → Port) (h : ∀ p q, (f p q).kc = q.kc ∧ (f p q).kf = q.kf ∧
    (f p q).lanes = q.lanes) :
    s.Flows 0 (s.mapPorts f) := by
  refine State.Flows.quiet (s.portSide_mapPorts f (fun p q => (h p q).1)
      (fun p q => (h p q).2.1)) (by simp) (by simp) (by simp) fun p x => ?_
  unfold State.lane
  rw [State.mapPorts_port, Port.lane_congr (h p _).2.2]

theorem State.recomputeSelection_flows (s : State) : s.Flows 0 s.recomputeSelection :=
  s.mapPorts_flows _ fun p q => by unfold Port.reselect; split <;> exact ⟨rfl, rfl, rfl⟩

/-! ## Arrivals -/

theorem State.accept_flows {s : State} {p : PortIx} {src : SourceIx} (len : BitVec 14) (h : BitVec 16) (hf : s.freeCount ≠ 0) :
    s.Flows 2 (s.accept p src len h) ∧ (s.accept p src len h).outQueue.length ≤ s.outQueue.length + 1 := by
  have hside := s.portSide_accept p src len h
  have he := s.accept_eq p src len h
  have hport : ∀ p', (s.accept p src len h).port p' = if p' = p then (s.port p).setLane src ((s.lane p src).append
      ⟨h, storedLength len⟩) else s.port p' := by
    intro p'
    rw [← State.setPort_port, he]; rfl
  have hlist : (s.accept p src len h).listed = s.listed + 1 := by
    have h1 := State.listed_change (s := s) (t := s.accept p src len h) p fun p' hp => by rw [hport, if_neg hp]
    rw [hport, if_pos rfl] at h1
    have h2 := Port.listTotal_change (q := (s.port p).setLane src ((s.lane p src).append ⟨h, storedLength len⟩)) (r :=
        s.port p) src fun y hy => by
      rw [Port.setLane_lane, if_neg hy]
    rw [Port.setLane_lane, if_pos rfl] at h2
    have : ((s.lane p src).append ⟨h, storedLength len⟩).list.length = ((s.port p).lane src).list.length + 1 := by
      simp [Lane.append, State.lane]
    omega
  have hfree : (s.accept p src len h).freeCount = s.freeCount - 1 := by rw [he]
  have hpb : (s.accept p src len h).poolBelow = decide (s.freeCount - 1 < s.warning.toNat) := by rw [he]
  have hout : (s.accept p src len h).outQueue = if s.linkUp then s.outQueue ++ [Message.ofAnswer p src 0 0
      h] else s.outQueue := by rw [he]
  refine ⟨⟨by rw [hfree]; omega, fun _ => by rw [hpb, hfree, hside.warning], hside.reserve, hside.warning, hside.link, ?_, ?_, ?_⟩, ?_⟩
  · rw [hout]; split <;> simp
  · intro k; rw [hout, if_neg (by rw [k]; exact Bool.false_ne_true)]
  · rw [hout]; split
    · rw [List.length_append, List.length_singleton]; omega
    · omega
  · rw [hout]; split <;> simp

theorem State.refuse_flows (s : State) (p : PortIx) (src : SourceIx) (len : BitVec 14) (h : BitVec 16) (r : RefusalReason) :
    s.Flows 1 (s.refuse p src len h r) := by
  unfold State.refuse
  refine State.Flows.trans (n := 1) (m := 0) (State.Flows.trans (n := 1) (m := 0)
      (t := s.handOver [Message.ofAnswer p src r.code r.successor h]) ?_ ?_) (State.offer_flows _ _)
  · have hs := s.portSide_handOver [Message.ofAnswer p src r.code r.successor h]
    have hl := State.handOver_le s [Message.ofAnswer p src r.code r.successor h]
    have hp : (s.handOver [Message.ofAnswer p src r.code r.successor h]).listed = s.listed := State.listed_congr fun p' => by
      unfold State.port; rw [State.handOver_ports]
    refine ⟨by rw [hp]; simp, fun k => by simp [k], hs.reserve, hs.warning, hs.link, hl.1, ?_, ?_⟩
    · intro k; rw [State.handOver_outQueue, k]; rfl
    · rw [hp]; have := hl.2; rw [List.length_singleton] at this; omega
  · refine State.updPort_flows _ p _ (fun _ => by simp) (fun _ => by simp) fun q x => ?_
    rw [Port.setLane_lane]
    split
    · rename_i e; rw [e]
    · rfl

theorem State.listed_le {s : State} (h : s.PoolConserved) : s.listed ≤ 8192 := by
  have : s.freeCount + s.listed = 8192 := h
  omega

theorem State.takeArrival_flows (s : State) (p : PortIx) (src : SourceIx) (len : BitVec 14) (h : BitVec 16)
    (later : Bool) :
    ∃ n, s.Flows n (s.takeArrival p src len h later) ∧ (s.PoolConserved → s.outQueue.length < 256 →
      (s.takeArrival p src len h later).outQueue.length + (s.takeArrival p src len h later).listed ≤ 8448) := by
  unfold State.takeArrival
  cases hr : s.admissionCheck p src len with
  | some r =>
    refine ⟨1, s.refuse_flows p src len h r, fun hp ho => ?_⟩
    have := (s.refuse_flows p src len h r).bound
    have := State.listed_le hp
    dsimp only
    omega
  | none =>
    have hf := (State.admitted hr).2.2.2.2
    obtain ⟨k1, k2⟩ := State.accept_flows (src := src) (p := p) len h hf
    have hb : s.PoolConserved → s.outQueue.length < 256 → (s.accept p src len h).outQueue.length + (s.accept p src len
        h).listed ≤ 8448 := by
      intro hp ho
      have : (s.accept p src len h).listed ≤ 8192 := by
        have e := k1.pool
        have : s.freeCount + s.listed = 8192 := hp
        omega
      omega
    dsimp only
    split
    · have k3 := State.endEvent_flows (s.accept p src len h) p later
      refine ⟨2, k1.trans k3, fun hp ho => ?_⟩
      have := k3.bound
      have := hb hp ho
      omega
    · exact ⟨2, k1, hb⟩

theorem State.deliver_flows (s : State) (m : Inbound) :
    ∃ n, s.Flows n (s.deliver m) ∧ (s.PoolConserved → s.outQueue.length < 256 →
      (s.deliver m).outQueue.length + (s.deliver m).listed ≤ 8448) := by
  have h0 : ∀ t : State, s.Flows 0 t → ∃ n, s.Flows n t ∧ (s.PoolConserved → s.outQueue.length < 256 → t.outQueue.length +
      t.listed ≤ 8448) := by
    intro t k
    refine ⟨0, k, fun hp ho => ?_⟩
    have := k.bound
    have := State.listed_le hp
    omega
  cases m with
  | arrival p src len h later => exact s.takeArrival_flows p src len h later
  | done p tag later => exact h0 _ (s.takeDone_flows p tag later)
  | hold p => exact h0 _ (s.takeHold_flows p)
  | resume p later => exact h0 _ (s.takeResume_flows p later)
  | clock m =>
    refine h0 _ ?_
    show s.Flows 0 (s.takeClock m)
    unfold State.takeClock
    split
    · dsimp only
      split
      · exact State.Flows.refl s
      · exact (State.recomputeSelection_flows _).after (State.Flows.quiet
            ⟨⟨rfl, rfl, rfl, rfl, rfl, fun _ => rfl, rfl⟩, ⟨rfl, rfl, rfl, fun _ => rfl, fun _ => rfl⟩, ⟨rfl, rfl, rfl, rfl⟩,
            rfl, rfl⟩ rfl rfl rfl fun _ _ => rfl)
    · exact State.Flows.refl s
  | bad =>
    refine h0 _ ?_
    show s.Flows 0 s.takeBad
    unfold State.takeBad
    exact (State.latch_flows _ attnLinkFault
        (by decide)).after (State.Flows.quiet ⟨⟨rfl, rfl, rfl, rfl, rfl, fun _ => rfl, rfl⟩, ⟨rfl, rfl, rfl, fun _ => rfl, fun _ => rfl⟩, ⟨rfl, rfl, rfl, rfl⟩, rfl, rfl⟩ rfl rfl rfl fun _ _ => rfl)

/-- What a step keeps of the pool, the levels and the link. -/
structure State.PoolLink (s t : State) : Prop where
  pool : s.PoolConserved → t.PoolConserved
  levels : s.LevelsOk → t.LevelsOk
  link : s.PoolConserved → s.LinkOk → t.LinkOk

theorem State.PoolLink.refl (s : State) : s.PoolLink s := ⟨id, id, fun _ => id⟩
theorem State.PoolLink.trans {s t u : State} (h : s.PoolLink t) (k : t.PoolLink u) : s.PoolLink u :=
  ⟨fun x => k.pool (h.pool x), fun x => k.levels (h.levels x), fun x y => k.link (h.pool x) (h.link x y)⟩

theorem State.Flows.poolOk {n : Nat} {s t : State} (h : s.Flows n t) (k : s.PoolConserved) : t.PoolConserved :=
  h.pool.trans k
theorem State.Flows.levelsOk {n : Nat} {s t : State} (h : s.Flows n t) (k : s.LevelsOk) : t.LevelsOk :=
  ⟨h.below k.1, by rw [h.reserve, h.warning]; exact k.2⟩

theorem State.Flows.poolLink {s t : State} (h : s.Flows 0 t) : s.PoolLink t := by
  refine ⟨h.poolOk, h.levelsOk, fun _ ⟨k1, kp, k2, k3, k4⟩ =>
    ⟨by rw [h.link.linkUp, h.link.linkReady, k1], by rw [h.link.inPartial]; exact kp, ?_, ?_, ?_⟩⟩
  · intro x
    rw [h.link.linkUp] at x
    rw [h.down x, h.link.inWaiting, h.link.inPartial]; exact k2 x
  · have b := h.bound
    rw [Nat.add_zero] at b
    exact Nat.le_trans b k3
  · intro x
    rw [h.link.inWaiting] at x
    exact Nat.le_trans (k4 x) h.grows

/-- The part of the link's invariant that the waiting messages are no part of. -/
structure State.CoreOk (s : State) : Prop where
  line : s.linkUp = s.linkReady
  total : s.outQueue.length + s.listed ≤ 8448
  pool : s.PoolConserved

theorem State.deliver_core {s : State} (m : Inbound) (h : s.CoreOk) (ho : s.outQueue.length < 256) : (s.deliver m).CoreOk := by
  obtain ⟨n, k, kb⟩ := s.deliver_flows m
  exact ⟨by rw [k.link.linkUp, k.link.linkReady, h.line], kb h.pool ho, k.poolOk h.pool⟩

theorem takeWaiting_core (ms : List Inbound) (s : State) (h : s.CoreOk) :
    (takeWaiting ms s).CoreOk ∧ ((takeWaiting ms s).inWaiting ≠ [] → 256 ≤ (takeWaiting ms s).outQueue.length) := by
  induction ms generalizing s with
  | nil => exact ⟨⟨h.line, h.total, h.pool⟩, fun x => absurd rfl x⟩
  | cons m rest ih =>
    unfold takeWaiting
    split
    · rename_i ho; exact ih _ (State.deliver_core m h ho)
    · rename_i ho; exact ⟨⟨h.line, h.total, h.pool⟩, fun _ => Nat.not_lt.1 ho⟩

theorem takeWaiting_keep (ms : List Inbound) (s : State) : (s.PoolConserved → (takeWaiting ms s).PoolConserved) ∧
    (s.LevelsOk → (takeWaiting ms s).LevelsOk) ∧ (takeWaiting ms s).linkUp = s.linkUp ∧
    (takeWaiting ms s).inPartial = s.inPartial := by
  induction ms generalizing s with
  | nil => exact ⟨id, id, rfl, rfl⟩
  | cons m rest ih =>
    unfold takeWaiting
    split
    · obtain ⟨n, k, _⟩ := s.deliver_flows m
      have := ih (s.deliver m)
      exact ⟨fun x => this.1 (k.poolOk x), fun x => this.2.1 (k.levelsOk x), this.2.2.1.trans k.link.linkUp,
        this.2.2.2.trans k.link.inPartial⟩
    · exact ⟨id, id, rfl, rfl⟩

theorem State.receive_poolLink {s : State} (m : Inbound) (hu : s.linkUp = true) : s.PoolLink (s.receive m) := by
  unfold State.receive
  split
  · rename_i hm
    obtain ⟨n, k, kb⟩ := State.deliver_flows s m
    refine ⟨fun x => k.poolOk x, fun x => k.levelsOk x, fun hp ⟨k1, kp, k2, k3, k4⟩ => ?_⟩
    unfold State.mayTake at hm
    rw [Bool.and_eq_true, Bool.and_eq_true, decide_eq_true_eq] at hm
    have hw : s.inWaiting = [] := List.isEmpty_iff.1 hm.2.2
    refine ⟨by rw [k.link.linkUp, k.link.linkReady]; exact k1, by rw [k.link.inPartial]; exact kp, ?_, kb hp hm.2.1, ?_⟩
    · intro x; rw [k.link.linkUp, hu] at x; cases x
    · intro x; rw [k.link.inWaiting] at x; exact absurd hw x
  · rename_i hm
    refine ⟨id, id, fun hp ⟨k1, kp, k2, k3, k4⟩ => ⟨k1, kp, ?_, k3, fun _ => ?_⟩⟩
    · intro x; rw [show s.linkUp = false from x] at hu; cases hu
    · show 256 ≤ s.outQueue.length
      by_contra hlt
      apply hm
      unfold State.mayTake
      rw [hu, Bool.true_and, Bool.and_eq_true, decide_eq_true_eq]
      refine ⟨by show _ < 256; omega, ?_⟩
      by_contra hne
      have : 256 ≤ s.outQueue.length := k4 (fun e => hne (by rw [e]; rfl))
      omega

theorem receiveBytes_poolLink (bs : List Byte) (later : Bool) (s : State) : s.PoolLink (receiveBytes bs later s) := by
  refine receiveBytes_induct bs later State.PoolLink State.PoolLink.refl (fun _ _ _ => State.PoolLink.trans)
    (fun s b hu hl => ⟨id, id, fun hp ⟨k1, kp, k2, k3, k4⟩ => ⟨k1, ?_, fun x => ?_, k3, k4⟩⟩) (fun s m hu => ?_) s
  · show (s.inPartial ++ [b]).length < 8
    rw [List.length_append]
    show s.inPartial.length + 1 < 8
    omega
  · rw [show s.linkUp = false from x] at hu; cases hu
  · refine State.PoolLink.trans (t := s.setPartial []) ⟨id, id, fun hp ⟨k1, kp, k2, k3, k4⟩ =>
      ⟨k1, Nat.zero_lt_succ 7, fun x => ?_, k3, k4⟩⟩ (State.receive_poolLink m hu)
    rw [show s.linkUp = false from x] at hu; cases hu

theorem State.sendHead_poolLink (s : State) : s.PoolLink s.sendHead := by
  unfold State.sendHead
  split
  · rename_i hu
    split
    · exact State.PoolLink.refl s
    · rename_i m rest ho
      have hk := takeWaiting_keep s.inWaiting { s with outQueue := rest }
      refine ⟨hk.1, hk.2.1, fun hp ⟨k1, kp, k2, k3, k4⟩ => ?_⟩
      have hc : ({ s with outQueue := rest } : State).CoreOk := by
        refine ⟨k1, ?_, hp⟩
        show rest.length + s.listed ≤ 8448
        have : s.outQueue.length + s.listed ≤ 8448 := k3
        rw [ho, List.length_cons] at this
        omega
      obtain ⟨h1, h2⟩ := takeWaiting_core s.inWaiting _ hc
      refine ⟨h1.line, by rw [hk.2.2.2]; exact kp, ?_, h1.total, h2⟩
      intro x
      rw [hk.2.2.1] at x
      rw [show s.linkUp = false from x] at hu; cases hu
  · exact State.PoolLink.refl s

theorem State.assertLine_poolLink (s : State) : s.PoolLink s.assertLine := by
  unfold State.assertLine
  split
  · rename_i hu
    exact ⟨id, id, fun _ ⟨k1, kp, k2, k3, k4⟩ => ⟨hu, kp, k2, k3, k4⟩⟩
  · rename_i hu
    refine ⟨id, id, fun _ ⟨k1, kp, k2, k3, k4⟩ => ⟨rfl, Nat.zero_lt_succ 7, fun x => (by cases x), k3, k4⟩⟩

theorem State.listed_zero {s : State} (h : ∀ p x, ((s.port p).lane x).list = []) : s.listed = 0 := by
  have e : (allPorts.map fun p => (s.port p).listTotal) = allPorts.map fun _ => 0 :=
    List.map_congr_left fun p _ => (Port.listTotal_zero _).2 (h p)
  unfold State.listed
  rw [e]; decide

theorem Port.linkLoss_lanes (q : Port) : q.linkLoss.lanes = q.lanes := by
  unfold Port.linkLoss; dsimp only
  cases q.state <;> dsimp only
  split <;> rfl

theorem Port.emptied_list (q : Port) (y : SourceIx) : (q.emptied.lane y).list = [] := by
  have e : q.emptied.lane y = (q.mapLanes fun _ l => { l with list := [] }).lane y :=
    Port.lane_congr (by unfold Port.emptied; dsimp only) y
  rw [e, Port.mapLanes_lane]

theorem State.linkLoss_listed (s : State) (o : List PortIx) : (s.linkLoss o).listed = 0 := by
  apply State.listed_zero
  intro p y
  rw [State.linkLoss_port, Port.lane_congr (Port.linkLoss_lanes _)]
  exact Port.emptied_list _ y

theorem State.withdrawLine_poolLink (s : State) (o : List PortIx) : s.PoolLink (s.withdrawLine o) := by
  unfold State.withdrawLine
  split
  · have hf := s.linkLoss_frame o
    have hl := s.linkLoss_listed o
    have hl' : ({ s.linkLoss o with linkReady := false } : State).listed = 0 := hl
    have hfc : (s.linkLoss o).freeCount = 8192 := by rw [hf]
    refine ⟨fun _ => ?_, fun h => ?_, fun _ _ => ?_⟩
    · show (s.linkLoss o).freeCount + _ = 8192
      rw [hl', hfc]
    · refine ⟨?_, ?_⟩
      · show (s.linkLoss o).poolBelow = decide ((s.linkLoss o).freeCount < _)
        rw [hfc]
        have e1 : (s.linkLoss o).poolBelow = false := by rw [hf]
        rw [e1, eq_comm, decide_eq_false_iff_not]
        show ¬ 8192 < (s.linkLoss o).warning.toNat
        omega
      · show (s.linkLoss o).reserve.toNat ≤ (s.linkLoss o).warning.toNat
        rw [hf]; exact h.2
    · have ho : (s.linkLoss o).outQueue = [] := by rw [hf]
      have hw : (s.linkLoss o).inWaiting = [] := by rw [hf]
      have hu : (s.linkLoss o).linkUp = false := by rw [hf]
      have hi : (s.linkLoss o).inPartial = [] := by rw [hf]
      refine ⟨hu, ?_, fun _ => ⟨ho, hw, hi⟩, ?_, fun x => absurd hw x⟩
      · show (s.linkLoss o).inPartial.length < 8
        rw [hi]; decide
      show (s.linkLoss o).outQueue.length + _ ≤ _
      rw [hl', ho]; simp
  · rename_i hu
    have hu' : s.linkUp = false := by simpa using hu
    exact ⟨id, id, fun _ ⟨k1, kp, k2, k3, k4⟩ => ⟨hu', kp, k2, k3, k4⟩⟩

/-! ## Everything of the executor -/

/-- Pool, levels, lists and link are as they were. -/
structure State.PoolSame (s t : State) : Prop where
  free : t.freeCount = s.freeCount
  reserve : t.reserve = s.reserve
  warning : t.warning = s.warning
  below : t.poolBelow = s.poolBelow
  link : s.LinkSame t
  out : t.outQueue = s.outQueue
  lists : ∀ p x, (t.lane p x).list = (s.lane p x).list

theorem State.PoolSame.flows {s t : State} (h : s.PoolSame t) : s.Flows 0 t := by
  have hL : t.listed = s.listed := State.listed_congr fun p => Port.listTotal_congr fun x => congrArg List.length (h.lists p x)
  refine ⟨by rw [h.free, hL], fun x => by rw [h.below, h.free, h.warning, x], h.reserve, h.warning, h.link, by rw [h.out], fun _ => h.out, by rw [h.out, hL]; omega⟩

theorem State.complete_flows (s : State) (c : ChannelIx) (r : OrderResult) (w1 : Word) (bus : CompletionBus) : s.Flows 0
    (s.complete c r w1 bus) := by
  refine State.PoolSame.flows ⟨by simp, by simp, by simp, by simp, ⟨by simp, by simp, by simp, by simp⟩, by simp, fun p x => ?_⟩
  unfold State.lane State.port; rw [State.complete_ports]

theorem State.finish_flows (s : State) (c : ChannelIx) (r : OrderResult) (w1 : Word) (bus : CompletionBus) : s.Flows 0
    (s.finish c r w1 bus) := by
  refine State.PoolSame.flows ⟨by simp, by simp, by simp, by simp, ⟨by simp, by simp, by simp, by simp⟩, by simp, fun p x => ?_⟩
  unfold State.lane State.port; rw [State.finish_ports]

/-- The parts of the state the executor's own work changes. -/
theorem State.exec_flows {s t : State} (h : t = { s with
    channels := t.channels, executor := t.executor, tre := t.tre, attn := t.attn, attnMask := t.attnMask, cardMem := t.cardMem, freeCtr := t.freeCtr, pending := t.pending }) : s.Flows 0 t := by
  rw [h]; exact State.PoolSame.flows ⟨rfl, rfl, rfl, rfl, ⟨rfl, rfl, rfl, rfl⟩, rfl, fun _ _ => rfl⟩

theorem State.takeNext_flows (s : State) : s.Flows 0 s.takeNext :=
  s.takeNext_induct (fun t => s.Flows 0 t) (State.Flows.refl s) fun _ _ _ => State.exec_flows rfl

theorem State.takeOrder_poolLink (s : State) (block : Option OrderBlock) (bus : CompletionBus)
    (run : ChannelIx → OrderBlock → State → State)
    (h : ∀ c b (t : State), t.PoolLink (run c b t)) : s.PoolLink (s.takeOrder block bus run) := by
  have h0 : ∀ c, s.Flows 0 (s.beginExecuting c) := fun c => State.exec_flows rfl
  unfold State.takeOrder
  split
  · exact State.PoolLink.refl s
  · rename_i c _ _
    dsimp only
    split
    · exact ((h0 c).zero (State.finish_flows _ _ _ _ _)).poolLink
    · split
      · exact ((h0 c).zero (State.exec_flows rfl)).poolLink
      · exact (h0 c).poolLink.trans (h _ _ _)

theorem State.simpleOrder_poolLink (s : State) (block : Option OrderBlock) (bus : CompletionBus)
    (act : OrderBlock → State → State × OrderResult) (h : ∀ b (t : State), t.PoolLink (act b t).1) :
    s.PoolLink (s.simpleOrder block bus act) :=
  s.takeOrder_poolLink block bus _ fun _ b t => (h b t).trans (State.finish_flows _ _ _ _ _).poolLink

theorem State.portOrder_poolLink (s : State) (block : Option OrderBlock) (bus : CompletionBus)
    (act : PortIx → OrderBlock → State → State × OrderResult) (h : ∀ p b (t : State), t.Flows 0 (act p b t).1) :
    s.PoolLink (s.portOrder block bus act) := by
  unfold State.portOrder
  refine s.takeOrder_poolLink block bus _ fun c b t => ?_
  dsimp only
  refine State.Flows.poolLink ((State.finish_flows _ _ _ _ _).after ?_)
  have : t.Flows 0 { t with freeCtr := t.freeCtr + 1 } := State.exec_flows rfl
  split
  · exact this
  · exact this.zero (h _ _ _)

theorem State.setWindow_flows (s : State) (k : ProfileIx) (w : Window) : s.Flows 0 (s.setWindow k w) := by
  unfold State.setWindow
  split
  · exact State.Flows.refl s
  all_goals exact State.PoolSame.flows ⟨rfl, rfl, rfl, rfl, ⟨rfl, rfl, rfl, rfl⟩, rfl, fun _ _ => rfl⟩

theorem State.windowOrder_flows (s : State) (b : OrderBlock) : s.Flows 0 (s.windowOrder b).1 := by
  unfold State.windowOrder
  split
  · dsimp only
    split
    · exact State.Flows.refl s
    · exact (State.recomputeSelection_flows _).after (s.setWindow_flows _ _)
  · exact State.Flows.refl s

theorem State.changePin_flows (s : State) (i : Fin 4) (x : Option Pin) : s.Flows 0 (s.changePin i x).1 := by
  unfold State.changePin
  dsimp only
  split
  · exact State.Flows.refl s
  · dsimp only
    refine State.Flows.after (State.mapPorts_flows _ _ ?_) ?_
    · intro p q
      split <;> exact ⟨rfl, rfl, rfl⟩
    · exact State.PoolSame.flows ⟨rfl, rfl, rfl, rfl, ⟨rfl, rfl, rfl, rfl⟩, rfl, fun _ _ => rfl⟩

theorem State.pinOrder_flows (s : State) (b : OrderBlock) : s.Flows 0 (s.pinOrder b).1 := by
  unfold State.pinOrder State.pinSet State.pinClear
  dsimp only
  repeat' split
  all_goals first | exact State.Flows.refl s | exact s.changePin_flows _ _

theorem State.updPort_poolSame (s : State) (p : PortIx) (f : Port → Port)
    (hl : ∀ q x, ((f q).lane x).list = (q.lane x).list) : s.Flows 0 (s.updPort p f) := by
  refine State.PoolSame.flows ⟨rfl, rfl, rfl, rfl, ⟨rfl, rfl, rfl, rfl⟩, rfl, fun p' x => ?_⟩
  rw [State.updPort_lane]
  split
  · rename_i h; rw [hl, h]; rfl
  · rfl

theorem State.portSetAction_flows (s : State) (p : PortIx) (b : OrderBlock) : s.Flows 0 (s.portSetAction p b).1 := by
  unfold State.portSetAction
  dsimp only
  repeat' split
  · exact State.Flows.refl s
  · exact State.Flows.refl s
  · dsimp only
    exact s.updPort_poolSame p _ (by intro _ _; rfl)

theorem State.levelsOrder_poolLink (s : State) (b : OrderBlock) : s.PoolLink (s.levelsOrder b).1 := by
  unfold State.levelsOrder
  refine ⟨id, fun _ => ⟨rfl, ?_⟩, fun _ => id⟩
  dsimp only
  split <;> omega

theorem State.installPoint_flows (s : State) (k : ProfileIx) (p : PortIx) (es) (w : Word) : s.Flows 0
    (s.installPoint k p es w).1 := by
  unfold State.installPoint
  split
  · dsimp only
    refine (State.updPort_poolSame _ p _ fun q x => ?_).after (State.PoolSame.flows
        ⟨rfl, rfl, rfl, rfl, ⟨rfl, rfl, rfl, rfl⟩, rfl, fun _ _ => rfl⟩)
    split <;> rfl
  · exact State.Flows.refl s

theorem State.finishInstall_flows (s : State) (c : ChannelIx) (k : ProfileIx) (p : PortIx) (es) (n : Nat)
    (bus : CompletionBus) :
    s.Flows 0 (s.finishInstall c k p es n bus) := by
  unfold State.finishInstall
  exact (State.finish_flows _ _ _ _ _).after (State.installPoint_flows _ _ _ _ _)

theorem State.beginLoad_flows (s : State) (c : ChannelIx) (b : OrderBlock) (af : Bool) (bus : CompletionBus) : s.Flows 0
    (s.beginLoad c b af bus) := by
  unfold State.beginLoad
  split
  · exact State.finish_flows _ _ _ _ _
  · split
    · exact State.finish_flows _ _ _ _ _
    · split
      · exact State.finish_flows _ _ _ _ _
      · split
        · exact State.finish_flows _ _ _ _ _
        · split
          · exact State.finishInstall_flows _ _ _ _ _ _ _
          · exact State.exec_flows rfl

theorem State.loadStaged_flows (s : State) (j : LoadJob) (a f : Bool) (bus : CompletionBus) : s.Flows 0
    (s.loadStaged j a f bus) := by
  unfold State.loadStaged
  split
  · split
    · exact State.finish_flows _ _ _ _ _
    · exact State.finishInstall_flows _ _ _ _ _ _ _
  · split
    · exact State.finish_flows _ _ _ _ _
    · exact State.exec_flows rfl

theorem State.loadEntry_flows (s : State) (j : LoadJob) (e : Option TableEntry) (f : Bool) (bus : CompletionBus) : s.Flows 0
    (s.loadEntry j e f bus) := by
  unfold State.loadEntry
  dsimp only
  split
  · split <;> exact State.finish_flows _ _ _ _ _
  · split
    · split <;> exact State.finish_flows _ _ _ _ _
    · exact State.loadStaged_flows _ _ _ _ _

theorem State.setExecutor_flows (s : State) (x : Executor) : s.Flows 0 (s.setExecutor x) := State.exec_flows rfl

theorem State.updLane_flows (s : State) (p : PortIx) (src : SourceIx) (f : Lane → Lane) (h : ∀ l, (f l).list = l.list) :
    s.Flows 0 (s.updLane p src f) := by
  unfold State.updLane
  refine s.updPort_poolSame p _ fun q x => ?_
  rw [Port.setLane_lane]
  split
  · rename_i e; rw [h, e]
  · rfl

theorem State.sampleCollect_flows (s : State) (c : ChannelIx) (p : PortIx) (a : Nat) (cl : Bool) (i : Nat) :
    s.Flows 0 (s.sampleCollect c p a cl i) := by
  unfold State.sampleCollect
  split
  · refine (State.setExecutor_flows _ _).after ?_
    split
    · exact s.updLane_flows _ _ _ fun _ => rfl
    · exact State.Flows.refl s
  · refine (State.setExecutor_flows _ _).after ?_
    split
    · exact State.updPortTally_flows _ _ _
    · exact State.Flows.refl s

theorem State.beginCollect_flows (s : State) (c : ChannelIx) (b : OrderBlock) (bus : CompletionBus) : s.Flows 0
    (s.beginCollect c b bus) := by
  unfold State.beginCollect
  repeat' split
  all_goals first | exact State.finish_flows _ _ _ _ _ | exact State.sampleCollect_flows _ _ _ _ _ _

theorem State.busWrite_flows (s : State) (a : Nat) (bs : List Byte) : s.Flows 0 (s.busWrite a bs) := State.exec_flows rfl

theorem State.returnSample_flows (s : State) (j : CollectJob) : s.Flows 0 (s.returnSample j) := by
  unfold State.returnSample
  repeat' split
  all_goals first | exact State.Flows.refl s | exact State.updPortTally_flows _ _ _ | exact s.updLane_flows _ _ _ fun _ => rfl

theorem State.collectWritten_flows (s : State) (j : CollectJob) (w : Bool) (bus : CompletionBus) : s.Flows 0
    (s.collectWritten j w bus) := by
  unfold State.collectWritten
  dsimp only
  repeat' split
  · exact (State.finish_flows _ _ _ _ _).after (s.busWrite_flows _ _)
  · exact (State.finish_flows _ _ _ _ _).after (s.busWrite_flows _ _)
  · exact (State.sampleCollect_flows _ _ _ _ _ _).after (s.busWrite_flows _ _)
  · exact (State.finish_flows _ _ _ _ _).after (s.returnSample_flows j)

theorem State.sampleSurvey_flows (s : State) (c : ChannelIx) (a i : Nat) : s.Flows 0 (s.sampleSurvey c a i) := by
  unfold State.sampleSurvey
  split
  · refine (State.setExecutor_flows _ _).after ((State.updPort_poolSame _ _ _ (by intro _ _; rfl)).after (State.exec_flows rfl))
  · exact State.setExecutor_flows _ _

theorem State.surveyWritten_flows (s : State) (j : SurveyJob) (w : Bool) (bus : CompletionBus) : s.Flows 0
    (s.surveyWritten j w bus) := by
  unfold State.surveyWritten
  dsimp only
  repeat' split
  · exact (State.finish_flows _ _ _ _ _).after (s.busWrite_flows _ _)
  · exact (State.finish_flows _ _ _ _ _).after (s.busWrite_flows _ _)
  · exact (State.sampleSurvey_flows _ _ _ _).after (s.busWrite_flows _ _)
  · refine (State.finish_flows _ _ _ _ _).after ?_
    unfold State.returnLatch
    split
    · exact State.updPort_poolSame _ _ _ (by intro _ _; rfl)
    · exact State.Flows.refl s

theorem State.endTrace_flows (s : State) (t : ArmedTrace) (st : Status) (d : BitVec 16) (bus : CompletionBus) : s.Flows 0
    (s.endTrace t st d bus) := by
  unfold State.endTrace
  exact (State.complete_flows _ _ _ _ _).after (State.exec_flows rfl)

theorem State.beginClose_flows (s : State) (t : ArmedTrace) (h : Holding) (o : Option Offer) (w : CloseReason) : s.Flows 0
    (s.beginClose t h o w) := State.exec_flows rfl

theorem State.abortTrace_flows (s : State) (t : ArmedTrace) (bus : CompletionBus) : s.Flows 0 (s.abortTrace t bus) := by
  unfold State.abortTrace
  split
  · exact State.beginClose_flows _ _ _ _ _
  · exact State.endTrace_flows _ _ _ _ _

theorem State.traceAbortRequest_flows (s : State) (c : ChannelIx) (bus : CompletionBus) :
    s.Flows 0 (s.traceAbortRequest c bus) := by
  unfold State.traceAbortRequest
  repeat' split
  all_goals first | exact State.Flows.refl s | exact State.abortTrace_flows _ _ _

theorem State.abortIfMarked_flows (s : State) (c : ChannelIx) (bus : CompletionBus) : s.Flows 0 (s.abortIfMarked c bus) := by
  unfold State.abortIfMarked
  split
  · exact s.traceAbortRequest_flows c bus
  · exact State.Flows.refl s

theorem State.beginTrace_flows (s : State) (c : ChannelIx) (b : OrderBlock) (bus : CompletionBus) : s.Flows 0
    (s.beginTrace c b bus) := by
  unfold State.beginTrace
  repeat' split
  all_goals first
    | exact State.finish_flows _ _ _ _ _
    | exact (State.abortIfMarked_flows _ _ _).after (State.exec_flows (t := s.armTrace c b) rfl)

theorem State.takeOffer_flows (s : State) (o : Offer) : s.Flows 0 (s.takeOffer o) := by
  unfold State.takeOffer State.takeRecord
  dsimp only
  repeat' split
  all_goals first | exact State.Flows.refl s | exact State.beginClose_flows _ _ _ _ _ | exact State.exec_flows rfl

theorem State.offerStep_flows (s : State) : s.Flows 0 s.offerStep := by
  unfold State.offerStep State.queueOffer
  repeat' split
  all_goals first
    | exact State.Flows.refl s
    | exact State.exec_flows rfl
    | exact (State.takeOffer_flows _ _).after (State.exec_flows rfl)

theorem State.staleExpire_flows (s : State) (t : ArmedTrace) (bus : CompletionBus) : s.Flows 0 (s.staleExpire t bus) := by
  unfold State.staleExpire
  dsimp only
  repeat' split
  all_goals first | exact State.endTrace_flows _ _ _ _ _ | exact State.beginClose_flows _ _ _ _ _ | exact State.exec_flows rfl

theorem State.staleTimer_flows (s : State) (bus : CompletionBus) : s.Flows 0 (s.staleTimer bus) := by
  unfold State.staleTimer
  repeat' split
  all_goals first | exact State.Flows.refl s | exact State.staleExpire_flows _ _ _ | exact State.exec_flows rfl

theorem State.settleTrace_flows (s : State) (t : ArmedTrace) (bus : CompletionBus) : s.Flows 0 (s.settleTrace t bus) := by
  unfold State.settleTrace
  repeat' split
  all_goals first | exact State.Flows.refl s | exact State.staleExpire_flows _ _ _ | exact State.abortTrace_flows _ _ _

theorem State.areaWritten_flows (s : State) (t : ArmedTrace) (w : AreaWrite) (bus : CompletionBus) : s.Flows 0
    (s.areaWritten t w bus) := by
  have hg : ∀ o, s.Flows 0 (s.addGapOf o) := by
    intro o; unfold State.addGapOf; split
    · exact State.Flows.refl s
    · exact State.exec_flows rfl
  unfold State.areaWritten State.traceGoesOn
  dsimp only
  repeat' split
  all_goals first
    | exact State.endTrace_flows _ _ _ _ _
    | exact (State.endTrace_flows _ _ _ _ _).after (hg _)
    | exact (State.settleTrace_flows _ _ _).after (State.exec_flows rfl)

theorem State.traceWritten_flows (s : State) (w : Bool) (bus : CompletionBus) : s.Flows 0 (s.traceWritten w bus) := by
  unfold State.traceWritten
  repeat' split
  · exact State.Flows.refl s
  · exact (State.areaWritten_flows _ _ _ _).after (s.busWrite_flows _ _)
  · exact (State.endTrace_flows _ _ _ _ _).after (State.exec_flows rfl)

theorem State.pointerWrite_flows (s : State) (c : ChannelIx) (v : Word) (lag : Bool)
    (bus : CompletionBus) : s.Flows 0 (s.pointerWrite c v lag bus) := by
  have ha : s.Flows 0 (s.pointerAddressWrite c v) := by
    unfold State.pointerAddressWrite
    split <;> exact State.exec_flows rfl
  unfold State.pointerWrite
  split
  rotate_left
  · split
    · exact ha
    · exact (State.takeNext_flows _).after ha
  unfold State.pointerZeroWrite State.traceAbortRequest
  repeat' split
  all_goals first
    | exact State.Flows.refl s
    | exact State.exec_flows rfl
    | exact (State.abortTrace_flows _ _ _).after (State.exec_flows rfl)

theorem State.beginSurvey_flows (s : State) (c : ChannelIx) (b : OrderBlock) (bus : CompletionBus) :
    s.Flows 0 (s.beginSurvey c b bus) := by
  unfold State.beginSurvey
  split
  · exact State.finish_flows _ _ _ _ _
  · exact State.sampleSurvey_flows _ _ _ _

theorem State.registerWrite_flows (s : State) (o w : Nat) (v : Word) : s.Flows 0 (s.registerWrite o w v) := by
  unfold State.registerWrite
  repeat' split
  all_goals first | exact State.Flows.refl s | exact State.pointerWrite_flows _ _ _ _ _ | exact State.exec_flows rfl

theorem State.deviceReset_poolLink (s : State) : s.PoolLink s.deviceReset := by
  have hl : ∀ u : State, u.ports = State.reset.ports → u.listed = 0 := by
    intro u h
    refine State.listed_zero fun p y => ?_
    unfold State.port
    rw [h]
    simp [State.reset, Port.lane, Port.reset, Lane.reset]
  have key : ∀ u : State, u.ports = State.reset.ports → u.freeCount = 8192 → u.poolBelow = false → u.warning = 1024 → u.reserve = 512 →
      u.linkUp = u.linkReady → u.outQueue = [] → u.inWaiting = [] → u.inPartial = [] → s.PoolLink u := by
    intro u h1 h2 h3 h4 h5 h6 h7 h8 h9
    refine ⟨fun _ => ?_, fun _ => ⟨?_, ?_⟩, fun _ _ => ⟨h6, by rw [h9]; decide, fun _ => ⟨h7, h8, h9⟩, ?_, fun x => absurd h8 x⟩⟩
    · show u.freeCount + u.listed = 8192
      rw [hl u h1, h2]
    · rw [h3, h2, h4]; rfl
    · rw [h4, h5]; decide
    · rw [hl u h1, h7]; exact Nat.zero_le _
  unfold State.deviceReset State.assertLine
  dsimp only
  split
  · rename_i h; split
    · rename_i h'; cases h'
    · exact key _ rfl rfl rfl rfl rfl rfl rfl rfl rfl
  · rename_i h
    refine key _ rfl rfl rfl rfl rfl ?_ rfl rfl rfl
    show false = s.linkReady
    simpa using h

end Sys2Proof.Machine
end

