-- ==== Sys2Proof/Laws/PortKeeps.lean ====
section
/-! SUPPORT. What each event keeps of the ports: timer, round length, slots, lists, balances, effective entries and the drain
rule, given banks and pins that are in order. -/

namespace Sys2Proof.Machine

/-! ## Lanes -/

theorem Lane.ListOk.tail {l l' : Lane} (h : l.ListOk) (he : l'.entry = l.entry) (hl : l'.list = l.list.tail) : l'.ListOk := by
  obtain ⟨h1, h2, h3⟩ := h
  refine ⟨?_, ?_, ?_⟩
  · rw [hl, List.length_tail]; omega
  · intro x; rw [he] at x; rw [hl, h2 x]; rfl
  · intro e hm; rw [hl] at hm; exact h3 e (List.mem_of_mem_tail hm)

theorem Lane.ListOk.same {l l' : Lane} (h : l.ListOk) (he : l'.entry = l.entry) (hl : l'.list = l.list) : l'.ListOk := by
  unfold Lane.ListOk; rw [he, hl]; exact h

theorem Lane.ListOk.nil {l : Lane} (h : l.list = []) : l.ListOk := by
  refine ⟨by rw [h]; decide, fun _ => h, ?_⟩
  rw [h]; intro e he; cases he

theorem Lane.CreditOk.same {l l' : Lane} (h : l.CreditOk) (he : l'.entry = l.entry) (hb : l'.balance = l.balance)
    (hl : l'.list = l.list) : l'.CreditOk := by
  unfold Lane.CreditOk Lane.BalanceOk
  rw [he, hb]
  exact ⟨h.1, h.2.1, h.2.2.same he hl⟩

theorem frameSize_le {len : BitVec 14} (h : len.toNat ≤ 9216) : frameSize len ≤ 1152 := by
  unfold frameSize; omega

theorem Lane.send_credit {l : Lane} {kind : SendKind} {e : Entry} (h : l.CreditOk) (he : l.list.head? = some e)
    (ha : kind = .assured → l.assuredEligible = true) : (l.send kind e.len).CreditOk := by
  have hl : (l.send kind e.len).list = l.list.tail := Lane.send_list l kind e.len
  have hen : (l.send kind e.len).entry = l.entry := by rw [Lane.send_eq]
  refine ⟨by rw [hen]; exact h.1, ?_, h.2.2.tail hen hl⟩
  have hbal : (l.send kind e.len).balance = if kind = .assured then l.balance - (frameSize e.len :
      Int) else l.balance := by rw [Lane.send_eq]
  unfold Lane.BalanceOk
  rw [hbal, hen]
  split
  · rename_i hk
    have hel := ha hk
    obtain ⟨hb1, hb2, hb3⟩ := h.2.1
    have hmem : e ∈ l.list := List.mem_of_head? he
    have hu := frameSize_le (h.2.2.2.2 e hmem).2
    unfold Lane.assuredEligible at hel
    have hh : l.headSize = some (frameSize e.len) := by
      unfold Lane.headSize
      cases hll : l.list with
      | nil => rw [hll] at he; cases he
      | cons a r => rw [hll] at he; cases he; rfl
    rw [hh] at hel
    simp only [Bool.and_eq_true, Bool.or_eq_true, decide_eq_true_eq, Lane.accrues] at hel
    obtain ⟨⟨ho, hr⟩, hc⟩ := hel
    have hok := h.1
    unfold EffEntry.Ok at hok
    rw [if_pos ho] at hok
    have hcap := hok.2.1 hr
    refine ⟨?_, ?_, ?_⟩
    · rcases hc with hc | hc <;> omega
    · omega
    · intro x; rw [hr] at x; cases x
  · exact h.2.1

theorem clampToCap_spec (a : Int) (cap : BitVec 16) (h : -1151 ≤ a) : -1151 ≤ (clampToCap a cap).1 ∧ (clampToCap a cap).1 ≤
    (cap.toNat : Int) := by
  unfold clampToCap
  split
  · dsimp only; omega
  · dsimp only; omega

theorem Lane.accrue_credit {l : Lane} (n : BitVec 32) (x : SourceIx) (h : l.CreditOk) : (l.accrue n x).CreditOk := by
  unfold Lane.accrue
  split
  · rename_i ha
    unfold Lane.accrues at ha
    rw [Bool.and_eq_true] at ha
    obtain ⟨k1, k2⟩ := clampToCap_spec (l.balance + (l.entry.gc.toNat + extraUnit n x l.entry.gf :
        Nat)) l.entry.cap (by have := h.2.1.1; omega)
    refine ⟨h.1, ⟨k1, k2, fun z => ?_⟩, h.2.2.same rfl rfl⟩
    rw [show hasRate l.entry.gc l.entry.gf = false from z] at ha
    exact absurd ha.2 (by simp)
  · exact h

theorem Lane.accrue_entry (n : BitVec 32) (x : SourceIx) (l : Lane) : (l.accrue n x).entry = l.entry := by
  unfold Lane.accrue Lane.withBalance; split <;> rfl

/-- A refreshed lane, its list kept where its new entry is open and emptied where it is closed. -/
theorem Lane.refresh_credit {l l' : Lane} {e : EffEntry} (h : l.CreditOk) (he : e.Ok)
    (hl : l' = if e.isOpen then l.refresh e else { l.refresh e with list := [] }) : l'.CreditOk := by
  have hb : (l.refresh e).BalanceOk := by
    unfold Lane.refresh
    split
    · rename_i hr
      obtain ⟨k1, k2⟩ := clampToCap_spec l.balance e.cap h.2.1.1
      refine ⟨k1, k2, fun z => ?_⟩
      rw [show hasRate e.gc e.gf = false from z] at hr; cases hr
    · refine ⟨by show (-1151 : Int) ≤ 0; decide, ?_, fun _ => rfl⟩
      show (0 : Int) ≤ _; omega
  have hen := Lane.refresh_entry e l
  have hli := Lane.refresh_list e l
  subst hl
  split
  · rename_i ho
    refine ⟨by rw [hen]; exact he, hb, ?_⟩
    unfold Lane.ListOk
    rw [hen, hli]
    exact ⟨h.2.2.1, fun x => (by rw [ho] at x; cases x), h.2.2.2.2⟩
  · refine ⟨by show (l.refresh e).entry.Ok; rw [hen]; exact he, hb, Lane.ListOk.nil rfl⟩

/-! ## Derived entries -/

/-- The bank entries and the pins are in order. -/
structure State.SharesOk (s : State) : Prop where
  banks : ∀ (k : ProfileIx) (p : PortIx) (src : SourceIx), ((s.bankPort k p)[src]).Ok
  pins : s.PinsOk

theorem capFloor_rate (gc : BitVec 8) (gf : BitVec 6) (cap : BitVec 16) (h : hasRate gc gf = true) : gc.toNat + 1 ≤
    (capFloor gc gf cap).toNat := by
  rw [capFloor_toNat]
  have := (hasRate_iff gc gf).1 h
  rw [if_neg (by intro x; rcases this with a | a; exact a x.1; exact a x.2)]
  omega

theorem deriveEntry_ok {b : BankEntry} {o : Option Pin} (hb : b.Ok) (hp : ∀ x ∈ o, x.Ok) : (deriveEntry b o).Ok := by
  unfold deriveEntry
  split
  · rename_i ho
    unfold BankEntry.Ok at hb
    rw [if_pos ho] at hb
    cases o with
    | none => exact ⟨hb.1, fun hr => capFloor_rate _ _ _ hr, hb.2.2⟩
    | some x => exact ⟨hp x rfl, fun hr => capFloor_rate _ _ _ hr, hb.2.2⟩
  · exact (rfl : ({ EffEntry.closed with pinInactive := o.isSome } : EffEntry) =
        { EffEntry.closed with pinInactive := o.isSome })

theorem State.SharesOk.derived {s : State} (h : s.SharesOk) (k : ProfileIx) (p : PortIx) (src : SourceIx) :
    (s.derived k p src).Ok := by
  refine deriveEntry_ok (h.banks k p src) fun x hx => ?_
  obtain ⟨i, hi⟩ := firstPin_mem hx
  exact h.pins i x hi

theorem State.SharesSame.ok {s t : State} (h : s.SharesSame t) (k : s.SharesOk) : t.SharesOk := by
  refine ⟨fun a b c => ?_, fun i x hx => ?_⟩
  · unfold State.bankPort; rw [h.banks]; exact k.banks a b c
  · rw [h.pins] at hx; exact k.pins i x hx

/-! ## Ports -/

/-- What an operation keeps of a port, timer and drain rule apart. -/
structure Port.Keeps (W : Prop) (p : PortIx) (q r : Port) : Prop where
  length : q.LengthOk → r.LengthOk
  slots : q.SlotsOk ∧ q.RetiredOk p → r.SlotsOk ∧ r.RetiredOk p
  lists : q.ListsOk → r.ListsOk
  credit : W → (∀ src, (q.lane src).CreditOk) → ∀ src, (r.lane src).CreditOk

/-- With the timer and the drain rule. -/
structure Port.Good (W : Prop) (p : PortIx) (q r : Port) : Prop extends Port.Keeps W p q r where
  timer : q.TimerOk → r.TimerOk
  drain : q.DrainOk → r.DrainOk

theorem Port.Keeps.refl (W : Prop) (p : PortIx) (q : Port) : Port.Keeps W p q q := ⟨id, id, id, fun _ => id⟩
theorem Port.Good.refl (W : Prop) (p : PortIx) (q : Port) : Port.Good W p q q := ⟨Port.Keeps.refl W p q, id, id⟩

theorem Port.Keeps.trans {W W' : Prop} {p : PortIx} {q r u : Port} (hw : W → W') (h : Port.Keeps W p q r)
    (k : Port.Keeps W' p r u) : Port.Keeps W p q u :=
  ⟨fun x => k.length (h.length x), fun x => k.slots (h.slots x), fun x => k.lists (h.lists x), fun w x => k.credit (hw w)
      (h.credit w x)⟩

/-- Every port keeps what `Port.Keeps` says, and the shares are as they were. -/
structure State.PKeeps (s t : State) : Prop where
  shares : s.SharesSame t
  port : ∀ p, Port.Keeps s.SharesOk p (s.port p) (t.port p)

/-- Every port keeps what `Port.Good` says, and the banks and pins stay in order. -/
structure State.PGood (s t : State) : Prop where
  shares : s.SharesOk → t.SharesOk
  port : ∀ p, Port.Good s.SharesOk p (s.port p) (t.port p)

theorem State.SharesSame.refl (s : State) : s.SharesSame s := ⟨rfl, rfl, rfl, fun _ => rfl, fun _ => rfl⟩
theorem State.SharesSame.trans {s t u : State} (h : s.SharesSame t) (k : t.SharesSame u) : s.SharesSame u :=
  ⟨k.banks.trans h.banks, k.windows.trans h.windows, k.pins.trans h.pins, fun p => (k.kc p).trans (h.kc p), fun p =>
      (k.kf p).trans (h.kf p)⟩

theorem State.PKeeps.refl (s : State) : s.PKeeps s := ⟨State.SharesSame.refl s, fun _ => Port.Keeps.refl _ _ _⟩
theorem State.PGood.refl (s : State) : s.PGood s := ⟨id, fun _ => Port.Good.refl _ _ _⟩

theorem State.PKeeps.trans {s t u : State} (h : s.PKeeps t) (k : t.PKeeps u) : s.PKeeps u :=
  ⟨h.shares.trans k.shares, fun p => (h.port p).trans h.shares.ok (k.port p)⟩
theorem State.PKeeps.after {s t u : State} (k : t.PKeeps u) (h : s.PKeeps t) : s.PKeeps u := h.trans k

theorem State.PGood.trans {s t u : State} (h : s.PGood t) (k : t.PGood u) : s.PGood u :=
  ⟨fun x => k.shares (h.shares x), fun p => ⟨(h.port p).toKeeps.trans h.shares (k.port p).toKeeps, fun x => (k.port p).timer
      ((h.port p).timer x), fun x => (k.port p).drain ((h.port p).drain x)⟩⟩
theorem State.PGood.after {s t u : State} (k : t.PGood u) (h : s.PGood t) : s.PGood u := h.trans k

/-- The parts of a port the invariants look at. -/
structure Port.Alike (q r : Port) : Prop where
  state : r.state = q.state
  flow : r.flow = q.flow
  timer : r.timer = q.timer
  older : r.older = q.older
  younger : r.younger = q.younger
  nextTag : r.nextTag = q.nextTag
  roundLength : r.roundLength = q.roundLength
  entries : ∀ x, (r.lane x).entry = (q.lane x).entry
  balances : ∀ x, (r.lane x).balance = (q.lane x).balance
  lists : ∀ x, (r.lane x).list = (q.lane x).list

theorem Port.inService_congr {q r : Port} (h : r.state = q.state) : r.inService = q.inService := by
  unfold Port.inService; rw [h]

theorem Port.ListsOk.same {q r : Port} (h : q.ListsOk) (hs : r.inService = false → q.inService = false)
    (hl : ∀ x, (q.lane x).ListOk → (r.lane x).ListOk) (hn : ∀ x, (q.lane x).list = [] → (r.lane x).list = []) : r.ListsOk :=
  ⟨fun x => hl x (h.1 x), fun k x => hn x (h.2 (hs k) x)⟩

theorem Port.RetiredOk.same {p : PortIx} {q r : Port} (h : q.RetiredOk p) (hs : r.successor? = q.successor?)
    (ho : q.older = none → q.younger = none → r.older = none ∧ r.younger = none) : r.RetiredOk p := by
  intro x hx
  rw [hs] at hx
  have := h x hx
  exact ⟨this.1, ho this.2.1 this.2.2⟩

theorem Port.successor_congr {q r : Port} (h : r.state = q.state) : r.successor? = q.successor? := by
  unfold Port.successor?; rw [h]

theorem Port.drained_congr {q r : Port} (h : r.state = q.state) (ho : r.older = q.older) (hy : r.younger = q.younger)
    (hl : ∀ x, (r.lane x).list = (q.lane x).list) : r.drained = q.drained := by
  unfold Port.drained
  rw [h, ho, hy, Port.listTotal_congr fun x => congrArg List.length (hl x)]

theorem Port.Alike.good {q r : Port} (h : q.Alike r) (W : Prop) (p : PortIx) : Port.Good W p q r where
  length := by unfold Port.LengthOk; rw [h.roundLength, h.timer]; exact id
  slots := by
    rintro ⟨k1, k2⟩
    refine ⟨?_, k2.same (Port.successor_congr h.state) fun a b => ⟨by rw [h.older, a], by rw [h.younger, b]⟩⟩
    unfold Port.SlotsOk; rw [h.older, h.younger, h.nextTag]; exact k1
  lists := fun k => k.same (by rw [Port.inService_congr h.state]; exact id) (fun x y => y.same (h.entries x) (h.lists x)) fun x y => by rw [h.lists, y]
  credit := fun _ k x => (k x).same (h.entries x) (h.balances x) (h.lists x)
  timer := by unfold Port.TimerOk Port.timerRuns; rw [h.timer, Port.inService_congr h.state, h.flow]; exact id
  drain := by unfold Port.DrainOk; rw [Port.drained_congr h.state h.older h.younger h.lists]; exact id

theorem Port.alike_lanes {q r : Port} (h1 : r.state = q.state) (h2 : r.flow = q.flow) (h3 : r.timer = q.timer)
    (h4 : r.older = q.older)
    (h5 : r.younger = q.younger) (h6 : r.nextTag = q.nextTag) (h7 : r.roundLength = q.roundLength) (h8 : r.lanes =
        q.lanes) : q.Alike r :=
  ⟨h1, h2, h3, h4, h5, h6, h7, fun x =>
      by rw [Port.lane_congr h8], fun x => by rw [Port.lane_congr h8], fun x => by rw [Port.lane_congr h8]⟩

/-- One port changed, the others as they were. -/
theorem State.updPort_keeps {s : State} {p : PortIx} {f : Port → Port} (hs : s.SharesSame (s.updPort p f))
    (h : Port.Keeps s.SharesOk p (s.port p) (f (s.port p))) : s.PKeeps (s.updPort p f) := by
  refine ⟨hs, fun p' => ?_⟩
  unfold State.updPort
  rw [State.setPort_port]
  split
  · rename_i e; subst e; exact h
  · exact Port.Keeps.refl _ _ _

theorem State.updPort_good {s : State} {p : PortIx} {f : Port → Port} (hs : s.SharesOk → (s.updPort p f).SharesOk)
    (h : Port.Good s.SharesOk p (s.port p) (f (s.port p))) : s.PGood (s.updPort p f) := by
  refine ⟨hs, fun p' => ?_⟩
  unfold State.updPort
  rw [State.setPort_port]
  split
  · rename_i e; subst e; exact h
  · exact Port.Good.refl _ _ _

theorem State.PKeeps.of_ports {s t : State} (h : s.SharesSame t) (hp : t.ports = s.ports) : s.PKeeps t :=
  ⟨h, fun p => by unfold State.port; rw [hp]; exact Port.Keeps.refl _ _ _⟩

theorem State.PGood.of_ports {s t : State} (hb : t.banks = s.banks) (hi : t.pins = s.pins) (hp : t.ports = s.ports) :
    s.PGood t :=
  ⟨fun k =>
      ⟨fun a b c =>
      by unfold State.bankPort; rw [hb]; exact k.banks a b c, fun i x hx => by rw [hi] at hx; exact k.pins i x hx⟩,
    fun p => by unfold State.port; rw [hp]; exact Port.Good.refl _ _ _⟩

theorem State.PGood.pkeeps {s t : State} (h : s.PGood t) (hs : s.SharesSame t) : s.PKeeps t := ⟨hs, fun p => (h.port p).toKeeps⟩

theorem State.updPort_alike {s : State} {p : PortIx} {f : Port → Port} (h : ∀ q, Port.Alike q (f q)) : s.PGood
    (s.updPort p f) :=
  State.updPort_good (fun k => ⟨k.banks, k.pins⟩) ((h _).good _ _)

/-! ## Releases -/

theorem Port.release_keeps {W : Prop} {p : PortIx} {q q' : Port} {src : SourceIx} {kind : SendKind} {e : Entry}
    {rest : List Entry}
    (hm : q.mayRelease = true) (hd : q.decision = some (src, kind, q')) (hl : (q.lane src).list = e :: rest) :
    Port.Keeps W p q (q'.release src kind e) := by
  obtain ⟨d1, d2, d3, d4, d5, d6, d7, d8, d9, d10⟩ := Port.decision_port hd
  have hlane : ∀ x, (q'.release src kind e).lane x = if x = src then (q.lane src).send kind e.len else q.lane x := by
    intro x; rw [Port.release_lane, Port.lane_congr d1, Port.lane_congr d1]
  have hre := Port.release_eq q' src kind e
  have hst : (q'.release src kind e).state = q.state := by rw [hre]; exact d6
  have hserv : q.inService = true := by
    unfold Port.mayRelease at hm; rw [Bool.and_eq_true] at hm; exact hm.1
  have hslot : q.older = none ∨ q.younger = none := by
    unfold Port.mayRelease at hm
    simp only [Bool.and_eq_true, Bool.or_eq_true, Option.isNone_iff_eq_none] at hm
    exact hm.2.2
  refine ⟨?_, ?_, ?_, ?_⟩
  · unfold Port.LengthOk; rw [hre]; dsimp only; rw [d9, d8]; exact id
  · rintro ⟨k1, k2⟩
    refine ⟨?_, ?_⟩
    · unfold Port.SlotsOk at k1 ⊢
      rw [hre]; dsimp only; rw [d2, d3, d4]
      cases ho : q.older with
      | none =>
        rw [ho] at k1
        cases hy : q.younger with
        | none => simp [slotsInOrder]
        | some b => rw [hy] at k1; simp [slotsInOrder] at k1
      | some a =>
        rw [ho] at k1
        have hy : q.younger = none := by
          rcases hslot with x | x
          · rw [ho] at x; cases x
          · exact x
        rw [hy] at k1
        simp only [slotsInOrder, beq_iff_eq] at k1
        simp [slotsInOrder, k1]
    · intro x hx
      exfalso
      rw [Port.successor_congr hst] at hx
      unfold Port.successor? at hx
      unfold Port.inService at hserv
      split at hx <;> simp_all
  · intro k
    refine k.same (by rw [Port.inService_congr hst]; exact id) (fun x y => ?_) fun x y => ?_
    · rw [hlane]
      split
      · rename_i ex; subst ex; exact y.tail (by rw [Lane.send_eq]) (Lane.send_list _ _ _)
      · exact y
    · rw [hlane]
      split
      · rename_i ex; subst ex; rw [Lane.send_list, y]; rfl
      · exact y
  · intro _ k x
    rw [hlane]
    split
    · rename_i ex; subst ex
      refine Lane.send_credit (k x) (by rw [hl]; rfl) fun hk => ?_
      rcases Port.decision_cases hd with ⟨_, ha, _⟩ | ⟨hk', _⟩
      · exact (Port.assuredChoice_some ha).1
      · rw [hk] at hk'; cases hk'
    · exact k x

theorem State.releaseOnce_keeps {s t : State} {p : PortIx} (h : s.releaseOnce p = some t) : s.PKeeps t := by
  refine ⟨(s.portSide_releaseOnce p h).shares, fun p' => ?_⟩
  unfold State.releaseOnce at h
  dsimp only at h
  split at h
  · rename_i hm
    split at h
    · cases h
    · rename_i src kind q' hd
      split at h
      · cases h
      · rename_i e rest hl
        cases h
        rw [State.carryOutRelease_port]
        split
        · rename_i ep; subst ep; exact Port.release_keeps hm hd hl
        · exact Port.Keeps.refl _ _ _
  · cases h

theorem State.releaseOnce_timer {s t : State} {p : PortIx} (h : s.releaseOnce p = some t) (p' : PortIx) :
    ((s.port p').TimerOk → (t.port p').TimerOk) ∧ (p' ≠ p → t.port p' = s.port p') := by
  unfold State.releaseOnce at h
  dsimp only at h
  split at h
  · split at h
    · cases h
    · rename_i src kind q' hd
      split at h
      · cases h
      · rename_i e rest hl
        cases h
        rw [State.carryOutRelease_port]
        split
        · rename_i ep; subst ep
          refine ⟨?_, fun x => absurd rfl x⟩
          obtain ⟨d1, d2, d3, d4, d5, d6, d7, d8, d9, d10⟩ := Port.decision_port hd
          unfold Port.TimerOk Port.timerRuns Port.inService
          rw [Port.release_eq]
          dsimp only
          rw [d8, d6, d7]; exact id
        · exact ⟨id, fun _ => rfl⟩
  · cases h

theorem State.releaseTest_keeps (s : State) (p : PortIx) : s.PKeeps (s.releaseTest p) := by
  unfold State.releaseTest
  split
  · exact State.PKeeps.refl s
  · rename_i s1 h1
    split
    · exact State.releaseOnce_keeps h1
    · rename_i s2 h2
      exact (State.releaseOnce_keeps h1).trans (State.releaseOnce_keeps h2)

theorem State.releaseTest_timer (s : State) (p p' : PortIx) :
    ((s.port p').TimerOk → ((s.releaseTest p).port p').TimerOk) ∧ (p' ≠ p → (s.releaseTest p).port p' = s.port p') := by
  unfold State.releaseTest
  split
  · exact ⟨id, fun _ => rfl⟩
  · rename_i s1 h1
    have k1 := State.releaseOnce_timer h1 p'
    split
    · exact k1
    · rename_i s2 h2
      have k2 := State.releaseOnce_timer h2 p'
      exact ⟨fun x => k2.1 (k1.1 x), fun x => (k2.2 x).trans (k1.2 x)⟩

theorem Port.drainRule_keeps (W : Prop) (p : PortIx) (q : Port) : Port.Keeps W p q q.drainRule := by
  unfold Port.drainRule
  split
  · rename_i hd
    have hd' := (Port.drained_iff q).1 hd
    refine ⟨?_, ?_, ?_, fun _ => id⟩
    · rintro ⟨h1, _⟩; exact ⟨h1, rfl⟩
    · rintro ⟨h1, _⟩; exact ⟨h1, by intro x hx; cases hx⟩
    · rintro ⟨h1, h2⟩; exact ⟨h1, fun _ => hd'.2.1⟩
  · exact Port.Keeps.refl W p q

theorem Port.drainRule_timer {q : Port} (h : q.TimerOk) : q.drainRule.TimerOk := by
  unfold Port.drainRule
  split
  · rfl
  · exact h

theorem State.firstDecision_keeps (s : State) (p : PortIx) : s.PKeeps (s.firstDecision p) := by
  unfold State.firstDecision
  split
  · exact State.PKeeps.refl s
  · rename_i s1 h1
    exact (State.releaseOnce_keeps h1).trans (State.PKeeps.of_ports (State.portSide_setRetests _ _).shares rfl)

theorem State.firstDecision_timer (s : State) (p p' : PortIx) :
    ((s.port p').TimerOk → ((s.firstDecision p).port p').TimerOk) ∧ (p' ≠ p → (s.firstDecision p).port p' = s.port p') := by
  unfold State.firstDecision
  split
  · exact ⟨id, fun _ => rfl⟩
  · rename_i s1 h1
    exact State.releaseOnce_timer h1 p'

/-- What an event that ends with the release test and the drain rule keeps, its second decision made at once or left for later. -/
theorem State.endEvent_good {s t : State} {p : PortIx} (later : Bool) (h : s.PKeeps t)
    (ht : ∀ p', (s.port p').TimerOk → (t.port p').TimerOk)
    (ho : ∀ p', p' ≠ p → t.port p' = s.port p') : s.PGood (t.endEvent p later) := by
  have key : ∀ u : State, t.PKeeps u → (∀ p', ((t.port p').TimerOk → (u.port p').TimerOk) ∧
      (p' ≠ p → u.port p' = t.port p')) → s.PGood (u.drain p) := by
    intro u k1 k4
    unfold State.drain
    have k2 : u.PKeeps (u.updPort p Port.drainRule) :=
      State.updPort_keeps (State.portSide_drain _ p).shares (Port.drainRule_keeps _ _ _)
    have k3 := (h.trans k1).trans k2
    refine ⟨fun x => k3.shares.ok x, fun p' => ⟨k3.port p', fun x => ?_, fun x => ?_⟩⟩
    · have := (k4 p').1 (ht p' x)
      unfold State.updPort
      rw [State.setPort_port]
      split
      · rename_i e; subst e; exact Port.drainRule_timer this
      · exact this
    · unfold State.updPort
      rw [State.setPort_port]
      split
      · exact Port.drainRule_drainOk _
      · rename_i e
        rw [(k4 p').2 e, ho p' e]; exact x
  unfold State.endEvent
  split
  · exact key _ (t.firstDecision_keeps p) (t.firstDecision_timer p)
  · exact key _ (t.releaseTest_keeps p) (t.releaseTest_timer p)

/-- An operation on port `p` alone. -/
structure State.PAt (p : PortIx) (s t : State) : Prop where
  shares : s.SharesSame t
  others : ∀ p', p' ≠ p → t.port p' = s.port p'
  keeps : Port.Keeps s.SharesOk p (s.port p) (t.port p)

theorem State.PAt.refl (p : PortIx) (s : State) : s.PAt p s := ⟨State.SharesSame.refl s, fun _ _ => rfl, Port.Keeps.refl _ _ _⟩
theorem State.PAt.after {p : PortIx} {s t u : State} (k : t.PAt p u) (h : s.PAt p t) : s.PAt p u :=
  ⟨h.shares.trans k.shares, fun p' e => (k.others p' e).trans (h.others p' e), h.keeps.trans h.shares.ok k.keeps⟩
theorem State.PAt.pkeeps {p : PortIx} {s t : State} (h : s.PAt p t) : s.PKeeps t := by
  refine ⟨h.shares, fun p' => ?_⟩
  by_cases e : p' = p
  · subst e; exact h.keeps
  · rw [h.others p' e]; exact Port.Keeps.refl _ _ _

theorem State.updPort_at {s : State} {p : PortIx} {f : Port → Port} (hc : ∀ q, (f q).kc = q.kc) (hf : ∀ q, (f q).kf = q.kf)
    (h : Port.Keeps s.SharesOk p (s.port p) (f (s.port p))) : s.PAt p (s.updPort p f) := by
  refine ⟨(s.portSide_updPort p f hc hf).shares, fun p' e => ?_, ?_⟩
  · unfold State.updPort; rw [State.setPort_port, if_neg e]
  · unfold State.updPort; rw [State.setPort_port, if_pos rfl]; exact h

theorem State.updPort_at_alike {s : State} {p : PortIx} (f : Port → Port)
    (h : ∀ q, Port.Alike q (f q) ∧ (f q).kc = q.kc ∧ (f q).kf = q.kf) : s.PAt p (s.updPort p f) :=
  State.updPort_at (fun q => (h q).2.1) (fun q => (h q).2.2) ((h _).1.good _ _).toKeeps

theorem State.ports_at {s t : State} (p : PortIx) (h : s.PortSide t) (hp : t.ports = s.ports) : s.PAt p t :=
  ⟨h.shares, fun p' _ => by unfold State.port; rw [hp], by unfold State.port; rw [hp]; exact Port.Keeps.refl _ _ _⟩

theorem State.offer_at (s : State) (p : PortIx) (os : List Offer) : s.PAt p (s.offer os) := State.ports_at p
    (s.portSide_offer os) rfl
theorem State.latch_at (s : State) (p : PortIx) (i : Nat) (h : 4 ≤ i) : s.PAt p (s.latch i) := State.ports_at p
    (s.portSide_latch i h) rfl

/-- The end of an event that leaves every timer. -/
theorem State.PAt.ended {p : PortIx} {s t : State} (h : s.PAt p t) (later : Bool)
    (ht : (s.port p).TimerOk → (t.port p).TimerOk) : s.PGood (t.endEvent p later) := by
  refine State.endEvent_good later h.pkeeps (fun p' => ?_) h.others
  by_cases e : p' = p
  · subst e; exact ht
  · rw [h.others p' e]; exact id

/-- The end of an event that leaves every timer, both decisions made at once. -/
theorem State.PAt.tested {p : PortIx} {s t : State} (h : s.PAt p t) (ht : (s.port p).TimerOk → (t.port p).TimerOk) : s.PGood
    (t.testAndDrain p) := h.ended false ht

theorem State.idle_good (s : State) : s.PGood s.idle := by
  unfold State.idle
  split
  · exact State.PGood.refl s
  · rename_i p rest _
    exact (State.ports_at p (s.portSide_setRetests rest) rfl).tested id

theorem State.PAt.good {p : PortIx} {s t : State} (h : s.PAt p t) (ht : (s.port p).TimerOk → (t.port p).TimerOk)
    (hd : (s.port p).DrainOk → (t.port p).DrainOk) : s.PGood t := by
  refine ⟨h.shares.ok, fun p' => ?_⟩
  by_cases e : p' = p
  · subst e; exact ⟨h.keeps, ht, hd⟩
  · rw [h.others p' e]; exact Port.Good.refl _ _ _

theorem State.updPortTally_alike (s : State) (p : PortIx) (f : PortTally → PortTally) : s.PGood (s.updPortTally p f) := by
  unfold State.updPortTally
  exact State.updPort_alike fun q => Port.alike_lanes rfl rfl rfl rfl rfl rfl rfl rfl

theorem State.updPortTally_at (s : State) (p : PortIx) (f : PortTally → PortTally) : s.PAt p (s.updPortTally p f) := by
  unfold State.updPortTally
  exact State.updPort_at_alike _ fun q => ⟨Port.alike_lanes rfl rfl rfl rfl rfl rfl rfl rfl, rfl, rfl⟩

/-- Slots changed, the rest as it was. -/
theorem Port.slots_keeps {W : Prop} {p : PortIx} {q r : Port} (h1 : r.state = q.state) (h3 : r.timer = q.timer)
    (h7 : r.roundLength = q.roundLength) (h8 : r.lanes = q.lanes)
    (hs : q.SlotsOk → r.SlotsOk) (hn : q.older = none → q.younger = none → r.older = none ∧ r.younger =
        none) : Port.Keeps W p q r where
  length := by unfold Port.LengthOk; rw [h7, h3]; exact id
  slots := fun ⟨a, b⟩ => ⟨hs a, b.same (Port.successor_congr h1) hn⟩
  lists := fun k => k.same (by rw [Port.inService_congr h1]; exact id) (fun x y => by rw [Port.lane_congr h8]; exact y) fun x y => by rw [Port.lane_congr h8]; exact y
  credit := fun _ k x => by rw [Port.lane_congr h8]; exact k x

theorem Port.freeOlder_slots {q : Port} (h : q.SlotsOk) : q.freeOlder.SlotsOk := by
  unfold Port.SlotsOk Port.freeOlder at *
  dsimp only
  cases ho : q.older with
  | none => cases hy : q.younger with
    | none => rfl
    | some b => rw [ho, hy] at h; simp [slotsInOrder] at h
  | some a => cases hy : q.younger with
    | none => rfl
    | some b =>
      rw [ho, hy] at h
      simp only [slotsInOrder, Bool.and_eq_true] at h ⊢
      exact h.2.1

theorem State.freeOlder_at (s : State) (p : PortIx) : s.PAt p (s.updPort p Port.freeOlder) :=
  State.updPort_at (fun _ => rfl) (fun _ => rfl) (Port.slots_keeps rfl rfl rfl rfl Port.freeOlder_slots fun _ b => ⟨b, rfl⟩)

theorem State.freeBoth_at (s : State) (p : PortIx) : s.PAt p (s.updPort p Port.freeBoth) :=
  State.updPort_at (fun _ => rfl) (fun _ => rfl) (Port.slots_keeps rfl rfl rfl rfl (fun _ => rfl) fun _ _ => ⟨rfl, rfl⟩)

theorem State.updPort_port_self (s : State) (p : PortIx) (f : Port → Port) : (s.updPort p f).port p = f (s.port p) := by
  unfold State.updPort; rw [State.setPort_port, if_pos rfl]

theorem State.takeDone_good (s : State) (p : PortIx) (tag : Byte) (later : Bool) : s.PGood (s.takeDone p tag later) := by
  unfold State.takeDone
  dsimp only
  split
  · exact (s.freeOlder_at p).ended later fun h => by rw [State.updPort_port_self]; exact h
  · split
    · refine ((State.updPortTally_at _ p _).after (s.freeBoth_at p)).ended later fun h => ?_
      unfold State.updPortTally
      rw [State.updPort_port_self, State.updPort_port_self]; exact h
    · exact s.updPortTally_alike p _

/-- Flow, hold age, tally and watch latch changed on a port whose timer runs or not as before. -/
theorem Port.flow_good {W : Prop} {p : PortIx} {q r : Port} (h1 : r.state = q.state)
    (h2 : (r.flow != .stalled) = (q.flow != .stalled)) (h3 : r.timer = q.timer) (h4 : r.older = q.older)
    (h5 : r.younger = q.younger) (h6 : r.nextTag = q.nextTag) (h7 : r.roundLength = q.roundLength) (h8 : r.lanes =
        q.lanes) : Port.Good W p q r where
  toKeeps := Port.slots_keeps h1 h3 h7 h8 (by unfold Port.SlotsOk; rw [h4, h5, h6]; exact id) fun a b => ⟨by rw [h4, a], by rw [h5, b]⟩
  timer := by unfold Port.TimerOk Port.timerRuns; rw [h3, Port.inService_congr h1, h2]; exact id
  drain := by
    unfold Port.DrainOk; rw [Port.drained_congr h1 h4 h5 fun x => by rw [Port.lane_congr h8]]; exact id

theorem State.latchIf_good (s : State) (c : Bool) (i : Nat) : s.PGood (s.latchIf c i) := by
  unfold State.latchIf; split
  · exact State.PGood.of_ports rfl rfl rfl
  · exact State.PGood.refl s

theorem State.offer_good (s : State) (os : List Offer) : s.PGood (s.offer os) := State.PGood.of_ports rfl rfl rfl
theorem State.handOver_good (s : State) (os : List Message) : s.PGood (s.handOver os) := State.PGood.of_ports (by simp)
    (by simp) (by simp)

theorem State.takeHold_good (s : State) (p : PortIx) : s.PGood (s.takeHold p) := by
  unfold State.takeHold
  dsimp only
  refine (State.latchIf_good _ _ _).after (State.PGood.after (State.updPort_alike fun q => Port.alike_lanes rfl rfl rfl rfl
      rfl rfl rfl rfl) ?_)
  split
  · rename_i hf
    refine (State.offer_good _ _).after ?_
    refine State.updPort_good (fun k => ⟨k.banks, k.pins⟩) ?_
    have hf' : (s.port p).flow = .flowing := by simpa using hf
    exact Port.flow_good rfl (by rw [hf']; rfl) rfl rfl rfl rfl rfl rfl
  · exact State.PGood.refl s

theorem Port.startTimer_timer (q : Port) : q.startTimer.TimerOk := by
  unfold Port.TimerOk
  have : q.startTimer.timerRuns = q.timerRuns := rfl
  rw [this]
  unfold Port.startTimer
  dsimp only
  cases q.timerRuns <;> rfl

theorem Port.startTimer_keeps (W : Prop) (p : PortIx) (q : Port) : Port.Keeps W p q q.startTimer where
  length := by
    rintro ⟨h1, h2⟩
    refine ⟨h1, ?_⟩
    unfold Port.startTimer
    dsimp only
    split
    · simpa using h1
    · rfl
  slots := id
  lists := id
  credit := fun _ => id

theorem Port.resumeFlow_timer {q : Port} (h : q.TimerOk) : q.resumeFlow.TimerOk := by
  unfold Port.resumeFlow
  dsimp only
  split
  · exact Port.startTimer_timer _
  · rename_i hs
    unfold Port.TimerOk Port.timerRuns at *
    rw [h]
    have : (q.flow != .stalled) = true := by simpa using hs
    rw [this]; rfl

theorem Port.resumeFlow_keeps (W : Prop) (p : PortIx) (q : Port) : Port.Keeps W p q q.resumeFlow := by
  have h : Port.Keeps W p q { q with flow := .flowing } := Port.slots_keeps rfl rfl rfl rfl id fun a b => ⟨a, b⟩
  unfold Port.resumeFlow
  dsimp only
  split
  · exact h.trans id (Port.startTimer_keeps W p _)
  · exact h

theorem State.PAt.latched {p : PortIx} {s t : State} (h : s.PAt p t) (c : Bool) (i : Nat) (hi : 4 ≤ i) : s.PAt p
    (t.latchIf c i) := by
  unfold State.latchIf; split
  · exact (t.latch_at p i hi).after h
  · exact h

theorem State.takeResume_good (s : State) (p : PortIx) (later : Bool) : s.PGood (s.takeResume p later) := by
  unfold State.takeResume
  dsimp only
  have h0 : s.PAt p (s.updPort p fun q => { q with watchLatch := { q.watchLatch with resume := true } }) :=
    State.updPort_at_alike _ fun q => ⟨Port.alike_lanes rfl rfl rfl rfl rfl rfl rfl rfl, rfl, rfl⟩
  have h := h0.latched (watchesResume (s.port p).watchMode) attnPortWatch (by decide)
  split
  · refine h.good ?_ ?_ <;> rw [State.latchIf_port, State.updPort_port_self] <;> exact id
  · refine ((State.offer_at _ p _).after ((State.updPort_at (fun q =>
        by rw [Port.resumeFlow_eq]) (fun q =>
        by rw [Port.resumeFlow_eq]) (Port.resumeFlow_keeps _ _ _)).after h)).ended later fun ht => ?_
    show ((State.updPort _ p Port.resumeFlow).port p).TimerOk
    rw [State.updPort_port_self, State.latchIf_port, State.updPort_port_self]
    exact Port.resumeFlow_timer ht

/-! ## Arrivals -/

theorem State.accept_at {s : State} {p : PortIx} {src : SourceIx} {len : BitVec 14} (h : BitVec 16)
    (ha : s.admissionCheck p src len = none) :
    s.PAt p (s.accept p src len h) ∧ ((s.port p).TimerOk → ((s.accept p src len h).port p).TimerOk) ∧ ((s.accept p src len
        h).port p).DrainOk := by
  obtain ⟨a1, a2, a3, a4, a5⟩ := State.admitted ha
  have hport : ∀ p', (s.accept p src len h).port p' = if p' = p then (s.port p).setLane src ((s.lane p src).append
      ⟨h, storedLength len⟩) else s.port p' := by
    intro p'
    rw [← State.setPort_port, State.accept_eq]; rfl
  have hl : ∀ x, ((s.port p).setLane src ((s.lane p src).append ⟨h, storedLength len⟩)).lane x = if x = src then (s.lane p
      src).append ⟨h, storedLength len⟩ else (s.port p).lane x := by
    intro x; rw [Port.setLane_lane]
  have hok : ∀ x, ((s.port p).lane x).ListOk → (((s.port p).setLane src ((s.lane p src).append ⟨h, storedLength len⟩)).lane
      x).ListOk := by
    intro x k
    rw [hl]
    split
    · rename_i e; subst e
      refine ⟨?_, fun z => ?_, fun e he => ?_⟩
      · show (((s.lane p x).list) ++ [_]).length ≤ 255
        rw [List.length_append, List.length_singleton]
        have := (s.lane p x).entry.qmax.isLt
        omega
      · rw [show (s.lane p x).entry.isOpen = false from z] at a2; cases a2
      · rcases List.mem_append.1 he with he | he
        · exact k.2.2 e he
        · rw [List.mem_singleton] at he; subst he
          show 64 ≤ (storedLength len).toNat ∧ (storedLength len).toNat ≤ 9216
          rw [storedLength_toNat]; omega
    · exact k
  have hst : ((s.port p).setLane src ((s.lane p src).append ⟨h, storedLength
      len⟩)).state = .opened := by rw [Port.setLane_state]; exact a1
  have hsv : ((s.port p).setLane src ((s.lane p src).append ⟨h, storedLength
      len⟩)).inService = true := by unfold Port.inService; rw [hst]
  refine ⟨⟨(s.portSide_accept p src len h).shares, fun p' e => by rw [hport, if_neg e], ?_⟩, ?_, ?_⟩
  · rw [hport, if_pos rfl]
    refine ⟨?_, ?_, ?_, ?_⟩
    · unfold Port.LengthOk; simp
    · rintro ⟨k1, k2⟩
      refine ⟨?_, ?_⟩
      · unfold Port.SlotsOk at *; simpa using k1
      · intro x hx; unfold Port.successor? at hx; rw [hst] at hx; cases hx
    · intro k; exact ⟨fun x => hok x (k.1 x), fun z => by rw [hsv] at z; cases z⟩
    · intro _ k x
      have := hok x (k x).2.2
      rw [hl] at this ⊢
      split
      · rename_i e; subst e
        rw [if_pos rfl] at this
        exact ⟨(k x).1, (k x).2.1, this⟩
      · exact k x
  · rw [hport, if_pos rfl]
    unfold Port.TimerOk Port.timerRuns
    rw [hsv]
    have : (s.port p).inService = true := by unfold Port.inService; rw [a1]
    rw [this]; simp
  · rw [hport, if_pos rfl]
    exact Port.drained_state (by rw [hst]; simp)

theorem State.takeArrival_good (s : State) (p : PortIx) (src : SourceIx) (len : BitVec 14) (h : BitVec 16)
    (later : Bool) : s.PGood (s.takeArrival p src len h later) := by
  unfold State.takeArrival
  cases hr : s.admissionCheck p src len with
  | some r =>
    dsimp only
    unfold State.refuse
    refine (State.offer_good _ _).after (State.PGood.after ?_ (s.handOver_good [Message.ofAnswer p src r.code r.successor h]))
    unfold State.updLane
    refine State.updPort_alike fun q => ?_
    have hl : ∀ x, (q.setLane src
        { q.lane src with tally := { (q.lane src).tally with refusals := satAdd (q.lane src).tally.refusals 1 } }).lane x =
        if x = src then { q.lane src with tally := { (q.lane src).tally with refusals := satAdd (q.lane src).tally.refusals 1 } } else q.lane x := fun x => by rw [Port.setLane_lane]
    refine ⟨by simp, by simp, by simp, by simp, by simp, by simp, by simp, fun x => ?_, fun x => ?_, fun x => ?_⟩
    all_goals
      rw [hl]; split
      · rename_i e; rw [e]
      · rfl
  | none =>
    dsimp only
    obtain ⟨k1, k2, k3⟩ := State.accept_at h hr
    split
    · exact k1.ended later k2
    · exact k1.good k2 fun _ => k3

/-! ## Round expiry -/

theorem State.refresh_at (s : State) (p : PortIx) : s.PAt p (s.refresh p) := by
  refine ⟨(s.portSide_refresh p).shares, fun p' e => by rw [State.refresh_port, if_neg e], ?_⟩
  have hlane : ∀ x, ((s.refresh p).port p).lane x = if (s.derived (s.port p).selected p x).isOpen then (s.lane p
      x).refresh (s.derived (s.port p).selected p x)
      else { (s.lane p x).refresh (s.derived (s.port p).selected p x) with list := [] } := fun x => State.refresh_lane s p x
  have hp := State.refresh_port s p p
  rw [if_pos rfl] at hp
  have h1 : ((s.refresh p).port p).state = (s.port p).state := by rw [hp]; simp
  have hlist : ∀ x, ((s.port p).lane x).ListOk → (((s.refresh p).port p).lane x).ListOk := by
    intro x k
    rw [hlane]
    split
    · rename_i ho
      unfold Lane.ListOk
      rw [Lane.refresh_entry, Lane.refresh_list]
      exact ⟨k.1, fun z => (by rw [ho] at z; cases z), k.2.2⟩
    · exact Lane.ListOk.nil rfl
  refine ⟨?_, ?_, ?_, ?_⟩
  · unfold Port.LengthOk; rw [hp]; simp
  · rintro ⟨k1, k2⟩
    refine ⟨?_, k2.same (Port.successor_congr h1) ?_⟩
    · unfold Port.SlotsOk at *; rw [hp]; simpa using k1
    · intro a b; rw [hp]; simp [a, b]
  · intro k
    refine k.same (by rw [Port.inService_congr h1]; exact id) hlist fun x y => ?_
    rw [hlane]; split
    · rw [Lane.refresh_list]; exact y
    · rfl
  · intro w k x
    exact Lane.refresh_credit (k x) (w.derived _ _ _) (hlane x)

theorem State.refreshIf_at (s : State) (p : PortIx) : s.PAt p (s.refreshIf p) := by
  unfold State.refreshIf; split
  · exact s.refresh_at p
  · exact State.PAt.refl p s

theorem Port.creditWork_keeps (W : Prop) (p : PortIx) (q : Port) : Port.Keeps W p q q.creditWork where
  length := by unfold Port.LengthOk; rw [Port.creditWork_eq]; exact id
  slots := by
    rintro ⟨k1, k2⟩
    refine ⟨?_, k2.same (Port.successor_congr (by rw [Port.creditWork_eq])) fun a b => ?_⟩
    · unfold Port.SlotsOk at *; rw [Port.creditWork_eq]; exact k1
    · rw [Port.creditWork_eq]; exact ⟨a, b⟩
  lists := by
    intro k
    refine k.same (by rw [Port.inService_congr (show q.creditWork.state = q.state by rw [Port.creditWork_eq])]; exact id) (fun x y => ?_) fun x y => ?_
    · rw [Port.creditWork_lane]; exact y.same (Lane.accrue_entry _ _ _) (Lane.accrue_list _ _ _)
    · rw [Port.creditWork_lane, Lane.accrue_list]; exact y
  credit := fun _ k x => by rw [Port.creditWork_lane]; exact Lane.accrue_credit _ _ (k x)

theorem Port.ageSlots_keeps (W : Prop) (p : PortIx) (q : Port) : Port.Keeps W p q q.ageSlots := by
  refine Port.slots_keeps rfl rfl rfl rfl (fun h =>
      ?_) fun a b => ⟨by unfold Port.ageSlots; dsimp only; rw [a]; rfl, by unfold Port.ageSlots; dsimp only; rw [b]; rfl⟩
  unfold Port.SlotsOk Port.ageSlots at *
  dsimp only
  cases ho : q.older with
  | none => cases hy : q.younger with
    | none => rfl
    | some b => rw [ho, hy] at h; simp [slotsInOrder] at h
  | some a => cases hy : q.younger with
    | none => rw [ho, hy] at h; exact h
    | some b =>
      rw [ho, hy] at h
      simp only [slotsInOrder, Bool.and_eq_true, decide_eq_true_eq, Option.map_some, Slot.older1] at h ⊢
      refine ⟨h.1, h.2.1, ?_⟩
      rw [ageUp_toNat, ageUp_toNat]; omega

theorem State.expireOlder_at (s : State) (p : PortIx) (sl : Slot) : s.PAt p (s.expireOlder p sl) := by
  unfold State.expireOlder
  exact (State.offer_at _ p _).after ((State.updPortTally_at _ p _).after (s.freeOlder_at p))

theorem State.expireOlderIf_at (s : State) (p : PortIx) : s.PAt p (s.expireOlderIf p) := by
  unfold State.expireOlderIf; split
  · exact State.PAt.refl p s
  · split
    · exact s.expireOlder_at p _
    · exact State.PAt.refl p s

/-- With the slots in order the younger never expires before the older. -/
theorem State.expireYoungerIf_at {s : State} {p : PortIx} (h : ∀ sl, (s.port p).older = some sl → (s.port p).expired sl =
    false) : s.PAt p (s.expireYoungerIf p) := by
  unfold State.expireYoungerIf
  split
  · exact State.PAt.refl p s
  · rename_i b hb
    split
    · rename_i hx
      unfold State.expireYounger
      refine (State.offer_at _ p _).after ((State.updPortTally_at _ p _).after
          (State.updPort_at (fun _ => rfl) (fun _ => rfl) ?_))
      refine Port.slots_keeps rfl rfl rfl rfl (fun k => ?_) fun a _ => ⟨a, rfl⟩
      exfalso
      unfold Port.SlotsOk at k
      rw [hb] at k
      cases ho : (s.port p).older with
      | none => rw [ho] at k; simp [slotsInOrder] at k
      | some a =>
        rw [ho] at k
        simp only [slotsInOrder, Bool.and_eq_true, decide_eq_true_eq] at k
        have e := h a ho
        rw [Port.expired_iff] at hx
        have : (s.port p).expired a = true := by rw [Port.expired_iff]; exact ⟨hx.1, by omega⟩
        rw [this] at e; cases e
    · exact State.PAt.refl p s

theorem State.expireSlots_at (s : State) (p : PortIx) : s.PAt p (s.expireSlots p) := by
  unfold State.expireSlots
  split
  · rename_i h; exact State.expireYoungerIf_at fun sl k => by rw [h] at k; cases k
  · rename_i sl h
    split
    · exact (State.expireOlderIf_at _ p).after (s.expireOlder_at p sl)
    · rename_i hx
      refine State.expireYoungerIf_at fun a k => ?_
      rw [h] at k; cases k; simpa using hx

theorem State.holdWork_at (s : State) (p : PortIx) : s.PAt p (s.holdWork p) := by
  unfold State.holdWork
  have h : s.PAt p (s.updPort p Port.ageHold) := State.updPort_at_alike _ fun q => ⟨Port.alike_lanes rfl rfl rfl rfl rfl rfl
      rfl rfl, rfl, rfl⟩
  dsimp only
  split
  · split
    · unfold State.stallPort
      refine State.PAt.after ?_ h
      refine (State.offer_at _ p _).after ((State.latch_at _ p attnPortWatch
          (by decide)).after (State.updPort_at (by intro _; rfl) (by intro _; rfl) ?_))
      exact Port.slots_keeps rfl rfl rfl rfl id fun a b => ⟨a, b⟩
    · exact h
  · exact State.PAt.refl p s

theorem State.startTimer_at (s : State) (p : PortIx) : s.PAt p (s.updPort p Port.startTimer) :=
  State.updPort_at (fun _ => rfl) (fun _ => rfl) (Port.startTimer_keeps _ _ _)

theorem State.roundExpiry_good (s : State) (p : PortIx) : s.PGood (s.roundExpiry p) := by
  unfold State.roundExpiry
  split
  · exact State.PGood.refl s
  · unfold State.expiryCredit
    refine State.PAt.tested ((State.startTimer_at _ p).after ((State.holdWork_at _ p).after ((State.expireSlots_at _ p).after
      ((State.updPort_at (f := Port.ageSlots) (fun _ => rfl) (fun _ => rfl) (Port.ageSlots_keeps _ _ _)).after
        ((State.updPort_at
            (fun _ =>
            by rw [Port.creditWork_eq]) (fun _ => by rw [Port.creditWork_eq]) (Port.creditWork_keeps _ _ _)).after (s.refreshIf_at p)))))) fun _ => ?_
    rw [State.updPort_port_self]
    exact Port.startTimer_timer _

/-! ## PORT actions -/

theorem Port.state_keeps {W : Prop} {p : PortIx} {q r : Port} (h3 : ∀ v, r.timer = some v → q.timer = some v)
    (h4 : r.older = q.older)
    (h5 : r.younger = q.younger) (h6 : r.nextTag = q.nextTag) (h7 : r.roundLength = q.roundLength) (hr : q.RetiredOk p →
        r.RetiredOk p)
    (he : ∀ x, (r.lane x).entry = (q.lane x).entry) (hb : ∀ x, (r.lane x).balance = (q.lane x).balance ∨ (r.lane x).balance
        = 0) (hl : ∀ x, (r.lane x).list = (q.lane x).list)
    (hs : r.inService = false → q.inService = false ∨ ∀ x, (q.lane x).list = []) : Port.Keeps W p q r where
  length := by
    rintro ⟨a, b⟩
    refine ⟨by rw [h7]; exact a, ?_⟩
    cases ht : r.timer with
    | none => rfl
    | some v => rw [h3 v ht] at b; exact b
  slots := fun ⟨a, b⟩ => ⟨by unfold Port.SlotsOk; rw [h4, h5, h6]; exact a, hr b⟩
  lists := fun k => by
    refine ⟨fun x => (k.1 x).same (he x) (hl x), fun z x => ?_⟩
    rw [hl]
    rcases hs z with y | y
    · exact k.2 y x
    · exact y x
  credit := fun _ k x => by
    refine ⟨by rw [he]; exact (k x).1, ?_, (k x).2.2.same (he x) (hl x)⟩
    unfold Lane.BalanceOk
    rw [he]
    rcases hb x with y | y
    · rw [y]; exact (k x).2.1
    · rw [y]; exact ⟨by decide, by omega, fun _ => rfl⟩

theorem State.openPort_good (s : State) (p : PortIx) : s.PGood (s.openPort p) := by
  unfold State.openPort
  refine State.PAt.tested ((State.startTimer_at _ p).after ((State.refreshIf_at _ p).after
      (State.updPort_at (by intro _; rfl) (by intro _; rfl) ?_))) fun _ => ?_
  · refine Port.state_keeps (fun _ h => h) rfl rfl rfl rfl ?_ (fun _ => rfl) (fun _ => .inl rfl) (fun _ => rfl) (fun h =>
        by cases h)
    intro _ x hx; cases hx
  · rw [State.updPort_port_self]; exact Port.startTimer_timer _

theorem State.portOpenAction_good (s : State) (p : PortIx) : s.PGood (s.portOpenAction p).1 := by
  unfold State.portOpenAction
  split
  · exact s.openPort_good p
  · rename_i h
    dsimp only
    refine State.updPort_good (fun k => ⟨k.banks, k.pins⟩) ⟨?_, ?_, fun _ => Port.drained_state (by simp)⟩
    · refine Port.state_keeps (fun _ h => h) rfl rfl rfl rfl ?_ (fun _ => rfl) (fun _ => .inl rfl) (fun _ => rfl) (fun h =>
          by cases h)
      intro _ x hx; cases hx
    · unfold Port.TimerOk Port.timerRuns Port.inService; rw [h]; exact id
  · exact State.PGood.refl s
  · exact s.openPort_good p

theorem State.drain_good {s t : State} {p : PortIx} (h : s.PAt p t) (ht : (s.port p).TimerOk → (t.port p).TimerOk) : s.PGood
    (t.drain p) := by
  unfold State.drain
  have k : s.PAt p (t.updPort p Port.drainRule) := State.PAt.after ⟨(State.portSide_drain t p).shares, fun p' e =>
      by unfold State.updPort; rw [State.setPort_port, if_neg e],
      by rw [State.updPort_port_self]; exact Port.drainRule_keeps _ _ _⟩ h
  refine k.good (fun x => ?_) fun _ => ?_
  · rw [State.updPort_port_self]; exact Port.drainRule_timer (ht x)
  · rw [State.updPort_port_self]; exact Port.drainRule_drainOk _

theorem State.portCloseAction_good (s : State) (p : PortIx) : s.PGood (s.portCloseAction p).1 := by
  unfold State.portCloseAction
  split
  · exact State.PGood.refl s
  · exact State.PGood.refl s
  · rename_i h
    refine State.drain_good (State.updPort_at (by intro _; rfl) (by intro _; rfl) ?_) ?_
    · refine Port.state_keeps (fun _ h => h) rfl rfl rfl rfl ?_ (fun _ => rfl) (fun _ => .inl rfl) (fun _ => rfl) (fun h =>
          by cases h)
      intro _ x hx; cases hx
    · rw [State.updPort_port_self]
      unfold Port.TimerOk Port.timerRuns Port.inService; rw [h]; exact id
  · exact State.PGood.refl s

theorem State.clearPort_good (s : State) (p : PortIx) : s.PGood (s.clearPort p) := by
  unfold State.clearPort
  have h1 : s.PAt p (s.purge p (fun _ => true) true) := by
    have hp := State.purge_port s p p (fun _ => true) true
    rw [if_pos rfl] at hp
    have hlane : ∀ x, ((s.purge p (fun _ => true) true).port p).lane x = { s.lane p x with list := [] } := fun x => by
      have := State.purge_lane s p x (fun _ => true) true
      rw [if_pos rfl] at this; exact this
    refine ⟨(s.portSide_purge p _ true).shares, fun p' e => by rw [State.purge_port, if_neg e], ?_, ?_, ?_, ?_⟩
    · unfold Port.LengthOk; rw [hp]; simp
    · rintro ⟨k1, k2⟩
      refine ⟨?_, k2.same (Port.successor_congr (by rw [hp]; simp)) ?_⟩
      · unfold Port.SlotsOk at *; rw [hp]; simpa using k1
      · intro a b; rw [hp]; simp [a, b]
    · intro k
      exact ⟨fun x => Lane.ListOk.nil (by rw [hlane]), fun _ x => by rw [hlane]⟩
    · intro _ k x
      rw [hlane]
      exact ⟨(k x).1, (k x).2.1, Lane.ListOk.nil rfl⟩
  have hnil : ∀ x, (((s.purge p (fun _ => true) true).port p).lane x).list = [] := fun x => by
    have := State.purge_lane s p x (fun _ => true) true
    rw [if_pos rfl] at this
    show ((s.purge p (fun _ => true) true).lane p x).list = []
    rw [this]
  have hlane : ∀ (q : Port) x, q.clear.lane x = { q.lane x with balance := 0 } := by
    intro q x
    have : q.clear.lane x = (q.mapLanes fun _ l => { l with balance := 0 }).lane x := rfl
    rw [this, Port.mapLanes_lane]
  refine State.PAt.good (State.PAt.after
      (State.updPort_at (fun q => by simp [Port.clear]) (fun q => by simp [Port.clear]) ?_) h1) (fun _ => ?_) fun _ => ?_
  · refine Port.state_keeps (fun _ h =>
        by cases h)
        (by simp [Port.clear]) (by simp [Port.clear]) (by simp [Port.clear]) (by simp [Port.clear]) ?_ (fun x => by rw [hlane]) (fun x => .inr (by rw [hlane])) (fun x => by rw [hlane]) (fun _ => .inr hnil)
    intro _ x hx; cases hx
  · rw [State.updPort_port_self]; rfl
  · rw [State.updPort_port_self]; exact Port.drained_state (by simp [Port.clear])

theorem State.portClearAction_good (s : State) (p : PortIx) : s.PGood (s.portClearAction p).1 := by
  unfold State.portClearAction
  split
  · exact s.clearPort_good p
  · exact s.clearPort_good p
  · exact State.PGood.refl s
  · exact State.PGood.refl s

theorem State.portRetireAction_good (s : State) (p : PortIx) (x : Option PortIx) : s.PGood (s.portRetireAction p x).1 := by
  unfold State.portRetireAction
  split
  · exact State.PGood.refl s
  · split
    · exact State.PGood.refl s
    · split
      · exact State.PGood.refl s
      · rename_i y hy
        split
        · rename_i hm
          unfold Port.mayRetire at hm
          simp only [Bool.and_eq_true, beq_iff_eq, Option.isNone_iff_eq_none] at hm
          dsimp only
          refine State.updPort_good (fun k => ⟨k.banks, k.pins⟩) ⟨?_, ?_, fun _ => Port.drained_state (by simp)⟩
          · refine Port.state_keeps (fun _ h => h) rfl rfl rfl rfl ?_ (fun _ => rfl) (fun _ => .inl rfl) (fun _ => rfl) (fun
                _ => .inl (by unfold Port.inService; rw [hm.1]))
            intro _ z hz
            unfold Port.successor? at hz
            obtain rfl := Option.some.inj hz
            exact ⟨fun e => hy (.inl e), hm.2.1, hm.2.2⟩
          · unfold Port.TimerOk Port.timerRuns Port.inService; rw [hm.1]; exact id
        · exact State.PGood.refl s

theorem heldRoundLength_ok (v : BitVec 16) : lengthInRange (heldRoundLength v) := by
  unfold heldRoundLength lengthInRange
  split
  · exact ⟨by decide, by decide⟩
  · split
    · exact ⟨by decide, by decide⟩
    · omega

theorem State.portSetAction_good (s : State) (p : PortIx) (b : OrderBlock) : s.PGood (s.portSetAction p b).1 := by
  unfold State.portSetAction
  dsimp only
  split
  · exact State.PGood.refl s
  · split
    · exact State.PGood.refl s
    · dsimp only
      refine State.updPort_good (fun k => ⟨k.banks, k.pins⟩) ⟨⟨?_, id, id, fun _ => id⟩, id, id⟩
      rintro ⟨_, a⟩
      exact ⟨heldRoundLength_ok _, a⟩

theorem State.mapPorts_alike {s : State} {f : PortIx → Port → Port} (h : ∀ p q, Port.Alike q (f p q)) : s.PGood
    (s.mapPorts f) := by
  refine ⟨fun k => ⟨fun a b c => ?_, fun i x hx => ?_⟩, fun p => ?_⟩
  · unfold State.bankPort; rw [State.mapPorts_banks]; exact k.banks a b c
  · rw [State.mapPorts_pins] at hx; exact k.pins i x hx
  · rw [State.mapPorts_port]; exact (h p _).good _ _

theorem State.recomputeSelection_good (s : State) : s.PGood s.recomputeSelection :=
  State.mapPorts_alike fun p q => by unfold Port.reselect; split <;> exact Port.alike_lanes rfl rfl rfl rfl rfl rfl rfl rfl

theorem State.deliver_good (s : State) (m : Inbound) : s.PGood (s.deliver m) := by
  cases m with
  | arrival p src len h later => exact s.takeArrival_good p src len h later
  | done p tag later => exact s.takeDone_good p tag later
  | hold p => exact s.takeHold_good p
  | resume p later => exact s.takeResume_good p later
  | clock m =>
    show s.PGood (s.takeClock m)
    unfold State.takeClock
    split
    · dsimp only
      split
      · exact State.PGood.refl s
      · exact (State.recomputeSelection_good _).after (State.PGood.of_ports rfl rfl rfl)
    · exact State.PGood.refl s
  | bad => exact State.PGood.of_ports rfl rfl rfl

theorem takeWaiting_good (ms : List Inbound) (s : State) : s.PGood (takeWaiting ms s) := by
  induction ms generalizing s with
  | nil => exact State.PGood.of_ports rfl rfl rfl
  | cons m rest ih =>
    unfold takeWaiting
    split
    · exact (s.deliver_good m).trans (ih _)
    · exact State.PGood.of_ports rfl rfl rfl

theorem State.receive_good (s : State) (m : Inbound) : s.PGood (s.receive m) := by
  unfold State.receive
  split
  · exact State.deliver_good _ m
  · exact State.PGood.of_ports rfl rfl rfl

theorem receiveBytes_good (bs : List Byte) (later : Bool) (s : State) : s.PGood (receiveBytes bs later s) :=
  receiveBytes_induct bs later State.PGood State.PGood.refl (fun _ _ _ => State.PGood.trans)
    (fun _ _ _ _ => State.PGood.of_ports rfl rfl rfl)
    (fun _ m _ => (State.receive_good _ m).after (State.PGood.of_ports rfl rfl rfl)) s

theorem State.sendHead_good (s : State) : s.PGood s.sendHead := by
  unfold State.sendHead
  repeat' split
  · exact State.PGood.refl s
  · exact (takeWaiting_good _ _).after (State.PGood.of_ports rfl rfl rfl)
  · exact State.PGood.refl s

theorem Port.linkLoss_good_of {W : Prop} {p : PortIx} {q r : Port} (e1 : r.state = q.state) (e2 : r.flow = q.flow)
    (e3 : r.timer = q.timer)
    (e4 : r.roundLength = q.roundLength) (hr : ∀ x, r.lane x = { q.lane x with list := [] }) : Port.Good W p q r.linkLoss := by
  have hl : ∀ x, r.linkLoss.lane x = { q.lane x with list := [] } := by
    intro x
    rw [Port.lane_congr (Port.linkLoss_lanes _), hr]
  have hq := Port.linkLoss_eq r
  have hs : r.linkLoss.state = if q.state = .draining then .closed else q.state := by rw [hq]; dsimp only; rw [e1]
  have ho : r.linkLoss.older = none := by rw [hq]
  have hy : r.linkLoss.younger = none := by rw [hq]
  have hlen : r.linkLoss.roundLength = q.roundLength := by rw [hq]; exact e4
  have hf : r.linkLoss.flow = .held := by rw [hq]
  have ht : r.linkLoss.timer = (match q.state with
      | .closed => q.timer
      | .opened => if q.flow == .stalled then some q.roundLength else q.timer
      | .draining => none
      | .retired _ => q.timer) := by
    unfold Port.linkLoss
    dsimp only
    rw [e1, e2]
    cases hst : q.state <;> dsimp only
    · exact e3
    · split
      · unfold Port.startTimer Port.timerRuns Port.inService
        dsimp only
        rw [e4]; rfl
      · exact e3
    · exact e3
  refine ⟨⟨?_, ?_, ?_, ?_⟩, ?_, ?_⟩
  · rintro ⟨a, b⟩
    refine ⟨by rw [hlen]; exact a, ?_⟩
    rw [ht]
    cases q.state <;> dsimp only
    · exact b
    · split
      · simpa using a
      · exact b
    · rfl
    · exact b
  · rintro ⟨a, b⟩
    refine ⟨by unfold Port.SlotsOk; rw [ho, hy]; rfl, b.same ?_ fun _ _ => ⟨ho, hy⟩⟩
    unfold Port.successor?
    rw [hs]
    cases q.state <;> simp
  · intro k
    exact ⟨fun x => Lane.ListOk.nil (by rw [hl]), fun _ x => by rw [hl]⟩
  · intro _ k x
    rw [hl]
    exact ⟨(k x).1, (k x).2.1, Lane.ListOk.nil rfl⟩
  · intro k
    unfold Port.TimerOk at *
    have hrun : r.linkLoss.timerRuns = (match q.state with | .opened => true | _ => false) := by
      unfold Port.timerRuns Port.inService
      rw [hf, hs]
      cases q.state <;> simp
    rw [hrun, ht]
    unfold Port.timerRuns Port.inService at k
    cases hst : q.state <;> dsimp only <;> rw [hst] at k <;> dsimp only at k
    · rw [k]; rfl
    · split
      · rfl
      · rename_i hff
        rw [k]; simpa using hff
    · rfl
    · rw [k]; rfl
  · intro _
    refine Port.drained_state ?_
    rw [hs]
    split
    · simp
    · assumption

theorem Port.emptied_fields (q : Port) : q.emptied.state = q.state ∧ q.emptied.flow = q.flow ∧ q.emptied.timer = q.timer ∧
    q.emptied.roundLength = q.roundLength := by
  unfold Port.emptied; simp

theorem Port.linkLoss_good (W : Prop) (p : PortIx) (q : Port) : Port.Good W p q q.emptied.linkLoss := by
  obtain ⟨e1, e2, e3, e4⟩ := q.emptied_fields
  have hr : ∀ x, q.emptied.lane x = { q.lane x with list := [] } := by
    intro x
    have e : q.emptied.lane x = (q.mapLanes fun _ l =>
        { l with list := [] }).lane x := Port.lane_congr (by unfold Port.emptied; dsimp only) x
    rw [e, Port.mapLanes_lane]
  exact Port.linkLoss_good_of e1 e2 e3 e4 hr

theorem State.linkLoss_good (s : State) (o : List PortIx) : s.PGood (s.linkLoss o) := by
  have hf := s.linkLoss_frame o
  refine ⟨fun k => ⟨fun a b c => ?_, fun i x hx => ?_⟩, fun p => ?_⟩
  · have : (s.linkLoss o).banks = s.banks := by rw [hf]
    unfold State.bankPort; rw [this]; exact k.banks a b c
  · have : (s.linkLoss o).pins = s.pins := by rw [hf]
    rw [this] at hx; exact k.pins i x hx
  · rw [State.linkLoss_port]; exact Port.linkLoss_good _ p _

theorem State.withdrawLine_good (s : State) (o : List PortIx) : s.PGood (s.withdrawLine o) := by
  unfold State.withdrawLine
  split
  · refine (s.linkLoss_good o).trans ?_
    exact State.PGood.of_ports rfl rfl rfl
  · exact State.PGood.of_ports rfl rfl rfl

theorem State.assertLine_good (s : State) : s.PGood s.assertLine := by
  unfold State.assertLine
  split <;> exact State.PGood.of_ports rfl rfl rfl

end Sys2Proof.Machine
end

