-- ==== Sys2Proof/Laws/OrderKeeps.lean ====
section
/-! SUPPORT. What the orders keep of ports, banks and pins, the LOAD in progress included. -/

namespace Sys2Proof.Machine

/-! ## The executor's work -/

/-- What a step keeps of the ports, the banks and the pins. -/
structure State.Fine (s t : State) : Prop where
  shares : s.BanksOk → s.PinsOk → t.BanksOk ∧ t.PinsOk
  port : ∀ p, Port.Good (s.BanksOk ∧ s.PinsOk) p (s.port p) (t.port p)

theorem State.Fine.refl (s : State) : s.Fine s := ⟨fun a b => ⟨a, b⟩, fun _ => Port.Good.refl _ _ _⟩
theorem State.Fine.trans {s t u : State} (h : s.Fine t) (k : t.Fine u) : s.Fine u :=
  ⟨fun a b => k.shares (h.shares a b).1 (h.shares a b).2, fun p => ⟨(h.port p).toKeeps.trans (fun x => h.shares x.1 x.2)
      (k.port p).toKeeps,
    fun x => (k.port p).timer ((h.port p).timer x), fun x => (k.port p).drain ((h.port p).drain x)⟩⟩

theorem State.PGood.fine {s t : State} (h : s.PGood t) (hx : t.executor.load? = s.executor.load? ∨ t.executor.load? = none) :
    s.Fine t := by
  refine ⟨fun a b => ?_, fun p => ?_⟩
  · have := h.shares ⟨a.1, b⟩
    refine ⟨⟨this.banks, ?_⟩, this.pins⟩
    rcases hx with e | e
    · rw [e]; exact a.2
    · rw [e]; intro j hj; cases hj
  · have := h.port p
    exact ⟨⟨this.length, this.slots, this.lists, fun w => this.credit ⟨w.1.1, w.2⟩⟩, this.timer, this.drain⟩

theorem State.finish_good (s : State) (c : ChannelIx) (r : OrderResult) (w1 : Word) (bus : CompletionBus) : s.PGood
    (s.finish c r w1 bus) :=
  State.PGood.of_ports (by simp) (by simp) (by simp)

theorem State.complete_good (s : State) (c : ChannelIx) (r : OrderResult) (w1 : Word) (bus : CompletionBus) : s.PGood
    (s.complete c r w1 bus) :=
  State.PGood.of_ports (by simp) (by simp) (by simp)

theorem State.finish_load (s : State) (c : ChannelIx) (r : OrderResult) (w1 : Word) (bus : CompletionBus) :
    (s.finish c r w1 bus).executor.load? = none := by
  rw [State.finish_executor]; rfl

theorem State.finish_fine {s u : State} (h : s.PGood u) (c : ChannelIx) (r : OrderResult) (w1 : Word) (bus : CompletionBus)
    : s.Fine (u.finish c r w1 bus) :=
  ((u.finish_good c r w1 bus).after h).fine (.inr (u.finish_load c r w1 bus))

theorem State.takeOrder_fine (s : State) (block : Option OrderBlock) (bus : CompletionBus)
    (run : ChannelIx → OrderBlock → State → State)
    (h : ∀ c b (t : State), t.Fine (run c b t)) : s.Fine (s.takeOrder block bus run) := by
  unfold State.takeOrder
  split
  · exact State.Fine.refl s
  · rename_i c _ _
    have h0 : s.PGood (s.beginExecuting c) := State.PGood.of_ports rfl rfl rfl
    dsimp only
    split
    · exact State.finish_fine h0 _ _ _ _
    · split
      · exact (State.PGood.trans h0 (State.PGood.of_ports rfl rfl rfl : (s.beginExecuting c).PGood
            ((s.beginExecuting c).markDone c true))).fine (.inr rfl)
      · exact (h0.fine (.inr rfl)).trans (h _ _ _)

theorem State.simpleOrder_fine (s : State) (block : Option OrderBlock) (bus : CompletionBus)
    (act : OrderBlock → State → State × OrderResult) (h : ∀ b (t : State), t.PGood (act b t).1) :
    s.Fine (s.simpleOrder block bus act) :=
  s.takeOrder_fine block bus _ fun _ b t => State.finish_fine (h b t) _ _ _ _

theorem State.portOrder_fine (s : State) (block : Option OrderBlock) (bus : CompletionBus)
    (act : PortIx → OrderBlock → State → State × OrderResult) (h : ∀ p b (t : State), t.PGood (act p b t).1) :
    s.Fine (s.portOrder block bus act) := by
  unfold State.portOrder
  refine s.takeOrder_fine block bus _ fun c b t => ?_
  dsimp only
  have h0 : t.PGood { t with freeCtr := t.freeCtr + 1 } := State.PGood.of_ports rfl rfl rfl
  split
  · exact State.finish_fine h0 _ _ _ _
  · exact State.finish_fine (h0.trans (h _ _ _)) _ _ _ _

theorem State.windowOrder_good (s : State) (b : OrderBlock) : s.PGood (s.windowOrder b).1 := by
  unfold State.windowOrder
  split
  · dsimp only
    split
    · exact State.PGood.refl s
    · refine (State.recomputeSelection_good _).after ?_
      unfold State.setWindow
      split
      · exact State.PGood.refl s
      all_goals exact State.PGood.of_ports rfl rfl rfl
  · exact State.PGood.refl s

theorem State.changePin_good {s : State} {i : Fin 4} {x : Option Pin} (hx : ∀ y ∈ x, y.Ok) : s.PGood (s.changePin i x).1 := by
  unfold State.changePin
  dsimp only
  split
  · exact State.PGood.refl s
  · dsimp only
    refine State.PGood.after (State.mapPorts_alike ?_) ⟨fun k => ⟨k.banks, fun j y hy => ?_⟩, fun _ => Port.Good.refl _ _ _⟩
    · intro p q
      split <;> exact Port.alike_lanes rfl rfl rfl rfl rfl rfl rfl rfl
    · simp only [Fin.getElem_fin] at hy
      rw [Vector.getElem_set] at hy
      split at hy
      · exact hx y hy
      · exact k.pins j y (by simpa using hy)

theorem State.pinOrder_good (s : State) (b : OrderBlock) : s.PGood (s.pinOrder b).1 := by
  unfold State.pinOrder
  split
  · unfold State.pinSet
    split
    · exact State.PGood.refl s
    · dsimp only
      split
      · exact State.PGood.refl s
      · rename_i hv
        split
        · exact State.PGood.refl s
        · split
          · exact State.PGood.refl s
          · refine State.changePin_good ?_
            intro y hy; obtain rfl := Option.some.inj hy
            simp only [Bool.and_eq_true, Bool.not_eq_true', beq_iff_eq, not_and] at hv
            show hasRate b.pinGc b.pinGf = true ∨ _
            cases hr : hasRate b.pinGc b.pinGf
            · exact .inr (hv hr)
            · exact .inl rfl
  · unfold State.pinClear
    split
    · exact State.PGood.refl s
    · split
      · exact State.PGood.refl s
      · exact State.changePin_good (by intro y hy; cases hy)
  · exact State.PGood.refl s

theorem stageEntry_ok (e : TableEntry) : (stageEntry e).Ok := by
  unfold stageEntry
  dsimp only
  split
  · rename_i h
    rw [Bool.or_eq_true, bne_iff_ne] at h
    refine ⟨h, fun hr => capFloor_rate _ _ _ hr, ?_⟩
    show 1 ≤ BitVec.toNat (if _ then _ else _)
    split
    · decide
    · rename_i hq
      exact Nat.pos_of_ne_zero fun z => hq (BitVec.eq_of_toNat_eq z)
  · exact (rfl : BankEntry.closed = BankEntry.closed)

theorem closedEntry_ok : BankEntry.closed.Ok := (rfl : BankEntry.closed = BankEntry.closed)

/-- The 64 entries are in order. -/
def StagedOk (es : Vector BankEntry 64) : Prop := ∀ src : SourceIx, (es[src]).Ok

theorem closedStaging_ok : StagedOk closedStaging := by
  intro src
  unfold closedStaging
  simp only [Fin.getElem_fin, Vector.getElem_replicate]
  exact closedEntry_ok

theorem State.installPoint_good {s : State} {k : ProfileIx} {p : PortIx} {es : Vector BankEntry 64} (w : Word)
    (hes : s.SharesOk → StagedOk es) : s.PGood (s.installPoint k p es w).1 := by
  unfold State.installPoint
  split
  · dsimp only
    refine State.PGood.after (State.updPort_alike ?_) ⟨fun h => ⟨fun a b c => ?_, h.pins⟩, fun _ => Port.Good.refl _ _ _⟩
    · intro q; split <;> exact Port.alike_lanes rfl rfl rfl rfl rfl rfl rfl rfl
    · rw [State.installBank_bankPort]
      split
      · exact hes h c
      · exact h.banks a b c
  · exact State.PGood.refl s

theorem State.finishInstall_fine {s : State} {c : ChannelIx} {k : ProfileIx} {p : PortIx} {es : Vector BankEntry 64}
    (n : Nat) (bus : CompletionBus)
    (hes : s.BanksOk → StagedOk es) : s.Fine (s.finishInstall c k p es n bus) := by
  unfold State.finishInstall
  dsimp only
  obtain ⟨u, hu⟩ : ∃ u, (s.installPoint k p es (BitVec.ofNat 32 n)) = u := ⟨_, rfl⟩
  rw [hu]
  -- the staged entries are in order where the banks are
  refine ⟨fun a b => ?_, fun q => ?_⟩
  · have hg : s.PGood u.1 := by rw [← hu]; exact State.installPoint_good _ fun _ => hes a
    exact (State.finish_fine hg c u.2 0 bus).shares a b
  · by_cases hb : s.BanksOk
    · have hg : s.PGood u.1 := by rw [← hu]; exact State.installPoint_good _ fun _ => hes hb
      exact (State.finish_fine hg c u.2 0 bus).port q
    · have hport : (u.1.finish c u.2 0 bus).port q = u.1.port q := by unfold State.port; rw [State.finish_ports]
      rw [hport, ← hu]
      have hal : Port.Alike (s.port q) ((s.installPoint k p es (BitVec.ofNat 32 n)).1.port q) := by
        unfold State.installPoint
        split
        · dsimp only
          unfold State.updPort
          rw [State.setPort_port]
          split
          · rename_i e; subst e
            dsimp only
            split <;> exact Port.alike_lanes rfl rfl rfl rfl rfl rfl rfl rfl
          · exact Port.alike_lanes rfl rfl rfl rfl rfl rfl rfl rfl
        · exact Port.alike_lanes rfl rfl rfl rfl rfl rfl rfl rfl
      exact hal.good _ _

/-- The executor set to a LOAD whose staged entries are in order. -/
theorem State.setLoading_fine {s : State} {j : LoadJob} (h : s.BanksOk → StagedOk j.staged) : s.Fine
    (s.setExecutor (.loading j)) := by
  refine ⟨fun a b => ⟨⟨a.1, ?_⟩, b⟩, fun _ => Port.Good.refl _ _ _⟩
  intro j' hj
  obtain rfl := Option.some.inj hj
  exact h a

theorem State.finish_fine_self (s : State) (c : ChannelIx) (r : OrderResult) (w1 : Word) (bus : CompletionBus) : s.Fine
    (s.finish c r w1 bus) :=
  State.finish_fine (State.PGood.refl s) c r w1 bus

theorem State.beginLoad_fine (s : State) (c : ChannelIx) (b : OrderBlock) (af : Bool) (bus : CompletionBus) : s.Fine
    (s.beginLoad c b af bus) := by
  unfold State.beginLoad
  split
  · exact s.finish_fine_self _ _ _ _
  · split
    · exact s.finish_fine_self _ _ _ _
    · split
      · exact s.finish_fine_self _ _ _ _
      · split
        · exact s.finish_fine_self _ _ _ _
        · split
          · exact State.finishInstall_fine _ _ fun _ => closedStaging_ok
          · exact State.setLoading_fine fun _ => closedStaging_ok

theorem LoadJob.stage_ok {j : LoadJob} (h : StagedOk j.staged) (e : TableEntry) : StagedOk (j.stage e).staged := by
  intro src
  show ((j.staged.set (TableEntry.source e) (stageEntry e))[src]).Ok
  simp only [Fin.getElem_fin]
  rw [Vector.getElem_set]
  split
  · exact stageEntry_ok e
  · exact h src

theorem State.loadEntry_fine {s : State} {j : LoadJob} (hj : s.executor = .loading j) (e : Option TableEntry) (f : Bool)
    (bus : CompletionBus) : s.Fine (s.loadEntry j e f bus) := by
  have hst : s.BanksOk → StagedOk j.staged := fun h => h.2 j (by rw [hj]; rfl)
  unfold State.loadEntry
  dsimp only
  split
  · split <;> exact s.finish_fine_self _ _ _ _
  · split
    · split <;> exact s.finish_fine_self _ _ _ _
    · unfold State.loadStaged
      split
      · split
        · exact s.finish_fine_self _ _ _ _
        · exact State.finishInstall_fine _ _ fun h => LoadJob.stage_ok (hst h) _
      · split
        · exact s.finish_fine_self _ _ _ _
        · exact State.setLoading_fine fun h => LoadJob.stage_ok (hst h) _

theorem Lane.tally_alike (q : Port) (src : SourceIx) (l : Lane) (h1 : l.entry = (q.lane src).entry)
    (h2 : l.balance = (q.lane src).balance) (h3 : l.list = (q.lane src).list) :
    Port.Alike q (q.setLane src l) := by
  have hl : ∀ x, (q.setLane src l).lane x = if x = src then l else q.lane x := fun x => by rw [Port.setLane_lane]
  refine ⟨by simp, by simp, by simp, by simp, by simp, by simp, by simp, fun x => ?_, fun x => ?_, fun x => ?_⟩
  all_goals
    rw [hl]; split
    · rename_i e; rw [e]; assumption
    · rfl

theorem State.updLane_good {s : State} {p : PortIx} {src : SourceIx} {f : Lane → Lane}
    (h : ∀ l, (f l).entry = l.entry ∧ (f l).balance = l.balance ∧ (f l).list = l.list) :
    s.PGood (s.updLane p src f) := by
  unfold State.updLane
  exact State.updPort_alike fun q => Lane.tally_alike q src _ (h _).1 (h _).2.1 (h _).2.2

theorem State.setExecutor_fine {s u : State} {x : Executor} (h : s.PGood u) (hx : x.load? = none) : s.Fine (u.setExecutor x) :=
  (h.trans (State.PGood.of_ports rfl rfl rfl : u.PGood (u.setExecutor x))).fine (.inr hx)

theorem State.sampleCollect_fine (s : State) (c : ChannelIx) (p : PortIx) (a : Nat) (cl : Bool) (i : Nat) : s.Fine
    (s.sampleCollect c p a cl i) := by
  unfold State.sampleCollect
  split
  · refine State.setExecutor_fine ?_ rfl
    split
    · exact State.updLane_good (f := Lane.clearTally) fun _ => ⟨rfl, rfl, rfl⟩
    · exact State.PGood.refl s
  · refine State.setExecutor_fine ?_ rfl
    split
    · exact s.updPortTally_alike p _
    · exact State.PGood.refl s

theorem State.beginCollect_fine (s : State) (c : ChannelIx) (b : OrderBlock) (bus : CompletionBus) : s.Fine
    (s.beginCollect c b bus) := by
  unfold State.beginCollect
  split
  · exact s.finish_fine_self _ _ _ _
  · split
    · exact s.finish_fine_self _ _ _ _
    · split
      · exact s.finish_fine_self _ _ _ _
      · exact s.sampleCollect_fine _ _ _ _ _

theorem State.busWrite_good (s : State) (a : Nat) (bs : List Byte) : s.PGood (s.busWrite a bs) := State.PGood.of_ports rfl
    rfl rfl

theorem State.collectWritten_fine (s : State) (j : CollectJob) (w : Bool) (bus : CompletionBus) : s.Fine
    (s.collectWritten j w bus) := by
  unfold State.collectWritten
  dsimp only
  split
  · split
    · exact State.finish_fine (s.busWrite_good _ _) _ _ _ _
    · split
      · exact State.finish_fine (s.busWrite_good _ _) _ _ _ _
      · exact ((s.busWrite_good _ _).fine (.inl rfl)).trans (State.sampleCollect_fine _ _ _ _ _ _)
  · refine State.finish_fine ?_ _ _ _ _
    unfold State.returnSample
    split
    · split
      · exact State.updLane_good fun _ => ⟨rfl, rfl, rfl⟩
      · exact s.updPortTally_alike _ _
    · exact State.PGood.refl s

theorem State.sampleSurvey_fine (s : State) (c : ChannelIx) (a i : Nat) : s.Fine (s.sampleSurvey c a i) := by
  unfold State.sampleSurvey
  split
  · refine State.setExecutor_fine ?_ rfl
    refine State.PGood.after (State.updPort_alike ?_) ?_
    · intro q; exact Port.alike_lanes rfl rfl rfl rfl rfl rfl rfl rfl
    · exact State.PGood.of_ports rfl rfl rfl
  · exact State.setExecutor_fine (State.PGood.refl s) rfl

theorem State.surveyWritten_fine (s : State) (j : SurveyJob) (w : Bool) (bus : CompletionBus) : s.Fine
    (s.surveyWritten j w bus) := by
  unfold State.surveyWritten
  dsimp only
  split
  · split
    · exact State.finish_fine (s.busWrite_good _ _) _ _ _ _
    · split
      · exact State.finish_fine (s.busWrite_good _ _) _ _ _ _
      · exact ((s.busWrite_good _ _).fine (.inl rfl)).trans (State.sampleSurvey_fine _ _ _ _)
  · refine State.finish_fine ?_ _ _ _ _
    unfold State.returnLatch
    split
    · exact State.updPort_alike fun q => Port.alike_lanes rfl rfl rfl rfl rfl rfl rfl rfl
    · exact State.PGood.refl s

/-- Ports, banks, pins, and the rest the shares look at, as they were. -/
structure State.Still (s t : State) : Prop where
  ports : t.ports = s.ports
  banks : t.banks = s.banks
  pins : t.pins = s.pins
  windows : t.windows = s.windows
  clock : t.clockValid = s.clockValid
  load : t.executor.load? = s.executor.load?

theorem State.Still.refl (s : State) : s.Still s := ⟨rfl, rfl, rfl, rfl, rfl, rfl⟩
theorem State.Still.trans {s t u : State} (h : s.Still t) (k : t.Still u) : s.Still u :=
  ⟨k.ports.trans h.ports, k.banks.trans h.banks, k.pins.trans h.pins, k.windows.trans h.windows, k.clock.trans h.clock,
      k.load.trans h.load⟩
theorem State.Still.after {s t u : State} (k : t.Still u) (h : s.Still t) : s.Still u := h.trans k
theorem State.Still.fine {s t : State} (h : s.Still t) : s.Fine t := (State.PGood.of_ports h.banks h.pins h.ports).fine
    (.inl h.load)

/-- The executor's taking of a channel. -/
theorem State.takeNext_still (s : State) : s.Still s.takeNext :=
  s.takeNext_induct (fun t => s.Still t) (State.Still.refl s) fun c hf _ =>
    ⟨rfl, rfl, rfl, rfl, rfl, by rw [hf]; rfl⟩

theorem State.endTrace_still (s : State) (t : ArmedTrace) (st : Status) (d : BitVec 16) (bus : CompletionBus) : s.Still
    (s.endTrace t st d bus) := by
  unfold State.endTrace
  exact ⟨by simp, by simp, by simp, by simp, by simp, by simp⟩

theorem State.beginClose_still (s : State) (t : ArmedTrace) (h : Holding) (o : Option Offer) (w : CloseReason) : s.Still
    (s.beginClose t h o w) := ⟨rfl, rfl, rfl, rfl, rfl, rfl⟩
theorem State.setTre_still (s : State) (e : TraceEngine) : s.Still { s with tre := e } := ⟨rfl, rfl, rfl, rfl, rfl, rfl⟩
theorem State.addGap_still (s : State) (n : Nat) : s.Still (s.addGap n) := ⟨rfl, rfl, rfl, rfl, rfl, rfl⟩

theorem State.takeOffer_still (s : State) (o : Offer) : s.Still (s.takeOffer o) := by
  unfold State.takeOffer State.takeRecord
  dsimp only
  repeat' split
  all_goals first | exact State.Still.refl s | exact State.beginClose_still _ _ _ _ _ | exact State.setTre_still _ _

theorem State.offerStep_still (s : State) : s.Still s.offerStep := by
  unfold State.offerStep State.queueOffer
  repeat' split
  all_goals first
    | exact State.Still.refl s
    | exact ⟨rfl, rfl, rfl, rfl, rfl, rfl⟩
    | exact (State.takeOffer_still _ _).after (State.setTre_still _ _)

theorem State.staleExpire_still (s : State) (t : ArmedTrace) (bus : CompletionBus) : s.Still (s.staleExpire t bus) := by
  unfold State.staleExpire
  dsimp only
  repeat' split
  all_goals first | exact State.endTrace_still _ _ _ _ _ | exact State.beginClose_still _ _ _ _ _ | exact State.setTre_still _ _

theorem State.abortTrace_still (s : State) (t : ArmedTrace) (bus : CompletionBus) : s.Still (s.abortTrace t bus) := by
  unfold State.abortTrace
  split
  · exact State.beginClose_still _ _ _ _ _
  · exact State.endTrace_still _ _ _ _ _

theorem State.abortIfMarked_still (s : State) (c : ChannelIx) (bus : CompletionBus) : s.Still (s.abortIfMarked c bus) := by
  unfold State.abortIfMarked State.traceAbortRequest
  repeat' split
  all_goals first | exact State.Still.refl s | exact State.abortTrace_still _ _ _

theorem State.staleTimer_still (s : State) (bus : CompletionBus) : s.Still (s.staleTimer bus) := by
  unfold State.staleTimer
  repeat' split
  all_goals first | exact State.Still.refl s | exact State.staleExpire_still _ _ _ | exact State.setTre_still _ _

theorem State.settleTrace_still (s : State) (t : ArmedTrace) (bus : CompletionBus) : s.Still (s.settleTrace t bus) := by
  unfold State.settleTrace
  repeat' split
  all_goals first | exact State.Still.refl s | exact State.staleExpire_still _ _ _ | exact State.abortTrace_still _ _ _

theorem State.areaWritten_still (s : State) (t : ArmedTrace) (w : AreaWrite) (bus : CompletionBus) : s.Still
    (s.areaWritten t w bus) := by
  have hg : ∀ o, s.Still (s.addGapOf o) := by
    intro o; unfold State.addGapOf; split
    · exact State.Still.refl s
    · exact s.addGap_still 1
  unfold State.areaWritten State.traceGoesOn
  dsimp only
  repeat' split
  all_goals first
    | exact State.endTrace_still _ _ _ _ _
    | exact (State.endTrace_still _ _ _ _ _).after (hg _)
    | exact (State.settleTrace_still _ _ _).after (State.setTre_still _ _)

theorem State.traceWritten_still (s : State) (w : Bool) (bus : CompletionBus) : s.Still (s.traceWritten w bus) := by
  unfold State.traceWritten
  repeat' split
  · exact State.Still.refl s
  · exact (State.areaWritten_still _ _ _ _).after ⟨rfl, rfl, rfl, rfl, rfl, rfl⟩
  · exact (State.endTrace_still _ _ _ _ _).after (s.addGap_still _)

theorem State.pointerWrite_still (s : State) (c : ChannelIx) (v : Word) (lag : Bool)
    (bus : CompletionBus) : s.Still (s.pointerWrite c v lag bus) := by
  have ha : s.Still (s.pointerAddressWrite c v) := by
    unfold State.pointerAddressWrite
    split <;> exact ⟨rfl, rfl, rfl, rfl, rfl, rfl⟩
  unfold State.pointerWrite
  split
  rotate_left
  · split
    · exact ha
    · exact (State.takeNext_still _).after ha
  unfold State.pointerZeroWrite State.traceAbortRequest
  repeat' split
  all_goals first
    | exact State.Still.refl s
    | exact ⟨rfl, rfl, rfl, rfl, rfl, rfl⟩
    | exact (State.abortTrace_still _ _ _).after ⟨rfl, rfl, rfl, rfl, rfl, rfl⟩

theorem State.registerWrite_still (s : State) (o w : Nat) (v : Word) : s.Still (s.registerWrite o w v) := by
  unfold State.registerWrite
  repeat' split
  all_goals first | exact State.Still.refl s | exact State.pointerWrite_still _ _ _ _ _ | exact ⟨rfl, rfl, rfl, rfl, rfl, rfl⟩

theorem State.beginTrace_fine (s : State) (c : ChannelIx) (b : OrderBlock) (bus : CompletionBus) : s.Fine
    (s.beginTrace c b bus) := by
  unfold State.beginTrace
  split
  · exact s.finish_fine_self _ _ _ _
  · split
    · exact s.finish_fine_self _ _ _ _
    · exact ((State.abortIfMarked_still _ c bus).after
        (⟨rfl, rfl, rfl, rfl, rfl, rfl⟩ : s.Still (s.armTrace c b))).fine

theorem State.deviceReset_fine (s : State) : s.Fine s.deviceReset := by
  have hlane : ∀ x, Port.reset.lane x = Lane.reset := by
    intro x; unfold Port.lane Port.reset; simp
  have hlo : Lane.reset.ListOk := Lane.ListOk.nil rfl
  have hP : ∀ W p q, Port.Good W p q Port.reset := by
    intro W p q
    refine ⟨⟨fun _ =>
        ⟨by decide, rfl⟩, fun _ => ⟨rfl, by intro x hx; cases hx⟩, fun _ => ⟨fun x => by rw [hlane]; exact hlo, fun _ x => by rw [hlane]; rfl⟩, fun _ _ x => ?_⟩, fun _ => rfl, fun _ => Port.drained_state (by simp [Port.reset])⟩
    rw [hlane]
    exact ⟨(rfl : EffEntry.closed = { EffEntry.closed with pinInactive := false }), ⟨by decide, by decide, fun _ => rfl⟩, hlo⟩
  have key : ∀ u : State, u.ports = State.reset.ports → u.banks = State.reset.banks → u.pins = State.reset.pins → u.executor = .free → s.Fine u := by
    intro u h1 h2 h3 h4
    refine ⟨fun _ _ => ⟨⟨fun k p src => ?_, by rw [h4]; intro j hj; cases hj⟩, fun i x hx => ?_⟩, fun p => ?_⟩
    · unfold State.bankPort; rw [h2]
      simp only [State.reset, Fin.getElem_fin, Vector.getElem_replicate]
      exact closedEntry_ok
    · rw [h3] at hx
      simp only [State.reset, Fin.getElem_fin, Vector.getElem_replicate] at hx
      cases hx
    · have : u.port p = Port.reset := by
        unfold State.port; rw [h1]
        simp only [State.reset, Fin.getElem_fin, Vector.getElem_replicate]
      rw [this]; exact hP _ _ _
  unfold State.deviceReset State.assertLine
  dsimp only
  split
  · split <;> exact key _ rfl rfl rfl rfl
  · exact key _ rfl rfl rfl rfl

theorem State.execOf {s t : State} (h : s.ExecSame t) : t.executor.load? = s.executor.load? ∨ t.executor.load? = none :=
  .inl (by rw [h.executor])

theorem State.roundExpiry_fine (s : State) (p : PortIx) : s.Fine (s.roundExpiry p) :=
  (s.roundExpiry_good p).fine (State.execOf (s.portSide_roundExpiry p).exec)

theorem receiveBytes_fine (bs : List Byte) (later : Bool) (s : State) : s.Fine (receiveBytes bs later s) :=
  (receiveBytes_good bs later s).fine (State.execOf (receiveBytes_execSame bs later s))

theorem State.idle_fine (s : State) : s.Fine s.idle := s.idle_good.fine (State.execOf s.portSide_idle.exec)

theorem State.beginSurvey_fine (s : State) (c : ChannelIx) (b : OrderBlock) (bus : CompletionBus) :
    s.Fine (s.beginSurvey c b bus) := by
  unfold State.beginSurvey
  split
  · exact s.finish_fine_self _ _ _ _
  · exact s.sampleSurvey_fine _ _ _

end Sys2Proof.Machine
end

