-- ==== Sys2Proof/Laws/Bookings.lean ====
section
/-! SUPPORT. The overbook law and the selection under an invalid clock: what each operation keeps of them. -/

namespace Sys2Proof.Machine

/-! ## Selection -/

structure State.SelSame (s t : State) : Prop where
  clock : t.clockValid = s.clockValid
  selected : ∀ p, (t.port p).selected = (s.port p).selected

theorem State.SelSame.refl (s : State) : s.SelSame s := ⟨rfl, fun _ => rfl⟩
theorem State.SelSame.after {s t u : State} (k : t.SelSame u) (h : s.SelSame t) : s.SelSame u :=
  ⟨k.clock.trans h.clock, fun p => (k.selected p).trans (h.selected p)⟩
theorem State.SelSame.ok {s t : State} (h : s.SelSame t) (k : s.SelectionOk) : t.SelectionOk := by
  intro x p; rw [h.selected]; exact k (h.clock.symm.trans x) p
theorem State.SelSame.of {s t : State} (hc : t.clockValid = s.clockValid) (hp : t.ports = s.ports) : s.SelSame t :=
  ⟨hc, fun p => by unfold State.port; rw [hp]⟩
theorem State.Still.sel {s t : State} (h : s.Still t) : s.SelSame t := State.SelSame.of h.clock h.ports

theorem State.updPort_sel (s : State) (p : PortIx) (f : Port → Port) (h : ∀ q, (f q).selected = q.selected) : s.SelSame
    (s.updPort p f) := by
  refine ⟨rfl, fun p' => ?_⟩
  unfold State.updPort; rw [State.setPort_port]
  split
  · rename_i e; subst e; exact h _
  · rfl
theorem State.offer_sel (s : State) (os : List Offer) : s.SelSame (s.offer os) := State.SelSame.of rfl rfl
theorem State.latchIf_sel (s : State) (c : Bool) (i : Nat) : s.SelSame (s.latchIf c i) := by
  unfold State.latchIf; split <;> exact State.SelSame.of rfl rfl
theorem State.latch_sel (s : State) (i : Nat) : s.SelSame (s.latch i) := State.SelSame.of rfl rfl
theorem State.setFree_sel (s : State) (n : Nat) : s.SelSame (s.setFree n) := State.SelSame.of rfl rfl
theorem State.handOver_sel (s : State) (ms : List Message) : s.SelSame (s.handOver ms) := State.SelSame.of (by simp) (by simp)
theorem State.updPortTally_sel (s : State) (p : PortIx) (f : PortTally → PortTally) : s.SelSame (s.updPortTally p f) :=
    s.updPort_sel p _ fun _ => rfl

theorem State.purge_sel (s : State) (p : PortIx) (sel : SourceIx → Bool) (tell : Bool) : s.SelSame (s.purge p sel tell) := by
  unfold State.purge
  dsimp only
  refine (State.offer_sel _ _).after ((State.setFree_sel _ _).after (State.SelSame.after (State.updPort_sel _ p _ ?_) ?_))
  · intro q; simp
  · split
    · exact s.handOver_sel _
    · exact State.SelSame.refl s

theorem State.releaseOnce_sel {s t : State} {p : PortIx} (h : s.releaseOnce p = some t) : s.SelSame t := by
  unfold State.releaseOnce at h
  dsimp only at h
  split at h
  · split at h
    · cases h
    · rename_i src kind q' hd
      split at h
      · cases h
      · cases h
        unfold State.carryOutRelease
        refine (State.offer_sel _ _).after ((State.handOver_sel _ _).after ((State.setFree_sel _ _).after ⟨rfl, fun p' => ?_⟩))
        rw [State.setPort_port]
        split
        · rename_i e; subst e
          rw [Port.release_eq]
          rcases Port.decision_cases hd with ⟨_, _, rfl⟩ | ⟨_, _, t, _, rfl⟩
          · rfl
          · cases t <;> rfl
        · rfl
  · cases h

theorem State.endEvent_sel (s : State) (p : PortIx) (later : Bool) : s.SelSame (s.endEvent p later) :=
  s.endEvent_induct p later State.SelSame State.SelSame.refl (fun _ _ _ h k => k.after h)
    (fun _ _ => State.releaseOnce_sel) (fun _ _ => State.SelSame.of rfl rfl)
    (fun s => s.updPort_sel p Port.drainRule fun q => by unfold Port.drainRule; split <;> rfl)

theorem State.testAndDrain_sel (s : State) (p : PortIx) : s.SelSame (s.testAndDrain p) := s.endEvent_sel p false

theorem State.idle_sel (s : State) : s.SelSame s.idle := by
  unfold State.idle
  split
  · exact State.SelSame.refl s
  · exact (State.testAndDrain_sel _ _).after (State.SelSame.of rfl rfl)

theorem State.refreshIf_sel (s : State) (p : PortIx) : s.SelSame (s.refreshIf p) := by
  unfold State.refreshIf
  split
  · refine ⟨by rw [State.refresh_frame], fun p' => ?_⟩
    rw [State.refresh_port]
    split
    · rename_i e; subst e; simp
    · rfl
  · exact State.SelSame.refl s

theorem State.expireOlder_sel (s : State) (p : PortIx) (sl : Slot) : s.SelSame (s.expireOlder p sl) := by
  unfold State.expireOlder
  exact (State.offer_sel _ _).after ((State.updPortTally_sel _ p _).after (State.updPort_sel _ p Port.freeOlder fun _ => rfl))

theorem State.expireYoungerIf_sel (s : State) (p : PortIx) : s.SelSame (s.expireYoungerIf p) := by
  unfold State.expireYoungerIf
  split
  · exact State.SelSame.refl s
  · split
    · unfold State.expireYounger
      exact (State.offer_sel _ _).after ((State.updPortTally_sel _ p _).after (State.updPort_sel _ p _ (by intro _; rfl)))
    · exact State.SelSame.refl s

theorem State.expireSlots_sel (s : State) (p : PortIx) : s.SelSame (s.expireSlots p) := by
  unfold State.expireSlots
  split
  · exact s.expireYoungerIf_sel p
  · rename_i sl _
    split
    · refine State.SelSame.after ?_ (s.expireOlder_sel p sl)
      unfold State.expireOlderIf
      split
      · exact State.SelSame.refl _
      · split
        · exact State.expireOlder_sel _ p _
        · exact State.SelSame.refl _
    · exact s.expireYoungerIf_sel p

theorem State.holdWork_sel (s : State) (p : PortIx) : s.SelSame (s.holdWork p) := by
  unfold State.holdWork
  dsimp only
  have h : s.SelSame (s.updPort p Port.ageHold) := s.updPort_sel p _ fun _ => rfl
  split
  · split
    · unfold State.stallPort
      refine State.SelSame.after ?_ h
      exact (State.offer_sel _ _).after ((State.latch_sel _ attnPortWatch).after (State.updPort_sel _ p _ (by intro _; rfl)))
    · exact h
  · exact State.SelSame.refl s

theorem State.roundExpiry_sel (s : State) (p : PortIx) : s.SelSame (s.roundExpiry p) := by
  unfold State.roundExpiry State.expiryCredit
  split
  · exact State.SelSame.refl s
  · exact (State.testAndDrain_sel _ p).after ((State.updPort_sel _ p Port.startTimer fun _ => rfl).after
        ((State.holdWork_sel _ p).after
      ((State.expireSlots_sel _ p).after ((State.updPort_sel _ p Port.ageSlots fun _ => rfl).after
        ((State.updPort_sel _ p Port.creditWork fun q => by rw [Port.creditWork_eq]).after (s.refreshIf_sel p))))))

theorem State.takeDone_sel (s : State) (p : PortIx) (tag : Byte) (later : Bool) : s.SelSame (s.takeDone p tag later) := by
  unfold State.takeDone
  dsimp only
  split
  · exact (State.endEvent_sel _ p later).after (State.updPort_sel _ p Port.freeOlder fun _ => rfl)
  · split
    · exact (State.endEvent_sel _ p later).after ((State.updPortTally_sel _ p _).after
          (State.updPort_sel _ p Port.freeBoth fun _ => rfl))
    · exact s.updPortTally_sel p _

theorem State.takeHold_sel (s : State) (p : PortIx) : s.SelSame (s.takeHold p) := by
  unfold State.takeHold
  dsimp only
  refine (State.latchIf_sel _ _ _).after ((State.updPort_sel _ p _ (by intro _; rfl)).after ?_)
  split
  · exact (State.offer_sel _ _).after (State.updPort_sel _ p _ (by intro _; rfl))
  · exact State.SelSame.refl s

theorem State.takeResume_sel (s : State) (p : PortIx) (later : Bool) : s.SelSame (s.takeResume p later) := by
  unfold State.takeResume
  dsimp only
  have h : s.SelSame ((s.updPort p fun q => { q with watchLatch := { q.watchLatch with resume := true } }).latchIf
      (watchesResume
          (s.port p).watchMode) attnPortWatch) := (State.latchIf_sel _ _ _).after (State.updPort_sel _ p _ (by intro _; rfl))
  split
  · exact h
  · exact (State.endEvent_sel _ p later).after ((State.offer_sel _ _).after
        ((State.updPort_sel _ p Port.resumeFlow fun q => by rw [Port.resumeFlow_eq]).after h))

theorem State.updLane_sel (s : State) (p : PortIx) (src : SourceIx) (f : Lane → Lane) : s.SelSame (s.updLane p src f) := by
  unfold State.updLane
  exact s.updPort_sel p _ fun q => by simp

theorem State.takeArrival_sel (s : State) (p : PortIx) (src : SourceIx) (len : BitVec 14) (h : BitVec 16)
    (later : Bool) : s.SelSame (s.takeArrival p src len h later) := by
  unfold State.takeArrival
  split
  · unfold State.refuse
    exact (State.offer_sel _ _).after ((State.updLane_sel _ p src _).after (s.handOver_sel _))
  · have ha : s.SelSame (s.accept p src len h) := by
      unfold State.accept
      exact (State.latchIf_sel _ _ _).after ((State.setFree_sel _ _).after
          ((State.handOver_sel _ _).after (s.updLane_sel p src _)))
    split
    · exact (State.endEvent_sel _ p later).after ha
    · exact ha

theorem State.selectFor_invalid {s : State} (h : s.clockValid = false) (p : PortIx) : s.selectFor p = 0 := by
  unfold State.selectFor; rw [h]; rfl

theorem State.recomputeSelection_ok (s : State) : s.recomputeSelection.SelectionOk := by
  intro x p
  have hc : s.recomputeSelection.clockValid = s.clockValid := by unfold State.recomputeSelection; simp
  rw [State.recomputeSelection_port]
  exact State.selectFor_invalid (hc.symm.trans x) p

theorem State.deliver_sel (s : State) (m : Inbound) (k : s.SelectionOk) : (s.deliver m).SelectionOk := by
  cases m with
  | arrival p src len h later => exact (s.takeArrival_sel p src len h later).ok k
  | done p tag later => exact (s.takeDone_sel p tag later).ok k
  | hold p => exact (s.takeHold_sel p).ok k
  | resume p later => exact (s.takeResume_sel p later).ok k
  | clock m =>
    show (s.takeClock m).SelectionOk
    unfold State.takeClock
    split
    · dsimp only
      split
      · exact k
      · exact State.recomputeSelection_ok _
    · exact k
  | bad => exact (State.SelSame.of (t := s.takeBad) rfl rfl).ok k

theorem takeWaiting_sel (ms : List Inbound) (s : State) (k : s.SelectionOk) : (takeWaiting ms s).SelectionOk := by
  induction ms generalizing s with
  | nil => exact k
  | cons m rest ih =>
    unfold takeWaiting
    split
    · exact ih _ (s.deliver_sel m k)
    · exact k

theorem State.withdrawLine_sel (s : State) (o : List PortIx) : s.SelSame (s.withdrawLine o) := by
  unfold State.withdrawLine
  split
  · refine State.SelSame.after (t := s.linkLoss o) (State.SelSame.of rfl rfl) ⟨by rw [State.linkLoss_frame], fun p => ?_⟩
    rw [State.linkLoss_port, Port.linkLoss_eq]
    unfold Port.emptied; simp
  · exact State.SelSame.of rfl rfl

/-! ## Bookings -/

theorem State.SharesSame.bookings {s t : State} (h : s.SharesSame t) (k : s.BookingsLegal) : t.BookingsLegal := by
  intro a p hg
  have hw : t.window? a = s.window? a := by unfold State.window?; rw [h.windows]
  have hb : t.bankPort a p = s.bankPort a p := by unfold State.bankPort; rw [h.banks]
  have hf : t.figure p = s.figure p := by unfold State.figure; rw [h.kc, h.kf]
  unfold State.governs at hg
  rw [hw] at hg
  rw [hb, hf, h.pins]
  exact k a p hg

/-- What a step keeps: bookings and selection. -/
structure State.Law (s t : State) : Prop where
  bookings : s.BookingsLegal → t.BookingsLegal
  selection : s.SelectionOk → t.SelectionOk

theorem State.Law.refl (s : State) : s.Law s := ⟨id, id⟩
theorem State.Law.trans {s t u : State} (h : s.Law t) (k : t.Law u) : s.Law u :=
    ⟨fun x => k.bookings (h.bookings x), fun x => k.selection (h.selection x)⟩
theorem State.Law.of {s t : State} (h : s.SharesSame t) (k : s.SelSame t) : s.Law t := ⟨h.bookings, k.ok⟩
theorem State.Still.law {s t : State} (h : s.Still t) : s.Law t :=
  State.Law.of ⟨h.banks, h.windows, h.pins, fun p =>
      by unfold State.port; rw [h.ports], fun p => by unfold State.port; rw [h.ports]⟩ h.sel

/-- As `Still` but for the executor. -/
theorem State.Law.of_eq {s t : State} (h1 : t.ports = s.ports) (h2 : t.banks = s.banks) (h3 : t.pins = s.pins)
    (h4 : t.windows = s.windows) (h5 : t.clockValid = s.clockValid) : s.Law t :=
  State.Law.of ⟨h2, h4, h3, fun p =>
      by unfold State.port; rw [h1], fun p => by unfold State.port; rw [h1]⟩ (State.SelSame.of h5 h1)

theorem State.finish_law (s : State) (c : ChannelIx) (r : OrderResult) (w1 : Word) (bus : CompletionBus) : s.Law
    (s.finish c r w1 bus) :=
  State.Law.of_eq (by simp) (by simp) (by simp) (by simp) (by simp)

theorem State.takeOrder_law (s : State) (block : Option OrderBlock) (bus : CompletionBus)
    (run : ChannelIx → OrderBlock → State → State)
    (h : ∀ c b (t : State), t.Law (run c b t)) : s.Law (s.takeOrder block bus run) := by
  unfold State.takeOrder
  split
  · exact State.Law.refl s
  · rename_i c _ _
    have h0 : s.Law (s.beginExecuting c) := State.Law.of_eq rfl rfl rfl rfl rfl
    dsimp only
    split
    · exact h0.trans (State.finish_law _ _ _ _ _)
    · split
      · exact h0.trans (State.Law.of_eq rfl rfl rfl rfl rfl :
          (s.beginExecuting c).Law ((s.beginExecuting c).markDone c true))
      · exact h0.trans (h _ _ _)

theorem State.simpleOrder_law (s : State) (block : Option OrderBlock) (bus : CompletionBus)
    (act : OrderBlock → State → State × OrderResult) (h : ∀ b (t : State), t.Law (act b t).1) :
    s.Law (s.simpleOrder block bus act) :=
  s.takeOrder_law block bus _ fun _ b t => (h b t).trans (State.finish_law _ _ _ _ _)

theorem State.portOrder_law (s : State) (block : Option OrderBlock) (bus : CompletionBus)
    (act : PortIx → OrderBlock → State → State × OrderResult) (h : ∀ p b (t : State), t.Law (act p b t).1) :
    s.Law (s.portOrder block bus act) := by
  unfold State.portOrder
  refine s.takeOrder_law block bus _ fun c b t => ?_
  dsimp only
  have h0 : t.Law { t with freeCtr := t.freeCtr + 1 } := State.Law.of_eq rfl rfl rfl rfl rfl
  split
  · exact h0.trans (State.finish_law _ _ _ _ _)
  · exact h0.trans ((h _ _ _).trans (State.finish_law _ _ _ _ _))

theorem firstOverbook_none {cs : List (ProfileIx × PortIx)} {l : ProfileIx → PortIx → Bool} (h : firstOverbook cs l = none)
    {k : ProfileIx} {p : PortIx}
    (hm : (k, p) ∈ cs) : l k p = true := by
  unfold firstOverbook at h
  rw [List.find?_eq_none] at h
  simpa using h _ hm

theorem State.window_law {s : State} {k : ProfileIx} {w w' : Window} (hw : s.window? k = some w)
    (h : ∀ p, w'.mask.getLsbD p.val = true → w.mask.getLsbD p.val = false → bookedSum (s.bankPort k p) s.pins p ≤ s.figure
        p) (hs : s.BookingsLegal) :
    (s.setWindow k w').BookingsLegal := by
  have hbank : ∀ a p, (s.setWindow k w').bankPort a p = s.bankPort a p := by
    intro a p; unfold State.setWindow; split <;> rfl
  have hpins : (s.setWindow k w').pins = s.pins := by unfold State.setWindow; split <;> rfl
  have hfig : ∀ p, (s.setWindow k w').figure p = s.figure p := by
    intro p; unfold State.setWindow; split <;> rfl
  have hwin : ∀ a, (s.setWindow k w').window? a = if a = k then some w' else s.window? a := by
    intro a
    have hk : k ≠ 0 := by rintro rfl; cases hw
    unfold State.setWindow State.window?
    fin_cases k <;> fin_cases a <;> first | exact absurd rfl hk | simp
  intro a p hg
  rw [hbank, hpins, hfig]
  unfold State.governs at hg
  rw [hwin] at hg
  split at hg
  · rename_i z
    by_cases e : a = k
    · rw [if_pos e] at z; cases z
    · rw [if_neg e] at z
      exact hs a p (by unfold State.governs; rw [z])
  · rename_i w2 z
    by_cases e : a = k
    · rw [if_pos e] at z; cases z
      subst e
      by_cases hin : w.mask.getLsbD p.val = true
      · exact hs a p (by unfold State.governs; rw [hw]; exact hin)
      · exact h p hg (by simpa using hin)
    · rw [if_neg e] at z
      exact hs a p (by unfold State.governs; rw [z]; exact hg)

theorem State.windowOrder_law (s : State) (b : OrderBlock) : s.Law (s.windowOrder b).1 := by
  unfold State.windowOrder
  split
  · rename_i w start stop hw _ _
    dsimp only
    split
    · exact State.Law.refl s
    · rename_i hn
      refine ⟨fun k => ?_, fun _ => State.recomputeSelection_ok _⟩
      refine (State.portSide_recomputeSelection _).shares.bookings (State.window_law hw (fun p hi ho => ?_) k)
      have hm : (b.profile, p) ∈ (addedPorts w.mask b.windowMask).map fun p => (b.profile, p) := by
        refine List.mem_map.2 ⟨p, ?_, rfl⟩
        unfold addedPorts
        refine List.mem_filter.2 ⟨mem_allPorts p, ?_⟩
        rw [ho]; simpa using hi
      have := firstOverbook_none hn hm
      unfold legalBooking at this
      exact of_decide_eq_true this
  · exact State.Law.refl s

theorem firstPin_set {pins : PinList} {i : Fin 4} {x : Option Pin} {p : PortIx} (src : SourceIx)
    (h1 : namesPort ((pins[i]).map Pin.port) p = false) (h2 : namesPort (x.map Pin.port) p = false) :
    firstPin (pins.set i x) p src = firstPin pins p src := by
  unfold firstPin
  have : ∀ j, pinAt (pins.set i x) p src j = pinAt pins p src j := by
    intro j
    unfold pinAt
    simp only [Fin.getElem_fin]
    rw [Vector.getElem_set]
    by_cases e : i.val = j.val
    · have e' : j = i := Fin.ext e.symm
      subst e'
      rw [if_pos rfl]
      have hno : ∀ o : Option Pin, namesPort (o.map Pin.port) p = false →
          (match o with
            | none => none
            | some y => if y.port = p ∧ y.source = src then some y else none) = none := by
        intro o ho
        cases o with
        | none => rfl
        | some y =>
          dsimp only
          rw [if_neg]
          intro hh
          unfold namesPort at ho
          simp [hh.1] at ho
      exact (hno x h2).trans (hno _ h1).symm
    · rw [if_neg e]
  rw [funext this]

theorem State.changePin_law (s : State) (i : Fin 4) (x : Option Pin) : s.Law (s.changePin i x).1 := by
  unfold State.changePin
  dsimp only
  split
  · exact State.Law.refl s
  · rename_i hn
    dsimp only
    have hmap : ∀ (named : PortIx → Bool) (u : State), u.Law (u.mapPorts fun p q => if named p = true then
        { q with refreshFlag := true } else q) := by
      intro named u
      refine State.Law.of ⟨by simp, by simp, by simp, fun p => ?_, fun p => ?_⟩ ⟨by simp, fun p => ?_⟩
      all_goals
        rw [State.mapPorts_port]; split <;> rfl
    refine State.Law.trans (t := { s with pins := s.pins.set i x }) ⟨fun k => ?_, id⟩ (hmap
        (fun p => namesPort (s.pinPort i) p || namesPort (x.map Pin.port) p) _)
    intro a p hg
    show bookedSum (s.bankPort a p) (s.pins.set i x) p ≤ s.figure p
    by_cases hp : (namesPort (s.pinPort i) p || namesPort (x.map Pin.port) p) = true
    · have hm : (a, p) ∈ s.pinChecks fun p => namesPort (s.pinPort i) p || namesPort (x.map Pin.port) p := by
        unfold State.pinChecks
        refine List.mem_flatMap.2 ⟨a, List.mem_finRange a, List.mem_map.2 ⟨p, List.mem_filter.2 ⟨mem_allPorts p, ?_⟩, rfl⟩⟩
        dsimp only
        have hg' : s.governs a p = true := hg
        rw [hp, hg']; rfl
      have := firstOverbook_none hn hm
      unfold legalBooking at this
      exact of_decide_eq_true this
    · have hp' : (namesPort (s.pinPort i) p || namesPort (x.map Pin.port) p) = false := by simpa using hp
      rw [Bool.or_eq_false_iff] at hp'
      have : bookedSum (s.bankPort a p) (s.pins.set i x) p = bookedSum (s.bankPort a p) s.pins p := by
        unfold bookedSum
        refine congrArg List.sum (List.map_congr_left fun src _ => ?_)
        rw [firstPin_set src hp'.1 hp'.2]
      rw [this]; exact k a p hg

theorem State.pinOrder_law (s : State) (b : OrderBlock) : s.Law (s.pinOrder b).1 := by
  unfold State.pinOrder State.pinSet State.pinClear
  dsimp only
  repeat' split
  all_goals first | exact State.Law.refl s | exact s.changePin_law _ _

theorem State.portSetAction_law (s : State) (p : PortIx) (b : OrderBlock) : s.Law (s.portSetAction p b).1 := by
  unfold State.portSetAction
  dsimp only
  split
  · exact State.Law.refl s
  · split
    · exact State.Law.refl s
    · rename_i hn
      dsimp only
      refine ⟨fun k a p' hg => ?_, (s.updPort_sel p _ (by intro _; rfl)).ok⟩
      show bookedSum (s.bankPort a p') s.pins p' ≤ _
      have hg' : s.governs a p' = true := hg
      unfold State.figure State.updPort
      rw [State.setPort_port]
      split
      · rename_i e; subst e
        have hm : (a, p') ∈ (allProfiles.filter fun k => s.governs k p').map fun k => (k, p') :=
          List.mem_map.2 ⟨a, List.mem_filter.2 ⟨List.mem_finRange a, hg'⟩, rfl⟩
        have := firstOverbook_none hn hm
        unfold legalBooking at this
        exact of_decide_eq_true this
      · exact k a p' hg'

theorem State.installPoint_law (s : State) (k : ProfileIx) (p : PortIx) (es : Vector BankEntry 64) (w : Word) : s.Law
    (s.installPoint k p es w).1 := by
  unfold State.installPoint
  split
  · rename_i hl
    unfold legalBooking at hl
    rw [decide_eq_true_eq] at hl
    dsimp only
    refine State.Law.trans (t := s.installBank k p es) ⟨fun h a p' hg => ?_, id⟩ (State.Law.of
        (State.portSide_updPort _ p _ ?_ ?_).shares (State.updPort_sel _ p _ ?_))
    · rw [State.installBank_bankPort]
      show _ ≤ s.figure p'
      split
      · rename_i e; rw [e.2]; exact hl
      · exact h a p' hg
    all_goals
      intro q; split <;> rfl
  · exact State.Law.refl s

theorem State.finishInstall_law (s : State) (c : ChannelIx) (k : ProfileIx) (p : PortIx) (es : Vector BankEntry 64)
    (n : Nat) (bus : CompletionBus) : s.Law (s.finishInstall c k p es n bus) := by
  unfold State.finishInstall
  exact (s.installPoint_law _ _ _ _).trans (State.finish_law _ _ _ _ _)

theorem State.setExecutor_law (s : State) (x : Executor) : s.Law (s.setExecutor x) := State.Law.of_eq rfl rfl rfl rfl rfl

theorem State.beginLoad_law (s : State) (c : ChannelIx) (b : OrderBlock) (af : Bool) (bus : CompletionBus) :
    s.Law (s.beginLoad c b af bus) := by
  unfold State.beginLoad
  split
  · exact s.finish_law _ _ _ _
  · split
    · exact s.finish_law _ _ _ _
    · split
      · exact s.finish_law _ _ _ _
      · split
        · exact s.finish_law _ _ _ _
        · split
          · exact s.finishInstall_law _ _ _ _ _ _
          · exact s.setExecutor_law _

theorem State.loadEntry_law (s : State) (j : LoadJob) (e : Option TableEntry) (f : Bool) (bus : CompletionBus) : s.Law
    (s.loadEntry j e f bus) := by
  unfold State.loadEntry
  dsimp only
  split
  · split <;> exact s.finish_law _ _ _ _
  · split
    · split <;> exact s.finish_law _ _ _ _
    · unfold State.loadStaged
      split
      · split
        · exact s.finish_law _ _ _ _
        · exact s.finishInstall_law _ _ _ _ _ _
      · split
        · exact s.finish_law _ _ _ _
        · exact s.setExecutor_law _

theorem State.updLane_law (s : State) (p : PortIx) (src : SourceIx) (f : Lane → Lane) : s.Law (s.updLane p src f) :=
  State.Law.of (s.portSide_updLane p src f).shares (s.updLane_sel p src f)
theorem State.updPortTally_law (s : State) (p : PortIx) (f : PortTally → PortTally) : s.Law (s.updPortTally p f) :=
  State.Law.of (s.portSide_updPortTally p f).shares (s.updPortTally_sel p f)

theorem State.sampleCollect_law (s : State) (c : ChannelIx) (p : PortIx) (a : Nat) (cl : Bool) (i : Nat) : s.Law
    (s.sampleCollect c p a cl i) := by
  unfold State.sampleCollect
  split
  · refine State.Law.trans ?_ (State.setExecutor_law _ _)
    split
    · exact s.updLane_law _ _ _
    · exact State.Law.refl s
  · refine State.Law.trans ?_ (State.setExecutor_law _ _)
    split
    · exact s.updPortTally_law _ _
    · exact State.Law.refl s

theorem State.busWrite_law (s : State) (a : Nat) (bs : List Byte) : s.Law (s.busWrite a bs) := State.Law.of_eq rfl rfl rfl
    rfl rfl

theorem State.collectWritten_law (s : State) (j : CollectJob) (w : Bool) (bus : CompletionBus) : s.Law
    (s.collectWritten j w bus) := by
  unfold State.collectWritten
  dsimp only
  split
  · refine (s.busWrite_law (j.area + 32 * j.index) j.record).trans ?_
    split
    · exact State.finish_law _ _ _ _ _
    · split
      · exact State.finish_law _ _ _ _ _
      · exact State.sampleCollect_law _ _ _ _ _ _
  · refine State.Law.trans ?_ (State.finish_law _ _ _ _ _)
    unfold State.returnSample
    split
    · split
      · exact s.updLane_law _ _ _
      · exact s.updPortTally_law _ _
    · exact State.Law.refl s

theorem State.sampleSurvey_law (s : State) (c : ChannelIx) (a i : Nat) : s.Law (s.sampleSurvey c a i) := by
  unfold State.sampleSurvey
  split
  · rename_i hi
    refine State.Law.trans ?_ (State.setExecutor_law _ _)
    refine State.Law.trans (t := { s with freeCtr := s.freeCtr + 2 }) (State.Law.of_eq rfl rfl rfl rfl rfl) (State.Law.of
        (State.portSide_updPort _ _ _ (by intro _; rfl) (by intro _; rfl)).shares (State.updPort_sel _ _ _ (by intro _; rfl)))
  · exact State.setExecutor_law _ _

theorem State.surveyWritten_law (s : State) (j : SurveyJob) (w : Bool) (bus : CompletionBus) : s.Law
    (s.surveyWritten j w bus) := by
  unfold State.surveyWritten
  dsimp only
  split
  · refine (s.busWrite_law (j.area + 16 * j.index) j.record).trans ?_
    split
    · exact State.finish_law _ _ _ _ _
    · split
      · exact State.finish_law _ _ _ _ _
      · exact State.sampleSurvey_law _ _ _ _
  · refine State.Law.trans ?_ (State.finish_law _ _ _ _ _)
    unfold State.returnLatch
    split
    · exact State.Law.of (State.portSide_updPort _ _ _
          (by intro _; rfl) (by intro _; rfl)).shares (State.updPort_sel _ _ _ (by intro _; rfl))
    · exact State.Law.refl s

theorem State.beginTrace_law (s : State) (c : ChannelIx) (b : OrderBlock) (bus : CompletionBus) : s.Law
    (s.beginTrace c b bus) := by
  unfold State.beginTrace
  split
  · exact s.finish_law _ _ _ _
  · split
    · exact s.finish_law _ _ _ _
    · exact ((State.abortIfMarked_still _ c bus).after
        (⟨rfl, rfl, rfl, rfl, rfl, rfl⟩ : s.Still (s.armTrace c b))).law

theorem State.receive_law (s : State) (m : Inbound) : s.Law (s.receive m) := by
  unfold State.receive
  split
  · exact ⟨(s.portSide_deliver m).shares.bookings, s.deliver_sel m⟩
  · exact State.Law.of_eq rfl rfl rfl rfl rfl

theorem receiveBytes_law (bs : List Byte) (later : Bool) (s : State) : s.Law (receiveBytes bs later s) :=
  receiveBytes_induct bs later State.Law State.Law.refl (fun _ _ _ => State.Law.trans)
    (fun _ _ _ _ => State.Law.of_eq rfl rfl rfl rfl rfl)
    (fun s m _ => (State.Law.of_eq rfl rfl rfl rfl rfl : s.Law (s.setPartial [])).trans (State.receive_law _ m)) s

theorem State.idle_law (s : State) : s.Law s.idle := State.Law.of s.portSide_idle.shares s.idle_sel

theorem State.beginSurvey_law (s : State) (c : ChannelIx) (b : OrderBlock) (bus : CompletionBus) :
    s.Law (s.beginSurvey c b bus) := by
  unfold State.beginSurvey
  split
  · exact s.finish_law _ _ _ _
  · exact s.sampleSurvey_law _ _ _

theorem State.beginCollect_law (s : State) (c : ChannelIx) (b : OrderBlock) (bus : CompletionBus) :
    s.Law (s.beginCollect c b bus) := by
  unfold State.beginCollect
  repeat' split
  all_goals first | exact s.finish_law _ _ _ _ | exact s.sampleCollect_law _ _ _ _ _

theorem takeWaiting_shares (ms : List Inbound) (s : State) : s.SharesSame (takeWaiting ms s) := by
  induction ms generalizing s with
  | nil => exact ⟨rfl, rfl, rfl, fun _ => rfl, fun _ => rfl⟩
  | cons m rest ih =>
    unfold takeWaiting
    split
    · exact (s.portSide_deliver m).shares.trans (ih _)
    · exact ⟨rfl, rfl, rfl, fun _ => rfl, fun _ => rfl⟩

theorem State.sendHead_law (s : State) : s.Law s.sendHead := by
  unfold State.sendHead
  split
  · split
    · exact State.Law.refl s
    · rename_i m rest _
      exact ⟨fun k => (takeWaiting_shares s.inWaiting { s with outQueue := rest }).bookings k, fun k => takeWaiting_sel
          s.inWaiting { s with outQueue := rest } k⟩
  · exact State.Law.refl s

theorem State.withdrawLine_law (s : State) (o : List PortIx) : s.Law (s.withdrawLine o) := by
  refine State.Law.of ?_ (s.withdrawLine_sel o)
  unfold State.withdrawLine
  split
  · refine State.SharesSame.trans (t := s.linkLoss
        o) ⟨by rw [State.linkLoss_frame], by rw [State.linkLoss_frame], by rw [State.linkLoss_frame], fun p => ?_, fun p => ?_⟩ ⟨rfl, rfl, rfl, fun _ => rfl, fun _ => rfl⟩
    all_goals
      rw [State.linkLoss_port, Port.linkLoss_eq]
      unfold Port.emptied; simp
  · exact ⟨rfl, rfl, rfl, fun _ => rfl, fun _ => rfl⟩

theorem State.roundExpiry_law (s : State) (p : PortIx) : s.Law (s.roundExpiry p) := State.Law.of
    (s.portSide_roundExpiry p).shares (s.roundExpiry_sel p)

theorem State.openPort_sel (s : State) (p : PortIx) : s.SelSame (s.openPort p) := by
  unfold State.openPort
  exact (State.testAndDrain_sel _ p).after ((State.updPort_sel _ p Port.startTimer fun _ => rfl).after
      ((State.refreshIf_sel _ p).after (State.updPort_sel _ p _ (by intro _; rfl))))

theorem State.portOpenAction_sel (s : State) (p : PortIx) : s.SelSame (s.portOpenAction p).1 := by
  unfold State.portOpenAction
  split
  · exact s.openPort_sel p
  · dsimp only; exact s.updPort_sel p _ (by intro _; rfl)
  · exact State.SelSame.refl s
  · exact s.openPort_sel p

theorem State.portCloseAction_sel (s : State) (p : PortIx) : s.SelSame (s.portCloseAction p).1 := by
  unfold State.portCloseAction State.drain
  split
  · exact State.SelSame.refl s
  · exact State.SelSame.refl s
  · dsimp only
    refine (State.updPort_sel _ p Port.drainRule ?_).after (s.updPort_sel p _ (by intro _; rfl))
    intro q; unfold Port.drainRule; split <;> rfl
  · exact State.SelSame.refl s

theorem State.portClearAction_sel (s : State) (p : PortIx) : s.SelSame (s.portClearAction p).1 := by
  have h : s.SelSame (s.clearPort p) := by
    unfold State.clearPort
    exact (State.updPort_sel _ p Port.clear fun q => by simp [Port.clear]).after (s.purge_sel p _ true)
  unfold State.portClearAction
  split
  · exact h
  · exact h
  · exact State.SelSame.refl s
  · exact State.SelSame.refl s

theorem State.portRetireAction_sel (s : State) (p : PortIx) (x : Option PortIx) : s.SelSame (s.portRetireAction p x).1 := by
  unfold State.portRetireAction
  repeat' split
  all_goals first | exact State.SelSame.refl s | dsimp only; exact s.updPort_sel p _ (by intro _; rfl)

theorem State.deviceReset_law (s : State) : s.Law s.deviceReset := by
  have key : ∀ u : State, u.ports = State.reset.ports → u.banks = State.reset.banks → u.pins = State.reset.pins → u.windows = State.reset.windows → s.Law u := by
    intro u h1 h2 h3 h4
    have hport : ∀ p, u.port p = Port.reset := by
      intro p
      unfold State.port; rw [h1]
      simp only [State.reset, Fin.getElem_fin, Vector.getElem_replicate]
    refine ⟨fun _ k p hg => ?_, fun _ _ p => by rw [hport]; rfl⟩
    have : bookedSum (u.bankPort k p) u.pins p = 0 := by
      unfold bookedSum
      have e : (allSources.map fun src => laneBooking (u.bankPort k p)[src]
          (firstPin u.pins p src)) = allSources.map fun _ => 0 := by
        refine List.map_congr_left fun src _ => ?_
        have : (u.bankPort k p)[src] = BankEntry.closed := by
          unfold State.bankPort; rw [h2]
          simp only [State.reset, Fin.getElem_fin, Vector.getElem_replicate]
        rw [this]; rfl
      rw [e]; decide
    rw [this]; exact Nat.zero_le _
  unfold State.deviceReset State.assertLine
  dsimp only
  split
  · split <;> exact key _ rfl rfl rfl rfl
  · exact key _ rfl rfl rfl rfl

end Sys2Proof.Machine
end

