-- ==== Sys2Proof/Laws/PerInstr.lean ====
section
/-! SUPPORT. One statement per command about its well-formedness: a well-formed command that carries an order block as read
carries one whose order code is the code of its own row (Table 8-6), whatever the bus answers. -/

namespace Sys2Proof.Laws.WellFormedness

/-- The order codes of the row a command stands on: the code of Table 8-6 for an order, the codes of no order for
UNKNOWN_ORDER_CODE (R152), none for every command that reads no order block. -/
def codeFits (i : Instr) (code : Nat) : Prop :=
  match i with
  | .unknownOrderCode _ _ => code = 0 ∨ 9 ≤ code
  | .load _ _ _ => code = 1
  | .window _ _ => code = 2
  | .pin _ _ => code = 3
  | .levels _ _ => code = 4
  | .portOpen _ _ => code = 5
  | .portClose _ _ => code = 5
  | .portClear _ _ => code = 5
  | .portRetire _ _ => code = 5
  | .portSet _ _ => code = 5
  | .portBadAction _ _ => code = 5
  | .collect _ _ => code = 6
  | .survey _ _ => code = 7
  | .trace _ _ => code = 8
  | _ => False

/-- A well-formed command that carries an order block as read carries one of its own row's code. -/
def Statement (i : Instr) : Prop :=
  ∀ (b : OrderBlock) (bus : CompletionBus), i.order? = some (some b, bus) → i.wellFormed = true → codeFits i b.code.toNat

theorem deviceReset : Statement .deviceReset := by
  intro b bus' h
  cases h

theorem linkUp : Statement .linkUp := by
  intro b bus' h
  cases h

theorem linkLoss (order : List PortIx) : Statement (.linkLoss order) := by
  intro b bus' h
  cases h

theorem arrival (p : PortIx) (src : SourceIx) (len : BitVec 14) (h : BitVec 16) (later : Bool) :
    Statement (.arrival p src len h later) := by
  intro b bus' h
  cases h

theorem done (p : PortIx) (tag : Byte) (later : Bool) : Statement (.done p tag later) := by
  intro b bus' h
  cases h

theorem hold (p : PortIx) : Statement (.hold p) := by
  intro b bus' h
  cases h

theorem resume (p : PortIx) (later : Bool) : Statement (.resume p later) := by
  intro b bus' h
  cases h

theorem clock (minute : BitVec 16) : Statement (.clock minute) := by
  intro b bus' h
  cases h

theorem badMessage (bytes : List Byte) (later : Bool) : Statement (.badMessage bytes later) := by
  intro b bus' h
  cases h

theorem outboundMessageSent : Statement .outboundMessageSent := by
  intro b bus' h
  cases h

theorem roundExpiry (p : PortIx) : Statement (.roundExpiry p) := by
  intro b bus' h
  cases h

theorem expiry (p : PortIx) : Statement (.expiry p) := by
  intro b bus' h
  cases h

theorem stall (p : PortIx) : Statement (.stall p) := by
  intro b bus' h
  cases h

theorem addressWrite (c : ChannelIx) (v : Word) (lag : Bool) : Statement (.addressWrite c v lag) := by
  intro b bus' h
  cases h

theorem zeroWrite (c : ChannelIx) (v : Word) (bus : CompletionBus) : Statement (.zeroWrite c v bus) := by
  intro b bus' h
  cases h

theorem attnWrite (v : Word) : Statement (.attnWrite v) := by
  intro b bus' h
  cases h

theorem attnMaskWrite (v : Word) : Statement (.attnMaskWrite v) := by
  intro b bus' h
  cases h

theorem unmappedRegisterWrite (offset width : Nat) (v : Word) : Statement (.unmappedRegisterWrite offset width v) := by
  intro b bus' h
  cases h

theorem abortedUnread (bus : CompletionBus) : Statement (.abortedUnread bus) := by
  intro b bus' h
  cases h

theorem unknownOrderCode (block : Option OrderBlock) (bus : CompletionBus) : Statement (.unknownOrderCode block bus) := by
  intro b bus' h hw
  obtain ⟨rfl, rfl⟩ := Prod.mk.inj (Option.some.inj h)
  simpa [Instr.wellFormed, blockHasNoOrder, codeFits] using hw

theorem load (block : Option OrderBlock) (bus : CompletionBus) (abortFirst : Bool) :
    Statement (.load block bus abortFirst) := by
  intro b bus' h hw
  obtain ⟨rfl, rfl⟩ := Prod.mk.inj (Option.some.inj h)
  simpa [Instr.wellFormed, blockHasCode, codeFits] using hw

theorem window (block : Option OrderBlock) (bus : CompletionBus) : Statement (.window block bus) := by
  intro b bus' h hw
  obtain ⟨rfl, rfl⟩ := Prod.mk.inj (Option.some.inj h)
  simpa [Instr.wellFormed, blockHasCode, codeFits] using hw

theorem pin (block : Option OrderBlock) (bus : CompletionBus) : Statement (.pin block bus) := by
  intro b bus' h hw
  obtain ⟨rfl, rfl⟩ := Prod.mk.inj (Option.some.inj h)
  simpa [Instr.wellFormed, blockHasCode, codeFits] using hw

theorem levels (block : Option OrderBlock) (bus : CompletionBus) : Statement (.levels block bus) := by
  intro b bus' h hw
  obtain ⟨rfl, rfl⟩ := Prod.mk.inj (Option.some.inj h)
  simpa [Instr.wellFormed, blockHasCode, codeFits] using hw

theorem portOpen (block : Option OrderBlock) (bus : CompletionBus) : Statement (.portOpen block bus) := by
  intro b bus' h hw
  obtain ⟨rfl, rfl⟩ := Prod.mk.inj (Option.some.inj h)
  simp [Instr.wellFormed, blockHasAction] at hw
  exact hw.1

theorem portClose (block : Option OrderBlock) (bus : CompletionBus) : Statement (.portClose block bus) := by
  intro b bus' h hw
  obtain ⟨rfl, rfl⟩ := Prod.mk.inj (Option.some.inj h)
  simp [Instr.wellFormed, blockHasAction] at hw
  exact hw.1

theorem portClear (block : Option OrderBlock) (bus : CompletionBus) : Statement (.portClear block bus) := by
  intro b bus' h hw
  obtain ⟨rfl, rfl⟩ := Prod.mk.inj (Option.some.inj h)
  simp [Instr.wellFormed, blockHasAction] at hw
  exact hw.1

theorem portRetire (block : Option OrderBlock) (bus : CompletionBus) : Statement (.portRetire block bus) := by
  intro b bus' h hw
  obtain ⟨rfl, rfl⟩ := Prod.mk.inj (Option.some.inj h)
  simp [Instr.wellFormed, blockHasAction] at hw
  exact hw.1

theorem portSet (block : Option OrderBlock) (bus : CompletionBus) : Statement (.portSet block bus) := by
  intro b bus' h hw
  obtain ⟨rfl, rfl⟩ := Prod.mk.inj (Option.some.inj h)
  simp [Instr.wellFormed, blockHasAction] at hw
  exact hw.1

theorem portBadAction (block : Option OrderBlock) (bus : CompletionBus) : Statement (.portBadAction block bus) := by
  intro b bus' h hw
  obtain ⟨rfl, rfl⟩ := Prod.mk.inj (Option.some.inj h)
  simp [Instr.wellFormed, blockHasBadAction] at hw
  exact hw.1

theorem collect (block : Option OrderBlock) (bus : CompletionBus) : Statement (.collect block bus) := by
  intro b bus' h hw
  obtain ⟨rfl, rfl⟩ := Prod.mk.inj (Option.some.inj h)
  simpa [Instr.wellFormed, blockHasCode, codeFits] using hw

theorem survey (block : Option OrderBlock) (bus : CompletionBus) : Statement (.survey block bus) := by
  intro b bus' h hw
  obtain ⟨rfl, rfl⟩ := Prod.mk.inj (Option.some.inj h)
  simpa [Instr.wellFormed, blockHasCode, codeFits] using hw

theorem trace (block : Option OrderBlock) (bus : CompletionBus) : Statement (.trace block bus) := by
  intro b bus' h hw
  obtain ⟨rfl, rfl⟩ := Prod.mk.inj (Option.some.inj h)
  simpa [Instr.wellFormed, blockHasCode, codeFits] using hw

theorem loadEntryRead (entry : Option TableEntry) (abortFirst : Bool) (bus : CompletionBus) : Statement (.loadEntryRead entry abortFirst bus) := by
  intro b bus' h
  cases h

theorem collectRecord (written : Bool) (bus : CompletionBus) : Statement (.collectRecord written bus) := by
  intro b bus' h
  cases h

theorem surveyRecord (written : Bool) (bus : CompletionBus) : Statement (.surveyRecord written bus) := by
  intro b bus' h
  cases h

theorem traceOffer : Statement .traceOffer := by
  intro b bus' h
  cases h

theorem traceAreaWrite (written : Bool) (bus : CompletionBus) : Statement (.traceAreaWrite written bus) := by
  intro b bus' h
  cases h

theorem staleTimerExpiry (bus : CompletionBus) : Statement (.staleTimerExpiry bus) := by
  intro b bus' h
  cases h

end Sys2Proof.Laws.WellFormedness
end

