-- ==== Sys2Proof/Laws/RoundExpiry.lean ====
section
/-! SUPPORT. A round expiry as a whole: what its stages leave together, in every state and flow. -/

namespace Sys2Proof.Machine

/-- The slots of a port freed as expired, at a port as set: those that expire go, the older first, and the others stay (R61,
R62). -/
theorem State.expireSlots_set (r : State) (p : PortIx) (A : Port) (h : A.older = none → A.younger = none) :
   (r.setPort p A).expireSlots p = (r.setPort p { A with
      older := ((A.older.toList ++ A.younger.toList).filter fun a => !A.expired a)[0]?
      younger := ((A.older.toList ++ A.younger.toList).filter fun a => !A.expired a)[1]?
      tally := { A.tally with expiries := BitVec.ofNat 16 (min (A.tally.expiries.toNat +
        ((A.older.toList ++ A.younger.toList).filter A.expired).length) 65535) } }).offer
      (((A.older.toList ++ A.younger.toList).filter A.expired).map fun a =>
        ⟨.expiry, p, a.source, a.tag, a.len.setWidth 16, A.roundCount, r.minute⟩) := by
  have hp : (r.setPort p A).port p = A := by rw [State.setPort_port, if_pos rfl]
  have h0 : BitVec.ofNat 16 (min A.tally.expiries.toNat 65535) = A.tally.expiries := by
    apply BitVec.eq_of_toNat_eq; have := A.tally.expiries.isLt; rw [BitVec.toNat_ofNat]; omega
  have h2 : satAdd (satAdd A.tally.expiries 1) 1 = BitVec.ofNat 16 (min (A.tally.expiries.toNat + 2) 65535) := by
    apply BitVec.eq_of_toNat_eq; have := A.tally.expiries.isLt; simp only [satAdd, BitVec.toNat_ofNat]; omega
  have h1 : satAdd A.tally.expiries 1 = BitVec.ofNat 16 (min (A.tally.expiries.toNat + 1) 65535) := rfl
  have hoff : ∀ sl, (r.setPort p A).expireOlder p sl = (r.setPort p { A with
        older := A.younger, younger := none, tally := { A.tally with expiries := satAdd A.tally.expiries 1 } }).offer
      [⟨.expiry, p, sl.source, sl.tag, sl.len.setWidth 16, A.roundCount, r.minute⟩] := fun sl => by
    have := State.expireOlder_set r p A [] sl
    rw [State.offer_nil] at this; exact this
  obtain ⟨lanes, state, flow, ha, timer, rc, rf, sel, app, ac, c1, c2, c3, ol, yo, nt, wm, wl, rl, kc, kf, hl, dl, ta⟩ := A
  dsimp only at *
  cases ol with
  | none =>
    have hy : yo = none := h rfl
    subst hy
    rw [State.expireSlots_none _ (by rw [hp]; simp) (by rw [hp]; simp)]
    simp only [Option.toList_none, List.nil_append, List.filter_nil, List.map_nil, List.length_nil, Nat.add_zero, h0, State.offer_nil]
    rfl
  | some a =>
    cases yo with
    | none =>
      by_cases hx : (Port.expired ⟨lanes, state, flow, ha, timer, rc, rf, sel, app, ac, c1, c2, c3, some a, none, nt, wm, wl, rl, kc, kf, hl, dl, ta⟩ a) = true
      · rw [State.expireSlots_older _ (by rw [hp]) (by rw [hp]; exact hx) (by rw [hp]; simp), hoff]
        simp only [Option.toList_none, Option.toList_some, List.append_nil, hx, List.filter_cons, if_true, List.filter_nil, List.map_cons, List.map_nil, List.length_cons, List.length_nil, Bool.not_true, Bool.false_eq_true, if_false, h1]
        rfl
      · rw [State.expireSlots_none _ (by rw [hp]; simpa using hx) (by rw [hp]; simp)]
        simp only [Option.toList_none, Option.toList_some, List.append_nil, hx, List.filter_cons, if_true, List.filter_nil, List.map_nil, List.length_nil, Nat.add_zero, h0, State.offer_nil, Bool.not_false, Bool.false_eq_true, if_false]
        rfl
    | some b =>
      by_cases hx : (Port.expired ⟨lanes, state, flow, ha, timer, rc, rf, sel, app, ac, c1, c2, c3, some a, some b, nt, wm, wl, rl, kc, kf, hl, dl, ta⟩ a) = true <;>
      by_cases hy : (Port.expired ⟨lanes, state, flow, ha, timer, rc, rf, sel, app, ac, c1, c2, c3, some a, some b, nt, wm, wl, rl, kc, kf, hl, dl, ta⟩ b) = true
      · rw [State.expireSlots_both _ (by rw [hp]) (by rw [hp]; exact hx) (by rw [hp]) (by rw [hp]; exact hy), hoff, State.expireOlder_set]
        simp only [Option.toList_some, List.cons_append, List.nil_append, hx, hy, List.filter_cons, if_true, List.filter_nil, List.map_cons, List.map_nil, List.length_cons, List.length_nil, Bool.not_true, Bool.false_eq_true, if_false, h2]
        rfl
      · rw [State.expireSlots_older _ (by rw [hp]) (by rw [hp]; exact hx) (by rw [hp]; simpa using hy), hoff]
        simp only [Option.toList_some, List.cons_append, List.nil_append, hx, hy, List.filter_cons, if_true, List.filter_nil, List.map_cons, List.map_nil, List.length_cons, List.length_nil, Bool.not_true, Bool.not_false, Bool.false_eq_true, if_false, h1]
        rfl
      · have : (r.setPort p ⟨lanes, state, flow, ha, timer, rc, rf, sel, app, ac, c1, c2, c3, some a, some b, nt, wm, wl, rl, kc, kf, hl, dl, ta⟩).expireSlots p = (r.setPort p ⟨lanes, state, flow, ha, timer, rc, rf, sel, app, ac, c1, c2, c3, some a, some b, nt, wm, wl, rl, kc, kf, hl, dl, ta⟩).expireYounger p b := by
          unfold State.expireSlots
          simp only [hp, hx, Bool.false_eq_true, if_false]
          unfold State.expireYoungerIf
          simp only [hp, hy, if_true]
        rw [this]
        unfold State.expireYounger
        rw [State.updPortTally, State.updPort_updPort, State.updPort, hp, State.setPort_setPort]
        simp only [Option.toList_some, List.cons_append, List.nil_append, hx, hy, List.filter_cons, if_true, List.filter_nil, List.map_cons, List.map_nil, List.length_cons, List.length_nil, Bool.not_true, Bool.not_false, Bool.false_eq_true, if_false, h1]
        simp only [State.stamp, State.setPort_port]
        rfl
      · rw [State.expireSlots_none _ (by rw [hp]; simpa using hx) (by rw [hp]; simpa using hy)]
        simp only [Option.toList_some, List.cons_append, List.nil_append, hx, hy, List.filter_cons, if_true, List.filter_nil, List.map_nil, List.length_nil, Nat.add_zero, h0, State.offer_nil, Bool.not_false, Bool.false_eq_true, if_false]
        rfl

/-- The hold and the next round at a port as set, after records offered (R76 to R78). -/
theorem State.roundEnd_set (r : State) (p : PortIx) (B : Port) (E : List Offer) :
    ((((r.setPort p B).offer E).holdWork p).updPort p Port.startTimer) =
      let q' : Port := { B with
        holdAge := if B.flow = .held then BitVec.ofNat 8 (min (B.holdAge.toNat + 1) 255) else B.holdAge
        flow := if B.holdEnds then .stalled else B.flow
        timer := if (B.state = .opened ∨ B.state = .draining) ∧ B.flow ≠ .stalled ∧ B.holdEnds = false then some B.roundLength else none
        watchLatch := { B.watchLatch with stall := B.watchLatch.stall || B.holdEnds }
        tally := { B.tally with stalls := BitVec.ofNat 16 (min (B.tally.stalls.toNat + if B.holdEnds then 1 else 0) 65535) } }
      { (r.setPort p q') with
        attn := if B.holdEnds then r.attn ||| 0x40#8 else r.attn
        tre := { r.tre with offered := r.tre.offered ++ (E ++ if B.holdEnds then [⟨.stall, p, 0, 0, 0, B.roundCount, r.minute⟩] else []) } } := by
  have hp : ((r.setPort p B).offer E).port p = B := State.setPort_offer_port _ _ _ _
  have h0 : BitVec.ofNat 16 (min B.tally.stalls.toNat 65535) = B.tally.stalls := by
    apply BitVec.eq_of_toNat_eq; have := B.tally.stalls.isLt; rw [BitVec.toNat_ofNat]; omega
  have hd : B.holdEnds = decide (B.flow = .held ∧ B.ageHold.stallDue = true) := by
    have e : (B.ageHold.holdAge).toNat = min (B.holdAge.toNat + 1) 255 := ageUp_toNat _
    have e2 : B.ageHold.holdLimit = B.holdLimit := rfl
    unfold Port.holdEnds
    rw [decide_eq_decide, Port.stallDue_iff, e, e2]
  by_cases hf : B.flow = .held
  · by_cases hs : B.ageHold.stallDue = true
    · have hd' : B.holdEnds = true := by rw [hd]; simp [hf, hs]
      rw [State.holdWork_stalls _ (by rw [hp]; exact hf) (by rw [hp]; exact hs), State.setPort_offer_updPort, hp]
      simp only [hd', if_true, hf, Bool.or_true, Bool.true_eq_false, and_false, if_false]
      show ((((r.setPort p _).offer E).latch attnPortWatch).offer _).updPort p Port.startTimer = _
      have e : ∀ (q : Port) (os : List Offer), ((((r.setPort p q).offer E).latch attnPortWatch).offer os).updPort p Port.startTimer = (((r.setPort p q.startTimer).offer E).latch attnPortWatch).offer os := by
        intro q os
        have := State.setPort_offer_updPort r p q Port.startTimer E
        unfold State.updPort at this ⊢
        have h1 : ((((r.setPort p q).offer E).latch attnPortWatch).offer os).port p = ((r.setPort p q).offer E).port p := rfl
        rw [h1]
        show ((((r.setPort p q).offer E).setPort p _).latch attnPortWatch).offer os = _
        rw [this]
      rw [e]
      simp only [Port.startTimer, Port.timerRuns, bne_self_eq_false, Bool.and_false, Bool.false_eq_true, if_false]
      simp only [State.offer, State.latch, List.append_assoc]
      rfl
    · have hd' : B.holdEnds = false := by rw [hd]; simp [hf, hs]
      rw [State.holdWork_ages _ (by rw [hp]; exact hf) (by rw [hp]; simpa using hs), State.setPort_offer_updPort, State.setPort_offer_updPort]
      simp only [hd', hf, if_true, if_false, Bool.or_false, reduceCtorEq, Bool.false_eq_true, Nat.add_zero, h0, ne_eq, not_false_eq_true, and_true, List.append_nil]
      have : B.ageHold.startTimer = { B with holdAge := BitVec.ofNat 8 (min (B.holdAge.toNat + 1) 255), timer := if B.state = .opened ∨ B.state = .draining then some B.roundLength else none } := by
        obtain ⟨lanes, state, flow, ha, timer, rc, rf, sel, app, ac, c1, c2, c3, ol, yo, nt, wm, wl, rl, kc, kf, hl, dl, ta⟩ := B
        simp only at hf; subst hf
        cases state <;> rfl
      rw [this]
      simp only [hf]
      rfl
  · have hd' : B.holdEnds = false := by rw [hd]; simp [hf]
    rw [State.holdWork_none _ (by rw [hp]; exact hf), State.setPort_offer_updPort]
    simp only [hd', hf, if_false, Bool.or_false, Bool.false_eq_true, Nat.add_zero, h0, List.append_nil, and_true]
    have : B.startTimer = { B with timer := if (B.state = .opened ∨ B.state = .draining) ∧ B.flow ≠ .stalled then some B.roundLength else none } := by
        obtain ⟨lanes, state, flow, ha, timer, rc, rf, sel, app, ac, c1, c2, c3, ol, yo, nt, wm, wl, rl, kc, kf, hl, dl, ta⟩ := B
        cases state <;> cases flow <;> rfl
    rw [this]
    rfl

/-- Everything a round expiry does before the release test, a pending refresh having been applied (R76). -/
theorem State.roundExpired (r : State) (p : PortIx) (h : (r.port p).older = none → (r.port p).younger = none) :
    r.RoundExpired (((((r.updPort p Port.creditWork).updPort p Port.ageSlots).expireSlots p).holdWork p).updPort p Port.startTimer) p := by
  have hl := (r.port p).aged_lane
  have hg := (r.port p).aged_eq
  have hu : (r.updPort p Port.creditWork).updPort p Port.ageSlots = r.setPort p ((r.port p).creditWork.ageSlots) := by
    rw [State.updPort_updPort]; rfl
  have hls : ∀ x, ((r.port p).creditWork.ageSlots).lane x = (r.port p).creditWork.lane x := by
    intro x; rw [hl, Port.creditWork_lane]
  rw [hu, State.expireSlots_set, State.roundEnd_set]
  · generalize hq : r.port p = q at *
    generalize hA : q.creditWork.ageSlots = A at *
    have ho : A.older.toList ++ A.younger.toList = q.agedSlots := by
      rw [hg]; unfold Port.agedSlots
      cases q.older <;> cases q.younger <;> rfl
    have hx : A.expired = q.slotEnds := by
      funext a; rw [Bool.eq_iff_iff, Port.expired_iff]; unfold Port.slotEnds; rw [hg]; simp
    rw [ho, hx]
    have hA2 := hg
    generalize q.creditWork.lanes = ls at hA2
    subst hA2
    dsimp only
    have hend : ∀ (a b : Option Slot) (t : PortTally) , Port.holdEnds { q with lanes := ls, roundCount := q.roundCount + 1, older := a, younger := b, tally := t } = q.holdEnds := by
      intro a b t; rfl
    refine ⟨?_, ?_, ?_, ?_⟩
    · simp only [hend, hq, ]
      rfl
    · intro p' hp'
      show (r.setPort p _).port p' = _
      rw [State.setPort_port, if_neg hp']
    · intro x
      unfold State.lane
      rw [hq]
      rw [← hl x]
      show ((r.setPort p _).port p).lane x = _
      rw [State.setPort_port, if_pos rfl]
      exact Port.lane_congr rfl x
    · have hX : ∀ (X : Port) (b : Byte) (e : TraceEngine), ({ r.setPort p X with attn := b, tre := e } : State).port p = X := by
        intro X b e
        show (r.setPort p X).port p = X
        rw [State.setPort_port, if_pos rfl]
      rw [hX, hq]
      rfl
  · rw [hg]; dsimp only
    intro h1; rw [h (by simpa using h1)]; rfl

/-- What a pending refresh may change of the port. -/
theorem State.refreshIf_port (s : State) (p : PortIx) : ∃ (ls : Vector Lane 64) (f : Bool) (k : ProfileIx) (d : BitVec 32),
    (s.refreshIf p).port p = { s.port p with lanes := ls, refreshFlag := f, applied := k, tally := { (s.port p).tally with discards := d } } := by
  unfold State.refreshIf; split
  · rw [State.refresh_port, if_pos rfl]
    generalize satAdd _ _ = d
    unfold Port.mapLanes
    generalize Vector.ofFn _ = ls
    exact ⟨ls, _, _, d, rfl⟩
  · exact ⟨(s.port p).lanes, (s.port p).refreshFlag, (s.port p).applied, (s.port p).tally.discards, rfl⟩

/-- The age of a slot after one more round. -/
theorem Slot.aged_toNat (a : Slot) : (BitVec.ofNat 8 (min (a.age.toNat + 1) 255)).toNat = min (a.age.toNat + 1) 255 := ageUp_toNat _

/-- A slot of one more round expires (R61). -/
theorem Port.slotEnds_iff (q : Port) (a : Slot) : q.slotEnds { a with age := BitVec.ofNat 8 (min (a.age.toNat + 1) 255) } = true ↔ q.doneLimit ≠ 0 ∧ q.doneLimit.toNat ≤ min (a.age.toNat + 1) 255 := by
  unfold Port.slotEnds
  rw [Slot.aged_toNat]; simp

/-- The two ways to say that a slot of one more round expires. -/
theorem Port.slotEnds_older1 (q : Port) (a : Slot) : q.slotEnds a.older1 = q.expired a.older1 := by
  rw [Bool.eq_iff_iff, Port.expired_iff]; unfold Port.slotEnds; simp

end Sys2Proof.Machine
end

