-- ==== Sys2Proof/Tests/Slice0.lean ====
section
/-! SUPPORT. Tests: ill-formed commands that the check refuses, the worked cases of the spec, and for every statement of the
certificates a state and operands that meet its hypotheses, at the ends of their ranges. -/

namespace Sys2Proof.Tests
open Sys2Proof.Machine

/-! ## States the tests are about -/

/-- Every access of the bus succeeds. -/
def allOk : CompletionBus := ⟨true, true, true⟩

/-- The machine after reset with the link UP. -/
def up : State := { State.reset with linkReady := true, linkUp := true }

/-- The same with port 3 changed. -/
def at3 (f : Port → Port) : State := up.updPort 3 f

/-- Channel 1 waits at block address 0x40; channel 3 waits too. -/
def waits (s : State) : State := { s with
  channels := (s.channels.set 1 ⟨.waiting, 2, false⟩).set 3 ⟨.waiting, 9, false⟩ }

/-- The executor has taken channel 1, whose mark was `unread` then and is `abort` now; channel 3 waits. -/
def took (s : State) (unread abort : Bool) : State := { s with
  executor := .taken 1 unread
  channels := (s.channels.set 1 ⟨.executing, 2, abort⟩).set 3 ⟨.waiting, 9, false⟩ }

/-- The same as `waits` with channel 1 alone, marked for abort. -/
def waitsMarked (s : State) : State := { s with channels := s.channels.set 1 ⟨.waiting, 2, true⟩ }

/-- The executor has a job on channel 1. -/
def runs (s : State) (x : Executor) (abort : Bool) : State := { s with
  executor := x, channels := s.channels.set 1 ⟨.executing, 2, abort⟩ }

/-- An open entry. -/
def entryOf (gc : BitVec 8) (gf : BitVec 6) (cap : BitVec 16) (tier : Tier) (urgency : BitVec 2) : EffEntry :=
  ⟨true, gc, gf, cap, tier, urgency, 4, false, false, false⟩

/-- A lane with an entry, a balance and frames of the lengths given. -/
def laneOf (e : EffEntry) (balance : Int) (lens : List (BitVec 14)) : Lane :=
  { Lane.reset with entry := e, balance := balance, list := lens.map fun n => ⟨0x1234, n⟩ }

/-- A port OPEN with its timer in a round. -/
def opened (q : Port) : Port := { q with state := .opened, timer := some 100 }

/-- A slot of the tag and age given. -/
def slotOf (tag age : Byte) : Slot := ⟨5, 0x1234, 64, .assured, tag, age⟩

/-- An order block of zeros but for the words given. -/
def blockOf (w0 w1 w2 w3 w4 w5 : Word) : OrderBlock := ⟨w0, w1, w2, w3, w4, w5⟩

/-- A record offered. -/
def offerOf (kind : RecordKind) (src : SourceIx) (tag : Byte) (len : BitVec 16) : Offer := ⟨kind, 4, src, tag, len, 5000, 575⟩

/-- A trace armed on channel 2 for releases of port 4. -/
def traceOf (holding : Option Holding) (write : Option AreaWrite) : ArmedTrace :=
  ⟨2, 0x006, 0x0010, 0x1000, 4, 50, 1, holding, true, false, write⟩

/-- A machine with that trace armed. -/
def tracing (t : ArmedTrace) (abort : Bool) : State := { up with
  tre := { up.tre with armed := some t }, channels := up.channels.set 2 ⟨.tracing, 3, abort⟩ }

/-- Messages of the number given. -/
def messages (n : Nat) : List Message := List.replicate n (Message.ofDiscard 0 0 0)

/-! ## Ill-formed commands -/

theorem test_refuses_linkLoss_of_a_port_twice : (Instr.linkLoss (List.replicate 16 0)).wellFormed = false := by decide

theorem test_refuses_linkLoss_of_fifteen_ports : (Instr.linkLoss (allPorts.take 15)).wellFormed = false := by decide

theorem test_refuses_good_badMessage : (Instr.badMessage (Message.ofHold 3).toList false).wellFormed = false ∧
    (Instr.badMessage [] false).wellFormed = false ∧ (Instr.badMessage [0x33] true).wellFormed = true ∧
    (Instr.badMessage ((Message.ofHold 3).toList ++ [0x33]) false).wellFormed = true := by decide

theorem test_refuses_addressWrite_of_zero_address : (Instr.addressWrite 0 0xC000001F false).wellFormed = false := by decide

theorem test_refuses_zeroWrite_of_an_address : (Instr.zeroWrite 0 0x20 allOk).wellFormed = false := by decide

theorem test_refuses_unmapped_whole_word_at_a_register : (Instr.unmappedRegisterWrite 0x14 4 0).wellFormed = false := by decide

theorem test_refuses_unmapped_width_three : (Instr.unmappedRegisterWrite 0x18 3 0).wellFormed = false := by decide

theorem test_refuses_unknownOrderCode_of_a_code :
    (Instr.unknownOrderCode (some (blockOf 1 0 0 0 0 0)) allOk).wellFormed = false ∧
    (Instr.unknownOrderCode (some (blockOf 8 0 0 0 0 0)) allOk).wellFormed = false := by decide

theorem test_refuses_orders_of_another_code :
    (Instr.load (some (blockOf 2 0 0 0 0 0)) allOk false).wellFormed = false ∧
    (Instr.window (some (blockOf 1 0 0 0 0 0)) allOk).wellFormed = false ∧
    (Instr.pin (some (blockOf 4 0 0 0 0 0)) allOk).wellFormed = false ∧
    (Instr.levels (some (blockOf 3 0 0 0 0 0)) allOk).wellFormed = false ∧
    (Instr.collect (some (blockOf 7 0 0 0 0 0)) allOk).wellFormed = false ∧
    (Instr.survey (some (blockOf 6 0 0 0 0 0)) allOk).wellFormed = false ∧
    (Instr.trace (some (blockOf 0 0 0 0 0 0)) allOk).wellFormed = false := by decide

theorem test_refuses_port_orders_of_another_action :
    (Instr.portOpen (some (blockOf 5 0x20000 0 0 0 0)) allOk).wellFormed = false ∧
    (Instr.portClose (some (blockOf 5 0x10000 0 0 0 0)) allOk).wellFormed = false ∧
    (Instr.portClear (some (blockOf 5 0x40000 0 0 0 0)) allOk).wellFormed = false ∧
    (Instr.portRetire (some (blockOf 5 0x50000 0 0 0 0)) allOk).wellFormed = false ∧
    (Instr.portSet (some (blockOf 4 0x50000 0 0 0 0)) allOk).wellFormed = false ∧
    (Instr.portSet (some (blockOf 5 0x50010 0 0 0 0)) allOk).wellFormed = false ∧
    (Instr.portBadAction (some (blockOf 5 0x50000 0 0 0 0)) allOk).wellFormed = false := by decide

theorem test_accepts_orders_of_their_own_code :
    (Instr.unknownOrderCode (some (blockOf 9 0 0 0 0 0)) allOk).wellFormed = true ∧
    (Instr.load (some (blockOf 1 0 0 0 0 0)) allOk false).wellFormed = true ∧
    (Instr.portSet (some (blockOf 5 0x5000F 0 0 0 0)) allOk).wellFormed = true ∧
    (Instr.portBadAction (some (blockOf 5 0x60000 0 0 0 0)) allOk).wellFormed = true ∧
    (Instr.portBadAction (some (blockOf 5 0x10010 0 0 0 0)) allOk).wellFormed = true := by decide

/-! ## Worked cases of the spec -/

/-- Table 1-2. -/
theorem test_frame_sizes :
    ([0, 40, 64, 65, 1500, 4096, 9000, 9216].map fun n => frameSize (storedLength (BitVec.ofNat 14 n))) =
      [8, 8, 8, 9, 188, 512, 1125, 1152] := by decide

/-- Table 1-4: the dither indices of reversals 0 to 19. -/
theorem test_dither_indices :
    ([0, 32, 16, 48, 8, 40, 24, 56, 4, 36, 20, 52, 12, 44, 28, 60, 2, 34, 18, 50].map reverse6) = List.range 20 := by decide

/-- The lane of 1.10. -/
def lane110 : Lane := laneOf (entryOf 40 20 100 .none 1) 0 []

/-- Table 1-6: balances of the first expiries, and the spill of the third and fourth. -/
theorem test_accrual_of_1_10 :
    (lane110.accrue 0 5).balance = 40 ∧ ((lane110.accrue 0 5).accrue 1 5).balance = 80 ∧
    ((({ lane110 with balance := 80 }).accrue 2 5).balance, (({ lane110 with balance := 80 }).accrue 2 5).tally.spill)
      = (100, 20) ∧
    ((({ lane110 with balance := 100 }).accrue 3 5).balance, (({ lane110 with balance := 100 }).accrue 3 5).tally.spill)
      = (100, 41) := by decide

/-- R12: a lane at −1052 with Gc 40 and e 0 moves to −1012. -/
theorem test_accrual_of_a_debt : (({ lane110 with balance := -1052 }).accrue 0 5).balance = -1012 := by decide

/-- 1.11: a balance of 400 meets a cap of 150; a debt of 300 is forgiven by a rate of 0; a cap of 4 under Gc 6 is 7. -/
theorem test_refresh_of_1_11 :
    (((laneOf (entryOf 30 8 400 .two 0) 400 []).refresh (entryOf 20 4 150 .two 0)).balance,
      ((laneOf (entryOf 30 8 400 .two 0) 400 []).refresh (entryOf 20 4 150 .two 0)).tally.spill) = (150, 250) ∧
    ((laneOf (entryOf 10 0 50 .none 0) (-300) []).refresh (entryOf 0 0 0 .three 0)).balance = 0 ∧
    (deriveEntry ⟨true, 6, 40, 4, .none, 0, 4, false⟩ none).cap = 7 := by decide

/-- Table 1-8: 6 is below the 64 of a 512-byte head and is not the cap of 7; a balance of 7 is the cap. -/
theorem test_full_bucket_rule :
    (laneOf (entryOf 6 40 7 .none 0) 6 [512]).assuredEligible = false ∧
    (laneOf (entryOf 6 40 7 .none 0) 7 [512]).assuredEligible = true ∧
    (laneOf (entryOf 0 0 0 .three 0) 0 [512]).assuredEligible = false ∧
    (laneOf (entryOf 0 0 0 .three 0) 0 [512]).surplusEligible = true := by decide

/-- The port of 3.8 at its start. -/
def port38 : Port :=
  { ((((Port.reset.setLane 3 (laneOf (entryOf 10 0 2000 .none 1) 1600 [1500, 1500, 1500, 1500])).setLane 9
      (laneOf (entryOf 4 0 40 .one 0) 40 [256])).setLane 40 (laneOf (entryOf 20 0 300 .two 1) 250 [1500, 1500])).setLane 50
      (laneOf (entryOf 0 0 0 .two 0) 0 [9216, 9216, 9216])).setLane 60 (laneOf (entryOf 0 0 0 .three 0) 0 [64]) with
    state := .opened, timer := some 100, nextTag := 250 }

/-- Table 3-3, decisions 1 and 2: lane 9, then lane 40, with their tags, cursor and balances. -/
theorem test_decisions_of_3_8 :
    ∃ q : Port, q = (up.setPort 4 port38 |>.releaseTest 4).port 4 ∧
      q.older.map (fun x => (x.tag, x.source, x.kind)) = some (250, 9, .assured) ∧
      q.younger.map (fun x => (x.tag, x.source, x.kind)) = some (251, 40, .assured) ∧
      q.nextTag = 252 ∧ q.assuredCursor = 40 ∧ (q.lane 9).balance = 8 ∧ (q.lane 40).balance = 62 := by
  refine ⟨_, rfl, ?_⟩
  decide

/-- Table 6-6. -/
theorem test_levels_of_table_6_6 :
    ([(512, 1024), (3, 5), (600, 100), (9000, 300), (0, 0), (40000, 65535)].map fun v =>
      let t := (up.levelsOrder (blockOf 4 0 (BitVec.ofNat 32 v.1) (BitVec.ofNat 32 v.2) 0 0)).1
      (t.reserve.toNat, t.warning.toNat)) =
    [(512, 1024), (3, 5), (600, 600), (8191, 8191), (0, 0), (8191, 8191)] := by decide

/-- The windows of 5.10. -/
def windows510 : State := { up with
  clockValid := true
  windows := #v[⟨570, 585, 0x000F⟩, ⟨530, 960, 0xFFFF⟩, ⟨1380, 540, 0xFF00⟩] }

/-- Table 5-4, the selections of ports 2 and 12. -/
theorem test_selection_of_table_5_4 :
    (([0, 529, 530, 539, 540, 570, 584, 585, 959, 960, 1379, 1380] : List Minute).map fun m =>
      (({ windows510 with minute := m } : State).selectFor 2, ({ windows510 with minute := m } : State).selectFor 12)) =
    [(0, 3), (0, 3), (2, 2), (2, 2), (2, 2), (1, 2), (1, 2), (2, 2), (2, 2), (0, 0), (0, 0), (0, 3)] := by decide

/-- The worked termination word of Chapter 8: OVERBOOK for port 2 in profile 1. -/
theorem test_termination_word : terminationWord .overbook (overbookDetail 2 1) = 0xC0010207 := by decide

/-- Table 9-11: which offers merge with the holding record, and which do not. -/
theorem test_merges_of_table_9_11 :
    (Holding.mergesWith ⟨offerOf .releaseA 3 10 1500, 1⟩ (offerOf .releaseA 3 11 1500) = true) ∧
    (Holding.mergesWith ⟨offerOf .releaseA 3 10 1500, 2⟩ (offerOf .releaseA 3 12 1500) = true) ∧
    (Holding.mergesWith ⟨offerOf .releaseA 3 10 1500, 3⟩ (offerOf .releaseA 3 13 512) = false) ∧
    (Holding.mergesWith ⟨offerOf .releaseA 3 13 512, 1⟩ (offerOf .releaseS 40 14 1500) = false) ∧
    (Holding.mergesWith ⟨offerOf .releaseS 40 14 1500, 1⟩ (offerOf .releaseS 40 15 1500) = true) := by decide

/-- The messages of 7.8: ARRIVAL, its ANSWER, and the damaged DONE. -/
theorem test_messages_of_7_8 :
    parseMessage #v[0x12, 0x0A, 0xDC, 0x05, 0x03, 0x01, 0x00, 0xFE] true = .arrival 2 10 1500 0x0103 true ∧
    Message.ofAnswer 2 10 0 0 0x0103 = #v[0x82, 0x0A, 0x00, 0x00, 0x03, 0x01, 0x00, 0x6F] ∧
    parseMessage #v[0x24, 0xFA, 0, 0, 0, 0, 0, 0xE1] false = .done 4 250 false ∧
    parseMessage #v[0x24, 0xFB, 0, 0, 0, 0, 0, 0xE1] false = .bad := by decide

/-! ## What the statements' hypotheses are met by: the machine, the registers, the executor -/

theorem test_meets_StepRunsFrontCommand :
    ({ State.reset with pending := [.traceOffer, .linkUp] } : State).pending = .traceOffer :: [.linkUp] := rfl

theorem test_meets_NoCommandStops :
    State.reset.pending = [] ∧ State.reset.retests = [] ∧
    ({ up with retests := [3, 4] } : State).retests = 3 :: [4] ∧ ({ up with retests := [3, 4] } : State).pending = [] ∧
    ((at3 fun q => { q with flow := .held }).port 3).flow ≠ .flowing := by decide

theorem test_meets_PointerWriteOutcome :
    (0x00000020 : Word).extractLsb' 5 25 ≠ 0 ∧ (0x3FFFFFFF : Word).extractLsb' 5 25 ≠ 0 ∧
    (0x00000000 : Word).extractLsb' 5 25 = 0 ∧ (0xC000001F : Word).extractLsb' 5 25 = 0 ∧
    (State.reset.channel 1).phase = .idle ∧ ((waits up).channel 1).phase = .waiting ∧
    ((runs up (.surveying ⟨1, 0, 0, WatchLatch.empty, []⟩) false).channel 1).phase = .executing ∧
    (({ up with channels := up.channels.set 1 ⟨.done true, 2, false⟩ } : State).channel 1).phase = .done true := by decide

theorem test_meets_ExecutorTakesWaitingChannel :
    (took up false false).executor ≠ .free ∧ (∀ c : ChannelIx, (up.channel c).phase ≠ .waiting) ∧
    (waits up).executor = .free ∧ ((waits up).channel 1).phase = .waiting ∧
    (∀ d : ChannelIx, d < 1 → ((waits up).channel d).phase ≠ .waiting) ∧
    (∀ u : Bool, (took up u false).executor = .taken 1 u ∧ ((took up u false).channel 1).phase = .executing) ∧
    (0xC000001F : Word).extractLsb' 5 25 = 0 := by decide

theorem test_meets_ZeroWriteReachesArmedTrace :
    (0 : Word).extractLsb' 5 25 = 0 ∧
    (∀ a : Bool, ((tracing (traceOf none none) a).channel 2).phase = .tracing ∧
      ((tracing (traceOf none none) a).channel 2).abortReq = a ∧
      (tracing (traceOf none none) a).tre.armed = some (traceOf none none)) ∧
    (traceOf none none).channel = 2 ∧ (traceOf none none).write = none ∧
    (traceOf none (some (.gap 1 0))).write ≠ none ∧
    (traceOf (some ⟨offerOf .releaseA 3 10 64, 1⟩) none).holding = some ⟨offerOf .releaseA 3 10 64, 1⟩ := by decide

theorem test_meets_RegisterWindow :
    (1 ≠ 4 ∨ 0x00 ∉ [0x00, 0x04, 0x08, 0x0C, 0x10, 0x14]) ∧ (4 ≠ 4 ∨ 0x18 ∉ [0x00, 0x04, 0x08, 0x0C, 0x10, 0x14]) ∧
    (4 ≠ 4 ∨ 0x03 ∉ [0x00, 0x04, 0x08, 0x0C, 0x10, 0x14]) ∧ 0x13 % 4 + 1 ≤ 4 ∧ 0x10 % 4 + 4 ≤ 4 := by decide

/-- A whole word at an offset between two registers reads zero; narrower reads give the addressed bytes (R147). -/
theorem test_busRead_by_width :
    let s : State := { up with attn := 0xA5 }
    s.busRead 0x10 4 = 0xA5 ∧ s.busRead 0x0E 4 = 0 ∧ s.busRead 0x12 4 = 0 ∧ s.busRead 0x10 1 = 0xA5 ∧ s.busRead 0x11 2 = 0 := by
  decide

theorem test_meets_CompletionWritesAndMarksDone :
    (∀ x : Bool, completionFails ⟨false, x, true⟩ .ok = true) ∧ completionFails ⟨true, false, true⟩ .moved = true ∧
    completionFails ⟨true, false, true⟩ .ok = false ∧ completionFails allOk .moved = false := by decide

theorem test_meets_OrdersNotCarriedOut :
    (waitsMarked up).Begins 1 true ∧ (took up true true).Begins 1 true ∧ (waits up).CarriesOut 1 ∧
    (took up false true).CarriesOut 1 ∧ (Instr.load (some (blockOf 1 0 0 0 0 0)) allOk true).order? =
      some (some (blockOf 1 0 0 0 0 0), allOk) ∧
    (Instr.load none allOk false).order? = some (none, allOk) ∧
    (Instr.portSet (some (blockOf 5 0x50000 0 0 0 0)) allOk).order? =
      some (some (blockOf 5 0x50000 0 0 0 0), allOk) := by decide

/-! ## … the link -/

theorem test_meets_LinkUpAndDown :
    up.linkUp = true ∧ State.reset.linkUp = false ∧
    ([0x33] : List Byte).length + ([0, 0, 0, 0, 0, 0] : List Byte).length < 8 ∧
    ([0x33, 0, 0, 0, 0, 0, 0] : List Byte) ++ [0xCC] = (Message.ofHold 3).toList ∧ ([0xCC] : List Byte) ≠ [] ∧
    ([] : List Byte) ++ (Message.ofHold 3).toList = (Message.ofHold 3).toList := by decide

theorem test_meets_LinkLossOutcome :
    up.linkUp = true ∧ allPorts.Nodup ∧ allPorts.length = 16 ∧ allPorts.reverse.Nodup ∧ allPorts.reverse.length = 16 := by
  decide

set_option maxRecDepth 8000 in
theorem test_meets_LinkQueues :
    (({ up with outQueue := messages 256 } : State).linkUp = true ∧ up.inPartial = [] ∧
      256 ≤ ({ up with outQueue := messages 256 } : State).outQueue.length) ∧
    ({ up with inWaiting := [.hold 3] } : State).inWaiting ≠ [] ∧
    Message.good (Vector.replicate 8 0) = false ∧
    (messages 257 = Message.ofDiscard 0 0 0 :: messages 256 ∧ 256 ≤ (messages 256).length) ∧
    (messages 256 = Message.ofDiscard 0 0 0 :: messages 255 ∧ (messages 255).length < 256) ∧
    up.outQueue = [] := by decide

set_option maxRecDepth 8000 in
theorem test_meets_BadMessages :
    Message.goodCheck (Message.ofHold 3) = true ∧ (0x77 : Byte) ≠ (Message.ofHold 3)[0] ∧ up.TakesAtOnce ∧
    ({ up with outQueue := messages 255 } : State).TakesAtOnce ∧
    Message.good (Vector.replicate 8 0xFF) = false ∧ Message.good (Message.withCheck 0x60 0 0 0 0 0 0) = false := by decide

theorem test_meets_MessageLayouts :
    ([0x12, 0x2F, 0x30, 0x4F, 0x50].map fun b : Byte => b.toNat / 16) = [1, 2, 3, 4, 5] ∧
    (0x0F : Byte).toNat / 16 = 0 ∧ 6 ≤ (0x60 : Byte).toNat / 16 ∧ 6 ≤ (0xFF : Byte).toNat / 16 := by decide

/-! ## … arrivals and releases -/

/-- Port 3 open with lane 5 as given. -/
def lane5 (l : Lane) : State := at3 fun q => opened (q.setLane 5 l)

theorem test_meets_AdmissionAndRefusal :
    ((at3 fun q => { q with state := .retired 15 }).port 3).state = .retired 15 ∧
    ((at3 fun q => { q with state := .draining }).port 3).state = .draining ∧ (up.port 3).state = .closed ∧
    ((lane5 Lane.reset).port 3).state = .opened ∧ ((lane5 Lane.reset).lane 3 5).entry.isOpen = false ∧
    ((lane5 (laneOf (entryOf 1 0 2 .none 0) 0 [64, 64, 64, 64])).lane 3 5).entry.isOpen = true ∧
    9216 < (9217 : BitVec 14).toNat ∧ (9216 : BitVec 14).toNat ≤ 9216 ∧
    ((lane5 (laneOf (entryOf 1 0 2 .none 0) 0 [64, 64, 64, 64])).lane 3 5).entry.qmax.toNat ≤
      ((lane5 (laneOf (entryOf 1 0 2 .none 0) 0 [64, 64, 64, 64])).lane 3 5).list.length ∧
    ((lane5 (laneOf (entryOf 1 0 2 .none 0) 0 [64, 64, 64])).lane 3 5).list.length <
      ((lane5 (laneOf (entryOf 1 0 2 .none 0) 0 [64, 64, 64])).lane 3 5).entry.qmax.toNat ∧
    ((lane5 (laneOf (entryOf 1 0 2 .none 0) 0 [])).lane 3 5).entry.prot = false ∧
    ((up.setFree 0).freeCount = 0 ∧ (up.setFree 511).freeCount < up.reserve.toNat ∧
      up.reserve.toNat ≤ (up.setFree 512).freeCount) := by decide

theorem test_meets_refusals :
    up.TakesAtOnce ∧ up.admissionCheck 3 5 64 = some .portClosed ∧
    (at3 fun q => { q with state := .retired 7 }).admissionCheck 3 5 64 = some (.moved 7) := by decide

theorem test_meets_AcceptedArrivalOutcome :
    (lane5 (laneOf (entryOf 1 0 2 .none 0) 0 [])).TakesAtOnce ∧
    (lane5 (laneOf (entryOf 1 0 2 .none 0) 0 [])).admissionCheck 3 5 9216 = none ∧
    ((lane5 (laneOf (entryOf 1 0 2 .none 0) 0 [])).lane 3 5).list = [] ∧
    (lane5 (laneOf (entryOf 1 0 2 .none 0) 0 [64, 64, 64])).admissionCheck 3 5 0 = none ∧
    ((lane5 (laneOf (entryOf 1 0 2 .none 0) 0 [64, 64, 64])).lane 3 5).list ≠ [] := by decide

theorem test_meets_ArrivalReleasedAtOnce :
    ∃ s : State, s = lane5 (laneOf (entryOf 1 0 8 .none 0) 8 []) ∧ s.TakesAtOnce ∧ s.admissionCheck 3 5 64 = none ∧
      (s.port 3).state = .opened ∧ (s.port 3).flow = .flowing ∧ (s.port 3).older = none ∧ (s.port 3).younger = none ∧
      (∀ x : SourceIx, (s.lane 3 x).list = []) ∧ hasRate (s.lane 3 5).entry.gc (s.lane 3 5).entry.gf = true ∧
      (((max (64 : BitVec 14).toNat 64 + 7) / 8 : Nat) : Int) ≤ (s.lane 3 5).balance := by
  refine ⟨_, rfl, ?_⟩
  decide

theorem test_meets_ReleaseChoice :
    port38.assuredChoice = some 9 ∧
    (Port.reset.setLane 50 (laneOf (entryOf 0 0 0 .two 0) 0 [64])).assuredChoice = none ∧
    ((Port.reset.setLane 50 (laneOf (entryOf 0 0 0 .two 0) 0 [64])).decision.map fun d => (d.1, d.2.1)) =
      some (50, .surplus) := by decide

theorem test_meets_ReleaseConditionAndDrainRule :
    ∃ s : State, s = (at3 fun q => { q with state := .draining, timer := some 100 }) ∧ (s.port 3).state = .draining ∧
      (∀ x : SourceIx, (s.lane 3 x).list = []) ∧ (s.port 3).older = none ∧ (s.port 3).younger = none ∧
      (up.port 3).state ≠ .draining := by
  refine ⟨_, rfl, ?_⟩
  decide

theorem test_meets_ReleaseOutcome : ((up.setPort 4 port38).releaseOnce 4).isSome = true := by decide

/-! ## … DONE, HOLD, RESUME, CLOCK -/

/-- Port 3 with both slots occupied, tags 255 and 0. -/
def slots : State := at3 fun q => { opened q with older := some (slotOf 255 9), younger := some (slotOf 0 4), nextTag := 1 }

theorem test_meets_DoneOutcome :
    slots.TakesAtOnce ∧ (slots.port 3).older = some (slotOf 255 9) ∧ (slotOf 255 9).tag = 255 ∧
    (slots.port 3).younger = some (slotOf 0 4) ∧ (slotOf 0 4).tag = 0 ∧
    (∀ tag : Byte, tag = 0 → ∀ a : Slot, (slots.port 3).older = some a → a.tag ≠ tag) ∧
    ∀ tag : Byte, tag = 1 → (∀ a : Slot, (slots.port 3).older = some a → a.tag ≠ tag) ∧
      ∀ b : Slot, (slots.port 3).younger = some b → b.tag ≠ tag := by
  have ho : (slots.port 3).older = some (slotOf 255 9) := by decide
  have hy : (slots.port 3).younger = some (slotOf 0 4) := by decide
  refine ⟨by decide, ho, by decide, hy, by decide, ?_, ?_⟩
  · rintro tag rfl a h; rw [ho] at h; cases h; decide
  · rintro tag rfl
    refine ⟨?_, ?_⟩
    · intro a h; rw [ho] at h; cases h; decide
    · intro b h; rw [hy] at h; cases h; decide

theorem test_meets_HoldAndResumeOutcome :
    slots.TakesAtOnce ∧ (slots.port 3).flow = .flowing ∧
    ((at3 fun q => { opened q with flow := .held }).port 3).flow ≠ .flowing ∧
    ((at3 fun q => { opened q with flow := .stalled, timer := none }).port 3).flow ≠ .flowing := by decide

theorem test_meets_ClockOutcome :
    up.TakesAtOnce ∧ 1440 ≤ (1440 : BitVec 16).toNat ∧ (1439 : BitVec 16).toNat < 1440 ∧ up.clockValid = false ∧
    windows510.TakesAtOnce ∧ windows510.clockValid = true ∧ (0 : BitVec 16).toNat = windows510.minute.val := by decide

theorem test_meets_WindowsAndSelection :
    up.clockValid = false ∧ windows510.clockValid = true ∧ windows510.candidate 12 3 = true ∧
    ∀ k : ProfileIx, windows510.candidate 2 k = false := by decide

/-! ## … round expiries -/

/-- Port 3 OPEN and HELD with a round running. -/
def held (f : Port → Port) : State := at3 fun q => f { opened q with flow := .held }

theorem test_meets_BalanceRules :
    lane110.entry.isOpen = true ∧ lane110.entry.gc ≠ 0 ∧ Lane.reset.entry.isOpen = false ∧
    ((entryOf 20 4 150 .two 0).cap.toNat : Int) < (laneOf (entryOf 30 8 400 .two 0) 151 []).balance ∧
    (laneOf (entryOf 30 8 400 .two 0) 150 []).balance ≤ ((entryOf 20 4 150 .two 0).cap.toNat : Int) ∧
    EffEntry.closed.gc = 0 ∧ EffEntry.closed.gf = 0 := by decide

theorem test_meets_RoundExpiryOutcome :
    ∃ (s : State) (a b : Slot), s = (held fun q => { q with
        holdLimit := 2, older := some a, younger := some b }) ∧ a = slotOf 0 48 ∧ b = slotOf 1 0 ∧
      (s.port 3).timer ≠ none ∧ (s.port 3).state = .opened ∧ (s.port 3).flow = .held ∧ (s.port 3).refreshFlag = false ∧
      (s.port 3).holdAge.toNat + 1 < (s.port 3).holdLimit.toNat ∧
      (s.port 3).older = some a ∧ (s.port 3).younger = some b ∧
      a.age.toNat + 1 < (s.port 3).doneLimit.toNat ∧ b.age.toNat + 1 < (s.port 3).doneLimit.toNat ∧
      (up.port 3).timer = none := by
  refine ⟨_, _, _, rfl, rfl, rfl, ?_⟩
  decide

/-- Port 3 with a round running, in the state, flow and pending refresh given, with two occupied slots. -/
def inRound (st : PortState) (fl : Flow) (flag : Bool) : State := at3 fun q =>
  { q with
    state := st, flow := fl, refreshFlag := flag, timer := some 100, holdLimit := 1
    older := some (slotOf 0 49), younger := some (slotOf 1 48) }

/-- The premises of the statements about a round expiry are met in every state and flow, with a refresh pending or not. -/
theorem test_meets_round_expiry_everywhere :
    ∀ st ∈ [PortState.opened, .draining], ∀ fl ∈ [Flow.flowing, .held], ∀ flag : Bool,
      (((inRound st fl flag).port 3).older = none → ((inRound st fl flag).port 3).younger = none) ∧
      ((inRound st fl flag).port 3).timer ≠ none ∧ ((inRound st fl flag).port 3).refreshFlag = flag ∧
      ((inRound st fl flag).port 3).agedSlots.filter ((inRound st fl flag).port 3).slotEnds ≠ [] ∧
      ((inRound st fl flag).port 3).holdEnds = decide (fl = .held) := by decide

theorem test_meets_ExpiryAndStallOutcome :
    ∃ (s : State) (a b : Slot), s = (held fun q => { q with older := some a, younger := some b }) ∧ a = slotOf 0 49 ∧
      b = slotOf 1 48 ∧
      (s.port 3).timer ≠ none ∧ (s.port 3).flow ≠ .flowing ∧ (s.port 3).state ≠ .draining ∧ (s.port 3).holdEnds = false ∧
      (s.port 3).doneLimit ≠ 0 ∧ (s.port 3).older = some a ∧ (s.port 3).younger = some b ∧
      (s.port 3).doneLimit.toNat ≤ min (a.age.toNat + 1) 255 ∧ b.age.toNat + 1 < (s.port 3).doneLimit.toNat ∧
      (s.port 3).doneLimit.toNat ≤ min ((slotOf 1 49).age.toNat + 1) 255 ∧
      (up.port 3).timer = none ∧ (up.port 3).agedSlots.filter (up.port 3).slotEnds = [] := by
  refine ⟨_, _, _, rfl, rfl, rfl, ?_⟩
  decide

/-- A stall is due with the done limit at its reset value and no slot occupied. -/
theorem test_meets_stalls :
    ∃ s : State, s = (held fun q => { q with holdLimit := 1 }) ∧ (s.port 3).timer ≠ none ∧ (s.port 3).doneLimit = 50 ∧
      (s.port 3).older = none ∧ (s.port 3).younger = none ∧ (s.port 3).holdEnds = true := by
  refine ⟨_, rfl, ?_⟩
  decide

/-! ## … shares and ports -/

/-- A machine whose bank 1 and bank 0 book the largest rate on lanes 0 to 6 of ports 2 and 3, with a capacity of `kc`. -/
def booked (kc : BitVec 12) : State :=
  let es : Vector BankEntry 64 := Vector.ofFn fun i => if i.val < 7 then ⟨true, 255, 0, 300, .one, 0, 4, false⟩ else .closed
  (((up.installBank 1 2 es).installBank 1 3 es).installBank 0 3 es).mapPorts fun _ q => { q with kc := kc, kf := 0 }

theorem test_meets_ShareRules :
    BankEntry.closed.isOpen = false ∧ (⟨true, 255, 0, 300, .one, 0, 4, false⟩ : BankEntry).isOpen = true ∧
    firstPin #v[none, some ⟨3, 5, 1, 0, .none, 0⟩, some ⟨3, 5, 2, 0, .none, 0⟩, none] 3 5 =
      some ⟨3, 5, 1, 0, .none, 0⟩ := by decide

theorem test_meets_LevelsOutcome : (waits up).CarriesOut 1 := by decide

theorem test_meets_WindowOutcome :
    (blockOf 2 0 0 0 0 0).profile = 0 ∧ 1440 ≤ (blockOf 2 0x1000 1440 0 0 0).windowStart.toNat ∧
    1440 ≤ (blockOf 2 0x1000 0x05A00000 0 0 0).windowEnd.toNat ∧
    ∃ (s : State) (b : OrderBlock), s = waits (booked 1784) ∧ b = blockOf 2 0x1000 0x059F059F 0x000C 0 0 ∧
      s.CarriesOut 1 ∧ b.windowStart.toNat < 1440 ∧ b.windowEnd.toNat < 1440 ∧
      b.profile.val = (0 : Fin 3).val + 1 ∧ b.windowMask.getLsbD 2 = true ∧ s.windows[0].mask.getLsbD 2 = false ∧
      (∀ p' : PortIx, p' < 2 → b.windowMask.getLsbD p'.val = false) ∧
      s.figure 2 < bookedSum (s.bankPort b.profile 2) s.pins 2 := by
  refine ⟨by decide, by decide, by decide, _, _, rfl, rfl, ?_⟩
  decide

theorem test_meets_window_that_fits :
    ∃ (s : State) (b : OrderBlock), s = waits (booked 1785) ∧ b = blockOf 2 0x1000 0x059F0000 0x000C 0 0 ∧
      s.CarriesOut 1 ∧ b.windowStart.toNat < 1440 ∧ b.windowEnd.toNat < 1440 ∧ b.profile.val = (0 : Fin 3).val + 1 ∧
      ∀ p : PortIx, b.windowMask.getLsbD p.val = true → s.windows[0].mask.getLsbD p.val = false →
        bookedSum (s.bankPort b.profile p) s.pins p ≤ s.figure p := by
  refine ⟨_, _, rfl, rfl, ?_⟩
  decide

theorem test_meets_PinOutcome :
    (blockOf 3 0x000C0000 0 0 0 0).pinAction = 3 ∧ (blockOf 3 0 0 0 0 0).pinAction = 0 ∧
    ((blockOf 3 0x00040010 0 0 0 0).pinAction = 1 ∧ 16 ≤ (blockOf 3 0x00040010 0 0 0 0).portField.toNat) ∧
    ((blockOf 3 0x0004000F 5 0 0 0).pinAction = 1 ∧ (blockOf 3 0x0004000F 5 0 0 0).portField.toNat < 16 ∧
      (blockOf 3 0x0004000F 5 0 0 0).pinGc = 0 ∧ (blockOf 3 0x0004000F 5 0 0 0).pinGf = 0 ∧
      (blockOf 3 0x0004000F 5 0 0 0).pinTier = 0) ∧
    ((blockOf 3 0x00080000 0 0 0 0).pinAction = 2 ∧
      (waits up).pins[(blockOf 3 0x00080000 0 0 0 0).pinIndex] = none) := by decide

/-- A machine whose port 3 is RETIRED to port 7, and whose pin 2 names it. -/
def retiredPin : State := { waits (at3 fun q => { q with state := .retired 7 }) with
  pins := #v[none, none, some ⟨3, 5, 1, 0, .none, 0⟩, none] }

theorem test_meets_pins_of_retired_ports :
    ∃ (s : State) (b b' : OrderBlock), s = retiredPin ∧ b = blockOf 3 0x00040003 0x0100 0 0 0 ∧
      b' = blockOf 3 0x000A0000 0 0 0 0 ∧ s.CarriesOut 1 ∧ b.pinAction = 1 ∧ b.pinGc ≠ 0 ∧ b.port? = some 3 ∧
      (s.port 3).state = .retired 7 ∧ b'.pinAction = 2 ∧ s.pins[b'.pinIndex] = some ⟨3, 5, 1, 0, .none, 0⟩ ∧
      (blockOf 3 0x00060000 0x0100 0 0 0).pinAction = 1 ∧ (blockOf 3 0x00060000 0x0100 0 0 0).portField.toNat < 16 ∧
      s.pins[(blockOf 3 0x00060000 0x0100 0 0 0).pinIndex] = some ⟨3, 5, 1, 0, .none, 0⟩ ∧
      (blockOf 3 0x00060000 0x0100 0 0 0).port? = some 0 ∧ (s.port 0).state = .closed ∧
      (blockOf 3 0x00060000 0x0100 0 0 0).pinGc ≠ 0 := by
  refine ⟨_, _, _, rfl, rfl, rfl, ?_⟩
  decide

theorem test_meets_pin_set :
    ∃ (s : State) (b : OrderBlock) (new : Option Pin), s = waits (booked 1785) ∧ b = blockOf 3 0x00040003 0x00002005 0 0 0 ∧
      new = some ⟨3, 5, 0x20, 0, .none, 0⟩ ∧ s.CarriesOut 1 ∧ b.pinAction = 1 ∧ b.port? = some 3 ∧ b.pinGc ≠ 0 ∧
      new = some ⟨3, b.pinSource, b.pinGc, b.pinGf, tierOfCode b.pinTier, b.pinUrgency⟩ ∧
      (s.port 3).state = .closed ∧ s.pins[b.pinIndex] = none ∧
      bookedSum (s.bankPort 0 3) (s.pins.set b.pinIndex new) 3 ≤ s.figure 3 := by
  refine ⟨_, _, _, rfl, rfl, rfl, ?_⟩
  decide

theorem test_meets_pin_clear_overbook :
    ∃ (s : State) (b : OrderBlock), s = { waits (booked 1700) with
        pins := #v[none, none, some ⟨3, 5, 1, 0, .none, 0⟩, none] } ∧ b = blockOf 3 0x000A0000 0 0 0 0 ∧
      s.CarriesOut 1 ∧ b.pinAction = 2 ∧ (s.pins[b.pinIndex]).map Pin.port = some 3 ∧ s.governs 0 3 = true ∧
      s.figure 3 < bookedSum (s.bankPort 0 3) (s.pins.set b.pinIndex none) 3 := by
  refine ⟨_, _, rfl, rfl, ?_⟩
  decide

theorem test_meets_port_orders :
    (waits up).CarriesOut 1 ∧ (blockOf 5 0x1000F 0 0 0 0).port? = some 15 ∧ (blockOf 5 0x10010 0 0 0 0).port? = none ∧
    (blockOf 5 0x10003 0 0 0 0).port? = some 3 := by decide

/-- Port 3 in each state, with channel 1 waiting. -/
def in3 (st : PortState) : State := waits (at3 fun q => { q with state := st })

theorem test_meets_port_states :
    (∀ st ∈ [PortState.closed, .opened, .draining, .retired 0], (in3 st).CarriesOut 1 ∧ ((in3 st).port 3).state = st ∧
      (∀ x : SourceIx, ((in3 st).lane 3 x).list = []) ∧ ((in3 st).port 3).older = none ∧
      ((in3 st).port 3).younger = none ∧ ((in3 st).port 3).refreshFlag = false) ∧
    ((at3 fun q => { q with refreshFlag := true }).port 3).refreshFlag = true ∧ (slots.port 3).older ≠ none := by decide

theorem test_meets_PortRetireOutcome :
    16 ≤ (blockOf 5 0x40003 16 0 0 0).successorField.toNat ∧ (blockOf 5 0x40003 3 0 0 0).successorField.toNat = (3 : PortIx).val ∧
    (15 : PortIx).val = (blockOf 5 0x40003 15 0 0 0).successorField.toNat ∧ (15 : PortIx) ≠ 3 ∧
    ((in3 .closed).port 15).state = .closed ∧
    (waits (up.updPort 15 fun q => { q with state := .retired 3 })).CarriesOut 1 ∧
    ((up.updPort 15 fun q => { q with state := .retired 3 }).port 15).state = .retired 3 := by decide

theorem test_meets_PortSetOutcome :
    ∃ (s : State) (b b' : OrderBlock), s = waits (booked 1785) ∧ b = blockOf 5 0x50003 0x06F90064 0 0 0 ∧
      b' = blockOf 5 0x50003 0x06F80064 0x3F 0 0 ∧ s.CarriesOut 1 ∧ b.port? = some 3 ∧ (s.port 3).state = .closed ∧
      (∀ k : ProfileIx, s.governs k 3 = true → bookedSum (s.bankPort k 3) s.pins 3 ≤ 64 * b.setKc.toNat + b.setKf.toNat) ∧
      s.governs 0 3 = true ∧ 64 * b'.setKc.toNat + b'.setKf.toNat < bookedSum (s.bankPort 0 3) s.pins 3 := by
  refine ⟨_, _, _, rfl, rfl, rfl, ?_⟩
  decide

/-! ## … LOAD, COLLECT, SURVEY, TRACE -/

theorem test_meets_LoadBeginsAndClamps :
    (TableEntry.gc #v[5, 0, 0, 0, 0, 0, 0, 0] = 0 ∧ TableEntry.gf #v[5, 0, 0, 0, 0, 0, 0, 0] = 0 ∧
      TableEntry.tier #v[5, 0, 0, 0, 0, 0, 0, 0] = 0) ∧ TableEntry.tier #v[5, 3, 0, 0, 0, 0, 0, 0] ≠ 0 ∧
    64 < (blockOf 1 0 0 0 0 65).count ∧ (blockOf 1 0 0 0 0 64).count ≤ 64 ∧ 0 < (blockOf 1 0 0 0 0 1).count ∧
    (blockOf 1 0 0 0 0 0).count = 0 ∧ (blockOf 1 3 0 0 0 0).port? = some 3 ∧ (in3 (.retired 0)).CarriesOut 1 ∧
    ((in3 (.retired 0)).port 3).state = .retired 0 ∧ ((in3 .closed).port 3).state = .closed ∧
    (∀ a : Bool, (took up false a).CarriesOut 1 ∧ ((took up false a).channel 1).abortReq = a ∧
      ((took up false a).port 3).state = .closed) := by decide

/-- A LOAD that has read one of two entries, of source 5. -/
def loadJob : LoadJob := ⟨1, 3, 0, 0x100, 2, 1, closedStaging, [5]⟩

theorem test_meets_LoadEntryReadOutcome :
    (runs up (.loading loadJob) true).executor = .loading loadJob ∧
    (∀ a : Bool, ((runs up (.loading loadJob) a).channel loadJob.channel).abortReq = a) ∧
    TableEntry.source #v[6, 0, 0, 0, 0, 0, 0, 0] ∉ loadJob.listed ∧
    TableEntry.source #v[5, 0, 0, 0, 0, 0, 0, 0] ∈ loadJob.listed ∧ loadJob.progress + 1 = loadJob.count ∧
    { loadJob with count := 3 }.progress + 1 < { loadJob with count := 3 }.count := by decide

/-- A COLLECT at a record. -/
def collectJob (i : Nat) (sample : CollectSample) : CollectJob := ⟨1, 3, 0x2000, true, i, sample, []⟩

theorem test_meets_CollectOutcome :
    (in3 .opened).CarriesOut 1 ∧ (blockOf 6 16 0 0 0 0).port? = none ∧ (blockOf 6 3 0 0 0 0).port? = some 3 ∧
    (took up false true).CarriesOut 1 ∧ ((took up false true).channel 1).abortReq = true ∧
    (∀ a : Bool, (runs up (.collecting (collectJob 63 (.lane 63 LaneTally.zero))) a).executor =
        .collecting (collectJob 63 (.lane 63 LaneTally.zero)) ∧
      ((runs up (.collecting (collectJob 63 (.lane 63 LaneTally.zero))) a).channel 1).abortReq = a) ∧
    (63 : SourceIx).val = (collectJob 62 (.lane 62 LaneTally.zero)).index + 1 ∧
    (runs up (.collecting (collectJob 64 (.port PortTally.zero))) false).executor =
      .collecting (collectJob 64 (.port PortTally.zero)) := by decide

theorem test_meets_SurveyOutcome :
    (waits up).CarriesOut 1 ∧ ((waits up).channel 1).abortReq = false ∧ (took up false true).CarriesOut 1 ∧
    ((took up false true).channel 1).abortReq = true ∧
    (∀ a : Bool, ((runs up (.surveying ⟨1, 0x2000, 14, WatchLatch.empty, []⟩) a).channel 1).abortReq = a) ∧
    (15 : PortIx).val = (⟨1, 0x2000, 14, WatchLatch.empty, []⟩ : SurveyJob).index + 1 ∧
    (15 : PortIx).val = (⟨1, 0x2000, 15, WatchLatch.empty, []⟩ : SurveyJob).index ∧
    (runs up (.surveying ⟨1, 0x2000, 16, WatchLatch.empty, []⟩) false).executor =
      .surveying ⟨1, 0x2000, 16, WatchLatch.empty, []⟩ := by decide

theorem test_meets_TraceIsArmed :
    (waits up).CarriesOut 1 ∧ (waits up).tre.armed = none ∧ (waits (tracing (traceOf none none) false)).CarriesOut 1 ∧
    (waits (tracing (traceOf none none) false)).tre.armed ≠ none ∧ (blockOf 8 0 0 0 0 0x10000).traceCount = 0 ∧
    (blockOf 8 0 0 0 0 1).traceCount ≠ 0 ∧
    (∀ a : Bool, (took up false a).CarriesOut 1 ∧ ((took up false a).channel 1).abortReq = a ∧
      (took up false a).tre.armed = none ∧ (took up false a).tre.gapCount = 0) ∧
    ({ up.tre with gapCount := 7 } : TraceEngine).gapCount ≠ 0 := by decide

/-- A machine with offers on their way and in the queue, and the armed trace given. -/
def offers (armed : Option ArmedTrace) (queue offered : List Offer) : State :=
  { up with tre := { up.tre with armed := armed, queue := queue, offered := offered } }

theorem test_meets_TraceOfferTaken :
    ∃ o : Offer, o = offerOf .releaseA 3 11 64 ∧
      (offers none [] [o]).tre.writing = none ∧ (offers none [] [o]).tre.armed = none ∧
      (offers none [] [o]).tre.queue = [] ∧ (offers none [] [o]).tre.offered = [o] ∧
      (offers (some (traceOf none none)) [o] []).tre.writing = none ∧
      (offers (some (traceOf none none)) [o] []).tre.queue = [o] ∧
      (traceOf none none).kindMask.getLsbD o.kind.code = true ∧ (traceOf none none).portMask.getLsbD o.port.val = true ∧
      (traceOf none none).kindMask.getLsbD (offerOf .refusal 3 7 64).kind.code = false ∧
      Holding.mergesWith ⟨offerOf .releaseA 3 10 64, 1⟩ o = true ∧ 1 + 1 ≠ 255 ∧
      Holding.mergesWith ⟨offerOf .releaseA 3 13 64, 254⟩ o = true ∧ 254 + 1 = 255 ∧
      Holding.mergesWith ⟨offerOf .releaseA 3 10 65, 1⟩ o = false := by
  refine ⟨_, rfl, ?_⟩
  decide

theorem test_meets_TraceOfferDuringWriteAndMergeRule :
    ∃ (o : Offer) (tr : ArmedTrace), o = offerOf .releaseA 3 11 64 ∧ tr = traceOf none (some (.gap 1 0)) ∧
      (offers (some tr) (List.replicate 63 o) [o]).tre.armed = some tr ∧ tr.write = some (.gap 1 0) ∧
      (offers (some tr) (List.replicate 63 o) [o]).tre.offered = o :: [] ∧
      (offers (some tr) (List.replicate 63 o) [o]).tre.queue.length < 64 ∧
      64 ≤ (offers (some tr) (List.replicate 64 o) [o]).tre.queue.length := by
  refine ⟨_, _, rfl, rfl, ?_⟩
  decide

theorem test_meets_TraceAreaWrite :
    ∃ (h : Holding) (o : Offer), h = ⟨offerOf .releaseA 3 10 64, 1⟩ ∧ o = offerOf .releaseS 40 11 64 ∧
      (∀ why ∈ [CloseReason.taken, .stale, .abort], (traceOf none (some (.holding h none why))).write =
        some (.holding h none why)) ∧
      (traceOf none (some (.holding h (some o) .taken))).write = some (.holding h (some o) .taken) ∧
      (traceOf none none).written + 1 ≠ (traceOf none none).count.toNat ∧
      { traceOf none none with written := 3 }.written + 1 = { traceOf none none with written := 3 }.count.toNat ∧
      (∀ a : Bool, ((tracing (traceOf none (some (.holding h none .taken))) a).channel 2).abortReq = a) ∧
      (∀ d : Bool, { traceOf none none with staleDue := d }.staleDue = d) := by
  refine ⟨_, _, rfl, rfl, ?_⟩
  decide

theorem test_meets_StaleTimerOutcome :
    (tracing (traceOf none none) false).tre.armed = some (traceOf none none) ∧ (traceOf none none).staleRunning = true ∧
    { traceOf none none with staleRunning := false }.staleRunning = false ∧ (traceOf none none).write = none ∧
    (traceOf none (some (.gap 1 0))).write ≠ none ∧ (traceOf none none).holding = none ∧ (traceOf none none).written ≠ 0 ∧
    { traceOf none none with written := 0 }.written = 0 := by decide

/-! ## … what every step keeps -/

/-- The machine after reset meets the premises of the statements about every step, and a step answers. -/
theorem test_meets_what_steps_keep :
    step State.reset = .next State.reset ∧ State.reset.MemoryOk ∧ State.reset.LevelsOk ∧ State.reset.JobOk ∧
    State.reset.PinsOk ∧ State.reset.PhasesOk ∧ State.reset.SelectionOk ∧ (∀ c : ChannelIx, State.reset.ChannelOk c) ∧
    State.reset.PoolConserved ∧ (∀ p : PortIx, (State.reset.port p).TimerOk ∧ (State.reset.port p).LengthOk ∧
      (State.reset.port p).SlotsOk ∧ (State.reset.port p).RetiredOk p ∧ (State.reset.port p).DrainOk) ∧
    (∀ (p : PortIx) (src : SourceIx), (State.reset.lane p src).CreditOk) ∧ State.reset.BanksOk := by
  have hp : ∀ p : PortIx, State.reset.port p = Port.reset := fun p => by simp [State.port, State.reset]
  have hl : ∀ (p : PortIx) (x : SourceIx), State.reset.lane p x = Lane.reset := fun p x => by
    rw [State.lane, hp]; simp [Port.lane, Port.reset]
  have hz : State.reset.listed = 0 := by
    have : (fun p => (State.reset.port p).listTotal) = fun _ => 0 := by funext p; rw [hp]; decide
    rw [State.listed, this]; decide
  refine ⟨rfl, by decide, by decide, by decide, ?_, by decide, ?_, by decide, ?_, ?_, ?_, ?_, ?_⟩
  · intro i x hx; simp [State.reset] at hx
  · intro _ p; rw [hp]; rfl
  · rw [State.PoolConserved, hz]; rfl
  · intro p; rw [hp]; refine ⟨by decide, by decide, by decide, ?_, by decide⟩
    intro x hx; cases hx
  · intro p x; rw [hl]; decide
  · intro k p x; simp [State.bankPort, State.reset, BankEntry.Ok, BankEntry.closed]
  · intro j hj; cases hj

/-! ## Commands carried out -/

/-- Commands put at the front of the queue run, one a step. -/
theorem test_steps_run_the_queue :
    (match step { State.reset with pending := [.linkUp, .attnMaskWrite 0xFF] } with
      | .next t => (match step t with
        | .next u => decide (u.linkUp = true ∧ u.attnMask = 0xFF ∧ u.pending = [])
        | _ => false)
      | _ => false) = true := by decide

/-- The frame of 7.8 is answered and released at once under tag 37. -/
theorem test_arrival_of_7_8 :
    (match exec (.arrival 2 10 1500 0x0103 false) (up.updPort 2 fun q =>
        { opened (q.setLane 10 (laneOf (entryOf 10 0 500 .none 0) 400 [])) with nextTag := 37 }) with
      | .next t => decide (t.outQueue = [Message.ofAnswer 2 10 0 0 0x0103, Message.ofRelease 2 10 0x0103 37 1500] ∧
          (t.lane 2 10).balance = 212 ∧ t.freeCount = 8192)
      | _ => false) = true := by decide

/-- An ARRIVAL for a port RETIRED to port 7 is refused MOVED with the successor. -/
theorem test_arrival_at_a_retired_port :
    (match exec (.arrival 3 10 1500 0x0103 false) (at3 fun q => { q with state := .retired 7 }) with
      | .next t => decide (t.outQueue = [Message.ofAnswer 3 10 1 7 0x0103] ∧ (t.lane 3 10).tally.refusals = 1)
      | _ => false) = true := by decide

/-- An unknown order code is completed BAD_ORDER with summary error, and the executor takes channel 3. -/
theorem test_unknown_order_code :
    (match exec (.unknownOrderCode (some (blockOf 0 0 0 0 0 0)) allOk) (waits up) with
      | .next t => decide ((t.channel 1).pointer = 0x80000040 ∧ t.attn = 2 ∧
          Memory.read t.cardMem 0x5C = some 0x02 ∧ Memory.read t.cardMem 0x5F = some 0xC0 ∧ t.executor = .taken 3 false ∧
          (t.channel 3).phase = .executing)
      | _ => false) = true := by decide

/-- A hold that reaches its limit becomes a stall, and the timer stops. -/
theorem test_stall :
    (match exec (.stall 3) (held fun q => { q with holdLimit := 1 }) with
      | .next t => decide ((t.port 3).flow = .stalled ∧ (t.port 3).timer = none ∧ t.attn = 0x40 ∧ (t.port 3).roundCount = 1)
      | _ => false) = true := by decide

/-- 8.9, step 5: the LOAD of channel 2 completes OK, and the executor takes channel 0 at that moment. -/
theorem test_load_completes_of_8_9 :
    (match exec (.loadEntryRead (some #v[6, 0, 0, 0, 0, 0, 0, 0]) false allOk) { up with
        executor := .loading { loadJob with channel := 2 }
        channels := #v[⟨.waiting, 0x180, false⟩, ⟨.waiting, 0x188, false⟩, ⟨.executing, 0x102, false⟩, Channel.reset] } with
      | .next t => decide (t.executor = .taken 0 false ∧ (t.channel 2).pointer = 0x80002040 ∧
          (t.channel 0).pointer = 0x00003000 ∧ (t.channel 0).phase = .executing ∧ (t.channel 1).phase = .waiting ∧ t.attn = 4)
      | _ => false) = true := by decide

/-- 8.9, steps 6 and 7: channel 1 is marked while it waits, and the PORT OPEN completes: channel 1 is taken to be left unread,
and a second zero write then changes nothing about that. -/
theorem test_port_completes_of_8_9 :
    (match exec (.portOpen (some (blockOf 5 0x10003 0 0 0 0)) allOk) { up with
        executor := .taken 0 false
        channels := #v[⟨.executing, 0x180, false⟩, ⟨.waiting, 0x188, true⟩, ⟨.done false, 0x102, false⟩, Channel.reset] } with
      | .next t => decide (t.executor = .taken 1 true ∧ (t.channel 0).pointer = 0x80003000 ∧
          (t.channel 1).phase = .executing ∧ (t.port 3).state = .opened)
      | _ => false) = true := by decide

/-- A zero write that meets the executing phase of a PORT order marks it, and the order ends with its own status; the mark is
spent (R154, R155). -/
theorem test_port_order_marked_while_executing :
    (match exec (.zeroWrite 1 0 allOk) (took up false false) with
      | .next t => (match exec (.portOpen (some (blockOf 5 0x10003 0 0 0 0)) allOk) t with
        | .next u => decide ((t.channel 1).abortReq = true ∧ (u.channel 1).pointer = 0x80000040 ∧
            (u.channel 1).abortReq = false ∧ (u.port 3).state = .opened)
        | _ => false)
      | _ => false) = true := by decide

/-- Port 3 OPEN with two frames on lane 5 that may go as surplus. -/
def twoFrames (f : Port → Port) : State := at3 fun q => f (opened (q.setLane 5 (laneOf (entryOf 0 0 0 .one 0) 0 [64, 65])))

/-- The second decision left for later: one release, and the port owes the other (R48). -/
theorem test_second_decision_left_for_later :
    (match exec (.resume 3 true) (twoFrames fun q => { q with flow := .held }) with
      | .next t => decide ((t.port 3).older ≠ none ∧ (t.port 3).younger = none ∧ t.retests = [3] ∧ t.outQueue.length = 1)
      | _ => false) = true := by decide

/-- A second decision owed is made once no command waits, and not where a HOLD has come between (R48, R77). -/
theorem test_second_decision_made_or_stopped :
    (match step { twoFrames id with retests := [3] }, step { (twoFrames fun q => { q with flow := .held }) with retests := [3] }
      with
      | .next t, .next u => decide (t.outQueue.length = 2 ∧ t.retests = [] ∧ u.outQueue = [] ∧ u.retests = [])
      | _, _ => false) = true := by decide

/-- One byte too many slips the division: the HOLD after it is a bad message, and one byte of it is held (R133, R136). -/
theorem test_a_stray_byte_slips_the_stream :
    (match exec (.hold 3) { up with inPartial := [0x00] } with
      | .next t => decide (t.badCount = 1 ∧ (t.port 3).flow = .flowing ∧ t.inPartial = [0xCC])
      | _ => false) = true := by decide

end Sys2Proof.Tests
end

/-! PROOFS. The rules of Chapter 1 lane by lane: frame sizes and eligibility (O21), the dither (O29), accrual and the refresh
balance rule (O30). -/

namespace Sys2Proof.Machine

/-! ## Frame sizes and eligibility (R6, R15, R16) -/

/-- The frame size is the least whole number of credit units of 8 bytes that holds the frame (R6). -/
theorem frameSize_bounds (len : BitVec 14) :
    8 * frameSize len < len.toNat + 8 ∧ len.toNat ≤ 8 * frameSize len := by
  unfold frameSize; omega

theorem Lane.headSize_eq_some_iff {l : Lane} {u : Nat} :
    l.headSize = some u ↔ ∃ (e : Entry) (rest : List Entry), l.list = e :: rest ∧ frameSize e.len = u := by
  unfold Lane.headSize
  cases l.list with
  | nil => simp
  | cons e rest => simp

theorem Lane.accrues_iff (l : Lane) :
    l.accrues = true ↔ l.entry.isOpen = true ∧ (l.entry.gc ≠ 0 ∨ l.entry.gf ≠ 0) := by
  unfold Lane.accrues
  rw [Bool.and_eq_true, hasRate_iff]

theorem Lane.assuredEligible_iff_headSize (l : Lane) :
    l.assuredEligible = true ↔ ∃ u : Nat, l.headSize = some u ∧ l.accrues = true ∧
      ((u : Int) ≤ l.balance ∨ l.balance = (l.entry.cap.toNat : Int)) := by
  unfold Lane.assuredEligible
  cases l.headSize with
  | none => simp
  | some u => simp

/-- Assured eligibility, the full-bucket rule included (R15). -/
theorem Lane.assuredEligible_iff (l : Lane) :
    l.assuredEligible = true ↔
      ∃ (e : Entry) (rest : List Entry), l.list = e :: rest ∧ l.entry.isOpen = true ∧
        (l.entry.gc ≠ 0 ∨ l.entry.gf ≠ 0) ∧
        ((frameSize e.len : Int) ≤ l.balance ∨ l.balance = (l.entry.cap.toNat : Int)) := by
  simp only [l.assuredEligible_iff_headSize, Lane.headSize_eq_some_iff, l.accrues_iff]
  constructor
  · rintro ⟨_, ⟨e, rest, hl, rfl⟩, ⟨ho, hr⟩, hb⟩
    exact ⟨e, rest, hl, ho, hr, hb⟩
  · rintro ⟨e, rest, hl, ho, hr, hb⟩
    exact ⟨_, ⟨e, rest, hl, rfl⟩, ⟨ho, hr⟩, hb⟩

/-- Surplus eligibility (R16). -/
theorem Lane.surplusEligible_iff (l : Lane) :
    l.surplusEligible = true ↔ l.list ≠ [] ∧ l.entry.isOpen = true ∧ l.entry.tier ≠ .none := by
  simp [Lane.surplusEligible]

/-- Settles O21, from the rules of R6, R15 and R16 one by one. -/
theorem eligibilityRules : Obligations.EligibilityRules :=
  ⟨storedLength_toNat, frameSize_bounds, fun l => ⟨l.assuredEligible_iff, l.surplusEligible_iff⟩⟩

/-! ## The dither (R11, R13) -/

theorem reverse6_lt (d : Nat) : reverse6 d < 64 := by
  unfold reverse6; omega

/-- The reversal puts bit i of an index at place 5 - i (R11). -/
theorem reverse6_testBit : ∀ (d : Fin 64) (i : Fin 6), (reverse6 d.val).testBit (5 - i.val) = d.val.testBit i.val := by
  decide

/-- Over the 64 indexes the reversal takes every value below 64 once. -/
theorem reverse6_range_perm : ((List.range 64).map reverse6).Perm (List.range 64) := by
  decide

/-- The round count wraps at a multiple of 64, so the dither index of a later round depends on the rounds between alone. -/
theorem ditherIndex_add (n : BitVec 32) (src : SourceIx) (i : Nat) :
    ditherIndex (n + BitVec.ofNat 32 i) src = (ditherIndex n src + i) % 64 := by
  unfold ditherIndex
  rw [BitVec.toNat_add, BitVec.toNat_ofNat]
  omega

/-- The dither indexes of any 64 consecutive rounds are all 64, each once. -/
theorem shifted_range_perm (m k : Nat) : ((List.range m).map fun i => (k + i) % m).Perm (List.range m) := by
  have hrot : ((List.range m).map fun i => (k + i) % m) = (List.range m).rotate k := by
    apply List.ext_getElem
    · simp
    · intro i _ _
      simp [List.getElem_rotate, Nat.add_comm]
  rw [hrot]
  exact List.rotate_perm _ _

/-- The unit an index earns whose reversal is r, at a fractional rate of g sixty-fourths: one where r lies below g. -/
def unitBelow (g r : Nat) : Nat := if r < g then 1 else 0

theorem extraUnit_eq_unitBelow (n : BitVec 32) (src : SourceIx) (gf : BitVec 6) :
    extraUnit n src gf = unitBelow gf.toNat (reverse6 (ditherIndex n src)) := rfl

/-- Of the numbers below m, as many lie below g as g and m both allow. -/
theorem sum_unitBelow_range (g m : Nat) : ((List.range m).map (unitBelow g)).sum = min g m := by
  induction m with
  | zero => simp
  | succ m ih =>
    rw [List.range_succ, List.map_append, List.sum_append, ih, List.map_singleton, List.sum_singleton, unitBelow]
    split <;> omega

/-- Any 64 consecutive rounds give exactly Gf extra units (R13): their dither indexes are all 64, the reversal permutes them,
and Gf of the reversals lie below Gf. -/
theorem sum_extraUnit (n : BitVec 32) (src : SourceIx) (gf : BitVec 6) :
    ((List.range 64).map fun i => extraUnit (n + BitVec.ofNat 32 i) src gf).sum = gf.toNat :=
  calc ((List.range 64).map fun i => extraUnit (n + BitVec.ofNat 32 i) src gf).sum
      = ((((List.range 64).map fun i => (ditherIndex n src + i) % 64).map reverse6).map (unitBelow gf.toNat)).sum := by
        simp only [extraUnit_eq_unitBelow, ditherIndex_add, List.map_map, Function.comp_def]
    _ = (((List.range 64).map reverse6).map (unitBelow gf.toNat)).sum :=
        (((shifted_range_perm 64 _).map reverse6).map _).sum_eq
    _ = ((List.range 64).map (unitBelow gf.toNat)).sum := (reverse6_range_perm.map _).sum_eq
    _ = min gf.toNat 64 := sum_unitBelow_range _ _
    _ = gf.toNat := min_eq_left gf.isLt.le

/-- Settles O29: the sum over 64 rounds by permuting the dither indexes. -/
theorem ditherRule : Obligations.DitherRule :=
  ⟨fun _ _ _ => rfl, fun d => ⟨reverse6_lt d.val, reverse6_testBit d⟩, sum_extraUnit⟩

/-! ## Accrual and the refresh balance rule (R10, R12, R22) -/

theorem clampToCap_eq (a : Int) (cap : BitVec 16) :
    clampToCap a cap = (min a (cap.toNat : Int), (a - cap.toNat).toNat) := by
  unfold clampToCap
  split
  · rw [min_eq_right (by omega)]
  · rw [min_eq_left (by omega), Int.toNat_of_nonpos (by omega)]

theorem clampToCap_of_le {a : Int} {cap : BitVec 16} (h : a ≤ (cap.toNat : Int)) : clampToCap a cap = (a, 0) :=
  if_neg (by omega)

theorem clampToCap_of_lt {a : Int} {cap : BitVec 16} (h : (cap.toNat : Int) < a) :
    clampToCap a cap = ((cap.toNat : Int), (a - cap.toNat).toNat) :=
  if_pos h

/-- A balance kept as it is, with no spill, leaves the lane as it is. -/
theorem Lane.withBalance_self (l : Lane) : l.withBalance (l.balance, 0) = l := by
  unfold Lane.withBalance
  rw [satAdd_zero]

/-- Accrual of an open lane with a rate, up to its cap (R10, R12). -/
theorem Lane.accrue_of_accrues {l : Lane} (h : l.accrues = true) (n : BitVec 32) (src : SourceIx) :
    l.accrue n src = { l with
      balance := min (l.balance + l.entry.gc.toNat + extraUnit n src l.entry.gf) l.entry.cap.toNat
      tally := { l.tally with
        spill := satAdd l.tally.spill
          (l.balance + l.entry.gc.toNat + extraUnit n src l.entry.gf - l.entry.cap.toNat).toNat } } := by
  unfold Lane.accrue
  rw [if_pos h, clampToCap_eq, Nat.cast_add, ← Int.add_assoc]
  rfl

/-- A lane that is not open or has no rate is passed over (R10). -/
theorem Lane.accrue_of_not_accrues {l : Lane} (h : ¬ l.accrues = true) (n : BitVec 32) (src : SourceIx) :
    l.accrue n src = l :=
  if_neg h

theorem Lane.refresh_of_no_rate {e : EffEntry} (h : ¬ hasRate e.gc e.gf = true) (l : Lane) :
    l.refresh e = { l with entry := e, balance := 0 } :=
  if_neg h

theorem Lane.refresh_of_rate {e : EffEntry} (h : hasRate e.gc e.gf = true) (l : Lane) :
    l.refresh e = ({ l with entry := e }).withBalance (clampToCap l.balance e.cap) :=
  if_pos h

/-- Settles O30, by the cases of accrual and of the refresh balance rule. -/
theorem balanceRules : Obligations.BalanceRules := by
  refine ⟨fun n src l => ⟨fun ho hr => ?_, fun hc => ?_⟩, fun e l => ⟨fun hc hf => ?_, fun hr hb => ?_, fun hr hb => ?_⟩⟩
  · exact Lane.accrue_of_accrues (l.accrues_iff.2 ⟨ho, hr⟩) n src
  · refine Lane.accrue_of_not_accrues (fun ha => ?_) n src
    obtain ⟨ho, hr⟩ := l.accrues_iff.1 ha
    rcases hc with hc | ⟨hgc, hgf⟩
    · exact absurd ho (by simp [hc])
    · exact hr.elim (· hgc) (· hgf)
  · exact Lane.refresh_of_no_rate (by simp [hasRate, hc, hf]) l
  · rw [Lane.refresh_of_rate ((hasRate_iff _ _).2 hr), clampToCap_of_lt hb]
    rfl
  · rw [Lane.refresh_of_rate ((hasRate_iff _ _).2 hr), clampToCap_of_le hb]
    exact Lane.withBalance_self { l with entry := e }

end Sys2Proof.Machine

/-! PROOFS. Every command keeps ports, banks and pins in order (`State.Fine`), so every step does; from that the bounds of every
balance (O57). -/

namespace Sys2Proof.Machine

/-! ## The ends that many commands share -/

/-- The executor's taking of the next channel, after an operation, adds nothing to what that operation keeps. -/
theorem State.Fine.takeNext {s t : State} (h : s.Fine t) : s.Fine t.takeNext := h.trans t.takeNext_still.fine

theorem State.simpleOrder_takeNext_fine (s : State) (block : Option OrderBlock) (bus : CompletionBus)
    {act : OrderBlock → State → State × OrderResult} (h : ∀ b (t : State), t.PGood (act b t).1) :
    s.Fine (s.simpleOrder block bus act).takeNext :=
  (s.simpleOrder_fine block bus act h).takeNext

theorem State.portOrder_takeNext_fine (s : State) (block : Option OrderBlock) (bus : CompletionBus)
    {act : PortIx → OrderBlock → State → State × OrderResult} (h : ∀ p b (t : State), t.PGood (act p b t).1) :
    s.Fine (s.portOrder block bus act).takeNext :=
  (s.portOrder_fine block bus act h).takeNext

theorem State.levelsOrder_good (s : State) (b : OrderBlock) : s.PGood (s.levelsOrder b).1 :=
  State.PGood.of_ports rfl rfl rfl

/-- A round expiry that comes only under a condition (log 6). -/
theorem State.roundExpiry_if_fine (s : State) (p : PortIx) (c : Bool) : s.Fine (if c then s.roundExpiry p else s) := by
  cases c
  · exact State.Fine.refl s
  · exact s.roundExpiry_fine p

theorem State.assertLine_fine (s : State) : s.Fine s.assertLine :=
  s.assertLine_good.fine (State.execOf s.assertLine_execSame)

theorem State.withdrawLine_fine (s : State) (order : List PortIx) : s.Fine (s.withdrawLine order) :=
  (s.withdrawLine_good order).fine (State.execOf (s.withdrawLine_execSame order))

theorem State.sendHead_fine (s : State) : s.Fine s.sendHead :=
  s.sendHead_good.fine (State.execOf s.sendHead_execSame)

/-! ## Commands that depend on what the executor does -/

theorem execAbortedUnread_fine (bus : CompletionBus) (s : State) : ∃ t, execAbortedUnread bus s = .next t ∧ s.Fine t := by
  refine ⟨_, rfl, ?_⟩
  split
  · exact State.Fine.refl s
  · rename_i c unread _
    cases unread
    · exact State.Fine.refl s
    · exact (State.finish_fine (State.PGood.of_ports rfl rfl rfl : s.PGood (s.beginExecuting c)) _ _ _ _).takeNext

theorem execLoadEntryRead_fine (entry : Option TableEntry) (abortFirst : Bool) (bus : CompletionBus) (s : State) :
    ∃ t, execLoadEntryRead entry abortFirst bus s = .next t ∧ s.Fine t := by
  refine ⟨_, rfl, ?_⟩
  split
  case h_3 j hj => exact (State.loadEntry_fine hj entry abortFirst bus).takeNext
  all_goals exact State.Fine.refl s

theorem execCollectRecord_fine (written : Bool) (bus : CompletionBus) (s : State) :
    ∃ t, execCollectRecord written bus s = .next t ∧ s.Fine t := by
  refine ⟨_, rfl, ?_⟩
  split
  case h_4 j _ => exact (s.collectWritten_fine j written bus).takeNext
  all_goals exact State.Fine.refl s

theorem execSurveyRecord_fine (written : Bool) (bus : CompletionBus) (s : State) :
    ∃ t, execSurveyRecord written bus s = .next t ∧ s.Fine t := by
  refine ⟨_, rfl, ?_⟩
  split
  case h_5 j _ => exact (s.surveyWritten_fine j written bus).takeNext
  all_goals exact State.Fine.refl s

/-! ## Every command, every step -/

/-- Every command answers a next state and keeps ports, banks and pins in order. -/
theorem exec_fine (i : Instr) (s : State) : ∃ t : State, exec i s = .next t ∧ s.Fine t := by
  cases i with
  | deviceReset => exact ⟨_, rfl, s.deviceReset_fine⟩
  | linkUp => exact ⟨_, rfl, s.assertLine_fine⟩
  | linkLoss order => exact ⟨_, rfl, s.withdrawLine_fine order⟩
  | arrival p src len h later => exact ⟨_, rfl, receiveBytes_fine _ later s⟩
  | done p tag later => exact ⟨_, rfl, receiveBytes_fine _ later s⟩
  | hold p => exact ⟨_, rfl, receiveBytes_fine _ false s⟩
  | resume p later => exact ⟨_, rfl, receiveBytes_fine _ later s⟩
  | clock m => exact ⟨_, rfl, receiveBytes_fine _ false s⟩
  | badMessage bytes later => exact ⟨_, rfl, receiveBytes_fine bytes later s⟩
  | outboundMessageSent => exact ⟨_, rfl, s.sendHead_fine⟩
  | roundExpiry p => exact ⟨_, rfl, s.roundExpiry_fine p⟩
  | expiry p => exact ⟨_, rfl, s.roundExpiry_if_fine p _⟩
  | stall p => exact ⟨_, rfl, s.roundExpiry_if_fine p _⟩
  | addressWrite c v lag => exact ⟨_, rfl, (s.pointerWrite_still c v lag busAllOk).fine⟩
  | zeroWrite c v bus => exact ⟨_, rfl, (s.pointerWrite_still c v false bus).fine⟩
  | attnWrite v => exact ⟨_, rfl, State.Still.fine ⟨rfl, rfl, rfl, rfl, rfl, rfl⟩⟩
  | attnMaskWrite v => exact ⟨_, rfl, State.Still.fine ⟨rfl, rfl, rfl, rfl, rfl, rfl⟩⟩
  | unmappedRegisterWrite offset width v => exact ⟨_, rfl, (s.registerWrite_still offset width v).fine⟩
  | abortedUnread bus => exact execAbortedUnread_fine bus s
  | unknownOrderCode block bus => exact ⟨_, rfl, s.simpleOrder_takeNext_fine block bus fun _ t => State.PGood.refl t⟩
  | load block bus abortFirst =>
    exact ⟨_, rfl, (s.takeOrder_fine block bus _ fun c b t => t.beginLoad_fine c b abortFirst bus).takeNext⟩
  | loadEntryRead entry abortFirst bus => exact execLoadEntryRead_fine entry abortFirst bus s
  | window block bus => exact ⟨_, rfl, s.simpleOrder_takeNext_fine block bus fun b t => t.windowOrder_good b⟩
  | pin block bus => exact ⟨_, rfl, s.simpleOrder_takeNext_fine block bus fun b t => t.pinOrder_good b⟩
  | levels block bus => exact ⟨_, rfl, s.simpleOrder_takeNext_fine block bus fun b t => t.levelsOrder_good b⟩
  | portOpen block bus => exact ⟨_, rfl, s.portOrder_takeNext_fine block bus fun p _ t => t.portOpenAction_good p⟩
  | portClose block bus => exact ⟨_, rfl, s.portOrder_takeNext_fine block bus fun p _ t => t.portCloseAction_good p⟩
  | portClear block bus => exact ⟨_, rfl, s.portOrder_takeNext_fine block bus fun p _ t => t.portClearAction_good p⟩
  | portRetire block bus =>
    exact ⟨_, rfl, s.portOrder_takeNext_fine block bus fun p b t => t.portRetireAction_good p b.successor?⟩
  | portSet block bus => exact ⟨_, rfl, s.portOrder_takeNext_fine block bus fun p b t => t.portSetAction_good p b⟩
  | collect block bus =>
    exact ⟨_, rfl, (s.takeOrder_fine block bus _ fun c b t => t.beginCollect_fine c b bus).takeNext⟩
  | collectRecord written bus => exact execCollectRecord_fine written bus s
  | survey block bus =>
    exact ⟨_, rfl, (s.takeOrder_fine block bus _ fun c b t => t.beginSurvey_fine c b bus).takeNext⟩
  | surveyRecord written bus => exact execSurveyRecord_fine written bus s
  | trace block bus =>
    exact ⟨_, rfl, (s.takeOrder_fine block bus _ fun c b t => t.beginTrace_fine c b bus).takeNext⟩
  | traceOffer => exact ⟨_, rfl, s.offerStep_still.fine⟩
  | traceAreaWrite written bus => exact ⟨_, rfl, (s.traceWritten_still written bus).fine⟩
  | staleTimerExpiry bus => exact ⟨_, rfl, (s.staleTimer_still bus).fine⟩
  | portBadAction block bus => exact ⟨_, rfl, s.portOrder_takeNext_fine block bus fun _ _ t => State.PGood.refl t⟩

/-- The command at the front leaves the queue before it is carried out; nothing else changes by that. -/
theorem State.setPending_fine (s : State) (cs : List Instr) : s.Fine { s with pending := cs } :=
  State.Still.fine ⟨rfl, rfl, rfl, rfl, rfl, rfl⟩

/-- A step is the block's idling, or a command of the queue carried out on what is left of it. -/
theorem step_cases {s t : State} (h : step s = .next t) :
    (s.pending = [] ∧ t = s.idle) ∨
      ∃ (i : Instr) (rest : List Instr), s.pending = i :: rest ∧ exec i { s with pending := rest } = .next t := by
  unfold step at h
  split at h
  · rename_i hp
    obtain rfl := Host.Outcome.next.inj h
    exact .inl ⟨hp, rfl⟩
  · rename_i i rest hp
    exact .inr ⟨i, rest, hp, h⟩

/-- Every step keeps ports, banks and pins in order. -/
theorem step_fine {s t : State} (h : step s = .next t) : s.Fine t := by
  rcases step_cases h with ⟨_, rfl⟩ | ⟨i, rest, _, hexec⟩
  · exact s.idle_fine
  · obtain ⟨u, hu, hfine⟩ := exec_fine i { s with pending := rest }
    obtain rfl := Host.Outcome.next.inj (hu.symm.trans hexec)
    exact (s.setPending_fine rest).trans hfine

/-- Settles O57: the balances' bounds are part of what every step keeps of a port whose banks and pins are in order. -/
theorem balancesStayBounded : Obligations.BalancesStayBounded := by
  intro s t hbanks hpins hcredit hstep
  have hfine := step_fine hstep
  obtain ⟨hbanks', hpins'⟩ := hfine.shares hbanks hpins
  exact ⟨hbanks', hpins', fun p => (hfine.port p).credit ⟨hbanks, hpins⟩ (hcredit p)⟩

end Sys2Proof.Machine

/-! PROOFS. What every step keeps of card memory, the pool, the levels and the link (O55). -/

namespace Sys2Proof.Machine

/-! ## The executor's side and the pool together -/

/-- What a step keeps of the executor's side (card memory, job, channels, trace) and of pool, levels and link. -/
structure State.Sound (s t : State) : Prop where
  exec : s.ExecKeeps t
  poolLink : s.PoolLink t

theorem State.Sound.refl (s : State) : s.Sound s := ⟨State.ExecKeeps.refl s, State.PoolLink.refl s⟩

theorem State.Sound.trans {s t u : State} (h : s.Sound t) (k : t.Sound u) : s.Sound u :=
  ⟨h.exec.trans k.exec, h.poolLink.trans k.poolLink⟩

/-- An operation of the executor's side that leaves the entries where they are. -/
theorem State.Sound.of_keeps {s t : State} (h : s.ExecKeeps t) (k : s.Flows 0 t) : s.Sound t := ⟨h, k.poolLink⟩

/-- An event of a port, which leaves the executor's side, and moves entries without adding any. -/
theorem State.Sound.of_event {s t : State} (h : s.PortSide t) (k : s.Flows 0 t) : s.Sound t := .of_keeps h.exec.keeps k

/-- The executor's taking of the next channel, after an operation. -/
theorem State.Sound.takeNext {s t : State} (h : s.Sound t) : s.Sound t.takeNext :=
  h.trans (.of_keeps t.takeNext_keeps t.takeNext_flows)

/-- The command at the front leaves the queue of commands. -/
theorem State.setPending_sound (s : State) (cs : List Instr) : s.Sound { s with pending := cs } :=
  .of_keeps ⟨id, id, id, fun h => h.congr rfl rfl rfl (fun _ => id) rfl⟩ (State.exec_flows rfl)

/-! ## Events of ports and of the link -/

theorem State.idle_sound (s : State) : s.Sound s.idle := .of_event s.portSide_idle s.idle_flows

theorem State.roundExpiry_sound (s : State) (p : PortIx) : s.Sound (s.roundExpiry p) :=
  .of_event (s.portSide_roundExpiry p) (s.roundExpiry_flows p)

/-- A round expiry that comes only under a condition (log 6). -/
theorem State.roundExpiry_if_sound (s : State) (p : PortIx) (c : Bool) : s.Sound (if c then s.roundExpiry p else s) := by
  cases c
  · exact State.Sound.refl s
  · exact s.roundExpiry_sound p

theorem receiveBytes_sound (bs : List Byte) (later : Bool) (s : State) : s.Sound (receiveBytes bs later s) :=
  ⟨(receiveBytes_execSame bs later s).keeps, receiveBytes_poolLink bs later s⟩

theorem State.sendHead_sound (s : State) : s.Sound s.sendHead := ⟨s.sendHead_execSame.keeps, s.sendHead_poolLink⟩

theorem State.assertLine_sound (s : State) : s.Sound s.assertLine := ⟨s.assertLine_execSame.keeps, s.assertLine_poolLink⟩

theorem State.withdrawLine_sound (s : State) (order : List PortIx) : s.Sound (s.withdrawLine order) :=
  ⟨(s.withdrawLine_execSame order).keeps, s.withdrawLine_poolLink order⟩

theorem State.deviceReset_sound (s : State) : s.Sound s.deviceReset := ⟨s.deviceReset_keeps, s.deviceReset_poolLink⟩

/-! ## Register writes -/

theorem State.pointerWrite_sound (s : State) (c : ChannelIx) (v : Word) (lag : Bool) (bus : CompletionBus) :
    s.Sound (s.pointerWrite c v lag bus) :=
  .of_keeps (s.pointerWrite_keeps c v lag bus) (s.pointerWrite_flows c v lag bus)

theorem State.writeAttn_sound (s : State) (v : Word) : s.Sound (s.writeAttn v) :=
  .of_keeps (s.writeAttn_keeps v) (State.exec_flows rfl)

theorem State.writeAttnMask_sound (s : State) (v : Word) : s.Sound (s.writeAttnMask v) :=
  .of_keeps ⟨id, id, id, fun h => h.congr rfl rfl rfl (fun _ => id) rfl⟩ (State.exec_flows rfl)

theorem State.registerWrite_sound (s : State) (offset width : Nat) (v : Word) : s.Sound (s.registerWrite offset width v) :=
  .of_keeps (s.registerWrite_keeps offset width v) (s.registerWrite_flows offset width v)

/-! ## The actions of the PORT order -/

/-- A port's state moves no entry. -/
theorem State.setPortState_flows (s : State) (p : PortIx) (x : PortState) :
    s.Flows 0 (s.updPort p fun q => { q with state := x }) :=
  s.updPort_flows' p (fun q => { q with state := x }) fun _ => ⟨rfl, rfl, rfl⟩

theorem State.portOpenAction_flows (s : State) (p : PortIx) : s.Flows 0 (s.portOpenAction p).1 := by
  unfold State.portOpenAction
  cases (s.port p).state with
  | closed => exact s.openPort_flows p
  | draining => exact s.setPortState_flows p .opened
  | opened => exact State.Flows.refl s
  | retired x => exact s.openPort_flows p

theorem State.portCloseAction_flows (s : State) (p : PortIx) : s.Flows 0 (s.portCloseAction p).1 := by
  unfold State.portCloseAction
  cases (s.port p).state with
  | closed => exact State.Flows.refl s
  | draining => exact State.Flows.refl s
  | opened => exact (s.setPortState_flows p .draining).zero (State.drain_flows _ p)
  | retired x => exact State.Flows.refl s

theorem State.portClearAction_flows (s : State) (p : PortIx) : s.Flows 0 (s.portClearAction p).1 := by
  unfold State.portClearAction
  cases (s.port p).state with
  | closed => exact s.clearPort_flows p
  | draining => exact s.clearPort_flows p
  | opened => exact State.Flows.refl s
  | retired x => exact State.Flows.refl s

/-- A RETIRE that is refused changes nothing; one carried out changes the port's state alone. -/
theorem State.portRetireAction_flows (s : State) (p : PortIx) (successor : Option PortIx) :
    s.Flows 0 (s.portRetireAction p successor).1 := by
  unfold State.portRetireAction
  split
  · exact State.Flows.refl s
  · split
    · exact State.Flows.refl s
    · split
      · exact State.Flows.refl s
      · split
        · exact s.setPortState_flows p _
        · exact State.Flows.refl s

/-! ## Orders taken by the executor -/

/-- An order keeps what its run keeps, on the state in which the executor begins it. -/
theorem State.takeOrder_sound (s : State) (block : Option OrderBlock) (bus : CompletionBus)
    {run : ChannelIx → OrderBlock → State → State}
    (h : ∀ c b, s.nextChannel = some (c, false) → s.ExecKeeps (run c b (s.beginExecuting c)))
    (k : ∀ c b (t : State), t.Flows 0 (run c b t)) : s.Sound (s.takeOrder block bus run).takeNext :=
  State.Sound.takeNext ⟨s.takeOrder_keeps block bus run h, s.takeOrder_poolLink block bus run fun c b t => (k c b t).poolLink⟩

theorem State.simpleOrder_sound (s : State) (block : Option OrderBlock) (bus : CompletionBus)
    {act : OrderBlock → State → State × OrderResult} (h : ∀ b (t : State), t.ExecSame (act b t).1)
    (k : ∀ b (t : State), t.PoolLink (act b t).1) : s.Sound (s.simpleOrder block bus act).takeNext :=
  State.Sound.takeNext ⟨s.simpleOrder_keeps block bus act h, s.simpleOrder_poolLink block bus act k⟩

theorem State.portOrder_sound (s : State) (block : Option OrderBlock) (bus : CompletionBus)
    {act : PortIx → OrderBlock → State → State × OrderResult} (h : ∀ p b (t : State), t.ExecSame (act p b t).1)
    (k : ∀ p b (t : State), t.Flows 0 (act p b t).1) : s.Sound (s.portOrder block bus act).takeNext :=
  State.Sound.takeNext ⟨s.portOrder_keeps block bus act h, s.portOrder_poolLink block bus act k⟩

theorem State.levelsOrder_execSame (s : State) (b : OrderBlock) : s.ExecSame (s.levelsOrder b).1 :=
  State.ExecSame.of_frame rfl rfl rfl rfl rfl rfl rfl

theorem execAbortedUnread_sound (bus : CompletionBus) (s : State) :
    ∃ t, execAbortedUnread bus s = .next t ∧ s.Sound t := by
  refine ⟨_, rfl, ?_⟩
  split
  · exact State.Sound.refl s
  · rename_i c unread hn
    cases unread
    · exact State.Sound.refl s
    · exact (State.Sound.of_keeps (State.takes_finish hn (State.ExecSame.refl _) _ _ _)
        ((State.finish_flows _ _ _ _ _).after (State.exec_flows (t := s.beginExecuting c) rfl))).takeNext

theorem execLoadEntryRead_sound (entry : Option TableEntry) (abortFirst : Bool) (bus : CompletionBus) (s : State) :
    ∃ t, execLoadEntryRead entry abortFirst bus s = .next t ∧ s.Sound t := by
  refine ⟨_, rfl, ?_⟩
  split
  case h_3 j hj =>
    exact (State.Sound.of_keeps (State.loadEntry_keeps hj entry abortFirst bus)
      (s.loadEntry_flows j entry abortFirst bus)).takeNext
  all_goals exact State.Sound.refl s

theorem execCollectRecord_sound (written : Bool) (bus : CompletionBus) (s : State) :
    ∃ t, execCollectRecord written bus s = .next t ∧ s.Sound t := by
  refine ⟨_, rfl, ?_⟩
  split
  case h_4 j hj =>
    exact (State.Sound.of_keeps (State.collectWritten_keeps hj written bus) (s.collectWritten_flows j written bus)).takeNext
  all_goals exact State.Sound.refl s

theorem execSurveyRecord_sound (written : Bool) (bus : CompletionBus) (s : State) :
    ∃ t, execSurveyRecord written bus s = .next t ∧ s.Sound t := by
  refine ⟨_, rfl, ?_⟩
  split
  case h_5 j hj =>
    exact (State.Sound.of_keeps (State.surveyWritten_keeps hj written bus) (s.surveyWritten_flows j written bus)).takeNext
  all_goals exact State.Sound.refl s

/-! ## Every command, every step -/

/-- Every command answers a next state and keeps the executor's side, the pool, the levels and the link in order. -/
theorem exec_sound (i : Instr) (s : State) : ∃ t : State, exec i s = .next t ∧ s.Sound t := by
  cases i with
  | deviceReset => exact ⟨_, rfl, s.deviceReset_sound⟩
  | linkUp => exact ⟨_, rfl, s.assertLine_sound⟩
  | linkLoss order => exact ⟨_, rfl, s.withdrawLine_sound order⟩
  | arrival p src len h later => exact ⟨_, rfl, receiveBytes_sound _ later s⟩
  | done p tag later => exact ⟨_, rfl, receiveBytes_sound _ later s⟩
  | hold p => exact ⟨_, rfl, receiveBytes_sound _ false s⟩
  | resume p later => exact ⟨_, rfl, receiveBytes_sound _ later s⟩
  | clock m => exact ⟨_, rfl, receiveBytes_sound _ false s⟩
  | badMessage bytes later => exact ⟨_, rfl, receiveBytes_sound bytes later s⟩
  | outboundMessageSent => exact ⟨_, rfl, s.sendHead_sound⟩
  | roundExpiry p => exact ⟨_, rfl, s.roundExpiry_sound p⟩
  | expiry p => exact ⟨_, rfl, s.roundExpiry_if_sound p _⟩
  | stall p => exact ⟨_, rfl, s.roundExpiry_if_sound p _⟩
  | addressWrite c v lag => exact ⟨_, rfl, s.pointerWrite_sound c v lag busAllOk⟩
  | zeroWrite c v bus => exact ⟨_, rfl, s.pointerWrite_sound c v false bus⟩
  | attnWrite v => exact ⟨_, rfl, s.writeAttn_sound v⟩
  | attnMaskWrite v => exact ⟨_, rfl, s.writeAttnMask_sound v⟩
  | unmappedRegisterWrite offset width v => exact ⟨_, rfl, s.registerWrite_sound offset width v⟩
  | abortedUnread bus => exact execAbortedUnread_sound bus s
  | unknownOrderCode block bus =>
    exact ⟨_, rfl, s.simpleOrder_sound block bus (fun _ t => State.ExecSame.refl t) fun _ t => State.PoolLink.refl t⟩
  | load block bus abortFirst =>
    exact ⟨_, rfl, s.takeOrder_sound block bus (fun _ b hn => State.beginLoad_keeps b abortFirst bus hn)
      fun c b t => t.beginLoad_flows c b abortFirst bus⟩
  | loadEntryRead entry abortFirst bus => exact execLoadEntryRead_sound entry abortFirst bus s
  | window block bus =>
    exact ⟨_, rfl, s.simpleOrder_sound block bus (fun b t => t.windowOrder_execSame b)
      fun b t => (t.windowOrder_flows b).poolLink⟩
  | pin block bus =>
    exact ⟨_, rfl, s.simpleOrder_sound block bus (fun b t => t.pinOrder_execSame b)
      fun b t => (t.pinOrder_flows b).poolLink⟩
  | levels block bus =>
    exact ⟨_, rfl, s.simpleOrder_sound block bus (fun b t => t.levelsOrder_execSame b) fun b t => t.levelsOrder_poolLink b⟩
  | portOpen block bus =>
    exact ⟨_, rfl, s.portOrder_sound block bus (fun p _ t => (t.portSide_portOpenAction p).exec)
      fun p _ t => t.portOpenAction_flows p⟩
  | portClose block bus =>
    exact ⟨_, rfl, s.portOrder_sound block bus (fun p _ t => (t.portSide_portCloseAction p).exec)
      fun p _ t => t.portCloseAction_flows p⟩
  | portClear block bus =>
    exact ⟨_, rfl, s.portOrder_sound block bus (fun p _ t => (t.portSide_portClearAction p).exec)
      fun p _ t => t.portClearAction_flows p⟩
  | portRetire block bus =>
    exact ⟨_, rfl, s.portOrder_sound block bus (fun p b t => (t.portSide_portRetireAction p b.successor?).exec)
      fun p b t => t.portRetireAction_flows p b.successor?⟩
  | portSet block bus =>
    exact ⟨_, rfl, s.portOrder_sound block bus (fun p b t => t.portSetAction_execSame p b)
      fun p b t => t.portSetAction_flows p b⟩
  | collect block bus =>
    exact ⟨_, rfl, s.takeOrder_sound block bus (fun _ b hn => State.beginCollect_keeps b bus hn)
      fun c b t => t.beginCollect_flows c b bus⟩
  | collectRecord written bus => exact execCollectRecord_sound written bus s
  | survey block bus =>
    exact ⟨_, rfl, s.takeOrder_sound block bus (fun _ b hn => State.beginSurvey_keeps b bus hn)
      fun c b t => t.beginSurvey_flows c b bus⟩
  | surveyRecord written bus => exact execSurveyRecord_sound written bus s
  | trace block bus =>
    exact ⟨_, rfl, s.takeOrder_sound block bus (fun _ b hn => State.beginTrace_keeps b bus hn)
      fun c b t => t.beginTrace_flows c b bus⟩
  | traceOffer => exact ⟨_, rfl, .of_keeps s.offerStep_keeps s.offerStep_flows⟩
  | traceAreaWrite written bus =>
    exact ⟨_, rfl, .of_keeps (s.traceWritten_keeps written bus) (s.traceWritten_flows written bus)⟩
  | staleTimerExpiry bus => exact ⟨_, rfl, .of_keeps (s.staleTimer_keeps bus) (s.staleTimer_flows bus)⟩
  | portBadAction block bus =>
    exact ⟨_, rfl, s.portOrder_sound block bus (fun _ _ t => State.ExecSame.refl t) fun _ _ t => State.Flows.refl t⟩

/-- Every step keeps the executor's side, the pool, the levels and the link in order. -/
theorem step_sound {s t : State} (h : step s = .next t) : s.Sound t := by
  rcases step_cases h with ⟨_, rfl⟩ | ⟨i, rest, _, hexec⟩
  · exact s.idle_sound
  · obtain ⟨u, hu, hsound⟩ := exec_sound i { s with pending := rest }
    obtain rfl := Host.Outcome.next.inj (hu.symm.trans hexec)
    exact (s.setPending_sound rest).trans hsound

/-- Outbound queue and lists together hold at most 256 + 8192, so the queue alone does (R142). -/
theorem State.LinkOk.outQueue_le {s : State} (h : s.LinkOk) : s.outQueue.length ≤ 8448 := by
  obtain ⟨_, _, _, hbound, _⟩ := h
  exact (Nat.le_add_right _ _).trans hbound

/-- Settles O55: all of it is part of what every step keeps. -/
theorem memoryPoolAndQueueStayBounded : Obligations.MemoryPoolAndQueueStayBounded := by
  intro s t hstep
  obtain ⟨hexec, hpool⟩ := step_sound hstep
  refine ⟨hexec.memory, hpool.pool, hpool.levels, fun hconserved hlink => ?_⟩
  have hlink' : t.LinkOk := hpool.link hconserved hlink
  exact ⟨hlink', hlink'.outQueue_le⟩

end Sys2Proof.Machine

/-! PROOFS. Link loss on an UP link (O14): what each port is left as, beside the laws of Laws/LinkLoss.lean. -/

namespace Sys2Proof.Machine

/-- A port after link loss: emptied, then its scheduler's own part (R44, R93). -/
theorem Port.emptied_linkLoss_eq (q : Port) :
    q.emptied.linkLoss = { q with
      lanes := q.emptied.linkLoss.lanes
      older := none
      younger := none
      flow := .held
      holdAge := 0
      watchLatch := { q.watchLatch with link := true }
      state := if q.state = .draining then .closed else q.state
      timer :=
        if q.state = .draining then none
        else if q.state = .opened ∧ q.flow = .stalled then some q.roundLength
        else q.timer
      tally := { q.tally with discards := satAdd q.tally.discards q.listTotal } } := by
  rw [Port.linkLoss_eq, Port.emptied_eq]

theorem Port.emptied_linkLoss_lane (q : Port) (src : SourceIx) :
    q.emptied.linkLoss.lane src = { q.lane src with list := [] } := by
  rw [Port.lane_congr (Port.linkLoss_lanes _), Port.emptied_lane]

theorem State.linkLoss_lane (s : State) (order : List PortIx) (p : PortIx) (src : SourceIx) :
    (s.linkLoss order).lane p src = { s.lane p src with list := [] } := by
  unfold State.lane
  rw [State.linkLoss_port, Port.emptied_linkLoss_lane]

/-- On an UP link the line withdrawn is link loss (R132). -/
theorem exec_linkLoss_of_linkUp {s : State} (hup : s.linkUp = true) (order : List PortIx) :
    exec (.linkLoss order) s = .next { s.linkLoss order with linkReady := false } := by
  show Host.Outcome.next (s.withdrawLine order) = _
  rw [State.withdrawLine, if_pos hup]

/-- Settles O14: the frame, the records and the ports of link loss, each by its law. -/
theorem linkLossOutcome : Obligations.LinkLossOutcome := by
  intro order s hup hnodup hlength
  refine ⟨{ s.linkLoss order with linkReady := false }, exec_linkLoss_of_linkUp hup order, ?_, fun p => ⟨fun src => ?_, ?_⟩⟩
  · rw [← s.linkLoss_tre hnodup hlength]
    exact congrArg (fun t : State => { t with linkReady := false }) (s.linkLoss_frame order)
  · exact s.linkLoss_lane order p src
  · have hport : ({ s.linkLoss order with linkReady := false } : State).port p = (s.port p).emptied.linkLoss :=
      s.linkLoss_port order p
    rw [hport]
    exact (s.port p).emptied_linkLoss_eq

end Sys2Proof.Machine

/-! PROOFS. Arrivals: the admission checks and a refusal (O18), an acceptance (O19), and an acceptance whose frame is released at
once on the lane's guarantee (O20). -/

namespace Sys2Proof.Machine

/-- An ARRIVAL that LKI takes at once goes to ADM (R135, R139). -/
theorem exec_arrival_of_takesAtOnce {s : State} (hs : s.TakesAtOnce) (p : PortIx) (src : SourceIx) (len : BitVec 14)
    (h : BitVec 16) (later : Bool) :
    exec (.arrival p src len h later) s = .next (s.takeArrival p src len h later) := by
  show Host.Outcome.next (s.receiveMessage (Message.ofArrival p src len h) later) = _
  rw [State.receiveMessage_now _ _ hs, parseMessage_ofArrival]
  rfl

/-! ## The admission checks (R29, Table 2-1) -/

section
variable {s : State} {p : PortIx} {src : SourceIx} {len : BitVec 14}

theorem State.admissionCheck_of_retired {x : PortIx} (hst : (s.port p).state = .retired x) :
    s.admissionCheck p src len = some (.moved x) := by
  simp only [State.admissionCheck, hst]

theorem State.admissionCheck_of_closed (hst : (s.port p).state = .closed) :
    s.admissionCheck p src len = some .portClosed := by
  simp only [State.admissionCheck, hst]

theorem State.admissionCheck_of_draining (hst : (s.port p).state = .draining) :
    s.admissionCheck p src len = some .portClosed := by
  simp only [State.admissionCheck, hst]

/-- At an OPEN port the checks go on with the lane and the pool. -/
theorem State.admissionCheck_of_opened (hst : (s.port p).state = .opened) :
    s.admissionCheck p src len = s.laneCheck (s.lane p src) len := by
  simp only [State.admissionCheck, hst]

end

section
variable {s : State} {l : Lane} {len : BitVec 14}

theorem State.laneCheck_of_closed (hopen : l.entry.isOpen = false) : s.laneCheck l len = some .laneClosed := by
  rw [State.laneCheck, if_pos (by simp [hopen])]

/-- On an open lane check 3 passes. -/
theorem State.laneCheck_of_open (hopen : l.entry.isOpen = true) :
    s.laneCheck l len =
      if 9216 < len.toNat then some .oversize
      else if l.entry.qmax.toNat ≤ l.list.length then some .laneFull
      else if s.freeCount = 0 then some .poolEmpty
      else if s.freeCount < s.reserve.toNat ∧ l.entry.prot = false then some .poolReserved
      else none := by
  rw [State.laneCheck, if_neg (by simp [hopen])]
  rfl

theorem State.laneCheck_of_oversize (hopen : l.entry.isOpen = true) (hlen : 9216 < len.toNat) :
    s.laneCheck l len = some .oversize := by
  rw [State.laneCheck_of_open hopen, if_pos hlen]

theorem State.laneCheck_of_full (hopen : l.entry.isOpen = true) (hlen : len.toNat ≤ 9216)
    (hfull : l.entry.qmax.toNat ≤ l.list.length) : s.laneCheck l len = some .laneFull := by
  rw [State.laneCheck_of_open hopen, if_neg (by omega), if_pos hfull]

/-- On an open lane with a place for a frame that is not too long, the pool decides. -/
theorem State.laneCheck_of_place (hopen : l.entry.isOpen = true) (hlen : len.toNat ≤ 9216)
    (hplace : l.list.length < l.entry.qmax.toNat) :
    s.laneCheck l len =
      if s.freeCount = 0 then some .poolEmpty
      else if s.freeCount < s.reserve.toNat ∧ l.entry.prot = false then some .poolReserved
      else none := by
  rw [State.laneCheck_of_open hopen, if_neg (by omega), if_neg (by omega)]

end

/-! ## Refusals (R31) -/

/-- The state after a refusal on an UP link: ANSWER, refusal tally, REFUSAL record. -/
theorem State.refuse_eq {s : State} (hup : s.linkUp = true) (p : PortIx) (src : SourceIx) (len : BitVec 14) (h : BitVec 16)
    (r : RefusalReason) :
    s.refuse p src len h r = { s with
      outQueue := s.outQueue ++ [Message.ofAnswer p src r.code r.successor h]
      ports := s.ports.set p ((s.port p).setLane src { s.lane p src with
        tally := { (s.lane p src).tally with refusals := satAdd (s.lane p src).tally.refusals 1 } })
      tre := { s.tre with offered := s.tre.offered ++
        [⟨.refusal, p, src, r.code, BitVec.ofNat 16 (max len.toNat 64), (s.port p).roundCount, s.minute⟩] } } := by
  unfold State.refuse State.handOver
  rw [if_pos hup, storedLength_setWidth]
  rfl

theorem State.takeArrival_of_refused {s : State} {p : PortIx} {src : SourceIx} {len : BitVec 14} {r : RefusalReason}
    (hr : s.admissionCheck p src len = some r) (h : BitVec 16) (later : Bool) :
    s.takeArrival p src len h later = s.refuse p src len h r := by
  simp only [State.takeArrival, hr]

/-- Settles O18: the checks in their order, each by the state, the lane or the pool it reads; then the refusal. -/
theorem admissionAndRefusal : Obligations.AdmissionAndRefusal := by
  refine ⟨fun p src len s => ⟨fun x hx => ?_, ?_, fun hopened => ?_⟩, fun p src len h later r s hs hr => ?_⟩
  · exact State.admissionCheck_of_retired hx
  · rintro (hclosed | hdraining)
    · exact State.admissionCheck_of_closed hclosed
    · exact State.admissionCheck_of_draining hdraining
  · rw [State.admissionCheck_of_opened hopened]
    refine ⟨State.laneCheck_of_closed, State.laneCheck_of_oversize, State.laneCheck_of_full, fun hopen hlen hplace => ?_⟩
    rw [State.laneCheck_of_place hopen hlen hplace]
    refine ⟨fun hempty => if_pos hempty, fun hfree hreserved hprot => ?_, fun hfree hspared => ?_⟩
    · rw [if_neg hfree, if_pos ⟨hreserved, hprot⟩]
    · rw [if_neg hfree, if_neg]
      rintro ⟨hreserved, hprot⟩
      rcases hspared with hlevel | hprotected
      · omega
      · exact absurd hprotected (by simp [hprot])
  · rw [exec_arrival_of_takesAtOnce hs, State.takeArrival_of_refused hr, State.refuse_eq hs.1]
    rfl

/-! ## Acceptance (R30) -/

/-- A lane that takes a frame at its tail, as R30 steps 2 and 4 and R162 have it. -/
theorem Lane.append_stored (l : Lane) (h : BitVec 16) (len : BitVec 14) :
    l.append ⟨h, storedLength len⟩ = { l with
      list := l.list ++ [⟨h, BitVec.ofNat 14 (max len.toNat 64)⟩]
      tally := { l.tally with
        peak :=
          if l.tally.peak.toNat < l.list.length + 1 then BitVec.ofNat 8 (min (l.list.length + 1) 255)
          else l.tally.peak } } := by
  rw [Lane.append, storedLength_eq]
  rfl

theorem State.takeArrival_of_admitted {s : State} {p : PortIx} {src : SourceIx} {len : BitVec 14}
    (ha : s.admissionCheck p src len = none) (h : BitVec 16) (later : Bool) :
    s.takeArrival p src len h later =
      if (s.lane p src).list.isEmpty then (s.accept p src len h).endEvent p later else s.accept p src len h := by
  simp only [State.takeArrival, ha]

theorem State.takeArrival_of_admitted_empty {s : State} {p : PortIx} {src : SourceIx} {len : BitVec 14}
    (ha : s.admissionCheck p src len = none) (hlist : (s.lane p src).list = []) (h : BitVec 16) (later : Bool) :
    s.takeArrival p src len h later = (s.accept p src len h).endEvent p later := by
  rw [State.takeArrival_of_admitted ha, hlist]
  rfl

/-- Settles O19: the state after the acceptance, and the port scheduler's test where the list was empty. -/
theorem acceptedArrivalOutcome : Obligations.AcceptedArrivalOutcome := by
  intro p src len h later s hs ha
  refine ⟨s.accept p src len h, ?_, fun hlist => ?_, fun hlist => ?_⟩
  · rw [State.accept_eq, if_pos hs.1, Lane.append_stored]
  · rw [exec_arrival_of_takesAtOnce hs, State.takeArrival_of_admitted ha, if_neg (by simpa using hlist)]
  · rw [exec_arrival_of_takesAtOnce hs, State.takeArrival_of_admitted_empty ha hlist]

/-! ## A port with one lane that holds frames -/

/-- A lane without a frame is eligible in neither pass (R15, R16). -/
theorem Lane.not_eligible_of_empty {l : Lane} (hlist : l.list = []) :
    l.assuredEligible = false ∧ l.surplusEligible = false := by
  constructor <;> by_contra hne
  · exact Lane.eligible_list (.inl (by simpa using hne)) hlist
  · exact Lane.eligible_list (.inr (by simpa using hne)) hlist

/-- Where one lane alone holds frames, and is assured-eligible, the assured pass chooses it (R49). -/
theorem Port.assuredChoice_of_only {q : Port} {src : SourceIx} (heligible : (q.lane src).assuredEligible = true)
    (hothers : ∀ x : SourceIx, x ≠ src → (q.lane x).list = []) : q.assuredChoice = some src := by
  cases hc : q.assuredChoice with
  | none =>
    have hnone := (Port.assuredChoice_none q).1 hc src
    rw [heligible] at hnone
    cases hnone
  | some x =>
    have hx := (Port.assuredChoice_some hc).1
    by_contra hne
    rw [(Lane.not_eligible_of_empty (hothers x fun e => hne (by rw [e]))).1] at hx
    cases hx

theorem Port.decision_of_assuredChoice {q : Port} {src : SourceIx} (hc : q.assuredChoice = some src) :
    q.decision = some (src, .assured, { q with assuredCursor := src }) := by
  simp only [Port.decision, hc]

/-! ## One release and no second -/

/-- A release is the decision carried out on the entry at the head of the list chosen (R54). -/
theorem State.releaseOnce_of_decision {s : State} {p : PortIx} {src : SourceIx} {kind : SendKind} {q : Port} {e : Entry}
    {rest : List Entry} (hmay : (s.port p).mayRelease = true) (hd : (s.port p).decision = some (src, kind, q))
    (hlist : (s.lane p src).list = e :: rest) : s.releaseOnce p = some (s.carryOutRelease p src kind q e) := by
  have hlist' : ((s.port p).lane src).list = e :: rest := hlist
  simp only [State.releaseOnce, hmay, if_true, hd, hlist']

theorem State.releaseOnce_of_empty {s : State} {p : PortIx} (hlist : ∀ x : SourceIx, (s.lane p x).list = []) :
    s.releaseOnce p = none :=
  s.releaseOnce_none_of fun x => Lane.not_eligible_of_empty (hlist x)

/-- The end of an event at which one release is made and no second can be: the second decision, left for later, is owed
(R48, log 1). -/
theorem State.endEvent_of_once {s t : State} {p : PortIx} (later : Bool) (ht : s.releaseOnce p = some t)
    (hnone : t.releaseOnce p = none) (hstate : (t.port p).state ≠ .draining) :
    s.endEvent p later = t.setRetests (if later then t.retests ++ [p] else t.retests) := by
  cases later with
  | false =>
    rw [State.endEvent_false, State.testAndDrain, State.releaseTest_of_once s ht hnone, State.drain_of_state t hstate]
    rfl
  | true =>
    rw [State.endEvent, if_pos rfl, State.firstDecision_of_some s ht,
      State.drain_of_state (t.setRetests (t.retests ++ [p])) hstate]
    rfl

/-! ## An acceptance followed by a release (R30, R54) -/

theorem State.accept_port (s : State) (p : PortIx) (src : SourceIx) (len : BitVec 14) (h : BitVec 16) (p' : PortIx) :
    (s.accept p src len h).port p' =
      if p' = p then (s.port p).setLane src ((s.lane p src).append ⟨h, storedLength len⟩) else s.port p' := by
  rw [← State.setPort_port, State.accept_eq]
  rfl

theorem State.accept_lane (s : State) (p : PortIx) (src : SourceIx) (len : BitVec 14) (h : BitVec 16) (x : SourceIx) :
    (s.accept p src len h).lane p x =
      if x = src then (s.lane p src).append ⟨h, storedLength len⟩ else s.lane p x := by
  unfold State.lane
  rw [State.accept_port, if_pos rfl, Port.setLane_lane]
  rfl

theorem frameSize_storedLength (len : BitVec 14) : frameSize (storedLength len) = (max len.toNat 64 + 7) / 8 := by
  rw [frameSize, storedLength_toNat]

/-- The peak depth after an empty list has taken one entry (R162). -/
theorem peakAfter_one (peak : BitVec 8) : peakAfter peak 1 = if peak = 0 then 1 else peak := by
  have hzero : peak.toNat < 1 ↔ peak = 0 := by
    rw [Nat.lt_one_iff, ← BitVec.toNat_inj]
    rfl
  simp only [peakAfter, hzero]
  rfl

/-- An open lane that holds the credit for the frame it took is assured-eligible (R15). -/
theorem Lane.append_assuredEligible {l : Lane} {e : Entry} (hlist : l.list = []) (hopen : l.entry.isOpen = true)
    (hrate : hasRate l.entry.gc l.entry.gf = true) (hcredit : (frameSize e.len : Int) ≤ l.balance) :
    (l.append e).assuredEligible = true := by
  rw [Lane.assuredEligible_iff]
  exact ⟨e, [], by simp [Lane.append, hlist], hopen, (hasRate_iff _ _).1 hrate, .inl hcredit⟩

/-- A lane that takes a frame and sends it on its guarantee: the list is empty again, the balance pays for it. -/
theorem Lane.append_send_assured {l : Lane} (hlist : l.list = []) (e : Entry) :
    (l.append e).send .assured e.len = { l with
      balance := l.balance - (frameSize e.len : Int)
      tally := { l.tally with
        peak := if l.tally.peak = 0 then 1 else l.tally.peak
        framesReleased := satAdd l.tally.framesReleased 1
        assuredBytes := satAdd l.tally.assuredBytes e.len.toNat } } := by
  simp only [Lane.send, Lane.append, hlist, List.nil_append, List.length_nil, List.tail_cons, Nat.zero_add, peakAfter_one]

/-- The state after a frame is accepted and at once released on its lane's guarantee. -/
def State.acceptRelease (s : State) (p : PortIx) (src : SourceIx) (len : BitVec 14) (h : BitVec 16) : State :=
  (s.accept p src len h).carryOutRelease p src .assured { (s.accept p src len h).port p with assuredCursor := src }
    ⟨h, storedLength len⟩

section
variable {s : State} {p : PortIx} {src : SourceIx} {len : BitVec 14}

/-- What the two leave and what they tell: the pool's entry has come back, and the ANSWER comes before the RELEASE. -/
theorem State.acceptRelease_frame (hup : s.linkUp = true) (hfree : s.freeCount ≠ 0) (h : BitVec 16) :
    s.acceptRelease p src len h = { s with
      ports := (s.acceptRelease p src len h).ports
      attn := if s.poolBelow = false ∧ s.freeCount - 1 < s.warning.toNat then s.attn ||| 0x20#8 else s.attn
      poolBelow := decide (s.freeCount < s.warning.toNat)
      outQueue := s.outQueue ++ [Message.ofAnswer p src 0 0 h,
        Message.ofRelease p src h (s.port p).nextTag (BitVec.ofNat 14 (max len.toNat 64))]
      tre := { s.tre with offered := s.tre.offered ++ [⟨.releaseA, p, src, (s.port p).nextTag,
        BitVec.ofNat 16 (max len.toNat 64), (s.port p).roundCount, s.minute⟩] } } := by
  have hcount : s.freeCount - 1 + 1 = s.freeCount := Nat.sub_add_cancel (Nat.pos_of_ne_zero hfree)
  have htag : ((s.accept p src len h).port p).nextTag = (s.port p).nextTag := by
    rw [State.accept_port, if_pos rfl, Port.setLane_nextTag]
  have hround : ((s.accept p src len h).port p).roundCount = (s.port p).roundCount := by
    rw [State.accept_port, if_pos rfl, Port.setLane_roundCount]
  unfold State.acceptRelease
  conv_lhs => rw [State.carryOutRelease_frame]
  generalize (State.carryOutRelease (s.accept p src len h) p src .assured _ _).ports = ports
  rw [storedLength_setWidth, htag, hround, State.accept_eq, storedLength_eq]
  simp only [hup, if_true, hcount, List.append_assoc, List.cons_append, List.nil_append, releaseKind]

theorem State.acceptRelease_port_other {p' : PortIx} (hne : p' ≠ p) (h : BitVec 16) :
    (s.acceptRelease p src len h).port p' = s.port p' := by
  rw [State.acceptRelease, State.carryOutRelease_port, if_neg hne, State.accept_port, if_neg hne]

/-- The port: the cursor moved, the older slot filled under the next tag, the release counted (R49, R53 to R55). -/
theorem State.acceptRelease_port (holder : (s.port p).older = none) (h : BitVec 16) :
    (s.acceptRelease p src len h).port p = { s.port p with
      lanes := ((s.acceptRelease p src len h).port p).lanes
      assuredCursor := src
      older := some ⟨src, h, BitVec.ofNat 14 (max len.toNat 64), .assured, (s.port p).nextTag, 0⟩
      nextTag := (s.port p).nextTag + 1
      tally := { (s.port p).tally with releases := satAdd (s.port p).tally.releases 1 } } := by
  rw [State.acceptRelease, State.carryOutRelease_port, if_pos rfl, State.accept_port, if_pos rfl, Port.release_eq,
    ← storedLength_eq]
  simp only [holder, if_true, Port.setLane]

/-- The lanes: the frame has come and gone, and its lane has paid for it (R18). -/
theorem State.acceptRelease_lane (hlist : (s.lane p src).list = []) (h : BitVec 16) (x : SourceIx) :
    (s.acceptRelease p src len h).lane p x =
      if x = src then { s.lane p src with
        balance := (s.lane p src).balance - ((max len.toNat 64 + 7) / 8 : Nat)
        tally := { (s.lane p src).tally with
          peak := if (s.lane p src).tally.peak = 0 then 1 else (s.lane p src).tally.peak
          framesReleased := satAdd (s.lane p src).tally.framesReleased 1
          assuredBytes := satAdd (s.lane p src).tally.assuredBytes (max len.toNat 64) } }
      else s.lane p x := by
  have hafter : ∀ y : SourceIx, Port.lane { (s.accept p src len h).port p with assuredCursor := src } y =
      if y = src then (s.lane p src).append ⟨h, storedLength len⟩ else s.lane p y := s.accept_lane p src len h
  rw [← frameSize_storedLength, ← storedLength_toNat, ← Lane.append_send_assured hlist ⟨h, storedLength len⟩, State.lane,
    State.acceptRelease, State.carryOutRelease_port, if_pos rfl, Port.release_lane, hafter, if_pos rfl, hafter]
  split <;> rfl

/-- At an otherwise empty OPEN and FLOWING port with a slot free, a frame accepted on a lane that holds the credit for it is what
the release decision releases (R46, R49). -/
theorem State.accept_releaseOnce (hstate : (s.port p).state = .opened) (hflow : (s.port p).flow = .flowing)
    (holder : (s.port p).older = none) (hlists : ∀ x : SourceIx, (s.lane p x).list = [])
    (hopen : (s.lane p src).entry.isOpen = true)
    (hrate : hasRate (s.lane p src).entry.gc (s.lane p src).entry.gf = true)
    (hcredit : (((max len.toNat 64 + 7) / 8 : Nat) : Int) ≤ (s.lane p src).balance) (h : BitVec 16) :
    (s.accept p src len h).releaseOnce p = some (s.acceptRelease p src len h) := by
  have hlane : ∀ x : SourceIx, ((s.accept p src len h).port p).lane x =
      if x = src then (s.lane p src).append ⟨h, storedLength len⟩ else s.lane p x := s.accept_lane p src len h
  refine State.releaseOnce_of_decision (rest := []) ?_ (Port.decision_of_assuredChoice (Port.assuredChoice_of_only ?_ ?_)) ?_
  · rw [State.accept_port, if_pos rfl]
    simp [Port.mayRelease, Port.inService, hstate, hflow, holder]
  · rw [hlane, if_pos rfl]
    exact Lane.append_assuredEligible (hlists src) hopen hrate (by rwa [frameSize_storedLength])
  · intro x hx
    rw [hlane, if_neg hx, hlists]
  · rw [State.accept_lane, if_pos rfl]
    simp [Lane.append, hlists]

end

/-- Settles O20: the acceptance leaves one frame at the port, its release leaves none, so one release is made. -/
theorem arrivalReleasedAtOnce : Obligations.ArrivalReleasedAtOnce := by
  intro p src len h later s hs ha hstate hflow holder _ hlists hrate hcredit
  obtain ⟨_, hopen, _, _, hfree⟩ := State.admitted ha
  have hport := State.acceptRelease_port (src := src) (len := len) holder h
  have hlane := State.acceptRelease_lane (len := len) (hlists src) h
  have hframe := State.acceptRelease_frame (p := p) (src := src) (len := len) hs.1 hfree h
  have hempty : ∀ x : SourceIx, ((s.acceptRelease p src len h).lane p x).list = [] := by
    intro x
    rw [hlane]
    split
    · exact hlists src
    · exact hlists x
  have hend := State.endEvent_of_once later (State.accept_releaseOnce hstate hflow holder hlists hopen hrate hcredit h)
    (State.releaseOnce_of_empty hempty) (by rw [hport, hstate]; exact PortState.noConfusion)
  have hretests : (s.acceptRelease p src len h).retests = s.retests := by rw [hframe]
  rw [hretests] at hend
  refine ⟨(s.acceptRelease p src len h).setRetests (if later then s.retests ++ [p] else s.retests), ?_, ?_,
    fun p' hne => State.acceptRelease_port_other hne h, fun x hne => (hlane x).trans (if_neg hne), hport,
    (hlane src).trans (if_pos rfl)⟩
  · rw [exec_arrival_of_takesAtOnce hs, State.takeArrival_of_admitted_empty ha (hlists src), hend]
  · exact congrArg (fun t : State => t.setRetests (if later then s.retests ++ [p] else s.retests)) hframe

end Sys2Proof.Machine

/-! PROOFS. Every command answers and leaves the queue of commands, and what a step does on an empty queue (O2). -/

namespace Sys2Proof.Machine

/-! ## The queue of commands -/

/-- An order whose action keeps the queue of commands keeps it whole, the taking of the next channel included. -/
theorem State.simpleOrder_takeNext_pending (s : State) (block : Option OrderBlock) (bus : CompletionBus)
    {act : OrderBlock → State → State × OrderResult} (h : ∀ b t, (act b t).1.pending = t.pending) :
    (s.simpleOrder block bus act).takeNext.pending = s.pending :=
  (State.takeNext_pending _).trans (s.simpleOrder_pending block bus act h)

theorem State.portOrder_takeNext_pending (s : State) (block : Option OrderBlock) (bus : CompletionBus)
    {act : PortIx → OrderBlock → State → State × OrderResult} (h : ∀ p b t, (act p b t).1.pending = t.pending) :
    (s.portOrder block bus act).takeNext.pending = s.pending :=
  (State.takeNext_pending _).trans (s.portOrder_pending block bus act h)

theorem State.takeOrder_takeNext_pending (s : State) (block : Option OrderBlock) (bus : CompletionBus)
    {run : ChannelIx → OrderBlock → State → State} (h : ∀ c b t, (run c b t).pending = t.pending) :
    (s.takeOrder block bus run).takeNext.pending = s.pending :=
  (State.takeNext_pending _).trans (s.takeOrder_pending block bus run h)

theorem State.roundExpiry_if_pending (s : State) (p : PortIx) (c : Bool) :
    (if c then s.roundExpiry p else s).pending = s.pending := by
  cases c
  · rfl
  · exact (s.portSide_roundExpiry p).exec.pending

theorem State.deviceReset_pending (s : State) : s.deviceReset.pending = s.pending := by
  unfold State.deviceReset
  dsimp only
  split
  · exact (State.assertLine_execSame _).pending
  · rfl

theorem execAbortedUnread_pending (bus : CompletionBus) (s : State) :
    ∃ t : State, execAbortedUnread bus s = .next t ∧ t.pending = s.pending := by
  refine ⟨_, rfl, ?_⟩
  split
  · rfl
  · split
    · rw [State.takeNext_pending, State.finish_pending, State.beginExecuting_pending]
    · rfl

theorem execLoadEntryRead_pending (entry : Option TableEntry) (abortFirst : Bool) (bus : CompletionBus) (s : State) :
    ∃ t : State, execLoadEntryRead entry abortFirst bus s = .next t ∧ t.pending = s.pending := by
  refine ⟨_, rfl, ?_⟩
  split
  case h_3 j _ => rw [State.takeNext_pending, State.loadEntry_pending]
  all_goals rfl

theorem execCollectRecord_pending (written : Bool) (bus : CompletionBus) (s : State) :
    ∃ t : State, execCollectRecord written bus s = .next t ∧ t.pending = s.pending := by
  refine ⟨_, rfl, ?_⟩
  split
  case h_4 j _ => rw [State.takeNext_pending, State.collectWritten_pending]
  all_goals rfl

theorem execSurveyRecord_pending (written : Bool) (bus : CompletionBus) (s : State) :
    ∃ t : State, execSurveyRecord written bus s = .next t ∧ t.pending = s.pending := by
  refine ⟨_, rfl, ?_⟩
  split
  case h_5 j _ => rw [State.takeNext_pending, State.surveyWritten_pending]
  all_goals rfl

/-- Every command answers a next state and leaves the queue of commands as it was (log 19). -/
theorem exec_pending (i : Instr) (s : State) : ∃ t : State, exec i s = .next t ∧ t.pending = s.pending := by
  cases i with
  | deviceReset => exact ⟨_, rfl, s.deviceReset_pending⟩
  | linkUp => exact ⟨_, rfl, s.assertLine_execSame.pending⟩
  | linkLoss order => exact ⟨_, rfl, (s.withdrawLine_execSame order).pending⟩
  | arrival p src len h later => exact ⟨_, rfl, receiveBytes_pending s _ later⟩
  | done p tag later => exact ⟨_, rfl, receiveBytes_pending s _ later⟩
  | hold p => exact ⟨_, rfl, receiveBytes_pending s _ false⟩
  | resume p later => exact ⟨_, rfl, receiveBytes_pending s _ later⟩
  | clock m => exact ⟨_, rfl, receiveBytes_pending s _ false⟩
  | badMessage bytes later => exact ⟨_, rfl, receiveBytes_pending s bytes later⟩
  | outboundMessageSent => exact ⟨_, rfl, s.sendHead_pending⟩
  | roundExpiry p => exact ⟨_, rfl, (s.portSide_roundExpiry p).exec.pending⟩
  | expiry p => exact ⟨_, rfl, s.roundExpiry_if_pending p _⟩
  | stall p => exact ⟨_, rfl, s.roundExpiry_if_pending p _⟩
  | addressWrite c v lag => exact ⟨_, rfl, s.pointerWrite_pending c v lag busAllOk⟩
  | zeroWrite c v bus => exact ⟨_, rfl, s.pointerWrite_pending c v false bus⟩
  | attnWrite v => exact ⟨_, rfl, rfl⟩
  | attnMaskWrite v => exact ⟨_, rfl, rfl⟩
  | unmappedRegisterWrite offset width v => exact ⟨_, rfl, s.registerWrite_pending offset width v⟩
  | abortedUnread bus => exact execAbortedUnread_pending bus s
  | unknownOrderCode block bus => exact ⟨_, rfl, s.simpleOrder_takeNext_pending block bus fun _ _ => rfl⟩
  | load block bus abortFirst =>
    exact ⟨_, rfl, s.takeOrder_takeNext_pending block bus fun c b t => t.beginLoad_pending c b abortFirst bus⟩
  | loadEntryRead entry abortFirst bus => exact execLoadEntryRead_pending entry abortFirst bus s
  | window block bus => exact ⟨_, rfl, s.simpleOrder_takeNext_pending block bus fun b t => t.windowOrder_pending b⟩
  | pin block bus => exact ⟨_, rfl, s.simpleOrder_takeNext_pending block bus fun b t => t.pinOrder_pending b⟩
  | levels block bus =>
    exact ⟨_, rfl, s.simpleOrder_takeNext_pending block bus fun b t => (t.levelsOrder_execSame b).pending⟩
  | portOpen block bus =>
    exact ⟨_, rfl, s.portOrder_takeNext_pending block bus fun p _ t => (t.portSide_portOpenAction p).exec.pending⟩
  | portClose block bus =>
    exact ⟨_, rfl, s.portOrder_takeNext_pending block bus fun p _ t => (t.portSide_portCloseAction p).exec.pending⟩
  | portClear block bus =>
    exact ⟨_, rfl, s.portOrder_takeNext_pending block bus fun p _ t => (t.portSide_portClearAction p).exec.pending⟩
  | portRetire block bus =>
    exact ⟨_, rfl, s.portOrder_takeNext_pending block bus fun p b t =>
      (t.portSide_portRetireAction p b.successor?).exec.pending⟩
  | portSet block bus =>
    exact ⟨_, rfl, s.portOrder_takeNext_pending block bus fun p b t => t.portSetAction_pending p b⟩
  | collect block bus =>
    exact ⟨_, rfl, s.takeOrder_takeNext_pending block bus fun c b t => t.beginCollect_pending c b bus⟩
  | collectRecord written bus => exact execCollectRecord_pending written bus s
  | survey block bus =>
    exact ⟨_, rfl, s.takeOrder_takeNext_pending block bus fun c b t => t.beginSurvey_pending c b bus⟩
  | surveyRecord written bus => exact execSurveyRecord_pending written bus s
  | trace block bus =>
    exact ⟨_, rfl, s.takeOrder_takeNext_pending block bus fun c b t => t.beginTrace_pending c b bus⟩
  | traceOffer => exact ⟨_, rfl, s.offerStep_pending⟩
  | traceAreaWrite written bus => exact ⟨_, rfl, s.traceWritten_pending written bus⟩
  | staleTimerExpiry bus => exact ⟨_, rfl, s.staleTimer_pending bus⟩
  | portBadAction block bus => exact ⟨_, rfl, s.portOrder_takeNext_pending block bus fun _ _ _ => rfl⟩

/-! ## A step on an empty queue -/

theorem step_of_no_command {s : State} (h : s.pending = []) : step s = .next s.idle := by
  simp only [step, h]

theorem State.idle_of_none_owed {s : State} (h : s.retests = []) : s.idle = s := by
  simp only [State.idle, h]

theorem State.idle_of_owed {s : State} {p : PortIx} {rest : List PortIx} (h : s.retests = p :: rest) :
    s.idle = (s.setRetests rest).testAndDrain p := by
  simp only [State.idle, h]

/-- Settles O2: the queue command by command, the idling, and the second decision owed longest. -/
theorem noCommandStops : Obligations.NoCommandStops := by
  refine ⟨exec_pending, fun s hp => ⟨fun hr => ?_, fun p rest u hr hu => ?_⟩⟩
  · rw [step_of_no_command hp, State.idle_of_none_owed hr]
  · obtain rfl : u = s.setRetests rest := hu
    refine ⟨?_, ?_, State.testAndDrain_retests _ p, (s.setRetests rest).testAndDrain_of_flow⟩
    · rw [step_of_no_command hp, State.idle_of_owed hr]
    · exact (State.portSide_testAndDrain _ p).exec.pending.trans hp

end Sys2Proof.Machine

/-! PROOFS. Releases: the choice (O22), the release condition, the release test and the drain rule (O23), one release (O24), and DONE
(O25). -/

namespace Sys2Proof.Machine

/-! ## The choice of a release (R49 to R52) -/

theorem Port.decision_of_no_assuredChoice {q : Port} (ha : q.assuredChoice = none) :
    q.decision = q.chainChoice.map fun c => (c.2, .surplus, q.setTierCursor c.1 c.2) := by
  unfold Port.decision
  rw [ha]
  cases q.chainChoice <;> rfl

theorem Port.setTierCursor_assuredCursor (q : Port) (t : Tier) (src : SourceIx) :
    (q.setTierCursor t src).assuredCursor = q.assuredCursor := by
  cases t <;> rfl

/-- Settles O22: the choice of each pass, by the laws of the order in which the lanes are met. -/
theorem releaseChoice : Obligations.ReleaseChoice := by
  refine ⟨fun q => ⟨q.assuredChoice_none.symm, fun src hc => ?_⟩, fun q hnone => ⟨?_, fun src kind q' hd => ?_⟩⟩
  · exact ⟨Port.decision_of_assuredChoice hc, Port.assuredChoice_some hc⟩
  · rw [Port.decision_of_no_assuredChoice hnone, Option.map_eq_none_iff, Port.chainChoice_none]
  · rw [Port.decision_of_no_assuredChoice hnone, Option.map_eq_some_iff] at hd
    obtain ⟨⟨t, x⟩, hc, hchosen⟩ := hd
    obtain ⟨rfl, rfl, rfl⟩ : x = src ∧ .surplus = kind ∧ q.setTierCursor t x = q' := by simpa using hchosen
    obtain ⟨heligible, rfl, hfirst⟩ := Port.chainChoice_some hc
    exact ⟨rfl, heligible, rfl, q.setTierCursor_assuredCursor _ _, hfirst⟩

/-! ## The release condition (R46) -/

theorem Port.inService_iff (q : Port) : q.inService = true ↔ q.state = .opened ∨ q.state = .draining := by
  unfold Port.inService
  cases q.state <;> simp

/-- What the release condition asks of the port itself: in service, FLOWING, a slot free (R46). -/
theorem Port.mayRelease_iff (q : Port) :
    q.mayRelease = true ↔
      (q.state = .opened ∨ q.state = .draining) ∧ q.flow = .flowing ∧ (q.older = none ∨ q.younger = none) := by
  simp only [Port.mayRelease, Bool.and_eq_true, Bool.or_eq_true, Port.inService_iff, beq_iff_eq, Option.isNone_iff_eq_none]

/-- A release owes nothing: what the port owes is noted by the event it ends (log 1). -/
theorem State.releaseOnce_retests {s t : State} {p : PortIx} (h : s.releaseOnce p = some t) : t.retests = s.retests := by
  obtain ⟨_, src, kind, q', e, rest, _, _, rfl⟩ := State.releaseOnce_cases h
  rw [State.carryOutRelease_frame]

/-- A test of the release condition makes no release, one, or two (R48). -/
theorem State.releaseTest_cases (s : State) (p : PortIx) :
    s.releaseTest p = s ∨ s.releaseOnce p = some (s.releaseTest p) ∨
      ∃ u : State, s.releaseOnce p = some u ∧ u.releaseOnce p = some (s.releaseTest p) := by
  cases h₁ : s.releaseOnce p with
  | none => exact .inl (s.releaseTest_of_none h₁)
  | some u =>
    cases h₂ : u.releaseOnce p with
    | none => exact .inr (.inl (congrArg some (s.releaseTest_of_once h₁ h₂).symm))
    | some v =>
      refine .inr (.inr ⟨u, rfl, ?_⟩)
      simp only [State.releaseTest, h₁, h₂]

/-- The end of an event at which a release is made and the second decision left for later: the port owes it behind those owed
before (R48, log 1). -/
theorem State.endEvent_later_of_some {s u : State} {p : PortIx} (h : s.releaseOnce p = some u) :
    s.endEvent p true = (u.setRetests (s.retests ++ [p])).drain p := by
  rw [State.endEvent, if_pos rfl, State.firstDecision_of_some s h, State.releaseOnce_retests h]

/-! ## The drain rule (R84) -/

theorem State.drain_of_drained {s : State} {p : PortIx} (h : (s.port p).drained = true) :
    s.drain p = { s with ports := s.ports.set p { s.port p with state := .closed, timer := none } } := by
  simp only [State.drain, State.updPort, Port.drainRule, h, if_true]
  rfl

/-- A port is not drained while it is in another state, a list holds an entry or a slot is occupied (R84). -/
theorem Port.not_drained {q : Port}
    (h : q.state ≠ .draining ∨ (∃ x : SourceIx, (q.lane x).list ≠ []) ∨ q.older ≠ none ∨ q.younger ≠ none) :
    q.drained = false := by
  rw [Bool.eq_false_iff, ne_eq, Port.drained_iff]
  rintro ⟨hstate, hlists, holder, hyounger⟩
  rcases h with hs | ⟨x, hx⟩ | ho | hy
  · exact hs hstate
  · exact hx (hlists x)
  · exact ho holder
  · exact hy hyounger

/-- Settles O23, clause by clause from the laws of the release test, of the end of an event and of the drain rule. -/
theorem releaseConditionAndDrainRule : Obligations.ReleaseConditionAndDrainRule := by
  intro s p
  refine ⟨?_, s.releaseTest_exhausts p, s.releaseTest_cases p, rfl, s.endEvent_false p, s.endEvent_of_none true,
    fun u hu => ⟨State.endEvent_later_of_some hu, State.releaseOnce_retests hu⟩,
    fun hstate hlists holder hyounger => ?_, fun hnot => s.drain_of_not (Port.not_drained hnot)⟩
  · rw [State.releaseOnce_isSome, Port.mayRelease_iff, and_assoc, and_assoc]
  · exact State.drain_of_drained ((Port.drained_iff _).2 ⟨hstate, hlists, holder, hyounger⟩)

/-! ## One release (R53 to R55) -/

/-- Settles O24: the state, the port and the lane after the release carried out, each by its law. -/
theorem releaseOutcome : Obligations.ReleaseOutcome := by
  intro s t p ht
  obtain ⟨_, src, kind, q', e, rest, hd, hlist, rfl⟩ := State.releaseOnce_cases ht
  obtain ⟨hlanes, holder, hyounger, htag, htally, _⟩ := Port.decision_port hd
  have hlane : ∀ x : SourceIx, q'.lane x = s.lane p x := Port.lane_congr hlanes
  have hport : (s.carryOutRelease p src kind q' e).port p = q'.release src kind e :=
    (s.carryOutRelease_port p p src kind q' e).trans (if_pos rfl)
  refine ⟨src, kind, q', e, rest, hd, hlist, ?_, fun p' hp' => ?_, fun x hx => ?_, ?_, ?_⟩
  · rw [← htag]
    exact s.carryOutRelease_frame p src kind q' e
  · rw [State.carryOutRelease_port, if_neg hp']
  · rw [State.lane, hport, Port.release_lane, if_neg hx, hlane]
  · rw [hport, Port.release_eq, ← holder, ← hyounger, ← htag, ← htally]
  · rw [State.lane, hport, Port.release_lane, if_pos rfl, hlane, Lane.send_eq, hlist]
    rfl

/-! ## DONE (R64 to R66) -/

/-- A DONE that LKI takes at once goes to its port scheduler (R135, R140). -/
theorem exec_done_of_takesAtOnce {s : State} (hs : s.TakesAtOnce) (p : PortIx) (tag : Byte) (later : Bool) :
    exec (.done p tag later) s = .next (s.takeDone p tag later) := by
  show Host.Outcome.next (s.receiveMessage (Message.ofDone p tag) later) = _
  rw [State.receiveMessage_now _ _ hs, parseMessage_ofDone]
  rfl

/-- Settles O25: the tag is that of the older slot, else that of the younger, else of neither. -/
theorem doneOutcome : Obligations.DoneOutcome := by
  intro p tag later s hs
  rw [exec_done_of_takesAtOnce hs]
  refine ⟨fun a ha ht => ?_, fun b hna hb ht => ?_, fun hna hnb => ?_⟩
  · rw [State.takeDone_older s ha ht]
    rfl
  · rw [State.takeDone_younger s hna hb ht]
    rfl
  · rw [State.takeDone_stale s hna hnb]
    rfl

end Sys2Proof.Machine

/-! PROOFS. EXPIRY and STALL: when the two commands come, and what the round expiry they are leaves of the slots and of the hold
(O32). -/

namespace Sys2Proof.Machine

/-! ## When EXPIRY and STALL come (log 6) -/

theorem Port.agedSlots_eq (q : Port) : q.agedSlots = (q.older.toList ++ q.younger.toList).map Slot.older1 := rfl

theorem Port.expiryComes_eq (q : Port) : q.expiryComes = (q.timer.isSome && q.agedSlots.any q.slotEnds) := by
  simp only [Port.expiryComes, Port.agedSlots_eq, ← Port.slotEnds_older1]
  cases q.older <;> cases q.younger <;> simp

/-- EXPIRY comes where the timer runs and a slot ends at this round. -/
theorem Port.expiryComes_iff (q : Port) :
    q.expiryComes = true ↔ q.timer ≠ none ∧ q.agedSlots.filter q.slotEnds ≠ [] := by
  have hsome : q.agedSlots.any q.slotEnds = true ↔ q.agedSlots.filter q.slotEnds ≠ [] := by
    simp [List.any_eq_true, List.filter_eq_nil_iff]
  rw [Port.expiryComes_eq, Bool.and_eq_true, Option.isSome_iff_ne_none, hsome]

/-- STALL comes where the timer runs and the hold ends at this round. -/
theorem Port.stallComes_iff (q : Port) : q.stallComes = true ↔ q.timer ≠ none ∧ q.holdEnds = true := by
  have hage : q.ageHold.holdAge.toNat = min (q.holdAge.toNat + 1) 255 := ageUp_toNat _
  have hlimit : q.ageHold.holdLimit = q.holdLimit := rfl
  simp only [Port.stallComes, Port.holdEnds, Bool.and_eq_true, beq_iff_eq, decide_eq_true_eq, Port.stallDue_iff, hage, hlimit,
    Option.isSome_iff_ne_none]

theorem exec_expiry (p : PortIx) (s : State) :
    exec (.expiry p) s = .next (if (s.port p).expiryComes then s.roundExpiry p else s) := rfl

theorem exec_stall (p : PortIx) (s : State) :
    exec (.stall p) s = .next (if (s.port p).stallComes then s.roundExpiry p else s) := rfl

theorem exec_expiry_of_comes {s : State} {p : PortIx} (ht : (s.port p).timer ≠ none)
    (hends : (s.port p).agedSlots.filter (s.port p).slotEnds ≠ []) : exec (.expiry p) s = .next (s.roundExpiry p) := by
  rw [exec_expiry, if_pos ((Port.expiryComes_iff _).2 ⟨ht, hends⟩)]

theorem exec_stall_of_comes {s : State} {p : PortIx} (ht : (s.port p).timer ≠ none) (hends : (s.port p).holdEnds = true) :
    exec (.stall p) s = .next (s.roundExpiry p) := by
  rw [exec_stall, if_pos ((Port.stallComes_iff _).2 ⟨ht, hends⟩)]

/-- A command for an EXPIRY that does not come changes nothing (log 2). -/
theorem exec_expiry_of_not {s : State} {p : PortIx}
    (h : (s.port p).timer = none ∨ (s.port p).agedSlots.filter (s.port p).slotEnds = []) : exec (.expiry p) s = .next s := by
  rw [exec_expiry, if_neg]
  rw [Port.expiryComes_iff]
  rintro ⟨ht, hends⟩
  exact h.elim ht hends

/-- A command for a STALL that does not come changes nothing (log 2). -/
theorem exec_stall_of_not {s : State} {p : PortIx} (h : (s.port p).timer = none ∨ (s.port p).holdEnds = false) :
    exec (.stall p) s = .next s := by
  rw [exec_stall, if_neg]
  rw [Port.stallComes_iff]
  rintro ⟨ht, hends⟩
  exact h.elim ht (by simp [hends])

/-! ## The slots that end, and those that stay (R60 to R62) -/

section
variable {q : Port} {a b : Slot}

/-- A slot whose age, risen by one, has reached the done limit ends (R61). -/
theorem Port.slotEnds_of_le (hlimit : q.doneLimit ≠ 0) (hage : q.doneLimit.toNat ≤ min (a.age.toNat + 1) 255) :
    q.slotEnds a.older1 = true :=
  (q.slotEnds_iff a).2 ⟨hlimit, hage⟩

theorem Port.slotEnds_of_lt (hage : a.age.toNat + 1 < q.doneLimit.toNat) : q.slotEnds a.older1 = false :=
  (q.slotEnds_older1 a).trans (q.expired_older1_not a (.inr hage))

/-- Below a done limit an age rises without meeting its bound of 255. -/
theorem Slot.older1_of_lt {limit : Byte} (hage : a.age.toNat + 1 < limit.toNat) :
    a.older1 = { a with age := BitVec.ofNat 8 (a.age.toNat + 1) } := by
  rw [Slot.older1_age, Nat.min_eq_left (by omega)]

theorem Port.agedSlots_of_one (ha : q.older = some a) (hb : q.younger = none) : q.agedSlots = [a.older1] := by
  rw [Port.agedSlots_eq, ha, hb]
  rfl

theorem Port.agedSlots_of_two (ha : q.older = some a) (hb : q.younger = some b) :
    q.agedSlots = [a.older1, b.older1] := by
  rw [Port.agedSlots_eq, ha, hb]
  rfl

end

/-! ## A round expiry and the refresh before it (R76) -/

/-- What a refresh leaves of a port, as far as the slots and the hold at this round read it (R109, R110). -/
structure Port.RoundSame (q q' : Port) : Prop where
  state : q'.state = q.state
  flow : q'.flow = q.flow
  older : q'.older = q.older
  younger : q'.younger = q.younger
  agedSlots : q'.agedSlots = q.agedSlots
  slotEnds : q'.slotEnds = q.slotEnds
  holdEnds : q'.holdEnds = q.holdEnds

theorem State.refreshIf_roundSame (s : State) (p : PortIx) : (s.port p).RoundSame ((s.refreshIf p).port p) := by
  obtain ⟨lanes, flag, applied, discards, h⟩ := s.refreshIf_port p
  rw [h]
  exact ⟨rfl, rfl, rfl, rfl, rfl, rfl, rfl⟩

theorem State.refreshIf_of_flag {s : State} {p : PortIx} (h : (s.port p).refreshFlag = true) :
    s.refreshIf p = s.refresh p := by
  rw [State.refreshIf, if_pos h]

theorem State.refreshIf_of_no_flag {s : State} {p : PortIx} (h : (s.port p).refreshFlag = false) : s.refreshIf p = s := by
  rw [State.refreshIf, if_neg (by simp [h])]

/-- A round expiry is its work on the refreshed port, then the release test and the drain rule (R76). -/
theorem State.roundExpiry_roundExpired {s : State} {p : PortIx} (hslots : (s.port p).older = none → (s.port p).younger = none)
    (ht : (s.port p).timer ≠ none) :
    ∃ u : State, (s.refreshIf p).RoundExpired u p ∧ s.roundExpiry p = u.testAndDrain p := by
  have hsame := s.refreshIf_roundSame p
  exact ⟨_, (s.refreshIf p).roundExpired p (by rwa [hsame.older, hsame.younger]), s.roundExpiry_runs ht⟩

section
variable {s r u : State} {p : PortIx} {a b : Slot}

/-- At a HELD or STALLED port that is not DRAINING the release test and the drain rule do nothing (R46, R84). -/
theorem State.RoundExpired.quiet (h : r.RoundExpired u p) (hflow : (r.port p).flow ≠ .flowing)
    (hstate : (r.port p).state ≠ .draining) : u.testAndDrain p = u := by
  refine u.testAndDrain_quiet ?_ ?_
  · rw [h.port]
    dsimp only
    split
    · exact Flow.noConfusion
    · exact hflow
  · rw [h.port]
    exact hstate

/-- A hold that ends leaves the port STALLED, its timer stopped (R78). -/
theorem State.RoundExpired.stalled (h : r.RoundExpired u p) (hends : (r.port p).holdEnds = true) :
    (u.port p).flow = .stalled ∧ (u.port p).timer = none := by
  rw [h.port]
  simp [hends]

/-- The only occupied slot ends: both places are free. -/
theorem State.RoundExpired.only_slot_ends (h : r.RoundExpired u p) (hslots : (r.port p).agedSlots = [a])
    (ha : (r.port p).slotEnds a = true) : (u.port p).older = none ∧ (u.port p).younger = none := by
  rw [h.port]
  simp [hslots, ha]

/-- The older slot ends and the younger stays: it moves into the older place, with one expiry counted (R60, R62). -/
theorem State.RoundExpired.older_slot_ends (h : r.RoundExpired u p) (hslots : (r.port p).agedSlots = [a, b])
    (ha : (r.port p).slotEnds a = true) (hb : (r.port p).slotEnds b = false) :
    (u.port p).older = some b ∧ (u.port p).younger = none ∧
      (u.port p).tally.expiries = BitVec.ofNat 16 (min ((r.port p).tally.expiries.toNat + 1) 65535) := by
  rw [h.port]
  simp [hslots, ha, hb]

/-- Both slots end: both places are free, with two expiries counted (R62). -/
theorem State.RoundExpired.both_slots_end (h : r.RoundExpired u p) (hslots : (r.port p).agedSlots = [a, b])
    (ha : (r.port p).slotEnds a = true) (hb : (r.port p).slotEnds b = true) :
    (u.port p).older = none ∧ (u.port p).younger = none ∧
      (u.port p).tally.expiries = BitVec.ofNat 16 (min ((r.port p).tally.expiries.toNat + 2) 65535) := by
  rw [h.port]
  simp [hslots, ha, hb]

end

/-- Settles O32: when the two commands come, and then the slots and the hold as the work of the round expiry leaves them. -/
theorem expiryAndStallOutcome : Obligations.ExpiryAndStallOutcome := by
  refine ⟨fun p s => ⟨exec_expiry_of_not, exec_stall_of_not⟩, fun p s r hslots hflag hnoflag ht => ?_⟩
  obtain rfl : r = s.refreshIf p := by
    cases hf : (s.port p).refreshFlag with
    | true => rw [hflag hf, State.refreshIf_of_flag hf]
    | false => rw [hnoflag hf, State.refreshIf_of_no_flag hf]
  have hsame := s.refreshIf_roundSame p
  obtain ⟨u, hround, hexpiry⟩ := State.roundExpiry_roundExpired hslots ht
  refine ⟨u, hround, fun hends => ?_, fun hends => ?_, fun hflow hstate => ?_, fun a ha hlimit hage => ?_, fun hends => ?_⟩
  · rw [exec_expiry_of_comes ht hends, hexpiry]
  · rw [exec_stall_of_comes ht hends, hexpiry]
  · exact hround.quiet (by rwa [hsame.flow]) (by rwa [hsame.state])
  · have hends : (s.port p).slotEnds a.older1 = true := Port.slotEnds_of_le hlimit hage
    refine ⟨?_, fun hb => ?_, fun b hb hbage => ?_, fun b hb hbage => ?_⟩
    · refine List.ne_nil_of_mem (List.mem_filter.2 ⟨?_, hends⟩)
      rw [Port.agedSlots_eq, ha]
      exact List.mem_cons_self
    · refine hround.only_slot_ends (a := a.older1) ?_ ?_
      · rw [hsame.agedSlots, Port.agedSlots_of_one ha hb]
      · rwa [hsame.slotEnds]
    · rw [← Slot.older1_of_lt hbage]
      refine hround.older_slot_ends (a := a.older1) ?_ ?_ ?_
      · rw [hsame.agedSlots, Port.agedSlots_of_two ha hb]
      · rwa [hsame.slotEnds]
      · rw [hsame.slotEnds, Port.slotEnds_of_lt hbage]
    · refine hround.both_slots_end (a := a.older1) (b := b.older1) ?_ ?_ ?_
      · rw [hsame.agedSlots, Port.agedSlots_of_two ha hb]
      · rwa [hsame.slotEnds]
      · rw [hsame.slotEnds, Port.slotEnds_of_le hlimit hbage]
  · exact hround.stalled (by rwa [hsame.holdEnds])

end Sys2Proof.Machine

/-! PROOFS. What every step keeps of each port's timer, slots, lists and drain rule (O56). -/

namespace Sys2Proof.Machine

/-- Settles O56: all of it is part of what every step keeps of a port, whatever the shares. -/
theorem portsStayInOrder : Obligations.PortsStayInOrder := by
  intro s t hstep
  have hgood := (step_fine hstep).port
  refine ⟨fun h p => ?_, fun h p => (hgood p).slots (h p), fun h p => ?_⟩
  · obtain ⟨htimer, hlength⟩ := h p
    exact ⟨(hgood p).timer htimer, (hgood p).length hlength⟩
  · obtain ⟨hlists, hdrain⟩ := h p
    exact ⟨(hgood p).lists hlists, (hgood p).drain hdrain⟩

end Sys2Proof.Machine

/-! PROOFS. HOLD and RESUME in every flow (O26). -/

namespace Sys2Proof.Machine

theorem watchesHold_iff (m : WatchMode) : watchesHold m = true ↔ m = .hold ∨ m = .both := by
  cases m <;> simp [watchesHold]

theorem watchesResume_iff (m : WatchMode) : watchesResume m = true ↔ m = .resume ∨ m = .both := by
  cases m <;> simp [watchesResume]

/-- PORT_WATCH latched under a condition (R83): ATTN bit 6 alone. -/
theorem State.latchIf_portWatch (s : State) {c : Bool} {P : Prop} [Decidable P] (h : c = true ↔ P) :
    s.latchIf c attnPortWatch = { s with attn := if P then s.attn ||| 0x40#8 else s.attn } := by
  unfold State.latchIf
  by_cases hP : P
  · rw [if_pos (h.2 hP), if_pos hP]
    rfl
  · rw [if_neg (fun hc => hP (h.1 hc)), if_neg hP]

/-- A HOLD that LKI takes at once goes to its port scheduler (R135, R140). -/
theorem exec_hold_of_takesAtOnce {s : State} (hs : s.TakesAtOnce) (p : PortIx) :
    exec (.hold p) s = .next (s.takeHold p) := by
  show Host.Outcome.next (s.receiveMessage (Message.ofHold p) false) = _
  rw [State.receiveMessage_now _ _ hs, parseMessage_ofHold]
  rfl

/-- A RESUME that LKI takes at once goes to its port scheduler (R135, R140). -/
theorem exec_resume_of_takesAtOnce {s : State} (hs : s.TakesAtOnce) (p : PortIx) (later : Bool) :
    exec (.resume p later) s = .next (s.takeResume p later) := by
  show Host.Outcome.next (s.receiveMessage (Message.ofResume p) later) = _
  rw [State.receiveMessage_now _ _ hs, parseMessage_ofResume]
  rfl

/-- A port changed on both sides of a record offered. -/
theorem State.updPort_offer_updPort (s : State) (p : PortIx) (f g : Port → Port) (os : List Offer) :
    ((s.updPort p f).offer os).updPort p g = (s.setPort p (g (f (s.port p)))).offer os :=
  State.setPort_offer_updPort s p (f (s.port p)) g os

theorem State.latchIf_updPort (s : State) (c : Bool) (i : Nat) (p : PortIx) (f : Port → Port) :
    (s.latchIf c i).updPort p f = (s.updPort p f).latchIf c i := by
  cases c <;> rfl

section
variable {s : State} {p : PortIx}

/-- HOLD on a FLOWING port (R77). -/
theorem State.takeHold_of_flowing (hf : (s.port p).flow = .flowing) :
    s.takeHold p =
      (((s.setPort p { s.port p with
        flow := .held
        holdAge := 0
        watchLatch := { (s.port p).watchLatch with hold := true }
        tally := { (s.port p).tally with holds := satAdd (s.port p).tally.holds 1 } }).offer
          [s.stamp .hold p 0 0 0]).latchIf (watchesHold (s.port p).watchMode) attnPortWatch) := by
  simp only [State.takeHold, hf, beq_self_eq_true, if_true, State.updPort_offer_updPort]

/-- HOLD on a port that is HELD or STALLED joins the watch latch and does no more (R77, R82). -/
theorem State.takeHold_of_not_flowing (hf : (s.port p).flow ≠ .flowing) :
    s.takeHold p =
      (s.setPort p { s.port p with watchLatch := { (s.port p).watchLatch with hold := true } }).latchIf
        (watchesHold (s.port p).watchMode) attnPortWatch := by
  rw [State.takeHold, if_neg (by simp [hf])]
  rfl

/-- RESUME on a FLOWING port joins the watch latch and does no more (R79, R82). -/
theorem State.takeResume_of_flowing (hf : (s.port p).flow = .flowing) (later : Bool) :
    s.takeResume p later =
      (s.setPort p { s.port p with watchLatch := { (s.port p).watchLatch with resume := true } }).latchIf
        (watchesResume (s.port p).watchMode) attnPortWatch := by
  rw [State.takeResume, if_pos (by simp [hf])]
  rfl

/-- RESUME on a HELD or STALLED port ends with the test of the release condition (R79). -/
theorem State.takeResume_of_not_flowing (hf : (s.port p).flow ≠ .flowing) (later : Bool) :
    s.takeResume p later =
      (((s.setPort p { s.port p with
        flow := .flowing
        watchLatch := { (s.port p).watchLatch with resume := true }
        timer :=
          if (s.port p).flow = .stalled then
            (if (s.port p).state = .opened ∨ (s.port p).state = .draining then some (s.port p).roundLength else none)
          else (s.port p).timer }).latchIf (watchesResume (s.port p).watchMode) attnPortWatch).offer
            [s.stamp .resume p 0 0 0]).endEvent p later := by
  rw [State.takeResume, if_neg (by simp [hf]), State.latchIf_updPort, State.updPort_updPort, State.updPort, Port.resumeFlow_eq]

end

/-- Settles O26: the messages go to the port scheduler, and there the flow decides. -/
theorem holdAndResumeOutcome : Obligations.HoldAndResumeOutcome := by
  refine ⟨fun p s hs => ?_, fun p later s hs => ?_⟩
  · rw [exec_hold_of_takesAtOnce hs]
    refine ⟨fun hf => ?_, fun hf => ?_⟩
    · rw [State.takeHold_of_flowing hf, State.latchIf_portWatch _ (watchesHold_iff _)]
      rfl
    · rw [State.takeHold_of_not_flowing hf, State.latchIf_portWatch _ (watchesHold_iff _)]
      rfl
  · rw [exec_resume_of_takesAtOnce hs]
    refine ⟨fun hf => ?_, fun hf => ?_⟩
    · rw [State.takeResume_of_flowing hf, State.latchIf_portWatch _ (watchesResume_iff _)]
      rfl
    · rw [State.takeResume_of_not_flowing hf, State.latchIf_portWatch _ (watchesResume_iff _)]
      rfl

end Sys2Proof.Machine

/-! PROOFS. The round expiry in every state and flow, and its effect on an OPEN and HELD port (O31). -/

namespace Sys2Proof.Machine

theorem exec_roundExpiry (p : PortIx) (s : State) : exec (.roundExpiry p) s = .next (s.roundExpiry p) := rfl

/-- A pending refresh applied, said by its two cases (R108). -/
theorem State.eq_refreshIf {s r : State} {p : PortIx} (hflag : (s.port p).refreshFlag = true → r = s.refresh p)
    (hnoflag : (s.port p).refreshFlag = false → r = s) : r = s.refreshIf p := by
  cases hf : (s.port p).refreshFlag with
  | true => rw [hflag hf, State.refreshIf_of_flag hf]
  | false => rw [hnoflag hf, State.refreshIf_of_no_flag hf]

/-- A port one round on: its lanes have accrued, its slots and its hold have aged, the next round begins. -/
def Port.nextRound (q : Port) : Port := q.creditWork.ageSlots.ageHold.startTimer

theorem Port.aged_flow (q : Port) : q.creditWork.ageSlots.flow = q.flow := by
  rw [Port.aged_eq]

theorem Port.aged_older (q : Port) : q.creditWork.ageSlots.older = q.older.map Slot.older1 := by
  rw [Port.aged_eq]

theorem Port.aged_younger (q : Port) : q.creditWork.ageSlots.younger = q.younger.map Slot.older1 := by
  rw [Port.aged_eq]

theorem Port.aged_expired (q : Port) : q.creditWork.ageSlots.expired = q.expired := by
  rw [Port.aged_eq]
  generalize q.creditWork.lanes = lanes
  rfl

theorem Port.aged_stallDue (q : Port) : q.creditWork.ageSlots.ageHold.stallDue = q.ageHold.stallDue := by
  rw [Port.aged_eq]
  generalize q.creditWork.lanes = lanes
  rfl

theorem Port.nextRound_lanes (q : Port) : q.nextRound.lanes = q.creditWork.lanes := by
  rw [Port.nextRound, Port.aged_eq]
  rfl

theorem Port.nextRound_lane (q : Port) (src : SourceIx) : q.nextRound.lane src = (q.lane src).accrue q.roundCount src := by
  rw [Port.lane_congr q.nextRound_lanes, Port.creditWork_lane]

/-- The next round of an OPEN port that is not STALLED (R14, R61, R75, R78). -/
theorem Port.nextRound_eq {q : Port} (hstate : q.state = .opened) (hflow : q.flow ≠ .stalled) :
    q.nextRound = { q with
      lanes := q.nextRound.lanes
      roundCount := q.roundCount + 1
      older := q.older.map Slot.older1
      younger := q.younger.map Slot.older1
      holdAge := ageUp q.holdAge
      timer := some q.roundLength } := by
  have hopened : ∀ q' : Port, q'.state = q.state → q'.flow = q.flow →
      q'.startTimer = { q' with timer := some q'.roundLength } := fun q' hs hf => by
    rw [Port.startTimer_opened (hs.trans hstate), if_neg (by rwa [hf])]
  rw [Port.nextRound_lanes, Port.nextRound, Port.aged_eq]
  generalize q.creditWork.lanes = lanes
  exact hopened _ rfl rfl

theorem State.setPort_port_self (s : State) (p : PortIx) (q : Port) : (s.setPort p q).port p = q := by
  rw [State.setPort_port, if_pos rfl]

/-- A port as set, changed. -/
theorem State.setPort_updPort (s : State) (p : PortIx) (q : Port) (f : Port → Port) :
    (s.setPort p q).updPort p f = s.setPort p (f q) := by
  rw [State.updPort, State.setPort_port_self, State.setPort_setPort]

section
variable {s : State} {p : PortIx}

/-- Where no occupied slot ends at this round, none is freed. -/
theorem State.expireSlots_of_aged (holder : ∀ a : Slot, (s.port p).older = some a → (s.port p).expired a.older1 = false)
    (hyounger : ∀ b : Slot, (s.port p).younger = some b → (s.port p).expired b.older1 = false) :
    (s.setPort p (s.port p).creditWork.ageSlots).expireSlots p = s.setPort p (s.port p).creditWork.ageSlots := by
  refine State.expireSlots_none _ ?_ ?_ <;> rw [State.setPort_port_self, Port.aged_expired]
  · rw [Port.aged_older]
    intro x hx
    obtain ⟨a, ha, rfl⟩ := Option.map_eq_some_iff.1 hx
    exact holder a ha
  · rw [Port.aged_younger]
    intro x hx
    obtain ⟨b, hb, rfl⟩ := Option.map_eq_some_iff.1 hx
    exact hyounger b hb

/-- A round expiry of an OPEN and HELD port at which there is no refresh, no slot ends and the hold does not end. -/
theorem State.roundExpiry_of_held (ht : (s.port p).timer ≠ none)
    (hstate : (s.port p).state = .opened) (hflow : (s.port p).flow = .held) (hflag : (s.port p).refreshFlag = false)
    (hhold : (s.port p).ageHold.stallDue = false)
    (holder : ∀ a : Slot, (s.port p).older = some a → (s.port p).expired a.older1 = false)
    (hyounger : ∀ b : Slot, (s.port p).younger = some b → (s.port p).expired b.older1 = false) :
    s.roundExpiry p = s.setPort p (s.port p).nextRound := by
  have hcredit : s.expiryCredit p = s.setPort p (s.port p).creditWork.ageSlots := by
    rw [State.expiryCredit_quiet s hflag]
    rfl
  have hwork : (s.setPort p (s.port p).creditWork.ageSlots).holdWork p =
      (s.setPort p (s.port p).creditWork.ageSlots).updPort p Port.ageHold := by
    refine State.holdWork_ages _ ?_ ?_
    · rw [State.setPort_port_self, Port.aged_flow, hflow]
    · rw [State.setPort_port_self, Port.aged_stallDue, hhold]
  have hnext := Port.nextRound_eq hstate (by rw [hflow]; exact Flow.noConfusion)
  rw [State.roundExpiry_runs s ht, hcredit, State.expireSlots_of_aged holder hyounger, hwork, State.setPort_updPort,
    State.setPort_updPort, ← Port.nextRound]
  refine State.testAndDrain_quiet _ ?_ ?_
  · rw [State.setPort_port_self, hnext, hflow]
    exact Flow.noConfusion
  · rw [State.setPort_port_self, hnext, hstate]
    exact PortState.noConfusion

end

/-- Settles O31: the round expiry as a whole, and its stages on an OPEN and HELD port where nothing ends. -/
theorem roundExpiryOutcome : Obligations.RoundExpiryOutcome := by
  refine ⟨fun p s r hslots hflag hnoflag => ⟨fun ht => ?_, fun ht => ?_⟩, fun p s ht hstate hflow hflag hhold hslots => ?_⟩
  · obtain ⟨u, hround, hexpiry⟩ := State.roundExpiry_roundExpired hslots ht
    refine ⟨u, ?_, ?_⟩
    · rw [exec_roundExpiry, hexpiry]
    · rwa [State.eq_refreshIf hflag hnoflag]
  · rw [exec_roundExpiry, State.roundExpiry_stopped s ht]
  · have hexpiry : s.roundExpiry p = s.setPort p (s.port p).nextRound := by
      refine State.roundExpiry_of_held ht hstate hflow hflag (Port.stallDue_not _ hhold) (fun a ha => ?_) (fun b hb => ?_)
      · exact Port.expired_older1_not _ a (hslots.imp id fun h => h.1 a ha)
      · exact Port.expired_older1_not _ b (hslots.imp id fun h => h.2 b hb)
    refine ⟨s.setPort p (s.port p).nextRound, ?_, rfl, fun p' hp' => ?_, fun x => ?_, ?_⟩
    · rw [exec_roundExpiry, hexpiry]
    · rw [State.setPort_port, if_neg hp']
    · rw [State.lane, State.setPort_port_self]
      exact Port.nextRound_lane _ x
    · rw [State.setPort_port_self]
      exact Port.nextRound_eq hstate (by rw [hflow]; exact Flow.noConfusion)

end Sys2Proof.Machine

/-! PROOFS. PORT orders: how each action ends (O38 to O42), and the orders of which no action is carried out (O43). -/

namespace Sys2Proof.Machine

/-! ## The end of a PORT order (R85, R90, R155) -/

theorem State.finish_port (s : State) (c : ChannelIx) (r : OrderResult) (w1 : Word) (bus : CompletionBus) (p : PortIx) :
    (s.finish c r w1 bus).port p = s.port p := by
  rw [State.port_of_ports (State.finish_ports s c r w1 bus)]

section
variable {s u : State} {c : ChannelIx} {b : OrderBlock} {p : PortIx}
  {act : PortIx → OrderBlock → State → State × OrderResult} {st : Status} {w : Word} {d : BitVec 16} {x : PortIx}

/-- A PORT order is completed as its action answers, where that leaves the channels, ATTN and card memory. -/
theorem State.portOrder_completed_of (h : s.CarriesOut c) (hp : b.port? = some p) (bus : CompletionBus)
    (ha : act p b (s.portBegun c) = (u, ⟨st, w, d, x⟩)) (hu : (s.portBegun c).ExecSame u) (hattn : u.attn = s.attn) :
    s.Completed (s.portOrder (some b) bus act) c st (Config.freeWord s.freeCtr) d bus := by
  rw [State.portOrder_of h hp bus ha]
  exact State.portOrder_completed hu.channels hattn hu.cardMem ⟨st, Config.freeWord s.freeCtr, d, x⟩ b.w1 bus

/-- Beside its action and the completion, a PORT order changes the ports, the executor and the free values' counter at most. -/
theorem State.portOrder_frame {v : State} (h : s.CarriesOut c) (hp : b.port? = some p) (bus : CompletionBus)
    (ha : act p b (s.portBegun c) = (u, ⟨st, w, d, x⟩)) (huv : u = v) :
    s.portOrder (some b) bus act = { v with
      ports := (s.portOrder (some b) bus act).ports
      executor := .free
      channels := (s.portOrder (some b) bus act).channels
      attn := (s.portOrder (some b) bus act).attn
      cardMem := (s.portOrder (some b) bus act).cardMem
      freeCtr := (s.portOrder (some b) bus act).freeCtr } := by
  subst huv
  rw [State.portOrder_of h hp bus ha, State.finish_ports, State.finish_freeCtr]
  exact State.finish_frame _ _ _ _ _

/-- A PORT order whose action changes its port alone. -/
theorem State.portOrder_setPort {q : Port} (h : s.CarriesOut c) (hp : b.port? = some p) (bus : CompletionBus)
    (ha : act p b (s.portBegun c) = ((s.portBegun c).setPort p q, ⟨st, w, d, x⟩)) :
    s.portOrder (some b) bus act = { s with
      ports := s.ports.set p q
      executor := .free
      channels := (s.portOrder (some b) bus act).channels
      attn := (s.portOrder (some b) bus act).attn
      cardMem := (s.portOrder (some b) bus act).cardMem
      freeCtr := (s.portOrder (some b) bus act).freeCtr } := by
  have hports : (s.portOrder (some b) bus act).ports = s.ports.set p q := by
    rw [State.portOrder_of h hp bus ha, State.finish_ports]
    rfl
  have hframe := State.portOrder_frame h hp bus ha rfl
  rwa [hports] at hframe

theorem State.portOrder_setPort_completed {q : Port} (h : s.CarriesOut c) (hp : b.port? = some p) (bus : CompletionBus)
    (ha : act p b (s.portBegun c) = ((s.portBegun c).setPort p q, ⟨st, w, d, x⟩)) :
    s.Completed (s.portOrder (some b) bus act) c st (Config.freeWord s.freeCtr) d bus :=
  State.portOrder_completed_of h hp bus ha (State.ExecSame.of_frame rfl rfl rfl rfl rfl rfl rfl) rfl

theorem State.portOrder_untouched_completed (h : s.CarriesOut c) (hp : b.port? = some p) (bus : CompletionBus)
    (ha : act p b (s.portBegun c) = (s.portBegun c, ⟨st, w, d, x⟩)) :
    s.Completed (s.portOrder (some b) bus act) c st (Config.freeWord s.freeCtr) d bus :=
  State.portOrder_completed_of h hp bus ha (State.ExecSame.refl _) rfl

/-- A PORT order whose action changes nothing. -/
theorem State.portOrder_untouched (h : s.CarriesOut c) (hp : b.port? = some p) (bus : CompletionBus)
    (ha : act p b (s.portBegun c) = (s.portBegun c, ⟨st, w, d, x⟩)) :
    s.PortEndedUntouched (s.portOrder (some b) bus act) c st d bus :=
  State.portOrder_ended h hp bus ha

/-- A PORT order on a RETIRED port: MOVED, with nothing changed and the successor named in word 1 (R90). -/
theorem State.portOrder_moved (h : s.CarriesOut c) (hp : b.port? = some p) (bus : CompletionBus)
    (ha : act p b (s.portBegun c) = (s.portBegun c, ⟨.moved, w, 0, x⟩)) :
    s.PortEndedUntouched (s.portOrder (some b) bus act) c .moved 0 bus ∧
      s.NamesSuccessor (s.portOrder (some b) bus act) c b.w1 x bus :=
  ⟨State.portOrder_untouched h hp bus ha, State.portOrder_namesSuccessor h hp bus ha rfl rfl⟩

end

/-! ## No action (R85) -/

/-- Every PORT command is a PORT order with an action of its own. -/
theorem exec_portCommand {b : OrderBlock} {bus : CompletionBus} {i : Instr} (hi : i ∈ portCommands b bus) (s : State) :
    ∃ act : PortIx → OrderBlock → State → State × OrderResult,
      exec i s = .next (s.portOrder (some b) bus act).takeNext := by
  simp only [portCommands, List.mem_cons, List.not_mem_nil, or_false] at hi
  rcases hi with rfl | rfl | rfl | rfl | rfl | rfl <;> exact ⟨_, rfl⟩

/-- Settles O43: the port is looked at before the action. -/
theorem portBadActionOutcome : Obligations.PortBadActionOutcome := by
  refine fun b bus s c hc => ⟨fun p hp => ⟨_, rfl, ?_⟩, fun hp i hi => ?_⟩
  · exact State.portOrder_untouched hc hp bus rfl
  · obtain ⟨act, hexec⟩ := exec_portCommand hi s
    exact ⟨_, hexec, State.portOrder_badPort hc hp bus act⟩

/-! ## OPEN (R86) -/

section
variable {s : State} {p : PortIx}

theorem State.portOpenAction_of_opened (hst : (s.port p).state = .opened) : s.portOpenAction p = (s, .ok, 0) := by
  simp only [State.portOpenAction, hst]

theorem State.portOpenAction_of_draining (hst : (s.port p).state = .draining) :
    s.portOpenAction p = (s.setPort p { s.port p with state := .opened }, .ok, 0) := by
  simp only [State.portOpenAction, hst]
  rfl

theorem State.portOpenAction_of_out_of_service (hopened : (s.port p).state ≠ .opened)
    (hdraining : (s.port p).state ≠ .draining) : s.portOpenAction p = (s.openPort p, .ok, 0) := by
  unfold State.portOpenAction
  split
  · rfl
  · exact absurd (by assumption) hdraining
  · exact absurd (by assumption) hopened
  · rfl

/-- Whatever state it finds, OPEN answers OK and leaves ATTN. -/
theorem State.portOpenAction_ok (s : State) (p : PortIx) :
    ∃ u : State, s.portOpenAction p = (u, .ok, 0) ∧ u.attn = s.attn := by
  unfold State.portOpenAction
  cases (s.port p).state with
  | closed => exact ⟨_, rfl, s.openPort_attn p⟩
  | draining => exact ⟨_, rfl, rfl⟩
  | opened => exact ⟨_, rfl, rfl⟩
  | retired x => exact ⟨_, rfl, s.openPort_attn p⟩

end

/-- A CLOSED or RETIRED port with a pending refresh as OPEN leaves it, where its lists are empty (R86, R108). -/
def State.refreshedOpen (s : State) (p : PortIx) : Port :=
  { s.port p with
    lanes := ((s.port p).mapLanes fun src l => l.refresh (s.derived (s.port p).selected p src)).lanes
    state := .opened
    refreshFlag := false
    applied := (s.port p).selected
    timer := if (s.port p).flow = .stalled then none else some (s.port p).roundLength }

theorem State.refreshedOpen_lane (s : State) (p : PortIx) (src : SourceIx) :
    (s.refreshedOpen p).lane src = (s.lane p src).refresh (s.derived (s.port p).selected p src) := by
  have hlanes : (s.refreshedOpen p).lanes =
      ((s.port p).mapLanes fun src l => l.refresh (s.derived (s.port p).selected p src)).lanes := rfl
  rw [Port.lane_congr hlanes, Port.mapLanes_lane]
  rfl

theorem exec_portOpen (b : OrderBlock) (bus : CompletionBus) (s : State) :
    exec (.portOpen (some b) bus) s =
      .next (s.portOrder (some b) bus fun p _ t => portResult (t.portOpenAction p)).takeNext := rfl

/-- Settles O38: the completion whatever the state, then the state decides. -/
theorem portOpenOutcome : Obligations.PortOpenOutcome := by
  intro b bus s c p hc hp
  refine ⟨_, Config.freeWord s.freeCtr, exec_portOpen b bus s, ?_, fun hst => ?_, fun hst => ?_,
    fun hopened hdraining hlists => ?_⟩
  · obtain ⟨u, hu, hattn⟩ := (s.portBegun c).portOpenAction_ok p
    have hsame := ((s.portBegun c).portSide_portOpenAction p).exec
    rw [hu] at hsame
    exact State.portOrder_completed_of hc hp bus (congrArg portResult hu) hsame hattn
  · exact State.portOrder_untouched hc hp bus
      (congrArg portResult (State.portOpenAction_of_opened (s := s.portBegun c) hst))
  · exact State.portOrder_setPort hc hp bus
      (congrArg portResult (State.portOpenAction_of_draining (s := s.portBegun c) hst))
  · have ha := congrArg portResult (State.portOpenAction_of_out_of_service (s := s.portBegun c) hopened hdraining)
    refine ⟨fun hflag => ?_, fun hflag => ?_⟩
    · rw [(s.portBegun c).openPort_plain hlists hflag] at ha
      exact State.portOrder_setPort hc hp bus ha
    · have hopen := (s.portBegun c).openPort_refreshes hlists hflag
      have hport : ∀ p' : PortIx, (s.portOrder (some b) bus fun p _ t => portResult (t.portOpenAction p)).port p' =
          if p' = p then s.refreshedOpen p else s.port p' := fun p' => by
        rw [State.portOrder_of hc hp bus ha, State.finish_port]
        exact (congrArg (State.port · p') hopen).trans (s.setPort_port p p' (s.refreshedOpen p))
      refine ⟨fun p' hp' => ?_, fun x => ?_, ?_, State.portOrder_frame hc hp bus ha hopen⟩
      · rw [hport, if_neg hp']
      · rw [State.lane, hport, if_pos rfl, State.refreshedOpen_lane]
      · rw [hport, if_pos rfl]
        rfl

/-! ## CLOSE (R87) -/

section
variable {s : State} {p : PortIx}

theorem State.portCloseAction_of_opened (hst : (s.port p).state = .opened) :
    s.portCloseAction p = (s.setPort p ({ s.port p with state := .draining } : Port).drainRule, .ok, 0) := by
  simp only [State.portCloseAction, hst, State.drain, State.updPort_updPort]
  rfl

theorem State.portCloseAction_of_retired {x : PortIx} (hst : (s.port p).state = .retired x) :
    s.portCloseAction p = (s, .moved, x) := by
  simp only [State.portCloseAction, hst]

/-- CLOSE leaves a port that is out of service, or already DRAINING, as it is; only a RETIRED one is MOVED. -/
theorem State.portCloseAction_of_not_opened (hst : (s.port p).state ≠ .opened) :
    ∃ (st : Status) (x : PortIx), s.portCloseAction p = (s, st, x) ∧
      ((∀ y : PortIx, (s.port p).state ≠ .retired y) → st = .ok) := by
  unfold State.portCloseAction
  cases h : (s.port p).state with
  | closed => exact ⟨_, _, rfl, fun _ => rfl⟩
  | draining => exact ⟨_, _, rfl, fun _ => rfl⟩
  | opened => exact absurd h hst
  | retired y => exact ⟨_, _, rfl, fun hnot => absurd rfl (hnot y)⟩

end

theorem exec_portClose (b : OrderBlock) (bus : CompletionBus) (s : State) :
    exec (.portClose (some b) bus) s =
      .next (s.portOrder (some b) bus fun p _ t => portResult (t.portCloseAction p)).takeNext := rfl

/-- Settles O39: an OPEN port becomes DRAINING and the drain rule decides; every other stays as it is. -/
theorem portCloseOutcome : Obligations.PortCloseOutcome := by
  intro b bus s c p hc hp
  refine ⟨_, Config.freeWord s.freeCtr, exec_portClose b bus s, fun hretired => ?_, fun x hst => ?_, fun hst => ?_,
    fun hst hkept => ?_, fun hst hlists holder hyounger => ?_⟩
  · by_cases hst : (s.port p).state = .opened
    · exact State.portOrder_setPort_completed hc hp bus
        (congrArg portResult (State.portCloseAction_of_opened (s := s.portBegun c) hst))
    · obtain ⟨st, x, ha, hok⟩ := State.portCloseAction_of_not_opened (s := s.portBegun c) hst
      obtain rfl := hok hretired
      exact State.portOrder_untouched_completed hc hp bus (congrArg portResult ha)
  · have ha := congrArg portResult (State.portCloseAction_of_retired (s := s.portBegun c) hst)
    exact ⟨State.portOrder_untouched_completed hc hp bus ha, (State.portOrder_moved hc hp bus ha).2⟩
  · obtain ⟨st, x, ha, _⟩ := State.portCloseAction_of_not_opened (s := s.portBegun c) hst
    exact (State.portOrder_untouched hc hp bus (congrArg portResult ha)).frame
  · rw [← Port.close_kept hkept]
    exact State.portOrder_setPort hc hp bus
      (congrArg portResult (State.portCloseAction_of_opened (s := s.portBegun c) hst))
  · rw [← Port.close_empty hlists holder hyounger]
    exact State.portOrder_setPort hc hp bus
      (congrArg portResult (State.portCloseAction_of_opened (s := s.portBegun c) hst))

/-! ## CLEAR (R88) -/

section
variable {s : State} {p : PortIx}

theorem State.portClearAction_of_opened (hst : (s.port p).state = .opened) : s.portClearAction p = (s, .wrongState, 0) := by
  simp only [State.portClearAction, hst]

theorem State.portClearAction_of_retired {x : PortIx} (hst : (s.port p).state = .retired x) :
    s.portClearAction p = (s, .moved, x) := by
  simp only [State.portClearAction, hst]

theorem State.portClearAction_of_clearable (hst : (s.port p).state = .closed ∨ (s.port p).state = .draining) :
    s.portClearAction p = (s.clearPort p, .ok, 0) := by
  rcases hst with hst | hst <;> simp only [State.portClearAction, hst]

end

theorem State.clearPort_attn (s : State) (p : PortIx) : (s.clearPort p).attn = s.attn := by
  rw [State.clearPort_frame]

/-- A lane of a cleared port: nothing on its list, and no balance (R88). -/
theorem Port.emptied_clear_lane (q : Port) (src : SourceIx) :
    q.emptied.clear.lane src = { q.lane src with list := [], balance := 0 } := by
  rw [Port.clear_lane, Port.emptied_lane]

theorem exec_portClear (b : OrderBlock) (bus : CompletionBus) (s : State) :
    exec (.portClear (some b) bus) s =
      .next (s.portOrder (some b) bus fun p _ t => portResult (t.portClearAction p)).takeNext := rfl

/-- Settles O40: the state decides, and a clear is what the law of `clearPort` says. -/
theorem portClearOutcome : Obligations.PortClearOutcome := by
  intro b bus s c p hc hp
  refine ⟨_, exec_portClear b bus s, fun hst => ?_, fun x hst => ?_, fun hst => ?_⟩
  · exact State.portOrder_untouched hc hp bus
      (congrArg portResult (State.portClearAction_of_opened (s := s.portBegun c) hst))
  · exact State.portOrder_moved hc hp bus
      (congrArg portResult (State.portClearAction_of_retired (s := s.portBegun c) hst))
  · have ha := congrArg portResult (State.portClearAction_of_clearable (s := s.portBegun c) hst)
    have hport : ∀ p' : PortIx, (s.portOrder (some b) bus fun p _ t => portResult (t.portClearAction p)).port p' =
        if p' = p then (s.port p).emptied.clear else s.port p' := fun p' => by
      rw [State.portOrder_of hc hp bus ha, State.finish_port]
      exact (s.portBegun c).clearPort_port p p'
    refine ⟨⟨_, State.portOrder_completed_of hc hp bus ha ((s.portBegun c).portSide_clearPort p).exec
      ((s.portBegun c).clearPort_attn p)⟩, ?_, fun p' hp' => ?_, fun x => ?_, ?_⟩
    · refine (State.portOrder_frame hc hp bus ha ((s.portBegun c).clearPort_frame p)).trans ?_
      apply State.eq_of_fields <;> rfl
    · rw [hport, if_neg hp']
    · rw [State.lane, hport, if_pos rfl]
      exact Port.emptied_clear_lane _ x
    · rw [hport, if_pos rfl]
      exact Port.emptied_clear_eq _

/-! ## RETIRE (R89) -/

theorem Port.successor?_of_retired {q : Port} {x : PortIx} (hst : q.state = .retired x) : q.successor? = some x := by
  simp only [Port.successor?, hst]

theorem OrderBlock.successor?_of_le {b : OrderBlock} (h : 16 ≤ b.successorField.toNat) : b.successor? = none :=
  dif_neg (by omega)

theorem OrderBlock.successor?_of_val {b : OrderBlock} {x : PortIx} (h : x.val = b.successorField.toNat) :
    b.successor? = some x := by
  have hlt : b.successorField.toNat < 16 := h ▸ x.isLt
  rw [OrderBlock.successor?, dif_pos hlt]
  exact congrArg some (Fin.ext h.symm)

theorem Port.mayRetire_iff (q : Port) : q.mayRetire = true ↔ q.state = .closed ∧ q.older = none ∧ q.younger = none := by
  simp only [Port.mayRetire, Bool.and_eq_true, beq_iff_eq, Option.isNone_iff_eq_none]

section
variable {s : State} {p x : PortIx}

theorem State.portRetireAction_of_retired (hst : (s.port p).state = .retired x) (successor : Option PortIx) :
    s.portRetireAction p successor = (s, .moved, x) := by
  simp only [State.portRetireAction, Port.successor?_of_retired hst]

theorem State.portRetireAction_of_no_successor (hst : ∀ y : PortIx, (s.port p).state ≠ .retired y) :
    s.portRetireAction p none = (s, .badOrder, 0) := by
  simp only [State.portRetireAction, Port.successor?_none hst]

theorem State.portRetireAction_of_bad_successor (hst : ∀ y : PortIx, (s.port p).state ≠ .retired y)
    (hx : x = p ∨ ∃ y : PortIx, (s.port x).state = .retired y) :
    s.portRetireAction p (some x) = (s, .badOrder, 0) := by
  have hbad : x = p ∨ (s.port x).successor?.isSome = true :=
    hx.imp id fun ⟨y, hy⟩ => by rw [Port.successor?_of_retired hy]; rfl
  simp only [State.portRetireAction, Port.successor?_none hst, hbad, if_true]

/-- With a successor that may serve, the port's own state and slots decide (R89 check 3). -/
theorem State.portRetireAction_of_successor (hst : ∀ y : PortIx, (s.port p).state ≠ .retired y) (hne : x ≠ p)
    (hx : ∀ y : PortIx, (s.port x).state ≠ .retired y) :
    s.portRetireAction p (some x) =
      if (s.port p).mayRetire then (s.setPort p { s.port p with state := .retired x }, .ok, 0) else (s, .wrongState, 0) := by
  have hgood : ¬ (x = p ∨ (s.port x).successor?.isSome = true) := by
    rw [Port.successor?_none hx]
    simpa using hne
  simp only [State.portRetireAction, Port.successor?_none hst, hgood, if_false]
  rfl

end

theorem exec_portRetire (b : OrderBlock) (bus : CompletionBus) (s : State) :
    exec (.portRetire (some b) bus) s =
      .next (s.portOrder (some b) bus fun p b t => portResult (t.portRetireAction p b.successor?)).takeNext := rfl

/-- Settles O41, check by check. -/
theorem portRetireOutcome : Obligations.PortRetireOutcome := by
  intro b bus s c p hc hp
  refine ⟨_, exec_portRetire b bus s, fun x hst => ?_, fun hst => ⟨fun hbad => ?_, fun x hval hne hx => ?_⟩⟩
  · exact State.portOrder_moved hc hp bus
      (congrArg portResult (State.portRetireAction_of_retired (s := s.portBegun c) hst _))
  · refine State.portOrder_untouched hc hp bus (congrArg portResult (?_ :
      (s.portBegun c).portRetireAction p b.successor? = (s.portBegun c, .badOrder, 0)))
    rcases hbad with habove | hself | ⟨x, y, hval, hy⟩
    · rw [OrderBlock.successor?_of_le habove]
      exact State.portRetireAction_of_no_successor hst
    · rw [OrderBlock.successor?_of_val hself.symm]
      exact State.portRetireAction_of_bad_successor hst (.inl rfl)
    · rw [OrderBlock.successor?_of_val hval]
      exact State.portRetireAction_of_bad_successor hst (.inr ⟨y, hy⟩)
  · have haction := State.portRetireAction_of_successor (s := s.portBegun c) hst hne hx
    rw [← OrderBlock.successor?_of_val hval] at haction
    refine ⟨fun hnot => ?_, fun hclosed holder hyounger => ?_⟩
    · have hmay : ¬ ((s.portBegun c).port p).mayRetire = true := by
        rw [Port.mayRetire_iff]
        rintro ⟨hclosed, holder, hyounger⟩
        exact hnot.elim (· hclosed) (·.elim (· holder) (· hyounger))
      rw [if_neg hmay] at haction
      exact State.portOrder_untouched hc hp bus (congrArg portResult haction)
    · have hmay : ((s.portBegun c).port p).mayRetire = true := (Port.mayRetire_iff _).2 ⟨hclosed, holder, hyounger⟩
      rw [if_pos hmay] at haction
      have ha := congrArg portResult haction
      exact ⟨⟨_, State.portOrder_setPort_completed hc hp bus ha⟩, State.portOrder_setPort hc hp bus ha⟩

/-! ## SET (R91) -/

/-- A port with the six values of a SET, its round length held within 10..10000. -/
theorem Port.setValues_eq (q : Port) (b : OrderBlock) :
    q.setValues b = { q with
      roundLength := BitVec.ofNat 16 (max 10 (min b.setRoundLength.toNat 10000))
      kc := b.setKc
      kf := b.setKf
      holdLimit := b.setHoldLimit
      doneLimit := b.setDoneLimit
      watchMode := watchModeOfCode b.setWatchMode } := by
  rw [Port.setValues, heldRoundLength_eq]

/-- The profiles whose booked sums a SET of port `p` checks, the lowest first. -/
theorem State.mem_setChecks (s : State) (p : PortIx) (x : ProfileIx × PortIx) :
    x ∈ (allProfiles.filter fun k => s.governs k p).map (fun k => (k, p)) ↔ s.governs x.1 p = true ∧ x.2 = p := by
  rw [List.mem_map]
  constructor
  · rintro ⟨k, hk, rfl⟩
    exact ⟨(List.mem_filter.1 hk).2, rfl⟩
  · rintro ⟨hgoverns, hport⟩
    exact ⟨x.1, List.mem_filter.2 ⟨List.mem_finRange x.1, hgoverns⟩, Prod.ext rfl hport.symm⟩

section
variable {s : State} {p : PortIx}

theorem State.portSetAction_of_retired {x : PortIx} (hst : (s.port p).state = .retired x) (b : OrderBlock) :
    s.portSetAction p b = (s, OrderResult.movedTo x 0) := by
  simp only [State.portSetAction, Port.successor?_of_retired hst]

/-- A SET whose new capacity holds every booked sum (R91). -/
theorem State.portSetAction_ok {b : OrderBlock} (hst : ∀ x : PortIx, (s.port p).state ≠ .retired x)
    (hfit : ∀ k : ProfileIx, s.governs k p = true →
      bookedSum (s.bankPort k p) s.pins p ≤ capacityFigure b.setKc b.setKf) :
    s.portSetAction p b = (s.setPort p ((s.port p).setValues b), OrderResult.ok0) := by
  have hnone : firstOverbook ((allProfiles.filter fun k => s.governs k p).map fun k => (k, p))
      (fun k p => legalBooking (s.bankPort k p) s.pins p (capacityFigure b.setKc b.setKf)) = none := by
    refine find?_nothing fun x hx => ?_
    obtain ⟨hgoverns, hport⟩ := (s.mem_setChecks p x).1 hx
    rw [Bool.not_eq_false', legalBooking_iff, hport]
    exact hfit x.1 hgoverns
  simp only [State.portSetAction, Port.successor?_none hst, hnone]
  rfl

/-- A SET whose new capacity a booked sum exceeds: the lowest such profile stands in the detail (R117, log 18). -/
theorem State.portSetAction_overbook {b : OrderBlock} {k : ProfileIx} (hst : ∀ x : PortIx, (s.port p).state ≠ .retired x)
    (hgoverns : s.governs k p = true) (hover : capacityFigure b.setKc b.setKf < bookedSum (s.bankPort k p) s.pins p)
    (hfirst : ∀ k' : ProfileIx, k' < k → s.governs k' p = true →
      bookedSum (s.bankPort k' p) s.pins p ≤ capacityFigure b.setKc b.setKf) :
    s.portSetAction p b = (s, OrderResult.of .overbook 0 (overbookDetail p k)) := by
  have hsome : firstOverbook ((allProfiles.filter fun k => s.governs k p).map fun k => (k, p))
      (fun k p => legalBooking (s.bankPort k p) s.pins p (capacityFigure b.setKc b.setKf)) = some (k, p) := by
    refine find?_first (fun x y => x.1 < y.1) ?_ ((s.mem_setChecks p (k, p)).2 ⟨hgoverns, rfl⟩) ?_ fun x hx hlt => ?_
    · rw [List.pairwise_map]
      exact (List.pairwise_lt_finRange 4).filter _
    · rw [Bool.not_eq_true', legalBooking_false_iff]
      exact hover
    · obtain ⟨hg, hport⟩ := (s.mem_setChecks p x).1 hx
      rw [Bool.not_eq_false', legalBooking_iff, hport]
      exact hfirst x.1 hlt hg
  simp only [State.portSetAction, Port.successor?_none hst, hsome]

end

theorem exec_portSet (b : OrderBlock) (bus : CompletionBus) (s : State) :
    exec (.portSet (some b) bus) s = .next (s.portOrder (some b) bus fun p b t => t.portSetAction p b).takeNext := rfl

/-- Settles O42: MOVED, or the six values, or OVERBOOK with the first profile that does not fit. -/
theorem portSetOutcome : Obligations.PortSetOutcome := by
  intro b bus s c p hc hp
  refine ⟨_, exec_portSet b bus s, fun x hst => ?_, fun hst => ⟨fun hfit => ?_, fun k hgoverns hover hfirst => ?_⟩⟩
  · exact State.portOrder_moved hc hp bus (State.portSetAction_of_retired (s := s.portBegun c) hst b)
  · have ha := State.portSetAction_ok (s := s.portBegun c) hst hfit
    rw [Port.setValues_eq] at ha
    exact ⟨⟨_, State.portOrder_setPort_completed hc hp bus ha⟩, State.portOrder_setPort hc hp bus ha⟩
  · exact State.portOrder_untouched hc hp bus
      (State.portSetAction_overbook (s := s.portBegun c) hst hgoverns hover hfirst)

end Sys2Proof.Machine

/-! PROOFS. The clock (O27), windows and the selection (O28), the acting pin, the derived entry and the booked sum (O33), and a
refresh as a whole (O34). -/

namespace Sys2Proof.Machine

/-! ## The clock (R98, R101) -/

/-- A CLOCK that LKI takes at once goes to the share store (R135, R140). -/
theorem exec_clock_of_takesAtOnce {s : State} (hs : s.TakesAtOnce) (m : BitVec 16) :
    exec (.clock m) s = .next (s.takeClock m) := by
  show Host.Outcome.next (s.receiveMessage (Message.ofClock m) false) = _
  rw [State.receiveMessage_now _ _ hs, parseMessage_ofClock]
  rfl

/-- Settles O27: a minute out of range, the minute already held, or a new one. -/
theorem clockOutcome : Obligations.ClockOutcome := by
  intro m s hs
  rw [exec_clock_of_takesAtOnce hs]
  refine ⟨fun hout => ?_, fun hvalid hsame => ?_, fun hin hnew => ?_⟩
  · rw [State.takeClock_out s hout]
  · rw [State.takeClock_same s hvalid hsame]
  · rw [State.takeClock_new s hin hnew]
    exact ⟨_, rfl, State.recomputeSelection_frame _, fun p => ⟨_, rfl, State.recomputeSelection_port _ p⟩⟩

/-! ## Windows (R97) -/

/-- Counted round midnight from the start of the window, a minute it contains comes before its end. The three branches are the
window that does not pass midnight, the one that does, and the empty one. -/
theorem Window.contains_iff (w : Window) (m : Minute) :
    w.contains m = true ↔
      (m.val + 1440 - w.start.val) % 1440 < (w.stop.val + 1440 - w.start.val) % 1440 := by
  have hstart := w.start.isLt
  have hstop := w.stop.isLt
  have hm := m.isLt
  unfold Window.contains
  split
  · rw [Bool.and_eq_true, decide_eq_true_eq, decide_eq_true_eq]
    omega
  · split
    · rw [Bool.or_eq_true, decide_eq_true_eq, decide_eq_true_eq]
      omega
    · have : w.start.val = w.stop.val := by omega
      simp [this]

/-! ## Selection (R100) -/

/-- The choice among the candidates, as the clock being valid makes it. -/
theorem State.selectFor_of_valid {s : State} (hv : s.clockValid = true) (p : PortIx) :
    s.selectFor p = ((allProfiles.filter (s.candidate p)).foldl s.newerWindow none).getD 0 := by
  rw [State.selectFor, if_pos hv]

/-- With no candidate the selection is profile 0. -/
theorem State.selectFor_of_no_candidate {s : State} {p : PortIx} (hn : ∀ k : ProfileIx, s.candidate p k = false) :
    s.selectFor p = 0 := by
  have hnil : allProfiles.filter (s.candidate p) = [] := List.filter_eq_nil_iff.2 fun k _ => by simp [hn k]
  rw [State.selectFor, hnil]
  exact ite_self _

/-- Where there is a candidate, the choice is made. -/
theorem State.newest_of_candidate {s : State} {p : PortIx} {k : ProfileIx} (hk : s.candidate p k = true) :
    ∃ r, (allProfiles.filter (s.candidate p)).foldl s.newerWindow none = some r := by
  have hmem := (s.candidates_mem p k).2 hk
  cases hl : allProfiles.filter (s.candidate p) with
  | nil => rw [hl] at hmem; cases hmem
  | cons a rest => exact Option.ne_none_iff_exists'.1 (s.foldl_newerWindow_none rest _ (s.newerWindow_ne_none none a))

theorem State.candidates_ascending (s : State) (p : PortIx) : (allProfiles.filter (s.candidate p)).Pairwise (· < ·) :=
  List.Pairwise.filter _ (List.pairwise_lt_finRange 4)

/-- With a candidate and a valid clock, the selection is the candidate whose window opened most recently, the lowest-numbered
of those with the same age. -/
theorem State.selectFor_of_candidate {s : State} {p : PortIx} (hv : s.clockValid = true)
    (hex : ∃ k : ProfileIx, s.candidate p k = true) :
    s.candidate p (s.selectFor p) = true ∧
    ∀ k : ProfileIx, s.candidate p k = true →
      s.windowAge (s.selectFor p) < s.windowAge k ∨
      (s.windowAge (s.selectFor p) = s.windowAge k ∧ s.selectFor p ≤ k) := by
  obtain ⟨k, hk⟩ := hex
  obtain ⟨r, hr⟩ := State.newest_of_candidate hk
  have hsel : s.selectFor p = r := by rw [State.selectFor_of_valid hv, hr, Option.getD_some]
  obtain ⟨hmem, hnewest⟩ := s.foldl_newerWindow _ (s.candidates_ascending p) none (by simp) r hr
  rw [hsel]
  exact ⟨(s.candidates_mem p r).1 (hmem.resolve_right (by simp)),
    fun z hz => hnewest z (Or.inl ((s.candidates_mem p z).2 hz))⟩

/-- Settles O28: windows by the minutes since they opened, selections by the branches of R100. -/
theorem windowsAndSelection : Obligations.WindowsAndSelection :=
  ⟨Window.contains_iff, fun _ p =>
    ⟨fun hinvalid => State.selectFor_invalid hinvalid p, State.selectFor_of_no_candidate, State.selectFor_of_candidate⟩⟩

/-! ## The acting pin (R103) -/

/-- An index gives a lane no pin exactly where its pin, if valid, names another lane. -/
theorem pinAt_none {pins : PinList} {p : PortIx} {src : SourceIx} {i : Fin 4} :
    pinAt pins p src i = none ↔ ∀ y : Pin, pins[i] = some y → ¬(y.port = p ∧ y.source = src) := by
  simp only [Option.eq_none_iff_forall_ne_some, ne_eq, pinAt_some, not_and]

theorem firstPin_some_iff (pins : PinList) (p : PortIx) (src : SourceIx) (x : Pin) :
    firstPin pins p src = some x ↔
      ∃ i : Fin 4, pins[i] = some x ∧ x.port = p ∧ x.source = src ∧
        ∀ j : Fin 4, j < i → ∀ y : Pin, pins[j] = some y → ¬(y.port = p ∧ y.source = src) := by
  simp only [firstPin_some, pinAt_some, pinAt_none, and_assoc]

/-! ## The derived entry (R104, Table 5-2) -/

theorem deriveEntry_of_closed {b : BankEntry} (hb : b.isOpen = false) (pin : Option Pin) :
    deriveEntry b pin = ⟨false, 0, 0, 0, .none, 0, 1, false, false, pin.isSome⟩ := by
  unfold deriveEntry
  rw [if_neg (by simp [hb])]
  rfl

theorem deriveEntry_unpinned {b : BankEntry} (hb : b.isOpen = true) :
    deriveEntry b none =
      ⟨true, b.gc, b.gf, capFloor b.gc b.gf b.cap, b.tier, b.urgency, b.qmax, b.prot, false, false⟩ := by
  rw [deriveEntry, if_pos hb]

theorem deriveEntry_pinned {b : BankEntry} (hb : b.isOpen = true) (x : Pin) :
    deriveEntry b (some x) =
      ⟨true, x.gc, x.gf, capFloor x.gc x.gf b.cap, x.tier, x.urgency, b.qmax, b.prot, true, false⟩ := by
  rw [deriveEntry, if_pos hb]

/-! ## The booked sum (R116) -/

theorem laneBooking_of_closed {b : BankEntry} (hb : b.isOpen = false) (pin : Option Pin) : laneBooking b pin = 0 := by
  unfold laneBooking
  rw [if_neg (by simp [hb])]

theorem laneBooking_unpinned {b : BankEntry} (hb : b.isOpen = true) :
    laneBooking b none = 64 * b.gc.toNat + b.gf.toNat := by
  rw [laneBooking, if_pos hb]
  rfl

theorem laneBooking_pinned {b : BankEntry} (hb : b.isOpen = true) (x : Pin) :
    laneBooking b (some x) = 64 * x.gc.toNat + x.gf.toNat := by
  rw [laneBooking, if_pos hb]
  rfl

/-- Settles O33: the pin by its index, the entry by the rows of Table 5-2, the sum lane by lane. -/
theorem shareRules : Obligations.ShareRules := by
  refine ⟨firstPin_some_iff, fun b pin hb => deriveEntry_of_closed hb pin,
    fun b hb => ⟨_, deriveEntry_unpinned hb, capFloor_toNat _ _ _⟩,
    fun b x hb => ⟨_, deriveEntry_pinned hb x, capFloor_toNat _ _ _⟩, fun es pins p => ?_⟩
  refine congrArg List.sum (List.map_congr_left fun x _ => ?_)
  cases hopen : es[x].isOpen with
  | false => exact laneBooking_of_closed hopen _
  | true =>
    cases firstPin pins p x with
    | none => exact laneBooking_unpinned hopen
    | some y => exact laneBooking_pinned hopen y

/-! ## The refresh (R109, R110) -/

/-- Settles O34: what a refresh gives in the state, in the other ports, in the lanes and in the port. -/
theorem refreshOutcome : Obligations.RefreshOutcome := by
  intro s p
  refine ⟨_, s.closing p, s.closingCount p, rfl, rfl, rfl, ?_, fun p' hne => ?_, fun x hopen => ?_,
    fun x hclosed => ?_, ?_⟩
  · have hframe := s.refresh_frame p
    rw [State.refresh_freeCount, State.refresh_poolBelow, State.refresh_outQueue, State.refresh_tre] at hframe
    exact hframe
  · rw [State.refresh_port, if_neg hne]
  · rw [State.refresh_lane, if_pos hopen]
  · rw [State.refresh_lane, if_neg (by simp [hclosed])]
  · rw [State.refresh_port, if_pos rfl]
    simp only [Port.mapLanes]

end Sys2Proof.Machine

/-! PROOFS. What every step keeps of the booked sums and of the selection under an invalid clock (O58). -/

namespace Sys2Proof.Machine

/-! ## The ends that many commands share -/

/-- The executor's taking of the next channel, after an operation, adds nothing to what that operation keeps. -/
theorem State.Law.takeNext {s t : State} (h : s.Law t) : s.Law t.takeNext := h.trans t.takeNext_still.law

/-- The command at the front leaves the queue of commands. -/
theorem State.setPending_law (s : State) (cs : List Instr) : s.Law { s with pending := cs } :=
  State.Law.of_eq rfl rfl rfl rfl rfl

theorem State.assertLine_law (s : State) : s.Law s.assertLine := by
  unfold State.assertLine
  split <;> exact State.Law.of_eq rfl rfl rfl rfl rfl

/-- A round expiry that comes only under a condition (log 6). -/
theorem State.roundExpiry_if_law (s : State) (p : PortIx) (c : Bool) : s.Law (if c then s.roundExpiry p else s) := by
  cases c
  · exact State.Law.refl s
  · exact s.roundExpiry_law p

/-- The levels are the pool's: no booking and no selection rests on them. -/
theorem State.levelsOrder_law (s : State) (b : OrderBlock) : s.Law (s.levelsOrder b).1 :=
  State.Law.of_eq rfl rfl rfl rfl rfl

/-! ## The actions of the PORT order -/

theorem State.portOpenAction_law (s : State) (p : PortIx) : s.Law (s.portOpenAction p).1 :=
  .of (s.portSide_portOpenAction p).shares (s.portOpenAction_sel p)

theorem State.portCloseAction_law (s : State) (p : PortIx) : s.Law (s.portCloseAction p).1 :=
  .of (s.portSide_portCloseAction p).shares (s.portCloseAction_sel p)

theorem State.portClearAction_law (s : State) (p : PortIx) : s.Law (s.portClearAction p).1 :=
  .of (s.portSide_portClearAction p).shares (s.portClearAction_sel p)

theorem State.portRetireAction_law (s : State) (p : PortIx) (successor : Option PortIx) :
    s.Law (s.portRetireAction p successor).1 :=
  .of (s.portSide_portRetireAction p successor).shares (s.portRetireAction_sel p successor)

/-! ## Commands that depend on what the executor does -/

theorem execAbortedUnread_law (bus : CompletionBus) (s : State) : ∃ t, execAbortedUnread bus s = .next t ∧ s.Law t := by
  refine ⟨_, rfl, ?_⟩
  split
  · exact State.Law.refl s
  · rename_i c unread _
    cases unread
    · exact State.Law.refl s
    · exact ((State.Law.of_eq rfl rfl rfl rfl rfl : s.Law (s.beginExecuting c)).trans
        (State.finish_law _ _ _ _ _)).takeNext

theorem execLoadEntryRead_law (entry : Option TableEntry) (abortFirst : Bool) (bus : CompletionBus) (s : State) :
    ∃ t, execLoadEntryRead entry abortFirst bus s = .next t ∧ s.Law t := by
  refine ⟨_, rfl, ?_⟩
  split
  case h_3 j _ => exact (s.loadEntry_law j entry abortFirst bus).takeNext
  all_goals exact State.Law.refl s

theorem execCollectRecord_law (written : Bool) (bus : CompletionBus) (s : State) :
    ∃ t, execCollectRecord written bus s = .next t ∧ s.Law t := by
  refine ⟨_, rfl, ?_⟩
  split
  case h_4 j _ => exact (s.collectWritten_law j written bus).takeNext
  all_goals exact State.Law.refl s

theorem execSurveyRecord_law (written : Bool) (bus : CompletionBus) (s : State) :
    ∃ t, execSurveyRecord written bus s = .next t ∧ s.Law t := by
  refine ⟨_, rfl, ?_⟩
  split
  case h_5 j _ => exact (s.surveyWritten_law j written bus).takeNext
  all_goals exact State.Law.refl s

/-! ## Every command, every step -/

/-- Every command answers a next state and keeps the bookings legal and the selection as R100 has it. What could break the
bookings is a LOAD's install point, a WINDOW, a PIN or a PORT SET, each of which makes the check of R116 first; what could break the
selection is a recomputation, which makes it profile 0 while the clock is invalid. -/
theorem exec_law (i : Instr) (s : State) : ∃ t : State, exec i s = .next t ∧ s.Law t := by
  cases i with
  | deviceReset => exact ⟨_, rfl, s.deviceReset_law⟩
  | linkUp => exact ⟨_, rfl, s.assertLine_law⟩
  | linkLoss order => exact ⟨_, rfl, s.withdrawLine_law order⟩
  | arrival p src len h later => exact ⟨_, rfl, receiveBytes_law _ later s⟩
  | done p tag later => exact ⟨_, rfl, receiveBytes_law _ later s⟩
  | hold p => exact ⟨_, rfl, receiveBytes_law _ false s⟩
  | resume p later => exact ⟨_, rfl, receiveBytes_law _ later s⟩
  | clock m => exact ⟨_, rfl, receiveBytes_law _ false s⟩
  | badMessage bytes later => exact ⟨_, rfl, receiveBytes_law bytes later s⟩
  | outboundMessageSent => exact ⟨_, rfl, s.sendHead_law⟩
  | roundExpiry p => exact ⟨_, rfl, s.roundExpiry_law p⟩
  | expiry p => exact ⟨_, rfl, s.roundExpiry_if_law p _⟩
  | stall p => exact ⟨_, rfl, s.roundExpiry_if_law p _⟩
  | addressWrite c v lag => exact ⟨_, rfl, (s.pointerWrite_still c v lag busAllOk).law⟩
  | zeroWrite c v bus => exact ⟨_, rfl, (s.pointerWrite_still c v false bus).law⟩
  | attnWrite v => exact ⟨_, rfl, State.Law.of_eq rfl rfl rfl rfl rfl⟩
  | attnMaskWrite v => exact ⟨_, rfl, State.Law.of_eq rfl rfl rfl rfl rfl⟩
  | unmappedRegisterWrite offset width v => exact ⟨_, rfl, (s.registerWrite_still offset width v).law⟩
  | abortedUnread bus => exact execAbortedUnread_law bus s
  | unknownOrderCode block bus => exact ⟨_, rfl, (s.simpleOrder_law block bus _ fun _ t => State.Law.refl t).takeNext⟩
  | load block bus abortFirst =>
    exact ⟨_, rfl, (s.takeOrder_law block bus _ fun c b t => t.beginLoad_law c b abortFirst bus).takeNext⟩
  | loadEntryRead entry abortFirst bus => exact execLoadEntryRead_law entry abortFirst bus s
  | window block bus => exact ⟨_, rfl, (s.simpleOrder_law block bus _ fun b t => t.windowOrder_law b).takeNext⟩
  | pin block bus => exact ⟨_, rfl, (s.simpleOrder_law block bus _ fun b t => t.pinOrder_law b).takeNext⟩
  | levels block bus => exact ⟨_, rfl, (s.simpleOrder_law block bus _ fun b t => t.levelsOrder_law b).takeNext⟩
  | portOpen block bus =>
    exact ⟨_, rfl, (s.portOrder_law block bus _ fun p _ t => t.portOpenAction_law p).takeNext⟩
  | portClose block bus =>
    exact ⟨_, rfl, (s.portOrder_law block bus _ fun p _ t => t.portCloseAction_law p).takeNext⟩
  | portClear block bus =>
    exact ⟨_, rfl, (s.portOrder_law block bus _ fun p _ t => t.portClearAction_law p).takeNext⟩
  | portRetire block bus =>
    exact ⟨_, rfl, (s.portOrder_law block bus _ fun p b t => t.portRetireAction_law p b.successor?).takeNext⟩
  | portSet block bus => exact ⟨_, rfl, (s.portOrder_law block bus _ fun p b t => t.portSetAction_law p b).takeNext⟩
  | collect block bus => exact ⟨_, rfl, (s.takeOrder_law block bus _ fun c b t => t.beginCollect_law c b bus).takeNext⟩
  | collectRecord written bus => exact execCollectRecord_law written bus s
  | survey block bus => exact ⟨_, rfl, (s.takeOrder_law block bus _ fun c b t => t.beginSurvey_law c b bus).takeNext⟩
  | surveyRecord written bus => exact execSurveyRecord_law written bus s
  | trace block bus => exact ⟨_, rfl, (s.takeOrder_law block bus _ fun c b t => t.beginTrace_law c b bus).takeNext⟩
  | traceOffer => exact ⟨_, rfl, s.offerStep_still.law⟩
  | traceAreaWrite written bus => exact ⟨_, rfl, (s.traceWritten_still written bus).law⟩
  | staleTimerExpiry bus => exact ⟨_, rfl, (s.staleTimer_still bus).law⟩
  | portBadAction block bus => exact ⟨_, rfl, (s.portOrder_law block bus _ fun _ _ t => State.Law.refl t).takeNext⟩

/-- Every step keeps the bookings legal and the selection as R100 has it. -/
theorem step_law {s t : State} (h : step s = .next t) : s.Law t := by
  rcases step_cases h with ⟨_, rfl⟩ | ⟨i, rest, _, hexec⟩
  · exact s.idle_law
  · obtain ⟨u, hu, hlaw⟩ := exec_law i { s with pending := rest }
    obtain rfl := Host.Outcome.next.inj (hu.symm.trans hexec)
    exact (s.setPending_law rest).trans hlaw

/-- Settles O58: both halves are what every step keeps. -/
theorem bookingsStayLegal : Obligations.BookingsStayLegal := by
  intro s t hstep
  obtain ⟨hbookings, hselection⟩ := step_law hstep
  exact ⟨hbookings, hselection⟩

end Sys2Proof.Machine

/-! PROOFS. The orders of Chapter 6 that are one event each: LEVELS (O35), WINDOW (O36) and PIN (O37). -/

namespace Sys2Proof.Machine

/-! ## The end of an order carried out as one event (R114, R155) -/

section
variable {s u : State} {c : ChannelIx} {b : OrderBlock} {r : OrderResult}

theorem exec_levels (hc : s.CarriesOut c) (bus : CompletionBus) (h : (s.beginExecuting c).levelsOrder b = (u, r)) :
    exec (.levels (some b) bus) s = .next (u.finish c r b.w1 bus).takeNext :=
  congrArg (fun t : State => Host.Outcome.next t.takeNext)
    (State.simpleOrder_of hc b bus (act := fun b t => t.levelsOrder b) h)

theorem exec_window (hc : s.CarriesOut c) (bus : CompletionBus) (h : (s.beginExecuting c).windowOrder b = (u, r)) :
    exec (.window (some b) bus) s = .next (u.finish c r b.w1 bus).takeNext :=
  congrArg (fun t : State => Host.Outcome.next t.takeNext)
    (State.simpleOrder_of hc b bus (act := fun b t => t.windowOrder b) h)

theorem exec_pin (hc : s.CarriesOut c) (bus : CompletionBus) (h : (s.beginExecuting c).pinOrder b = (u, r)) :
    exec (.pin (some b) bus) s = .next (u.finish c r b.w1 bus).takeNext :=
  congrArg (fun t : State => Host.Outcome.next t.takeNext)
    (State.simpleOrder_of hc b bus (act := fun b t => t.pinOrder b) h)

/-- The completion of an order carried out: beside the ports, all is as in `v` but for channel, ATTN, card memory and executor. -/
theorem State.finish_frame_ports {v : State} (hu : u = { v with ports := u.ports }) (c : ChannelIx) (r : OrderResult)
    (w1 : Word) (bus : CompletionBus) :
    u.finish c r w1 bus = { v with
      ports := (u.finish c r w1 bus).ports
      executor := .free
      channels := (u.finish c r w1 bus).channels
      attn := (u.finish c r w1 bus).attn
      cardMem := (u.finish c r w1 bus).cardMem } := by
  have hframe := State.finish_frame u c r w1 bus
  rw [State.finish_ports]
  generalize u.finish c r w1 bus = t at hframe ⊢
  rw [hframe, hu]

/-- An order carried out that leaves the channels, ATTN and card memory is completed OK (R155). -/
theorem State.finish_ok_completed {v : State} (hu : u = { v with ports := u.ports })
    (hchannels : v.channels = (s.beginExecuting c).channels) (hattn : v.attn = s.attn) (hmem : v.cardMem = s.cardMem)
    (w1 : Word) (bus : CompletionBus) : s.Completed (u.finish c OrderResult.ok0 w1 bus) c .ok 0 0 bus :=
  State.finish_completed c .executing (s.channel c).abortReq OrderResult.ok0 w1 bus
    ((congrArg State.channels hu).trans hchannels) ((congrArg State.attn hu).trans hattn)
    ((congrArg State.cardMem hu).trans hmem)

/-- An order that ends MOVED changes nothing, and names the successor in word 1 (R155 step 2). -/
theorem State.finish_moved (s : State) (c : ChannelIx) (x : PortIx) (w1 : Word) (bus : CompletionBus) :
    s.EndedUntouched ((s.beginExecuting c).finish c (OrderResult.movedTo x 0) w1 bus) c .moved 0 0 bus ∧
      s.NamesSuccessor ((s.beginExecuting c).finish c (OrderResult.movedTo x 0) w1 bus) c w1 x bus :=
  ⟨State.finish_ended_taken s c (OrderResult.movedTo x 0) w1 bus,
    State.finish_namesSuccessor c (OrderResult.movedTo x 0) w1 bus (by simp) rfl⟩

end

/-! ## LEVELS (R130) -/

/-- The warning level, raised to the reserve level `r` when below it. -/
def raisedLevel (r w : BitVec 13) : BitVec 13 := if w.toNat < r.toNat then r else w

theorem raisedLevel_toNat (r w : BitVec 13) : (raisedLevel r w).toNat = max w.toNat r.toNat := by
  unfold raisedLevel
  split <;> omega

theorem OrderBlock.reserveCarried_toNat (b : OrderBlock) : b.reserveCarried.toNat = b.w2.toNat % 65536 := by
  simp [OrderBlock.reserveCarried]

theorem OrderBlock.warningCarried_toNat (b : OrderBlock) : b.warningCarried.toNat = b.w3.toNat % 65536 := by
  simp [OrderBlock.warningCarried]

theorem State.levelsOrder_eq (s : State) (b : OrderBlock) :
    s.levelsOrder b =
      ({ s with
        reserve := heldLevel b.reserveCarried
        warning := raisedLevel (heldLevel b.reserveCarried) (heldLevel b.warningCarried)
        poolBelow := decide (s.freeCount <
          (raisedLevel (heldLevel b.reserveCarried) (heldLevel b.warningCarried)).toNat) }, OrderResult.ok0) := rfl

/-- Settles O35: both levels as held, and the completion; ATTN is written by the completion alone. -/
theorem levelsOutcome : Obligations.LevelsOutcome := by
  intro b bus s c hc
  refine ⟨_, heldLevel b.reserveCarried, raisedLevel (heldLevel b.reserveCarried) (heldLevel b.warningCarried),
    exec_levels hc bus ((s.beginExecuting c).levelsOrder_eq b), ?_, ?_, ?_, ?_⟩
  · exact State.finish_completed c .executing (s.channel c).abortReq OrderResult.ok0 b.w1 bus (by rfl) (by rfl) (by rfl)
  · rw [heldLevel_toNat, OrderBlock.reserveCarried_toNat]
  · rw [raisedLevel_toNat, heldLevel_toNat b.warningCarried, OrderBlock.warningCarried_toNat]
  · exact State.finish_frame _ c OrderResult.ok0 b.w1 bus

/-! ## WINDOW (R125, R126) -/

/-- Settles O36: BAD_ORDER, OVERBOOK, or the window installed and every port reselected by what it then selects. -/
theorem windowOutcome : Obligations.WindowOutcome := by
  intro b bus s c hc
  have hended := State.finish_ended_taken s c
  refine ⟨fun hbad => ?_, fun i h1 h2 hk => ⟨fun p hnew hold hfirst hover => ?_, fun hfit => ?_⟩⟩
  · exact ⟨_, exec_window hc bus ((s.beginExecuting c).windowOrder_bad b hbad), hended _ b.w1 bus⟩
  · exact ⟨_, exec_window hc bus ((s.beginExecuting c).windowOrder_overbook b h1 h2 hk p hnew hold hfirst hover),
      hended _ b.w1 bus⟩
  · have hframe := State.recomputeSelection_frame { s.beginExecuting c with
      windows := s.windows.set i ⟨⟨b.windowStart.toNat, h1⟩, ⟨b.windowEnd.toNat, h2⟩, b.windowMask⟩ }
    refine ⟨_, exec_window hc bus ((s.beginExecuting c).windowOrder_ok b h1 h2 hk hfit),
      State.finish_ok_completed hframe rfl rfl rfl b.w1 bus,
      State.finish_frame_ports hframe c OrderResult.ok0 b.w1 bus, fun p => ?_⟩
    rw [State.finish_selectFor, State.recomputeSelection_selectFor, State.finish_port, State.recomputeSelection_port]
    rfl

/-! ## PIN (R127, R128) -/

theorem State.mapPorts_frame (s : State) (f : PortIx → Port → Port) :
    s.mapPorts f = { s with ports := (s.mapPorts f).ports } := rfl

section
variable {s : State} {b : OrderBlock} {p r : PortIx}

theorem State.pinOrder_of_set (h : b.pinAction = 1) : s.pinOrder b = s.pinSet b := by
  simp only [State.pinOrder, h]
  rfl

theorem State.pinOrder_of_clear (h : b.pinAction = 2) : s.pinOrder b = s.pinClear b := by
  simp only [State.pinOrder, h]
  rfl

theorem State.pinOrder_of_no_action (h : b.pinAction = 0 ∨ b.pinAction = 3) :
    s.pinOrder b = (s, OrderResult.of .badOrder 0 0) := by
  rcases h with h | h <;> (simp only [State.pinOrder, h]; rfl)

theorem State.retiredSuccessor_not_retired (s : State) {p : PortIx} (h : ∀ x : PortIx, (s.port p).state ≠ .retired x) :
    s.retiredSuccessor (some p) = none :=
  Port.successor?_none h

theorem State.pinPort_of_valid (s : State) {i : Fin 4} {y : Pin} (h : s.pins[i] = some y) : s.pinPort i = some y.port := by
  rw [State.pinPort, h]
  rfl

/-- With a rate or a tier, a SET looks at the order's port first, then at the port of the entry. -/
theorem State.pinSet_of_values (hp : b.port? = some p) (h : b.pinGc ≠ 0 ∨ b.pinGf ≠ 0 ∨ b.pinTier ≠ 0) :
    s.pinSet b =
      ((s.retiredSuccessor (some p)).or (s.retiredSuccessor (s.pinPort b.pinIndex))).elim
        (s.changePin b.pinIndex
          (some ⟨p, b.pinSource, b.pinGc, b.pinGf, tierOfCode b.pinTier, b.pinUrgency⟩))
        fun x => (s, OrderResult.movedTo x 0) := by
  simp only [State.pinSet, hp, pinEmpty_false b h]
  cases s.retiredSuccessor (some p) with
  | some x => rfl
  | none => cases s.retiredSuccessor (s.pinPort b.pinIndex) <;> rfl

theorem State.pinClear_of_valid {y : Pin} (hy : s.pins[b.pinIndex] = some y) :
    s.pinClear b =
      (s.retiredSuccessor (some y.port)).elim (s.changePin b.pinIndex none) fun x => (s, OrderResult.movedTo x 0) := by
  simp only [State.pinClear, hy]
  cases s.retiredSuccessor (some y.port) <;> rfl

/-! The order, by its action and the checks of R127 in sequence. -/

theorem State.pinOrder_set_bad_port (ha : b.pinAction = 1) (hp : 16 ≤ b.portField.toNat) :
    s.pinOrder b = (s, OrderResult.of .badPort 0 0) := by
  rw [State.pinOrder_of_set ha]
  simp only [State.pinSet, (OrderBlock.port?_none b).2 hp]

theorem State.pinOrder_set_no_values (ha : b.pinAction = 1) (hp : b.portField.toNat < 16)
    (h : b.pinGc = 0 ∧ b.pinGf = 0 ∧ b.pinTier = 0) : s.pinOrder b = (s, OrderResult.of .badOrder 0 0) := by
  obtain ⟨p, hp⟩ := OrderBlock.port?_some b hp
  rw [State.pinOrder_of_set ha]
  simp only [State.pinSet, hp, (pinEmpty_iff b).2 h, if_true]

theorem State.pinOrder_set_retired (ha : b.pinAction = 1) (h : b.pinGc ≠ 0 ∨ b.pinGf ≠ 0 ∨ b.pinTier ≠ 0)
    (hp : b.port? = some p) (hr : (s.port p).state = .retired r) : s.pinOrder b = (s, OrderResult.movedTo r 0) := by
  rw [State.pinOrder_of_set ha, State.pinSet_of_values hp h, s.retiredSuccessor_some hr]
  rfl

theorem State.pinOrder_set_entry_retired {y : Pin} (ha : b.pinAction = 1)
    (h : b.pinGc ≠ 0 ∨ b.pinGf ≠ 0 ∨ b.pinTier ≠ 0) (hp : b.port? = some p)
    (halive : ∀ x : PortIx, (s.port p).state ≠ .retired x) (hy : s.pins[b.pinIndex] = some y)
    (hr : (s.port y.port).state = .retired r) : s.pinOrder b = (s, OrderResult.movedTo r 0) := by
  rw [State.pinOrder_of_set ha, State.pinSet_of_values hp h, s.pinPort_of_valid hy, s.retiredSuccessor_some hr,
    s.retiredSuccessor_not_retired halive]
  rfl

theorem State.pinOrder_set_changes (ha : b.pinAction = 1) (h : b.pinGc ≠ 0 ∨ b.pinGf ≠ 0 ∨ b.pinTier ≠ 0)
    (hp : b.port? = some p) (halive : ∀ x : PortIx, (s.port p).state ≠ .retired x)
    (hentry : ∀ y : Pin, s.pins[b.pinIndex] = some y → ∀ x : PortIx, (s.port y.port).state ≠ .retired x) :
    s.pinOrder b = s.changePin b.pinIndex
      (some ⟨p, b.pinSource, b.pinGc, b.pinGf, tierOfCode b.pinTier, b.pinUrgency⟩) := by
  have hnone : s.retiredSuccessor (s.pinPort b.pinIndex) = none := by
    cases hy : s.pins[b.pinIndex] with
    | none => rw [State.pinPort, hy]; rfl
    | some y => rw [s.pinPort_of_valid hy, s.retiredSuccessor_not_retired (hentry y hy)]
  rw [State.pinOrder_of_set ha, State.pinSet_of_values hp h, s.retiredSuccessor_not_retired halive, hnone]
  rfl

theorem State.pinOrder_clear_invalid (ha : b.pinAction = 2) (hn : s.pins[b.pinIndex] = none) :
    s.pinOrder b = (s, OrderResult.ok0) := by
  rw [State.pinOrder_of_clear ha]
  simp only [State.pinClear, hn]

theorem State.pinOrder_clear_retired {y : Pin} (ha : b.pinAction = 2) (hy : s.pins[b.pinIndex] = some y)
    (hr : (s.port y.port).state = .retired r) : s.pinOrder b = (s, OrderResult.movedTo r 0) := by
  rw [State.pinOrder_of_clear ha, State.pinClear_of_valid hy, s.retiredSuccessor_some hr]
  rfl

theorem State.pinOrder_clear_changes {y : Pin} (ha : b.pinAction = 2) (hy : s.pins[b.pinIndex] = some y)
    (halive : ∀ x : PortIx, (s.port y.port).state ≠ .retired x) : s.pinOrder b = s.changePin b.pinIndex none := by
  rw [State.pinOrder_of_clear ha, State.pinClear_of_valid hy, s.retiredSuccessor_not_retired halive]
  rfl

end

/-- Settles O37: what the checks answer in sequence, then what the change of the entry answers. -/
theorem pinOutcome : Obligations.PinOutcome := by
  intro b bus s c hc
  have hended := State.finish_ended_taken s c
  refine ⟨fun st hst => ?_, fun r hr => ⟨_, exec_pin hc bus ?_, s.finish_moved c r b.w1 bus⟩, fun new hnew hentry => ?_⟩
  · refine ⟨_, exec_pin hc bus ?_, hended (OrderResult.of st 0 0) b.w1 bus⟩
    rcases hst with ⟨rfl, ha⟩ | ⟨rfl, ha, hp⟩ | ⟨rfl, ha, hp, hempty⟩ | ⟨rfl, ha, hinvalid⟩
    · exact State.pinOrder_of_no_action ha
    · exact State.pinOrder_set_bad_port ha hp
    · exact State.pinOrder_set_no_values ha hp hempty
    · exact State.pinOrder_clear_invalid ha hinvalid
  · rcases hr with ⟨ha, hvalues, p, hp, hretired | ⟨halive, y, hy, hretired⟩⟩ | ⟨ha, y, hy, hretired⟩
    · exact State.pinOrder_set_retired ha hvalues hp hretired
    · exact State.pinOrder_set_entry_retired ha hvalues hp halive hy hretired
    · exact State.pinOrder_clear_retired ha hy hretired
  · have hchange : (s.beginExecuting c).pinOrder b = (s.beginExecuting c).changePin b.pinIndex new := by
      rcases hnew with ⟨p, ha, hp, hvalues, rfl, halive⟩ | ⟨ha, rfl, hvalid⟩
      · exact State.pinOrder_set_changes ha hvalues hp halive hentry
      · obtain ⟨y, hy⟩ := Option.ne_none_iff_exists'.1 hvalid
        exact State.pinOrder_clear_changes ha hy (hentry y hy)
    refine ⟨fun hfit => ?_, fun k p hnamed hgoverns hover hfirst => ?_⟩
    · have hframe := State.mapPorts_frame { s.beginExecuting c with pins := s.pins.set b.pinIndex new }
      refine ⟨_, exec_pin hc bus (hchange.trans ((s.beginExecuting c).changePin_ok b.pinIndex new hfit)),
        State.finish_ok_completed (hframe _) rfl rfl rfl b.w1 bus,
        State.finish_frame_ports (hframe _) c OrderResult.ok0 b.w1 bus, fun p => ?_⟩
      rw [State.finish_port, State.mapPorts_port]
      rfl
    · have hfails := (s.beginExecuting c).changePin_overbook b.pinIndex new k p hnamed hgoverns hover hfirst
      exact ⟨_, exec_pin hc bus (hchange.trans hfails), hended _ b.w1 bus⟩

end Sys2Proof.Machine

/-! PROOFS. LOAD: how it begins and the clamps of Table 6-5 (O44), and what each entry read does (O45). -/

namespace Sys2Proof.Machine

/-! ## The clamps of Table 6-5 (R120) -/

/-- An entry is staged open where it has a rate or a tier. -/
theorem stagesOpen_iff (e : TableEntry) :
    (hasRate (TableEntry.gc e) (TableEntry.gf e) || tierOfCode (TableEntry.tier e) != .none) = true ↔
      TableEntry.gc e ≠ 0 ∨ TableEntry.gf e ≠ 0 ∨ TableEntry.tier e ≠ 0 := by
  rw [Bool.or_eq_true, hasRate_iff, bne_iff_ne, ne_eq (tierOfCode _), tierOfCode_none, or_assoc]

theorem stageEntry_closed {e : TableEntry} (hgc : TableEntry.gc e = 0) (hgf : TableEntry.gf e = 0)
    (htier : TableEntry.tier e = 0) : stageEntry e = BankEntry.closed :=
  if_neg fun h => by simpa [hgc, hgf, htier] using (stagesOpen_iff e).1 h

theorem stageEntry_open {e : TableEntry} (h : TableEntry.gc e ≠ 0 ∨ TableEntry.gf e ≠ 0 ∨ TableEntry.tier e ≠ 0) :
    stageEntry e =
      ⟨true, TableEntry.gc e, TableEntry.gf e, capFloor (TableEntry.gc e) (TableEntry.gf e) (TableEntry.cap e),
        tierOfCode (TableEntry.tier e), TableEntry.urgency e, if TableEntry.qmax e = 0 then 1 else TableEntry.qmax e,
        TableEntry.prot e⟩ :=
  if_pos ((stagesOpen_iff e).2 h)

/-! ## A LOAD begun (R118, R121) -/

section
variable {s : State} {c : ChannelIx} {b : OrderBlock} {p : PortIx} {f : Bool} {bus : CompletionBus}

theorem State.beginLoad_badPort (hp : b.port? = none) :
    s.beginLoad c b f bus = s.finish c (OrderResult.of .badPort 0 0) b.w1 bus := by
  simp only [State.beginLoad, hp]

theorem State.beginLoad_overrun (hp : b.port? = some p) (hn : 64 < b.count) :
    s.beginLoad c b f bus = s.finish c (OrderResult.of .tableOverrun 0 0) b.w1 bus := by
  have hover : Config.maxTableEntries < b.count := hn
  simp only [State.beginLoad, hp, hover, if_true]

theorem State.beginLoad_moved {x : PortIx} (hp : b.port? = some p) (hn : b.count ≤ 64)
    (hst : (s.port p).state = .retired x) :
    s.beginLoad c b f bus = s.finish c (OrderResult.movedTo x 0) b.w1 bus := by
  have hfits : ¬ Config.maxTableEntries < b.count := Nat.not_lt.2 hn
  simp only [State.beginLoad, hp, hfits, if_false, Port.successor?_of_retired hst]

/-- Past its checks a LOAD comes to its first boundary: the abort, the install point of an empty table, or the reading. -/
theorem State.beginLoad_checked (hp : b.port? = some p) (hn : b.count ≤ 64)
    (halive : ∀ x : PortIx, (s.port p).state ≠ .retired x) :
    s.beginLoad c b f bus =
      if (s.channel c).abortReq && (decide (b.count ≠ 0) || f) then s.finish c (OrderResult.of .aborted 0 0) b.w1 bus
      else if b.count = 0 then s.finishInstall c b.profile p closedStaging 0 bus
      else s.setExecutor (.loading ⟨c, p, b.profile, b.tableAddress, b.count, 0, closedStaging, []⟩) := by
  have hfits : ¬ Config.maxTableEntries < b.count := Nat.not_lt.2 hn
  simp only [State.beginLoad, hp, hfits, if_false, Port.successor?_none halive]

theorem State.beginLoad_aborted (hp : b.port? = some p) (hn : b.count ≤ 64)
    (halive : ∀ x : PortIx, (s.port p).state ≠ .retired x) (hab : (s.channel c).abortReq = true)
    (hf : b.count ≠ 0 ∨ f = true) : s.beginLoad c b f bus = s.finish c (OrderResult.of .aborted 0 0) b.w1 bus := by
  have hfirst : ((s.channel c).abortReq && (decide (b.count ≠ 0) || f)) = true := by simpa [hab] using hf
  rw [State.beginLoad_checked hp hn halive, if_pos hfirst]

theorem State.beginLoad_installs (hp : b.port? = some p) (hn : b.count = 0)
    (halive : ∀ x : PortIx, (s.port p).state ≠ .retired x) (hab : (s.channel c).abortReq = false ∨ f = false) :
    s.beginLoad c b f bus = s.finishInstall c b.profile p closedStaging 0 bus := by
  have hnot : ¬ ((s.channel c).abortReq && (decide (b.count ≠ 0) || f)) = true := by
    rcases hab with h | h <;> simp [h, hn]
  rw [State.beginLoad_checked hp (by omega) halive, if_neg hnot, if_pos hn]

theorem State.beginLoad_reads (hp : b.port? = some p) (hpos : 0 < b.count) (hn : b.count ≤ 64)
    (halive : ∀ x : PortIx, (s.port p).state ≠ .retired x) (hab : (s.channel c).abortReq = false) :
    s.beginLoad c b f bus =
      s.setExecutor (.loading ⟨c, p, b.profile, b.tableAddress, b.count, 0, closedStaging, []⟩) := by
  rw [State.beginLoad_checked hp hn halive, if_neg (by simp [hab]), if_neg (by omega)]

theorem State.beginExecuting_setExecutor (s : State) (c : ChannelIx) (x : Executor) :
    (s.beginExecuting c).setExecutor x = { s with
      channels := s.channels.set c ⟨.executing, (s.channel c).addr, (s.channel c).abortReq⟩
      executor := x } := rfl

/-- A LOAD is begun on the channel in the executing phase, which has kept its mark. -/
theorem exec_load {u : State} (hc : s.CarriesOut c) (h : (s.beginExecuting c).beginLoad c b f bus = u) :
    exec (.load (some b) bus f) s = .next u.takeNext :=
  congrArg (fun t : State => Host.Outcome.next t.takeNext) ((State.takeOrder_of_carriesOut hc b bus _).trans h)

end

/-- Settles O44: the clamps, then the checks of R118 in sequence and the first boundary. -/
theorem loadBeginsAndClamps : Obligations.LoadBeginsAndClamps := by
  refine ⟨fun e => ⟨fun hgc hgf htier => stageEntry_closed hgc hgf htier,
    fun h => ⟨_, _, stageEntry_open h, rfl, capFloor_toNat _ _ _⟩⟩, fun b f bus s c hc => ?_⟩
  have hended := State.finish_ended_taken s c
  have hmark : ((s.beginExecuting c).channel c).abortReq = (s.channel c).abortReq := by simp
  refine ⟨fun hp => ?_, fun p hp => ⟨fun hn => ?_, fun x hn hst => ?_, fun hn halive hab hf => ?_, fun hn halive hab => ?_,
    fun hpos hn halive hab => ?_⟩⟩
  · exact ⟨_, exec_load hc (State.beginLoad_badPort hp), hended _ b.w1 bus⟩
  · exact ⟨_, exec_load hc (State.beginLoad_overrun hp hn), hended _ b.w1 bus⟩
  · exact ⟨_, exec_load hc (State.beginLoad_moved hp hn hst), s.finish_moved c x b.w1 bus⟩
  · exact ⟨_, exec_load hc (State.beginLoad_aborted hp hn halive (hmark.trans hab) hf), hended _ b.w1 bus⟩
  · exact ⟨_, exec_load hc (State.beginLoad_installs hp hn halive (hmark ▸ hab)),
      s.finishInstall_installed .free c .executing (s.channel c).abortReq b.profile p closedStaging 0 bus⟩
  · rw [exec_load hc (State.beginLoad_reads hp hpos hn halive (hmark.trans hab)), State.takeNext_busy (by simp),
      State.beginExecuting_setExecutor, hab]
    rfl

/-! ## An entry read (R121, R123) -/

section
variable {s : State} {j : LoadJob} {e : TableEntry} {f : Bool} {bus : CompletionBus}

/-- An abort request that stands on the LOAD's channel is taken before whatever else falls at the boundary (log 16). -/
def State.abortsFirst (s : State) (j : LoadJob) (f : Bool) : Bool := (s.channel j.channel).abortReq && f

theorem State.abortsFirst_false (h : (s.channel j.channel).abortReq = false ∨ f = false) : s.abortsFirst j f = false :=
  Bool.and_eq_false_iff.2 h

theorem State.abortsFirst_true (h : (s.channel j.channel).abortReq = true) (hf : f = true) : s.abortsFirst j f = true :=
  Bool.and_eq_true_iff.2 ⟨h, hf⟩

/-- A read that fails (R123). -/
theorem State.loadEntry_failed :
    s.loadEntry j none f bus =
      s.finish j.channel
        (if s.abortsFirst j f then OrderResult.of .aborted (BitVec.ofNat 32 j.progress) 0
          else OrderResult.of .memoryFault (BitVec.ofNat 32 j.progress) (BitVec.ofNat 16 j.progress)) 0 bus :=
  (apply_ite (fun r => s.finish j.channel r 0 bus) _ _ _).symm

/-- An entry that repeats a source (R121). -/
theorem State.loadEntry_repeated (hmem : TableEntry.source e ∈ j.listed) :
    s.loadEntry j (some e) f bus =
      s.finish j.channel
        (if s.abortsFirst j f then OrderResult.of .aborted (BitVec.ofNat 32 (j.progress + 1)) 0
          else OrderResult.of .duplicate (BitVec.ofNat 32 (j.progress + 1))
            (duplicateDetail j.progress (TableEntry.source e))) 0 bus :=
  (if_pos (List.contains_iff_mem.2 hmem)).trans (apply_ite (fun r => s.finish j.channel r 0 bus) _ _ _).symm

/-- An entry of a new source is staged and counted before the boundary is looked at (R121). -/
theorem State.loadEntry_new (hmem : TableEntry.source e ∉ j.listed) :
    s.loadEntry j (some e) f bus = s.loadStaged (j.stage e) (s.channel j.channel).abortReq f bus :=
  if_neg fun h => hmem (List.contains_iff_mem.1 h)

/-- The last entry: the abort, or the install point (R122). -/
theorem State.loadEntry_last (hmem : TableEntry.source e ∉ j.listed) (hlast : j.count ≤ j.progress + 1) :
    s.loadEntry j (some e) f bus =
      if s.abortsFirst j f then s.finish j.channel (OrderResult.of .aborted (BitVec.ofNat 32 (j.progress + 1)) 0) 0 bus
      else s.finishInstall j.channel j.profile j.port (j.stage e).staged (j.progress + 1) bus := by
  rw [State.loadEntry_new hmem]
  exact if_pos hlast

/-- An entry before the last: the abort, or the next read. -/
theorem State.loadEntry_more (hmem : TableEntry.source e ∉ j.listed) (hmore : j.progress + 1 < j.count) :
    s.loadEntry j (some e) f bus =
      if (s.channel j.channel).abortReq then
        s.finish j.channel (OrderResult.of .aborted (BitVec.ofNat 32 (j.progress + 1)) 0) 0 bus
      else s.setExecutor (.loading (j.stage e)) := by
  rw [State.loadEntry_new hmem]
  exact if_neg (Nat.not_le.2 hmore)

/-- Taken first, the abort ends the LOAD with the entry counted, whatever the entry is. -/
theorem State.loadEntry_aborted (h : (s.channel j.channel).abortReq = true)
    (hf : f = true ∨ (TableEntry.source e ∉ j.listed ∧ j.progress + 1 < j.count)) :
    s.loadEntry j (some e) f bus =
      s.finish j.channel (OrderResult.of .aborted (BitVec.ofNat 32 (j.progress + 1)) 0) 0 bus := by
  by_cases hmem : TableEntry.source e ∈ j.listed
  · have hfirst := State.abortsFirst_true h (hf.resolve_right fun hnew => hnew.1 hmem)
    rw [State.loadEntry_repeated hmem, if_pos hfirst]
  · by_cases hmore : j.progress + 1 < j.count
    · rw [State.loadEntry_more hmem hmore, if_pos h]
    · have hfirst := State.abortsFirst_true h (hf.resolve_right fun hnew => hmore hnew.2)
      rw [State.loadEntry_last hmem (Nat.not_lt.1 hmore), if_pos hfirst]

/-- The install point reached from the state as it stands. -/
theorem State.finishInstall_installed_self (s : State) (c : ChannelIx) (k : ProfileIx) (p : PortIx)
    (staged : Vector BankEntry 64) (progress : Nat) (bus : CompletionBus) :
    s.Installed (s.finishInstall c k p staged progress bus) c k p staged progress bus := by
  have h := s.finishInstall_installed s.executor c (s.channel c).phase (s.channel c).abortReq k p staged progress bus
  rwa [State.channels_set_self] at h

theorem exec_loadEntryRead {u : State} {entry : Option TableEntry} (hj : s.executor = .loading j)
    (h : s.loadEntry j entry f bus = u) : exec (.loadEntryRead entry f bus) s = .next u.takeNext := by
  simp only [exec, execLoadEntryRead, hj, h]

end

/-- Settles O45: the entry, its place in the table and the abort request decide. -/
theorem loadEntryReadOutcome : Obligations.LoadEntryReadOutcome := by
  intro f bus s j hj
  have hended := s.finish_ended_self j.channel
  refine ⟨fun e hab hmem hmore => ?_, fun e hab hmem hlast => ?_, fun e hab hmem => ?_, fun hab => ?_,
    fun e hab hf => ?_, fun hab hf => ?_⟩
  · have hread := State.loadEntry_more (s := s) (f := f) (bus := bus) hmem hmore
    rw [if_neg (by simp [hab])] at hread
    rw [exec_loadEntryRead hj hread, State.takeNext_busy (by simp)]
    rfl
  · have hread := State.loadEntry_last (s := s) (f := f) (bus := bus) hmem hlast.ge
    rw [if_neg (by simp [State.abortsFirst_false hab]), hlast] at hread
    exact ⟨_, exec_loadEntryRead hj hread, s.finishInstall_installed_self _ _ _ _ _ bus⟩
  · have hread := State.loadEntry_repeated (s := s) (f := f) (bus := bus) hmem
    rw [if_neg (by simp [State.abortsFirst_false hab])] at hread
    exact ⟨_, exec_loadEntryRead hj hread, hended _ 0 bus⟩
  · have hread := State.loadEntry_failed (s := s) (j := j) (f := f) (bus := bus)
    rw [if_neg (by simp [State.abortsFirst_false hab])] at hread
    exact ⟨_, exec_loadEntryRead hj hread, hended _ 0 bus⟩
  · exact ⟨_, exec_loadEntryRead hj (State.loadEntry_aborted hab hf), hended _ 0 bus⟩
  · have hread := State.loadEntry_failed (s := s) (j := j) (f := f) (bus := bus)
    rw [if_pos (State.abortsFirst_true hab hf)] at hread
    exact ⟨_, exec_loadEntryRead hj hread, hended _ 0 bus⟩

end Sys2Proof.Machine

/-! PROOFS. The link: its line and the division of bytes into messages (O13), the messages that wait (O15), the check byte (O16),
and the fields of the messages of Table 7-1 (O17). -/

namespace Sys2Proof.Machine

/-! ## The line and the byte stream (R132, R133, R145) -/

section
variable {s : State}

theorem State.assertLine_of_up (hup : s.linkUp = true) : s.assertLine = { s with linkReady := true } := if_pos hup

theorem State.assertLine_of_down (hdown : s.linkUp = false) :
    s.assertLine = { s with linkReady := true, linkUp := true, inPartial := [] } := if_neg (by simp [hdown])

theorem State.withdrawLine_of_down (hdown : s.linkUp = false) (order : List PortIx) :
    s.withdrawLine order = { s with linkReady := false } := if_neg (by simp [hdown])

theorem State.sendHead_of_down (hdown : s.linkUp = false) : s.sendHead = s := if_neg (by simp [hdown])

end

/-- Settles O13, by the laws of the line and of the byte stream. Every inbound message is a run of bytes, so on a DOWN link it is
lost as they are. -/
theorem linkUpAndDown : Obligations.LinkUpAndDown := by
  intro s
  refine ⟨fun hup => ⟨?_, fun bs later hshort => ?_, fun bs later m hne hwhole => ?_⟩,
    fun bs bs' later => receiveBytes_append bs bs' later s, fun _ _ => rfl, fun _ _ _ _ _ => rfl, fun _ _ _ => rfl,
    fun _ => rfl, fun _ _ => rfl, fun _ => rfl, fun hdown => ?_⟩
  · exact congrArg _ (State.assertLine_of_up hup)
  · exact receiveBytes_short bs later hup hshort
  · exact receiveBytes_whole bs later m hup hne hwhole
  · have hlost (bs : List Byte) (later : Bool) : Host.Outcome.next (receiveBytes bs later s) = (.next s : Result) :=
      congrArg _ (receiveBytes_down bs later hdown)
    exact ⟨congrArg _ (State.assertLine_of_down hdown),
      fun order => congrArg _ (State.withdrawLine_of_down hdown order),
      fun _ _ _ _ later => hlost _ later, fun _ _ later => hlost _ later, fun _ => hlost _ false,
      fun _ later => hlost _ later, fun _ => hlost _ false, hlost, congrArg _ (State.sendHead_of_down hdown)⟩

/-! ## Messages that wait on the link (R135, R142) -/

section
variable {s : State}

/-- The head is gone before any message that waits is looked at. -/
theorem State.sendHead_cons {m : Message} {rest : List Message} (hup : s.linkUp = true) (hq : s.outQueue = m :: rest) :
    s.sendHead = takeWaiting s.inWaiting { s with outQueue := rest } := by
  simp only [State.sendHead, hup, if_true, hq]

theorem State.sendHead_empty (hup : s.linkUp = true) (hq : s.outQueue = []) : s.sendHead = s := by
  simp only [State.sendHead, hup, if_true, hq]

/-- With no message that waits, or behind a full outbound queue, none is taken. -/
theorem takeWaiting_of_none_taken {ws : List Inbound} (hstay : ws = [] ∨ 256 ≤ s.outQueue.length) :
    takeWaiting ws s = { s with inWaiting := ws } := by
  cases ws with
  | nil => rfl
  | cons w ws => exact if_neg (Nat.not_lt.2 (hstay.resolve_left (List.cons_ne_nil w ws)))

/-- The message at the head of those that wait is taken, and then those behind it. -/
theorem takeWaiting_of_room (hroom : s.outQueue.length < 256) (w : Inbound) (ws : List Inbound) :
    takeWaiting (w :: ws) s = takeWaiting ws (s.deliver w) := if_pos hroom

end

/-- Settles O15: a message that may not be taken waits as LKI reads it; one sent makes room for those that wait. -/
theorem linkQueues : Obligations.LinkQueues := by
  refine ⟨fun s hup hpart hwait => ?_, fun m rest s hup hq => ⟨fun hstay => ?_, fun w ws hws hroom => ?_⟩,
    fun s hup hq => ?_, fun _ => rfl, fun _ _ _ => rfl⟩
  · have hwaits {m : Message} {later : Bool} {w : Inbound} (hread : parseMessage m later = w) :
        Host.Outcome.next (s.receiveMessage m later) = (.next { s with inWaiting := s.inWaiting ++ [w] } : Result) := by
      rw [State.receiveMessage_waits m later hup hpart hwait, hread]
    exact ⟨fun p src len h later => hwaits (parseMessage_ofArrival p src len h later),
      fun p tag later => hwaits (parseMessage_ofDone p tag later), fun p => hwaits (parseMessage_ofHold p false),
      fun p later => hwaits (parseMessage_ofResume p later), fun m => hwaits (parseMessage_ofClock m false),
      fun _ later hbad => hwaits (parseMessage_bad later hbad)⟩
  · show Host.Outcome.next s.sendHead = _
    rw [State.sendHead_cons hup hq, takeWaiting_of_none_taken hstay]
  · show Host.Outcome.next s.sendHead = _
    rw [State.sendHead_cons hup hq, hws, takeWaiting_of_room hroom]
  · exact congrArg _ (State.sendHead_empty hup hq)

/-! ## Check bytes and bad messages (R134, R136, R137) -/

theorem Message.sum_eq_toList_sum (m : Message) : Message.sum m = m.toList.sum := by
  obtain ⟨⟨l⟩, hl⟩ := m
  match l, hl with
  | [b0, b1, b2, b3, b4, b5, b6, b7], _ =>
    simp [Message.sum, add_assoc]

/-- The sum of bytes is the sum of their values modulo 256. -/
theorem toNat_sum_bytes (bs : List Byte) : bs.sum.toNat = (bs.map BitVec.toNat).sum % 256 := by
  induction bs with
  | nil => rfl
  | cons b rest ih => rw [List.sum_cons, BitVec.toNat_add, ih, List.map_cons, List.sum_cons, Nat.add_mod_mod]

theorem Message.goodCheck_iff_toNat_sum (m : Message) :
    Message.goodCheck m = true ↔ (m.toList.map BitVec.toNat).sum % 256 = 255 := by
  rw [Message.goodCheck, beq_iff_eq, Message.sum_eq_toList_sum, ← toNat_sum_bytes, ← BitVec.toNat_inj]
  rfl

theorem Message.goodCheck_iff_checkByte (m : Message) :
    Message.goodCheck m = true ↔ m[7] = 255#8 - (m[0] + m[1] + m[2] + m[3] + m[4] + m[5] + m[6]) := by
  rw [Message.goodCheck_iff, eq_sub_iff_add_eq, add_comm m[7]]

/-- A byte replaced changes the sum by the difference of the two bytes. -/
theorem Message.sum_set (m : Message) (i : Fin 8) (b : Byte) :
    Message.sum (m.set i b) = Message.sum m + (b - m[i]) := by
  have hi : i.val < m.toList.length := by simp
  rw [Message.sum_eq_toList_sum, Message.sum_eq_toList_sum, Vector.toList_set, List.sum_set', dif_pos hi, neg_add_eq_sub]
  rfl

/-- One damaged byte is always found. -/
theorem Message.goodCheck_set {m : Message} (hgood : Message.goodCheck m = true) {i : Fin 8} {b : Byte} (hb : b ≠ m[i]) :
    Message.goodCheck (m.set i b) = false := by
  have hsum : Message.sum m = 255#8 := by simpa [Message.goodCheck] using hgood
  rw [Message.goodCheck, beq_eq_false_iff_ne, Message.sum_set, hsum, ne_eq, add_eq_left, sub_eq_zero]
  exact hb

/-- Settles O16: the check byte by the sum of the bytes, a bad message by what LKI does with it. -/
theorem badMessages : Obligations.BadMessages := by
  refine ⟨Message.goodCheck_iff_toNat_sum, Message.goodCheck_iff_checkByte, by decide, by decide, Message.withCheck_good,
    fun p src v tag x h len => ⟨Message.withCheck_good .., Message.withCheck_good .., Message.withCheck_good ..⟩,
    fun m i b hgood hb => Message.goodCheck_set hgood hb, fun m later s hs hbad => ?_⟩
  show Host.Outcome.next (s.receiveMessage m later) = _
  rw [State.receiveMessage_now m later hs, parseMessage_bad later hbad]
  rfl

/-! ## The fields of the messages (Table 7-1) -/

theorem Message.kind_toNat (m : Message) : (Message.kind m).toNat = m[0].toNat / 16 := by
  have := m[0].isLt
  simp only [Message.kind, BitVec.extractLsb'_toNat, Nat.shiftRight_eq_div_pow]
  omega

theorem Message.port_eq (m : Message) : Message.port m = Fin.ofNat 16 m[0].toNat := by
  apply Fin.ext
  simp [Message.port]

theorem Message.source_eq (m : Message) : Message.source m = Fin.ofNat 64 m[1].toNat := by
  apply Fin.ext
  simp [Message.source]

/-- Bits 15 and 14 of bytes 2 and 3 are not read (R139). -/
theorem Message.length_eq (m : Message) : Message.length m = BitVec.ofNat 14 (m[2].toNat + 256 * m[3].toNat) := by
  rw [Message.length, le16_eq]
  apply BitVec.eq_of_toNat_eq
  simp only [BitVec.extractLsb'_toNat, BitVec.toNat_ofNat, Nat.shiftRight_zero]
  omega

theorem Message.good_eq_false_of_kind {m : Message} (hk : m[0].toNat / 16 = 0 ∨ 6 ≤ m[0].toNat / 16) :
    Message.good m = false := by
  rw [Message.good, Bool.and_eq_false_iff, Bool.and_eq_false_iff, decide_eq_false_iff_not, decide_eq_false_iff_not,
    BitVec.le_def, BitVec.le_def, Message.kind_toNat]
  right
  rcases hk with hk | hk
  · exact Or.inl (by simp [hk])
  · exact Or.inr (by simp; omega)

/-! ### What LKI reads of a message with a good check, by its kind -/

section
variable {m : Message} (hgood : Message.goodCheck m = true)
include hgood

theorem parseMessage_of_arrivalKind (hk : m[0].toNat / 16 = 1) (later : Bool) :
    parseMessage m later = .arrival (Fin.ofNat 16 m[0].toNat) (Fin.ofNat 64 m[1].toNat)
      (BitVec.ofNat 14 (m[2].toNat + 256 * m[3].toNat)) (BitVec.ofNat 16 (m[4].toNat + 256 * m[5].toNat)) later := by
  simp only [parseMessage, hgood, if_true, Message.kind_toNat, hk, Message.port_eq, Message.source_eq, Message.length_eq,
    Message.handle, le16_eq]

theorem parseMessage_of_doneKind (hk : m[0].toNat / 16 = 2) (later : Bool) :
    parseMessage m later = .done (Fin.ofNat 16 m[0].toNat) m[1] later := by
  simp only [parseMessage, hgood, if_true, Message.kind_toNat, hk, Message.port_eq, Message.tag]

theorem parseMessage_of_holdKind (hk : m[0].toNat / 16 = 3) (later : Bool) :
    parseMessage m later = .hold (Fin.ofNat 16 m[0].toNat) := by
  simp only [parseMessage, hgood, if_true, Message.kind_toNat, hk, Message.port_eq]

theorem parseMessage_of_resumeKind (hk : m[0].toNat / 16 = 4) (later : Bool) :
    parseMessage m later = .resume (Fin.ofNat 16 m[0].toNat) later := by
  simp only [parseMessage, hgood, if_true, Message.kind_toNat, hk, Message.port_eq]

theorem parseMessage_of_clockKind (hk : m[0].toNat / 16 = 5) (later : Bool) :
    parseMessage m later = .clock (BitVec.ofNat 16 (m[1].toNat + 256 * m[2].toNat)) := by
  simp only [parseMessage, hgood, if_true, Message.kind_toNat, hk, Message.minute, le16_eq]

end

/-! ### The bytes the SA416 sends -/

theorem Message.withCheck_values (b0 b1 b2 b3 b4 b5 b6 : Byte) :
    ((Message.withCheck b0 b1 b2 b3 b4 b5 b6).toList.take 7).map BitVec.toNat =
      [b0.toNat, b1.toNat, b2.toNat, b3.toNat, b4.toNat, b5.toNat, b6.toNat] := rfl

theorem Message.kindPort_toNat {k : Nat} (hk : k < 16) (p : PortIx) : (Message.kindPort k p).toNat = k * 16 + p.val :=
  Nat.mod_eq_of_lt (by omega)

/-- A port or a source fits in a byte. -/
theorem toNat_ofNat_index {n : Nat} (hn : n ≤ 256) (i : Fin n) : (BitVec.ofNat 8 i.val).toNat = i.val :=
  Nat.mod_eq_of_lt (by omega)

theorem Message.lo_toNat (v : BitVec 16) : (Message.lo v).toNat = v.toNat % 256 := by
  simp [Message.lo]

theorem Message.hi_toNat (v : BitVec 16) : (Message.hi v).toNat = v.toNat / 256 := by
  have := v.isLt
  simp only [Message.hi, BitVec.extractLsb'_toNat, Nat.shiftRight_eq_div_pow]
  omega

theorem toNat_setWidth_length (len : BitVec 14) : (len.setWidth 16).toNat = len.toNat :=
  BitVec.toNat_setWidth_of_le (by decide)

/-- Settles O17: the fields kind by kind, then the bytes of each outbound message. -/
theorem messageLayouts : Obligations.MessageLayouts := by
  refine ⟨fun b0 b1 b2 b3 b4 b5 b6 later => ⟨_, rfl, ?_⟩, fun p src v x h => ?_, fun p src h tag len => ?_,
    fun p src h => ?_⟩
  · have hgood := Message.withCheck_good b0 b1 b2 b3 b4 b5 b6
    exact ⟨fun hk => parseMessage_of_arrivalKind hgood hk later, fun hk => parseMessage_of_doneKind hgood hk later,
      fun hk => parseMessage_of_holdKind hgood hk later, fun hk => parseMessage_of_resumeKind hgood hk later,
      fun hk => parseMessage_of_clockKind hgood hk later,
      fun hk => parseMessage_bad later (Message.good_eq_false_of_kind hk)⟩
  · rw [Message.ofAnswer, Message.withCheck_values, Message.kindPort_toNat (by decide), toNat_ofNat_index (by decide),
      toNat_ofNat_index (by decide), Message.lo_toNat, Message.hi_toNat]
    rfl
  · rw [Message.ofRelease, Message.withCheck_values, Message.kindPort_toNat (by decide), toNat_ofNat_index (by decide),
      Message.lo_toNat, Message.hi_toNat, Message.lo_toNat, Message.hi_toNat, toNat_setWidth_length]
  · rw [Message.ofDiscard, Message.withCheck_values, Message.kindPort_toNat (by decide), toNat_ofNat_index (by decide),
      Message.lo_toNat, Message.hi_toNat]
    rfl

end Sys2Proof.Machine

/-! PROOFS. What every step keeps of channels, CHn flags, executor, job and armed trace (O59). -/

namespace Sys2Proof.Machine

/-- Settles O59: the channels, the job and the trace are part of what every step keeps at the executor's side. -/
theorem channelsAndTraceStayConsistent : Obligations.ChannelsAndTraceStayConsistent := by
  intro s t hstep
  obtain ⟨hexec, _⟩ := step_sound hstep
  refine ⟨fun hchannels hphases => ?_, hexec.job, hexec.trace⟩
  obtain ⟨hchannels', hphases'⟩ := hexec.chan ⟨hchannels, hphases⟩
  exact ⟨hchannels', hphases'⟩

end Sys2Proof.Machine

/-! PROOFS. Writes to pointer registers (O6), the executor's taking of channels (O7), and a zero write that reaches the armed trace
(O8). -/

namespace Sys2Proof.Machine

/-! ## The two kinds of pointer write (R150) -/

theorem isZeroWrite_iff (v : Word) : isZeroWrite v = true ↔ v.extractLsb' 5 25 = 0 := by
  simp [isZeroWrite, pointerAddress]

theorem exec_addressWrite {v : Word} (hv : v.extractLsb' 5 25 ≠ 0) (c : ChannelIx) (lag : Bool) (s : State) :
    exec (.addressWrite c v lag) s =
      .next (if lag then s.pointerAddressWrite c v else (s.pointerAddressWrite c v).takeNext) :=
  congrArg Host.Outcome.next (if_neg fun hz => hv ((isZeroWrite_iff v).1 hz))

theorem exec_zeroWrite {v : Word} (hv : v.extractLsb' 5 25 = 0) (c : ChannelIx) (bus : CompletionBus) (s : State) :
    exec (.zeroWrite c v bus) s = .next (s.pointerZeroWrite c bus) :=
  congrArg Host.Outcome.next (if_pos ((isZeroWrite_iff v).2 hv))

/-! ## What they do, phase by phase (Table 8-4) -/

section
variable {s : State} {c : ChannelIx}

theorem State.pointerAddressWrite_of_idle (hp : (s.channel c).phase = .idle) (v : Word) :
    s.pointerAddressWrite c v = s.setChannel c ⟨.waiting, v.extractLsb' 5 25, false⟩ := by
  simp only [State.pointerAddressWrite, hp, pointerAddress]

/-- On a BUSY or DONE channel an address write is ignored and latches REJECT. -/
theorem State.pointerAddressWrite_of_not_idle (hp : (s.channel c).phase ≠ .idle) (v : Word) :
    s.pointerAddressWrite c v = s.latch attnReject := by
  unfold State.pointerAddressWrite
  split
  · contradiction
  all_goals rfl

theorem State.pointerZeroWrite_of_idle (hp : (s.channel c).phase = .idle) (bus : CompletionBus) :
    s.pointerZeroWrite c bus = s := by
  simp only [State.pointerZeroWrite, hp]

theorem State.pointerZeroWrite_of_executor (hp : (s.channel c).phase = .waiting ∨ (s.channel c).phase = .executing)
    (bus : CompletionBus) : s.pointerZeroWrite c bus = s.markAbort c := by
  rcases hp with hp | hp <;> simp only [State.pointerZeroWrite, hp]

theorem State.pointerZeroWrite_of_done {f : Bool} (hp : (s.channel c).phase = .done f) (bus : CompletionBus) :
    s.pointerZeroWrite c bus = s.releaseChannel c := by
  simp only [State.pointerZeroWrite, hp]

theorem State.pointerZeroWrite_of_tracing (hp : (s.channel c).phase = .tracing) (bus : CompletionBus) :
    s.pointerZeroWrite c bus = if (s.channel c).abortReq then s else (s.markAbort c).traceAbortRequest c bus := by
  simp only [State.pointerZeroWrite, hp]

end

/-- Settles O6: the kind of the write, then the channel's phase. -/
theorem pointerWriteOutcome : Obligations.PointerWriteOutcome := by
  refine ⟨fun c v s u hv hu => ?_, fun c v bus s hv => ?_⟩
  · have hwrite : s.pointerAddressWrite c v = u := by
      rcases hu with ⟨hp, rfl⟩ | ⟨hp, rfl⟩
      · exact State.pointerAddressWrite_of_idle hp v
      · exact State.pointerAddressWrite_of_not_idle hp v
    subst hwrite
    exact ⟨exec_addressWrite hv c true s, exec_addressWrite hv c false s⟩
  · rw [exec_zeroWrite hv]
    refine ⟨fun hp => ?_, fun hp => ?_, fun f hp => ?_⟩
    · rw [State.pointerZeroWrite_of_idle hp]
    · rw [State.pointerZeroWrite_of_executor hp]
      rfl
    · rw [State.pointerZeroWrite_of_done hp]
      rfl

/-! ## The executor takes a channel (R151, R154) -/

/-- Settles O7: a taking by what is free and what waits; a mark set after it leaves what was settled by it. -/
theorem executorTakesWaitingChannel : Obligations.ExecutorTakesWaitingChannel := by
  refine ⟨fun s hbusy => State.takeNext_busy hbusy, fun s hnone => State.takeNext_none hnone,
    fun s c hfree hwaits hlowest => ?_, fun s c v bus u hv htaken hp => ?_⟩
  · rw [State.takeNext_takes hfree ⟨hwaits, hlowest⟩]
    exact ⟨rfl, .inl rfl⟩
  · rw [exec_zeroWrite hv, State.pointerZeroWrite_of_executor (.inr hp)]
    exact ⟨s.markAbort c, rfl, by simp, .inl htaken⟩

/-! ## A zero write to the tracing channel (R158, R175) -/

section
variable {s : State} {tr : ArmedTrace}

/-- During a write the abort request waits for the write (log 12). -/
theorem State.traceAbortRequest_of_write (harmed : s.tre.armed = some tr) (hwrite : tr.write ≠ none) (c : ChannelIx)
    (bus : CompletionBus) : s.traceAbortRequest c bus = s := by
  simp [State.traceAbortRequest, harmed, hwrite]

theorem State.traceAbortRequest_of_no_write (harmed : s.tre.armed = some tr) (hwrite : tr.write = none)
    (bus : CompletionBus) : s.traceAbortRequest tr.channel bus = s.abortTrace tr bus := by
  simp [State.traceAbortRequest, harmed, hwrite]

theorem State.abortTrace_of_holding {h : Holding} (hholding : tr.holding = some h) (bus : CompletionBus) :
    s.abortTrace tr bus = s.beginClose tr h none .abort := by
  simp only [State.abortTrace, hholding]

theorem State.abortTrace_of_none (hholding : tr.holding = none) (bus : CompletionBus) :
    s.abortTrace tr bus = s.endTrace tr .aborted 0 bus := by
  simp only [State.abortTrace, hholding]

/-- The order of a trace whose channel has just been marked ends ABORTED, with the gap count as it was. -/
theorem State.markAbort_endTrace (s : State) (tr : ArmedTrace) (bus : CompletionBus) :
    s.TraceEnded s ((s.markAbort tr.channel).endTrace tr .aborted 0 bus) tr .aborted tr.written 0 s.tre.gapCount.toNat bus :=
  State.endTrace_ended_keep s s.cardMem s.tre.armed tr (s.channel tr.channel).phase true .aborted 0 bus

end

/-- Settles O8: the mark, then the write in progress, then the holding record decide. -/
theorem zeroWriteReachesArmedTrace : Obligations.ZeroWriteReachesArmedTrace := by
  rintro _ v bus s tr hv hp harmed rfl
  have harmed' : (s.markAbort tr.channel).tre.armed = some tr := harmed
  rw [exec_zeroWrite hv, State.pointerZeroWrite_of_tracing hp]
  refine ⟨fun hmark => ?_, fun hmark hwrite => ?_, fun h hmark hwrite hholding => ?_, fun hmark hwrite hholding => ?_⟩
  · rw [hmark, if_pos rfl]
  · rw [hmark, if_neg Bool.false_ne_true, State.traceAbortRequest_of_write harmed' hwrite]
    rfl
  · rw [hmark, if_neg Bool.false_ne_true, State.traceAbortRequest_of_no_write harmed' hwrite,
      State.abortTrace_of_holding hholding]
    rfl
  · rw [hmark, if_neg Bool.false_ne_true, State.traceAbortRequest_of_no_write harmed' hwrite,
      State.abortTrace_of_none hholding]
    exact ⟨_, rfl, s.markAbort_endTrace tr bus⟩

end Sys2Proof.Machine

/-! PROOFS. The completion: its writes (O11), the orders the executor does not carry out (O12), and the termination word (O10). -/

namespace Sys2Proof.Machine

/-! ## Words written into a block at disjoint offsets -/

/-- Words written one after another into the block at `base`, each at its offset. -/
def Memory.writeWords (m : List Host.Cell) (base : Nat) (ws : List (Nat × Word)) : List Host.Cell :=
  match ws with
  | [] => m
  | (offset, w) :: rest => writeWords (writeBytes m (base + offset) (wordBytes w)) base rest

section
variable {base : Nat}

/-- A byte at an offset that no word covers stays. -/
theorem Memory.read_writeWords_of_uncovered (hbase : base + 32 ≤ Config.memorySize) {ws : List (Nat × Word)} {i : Nat}
    (hws : ∀ x ∈ ws, x.1 + 4 ≤ 32 ∧ (i < x.1 ∨ x.1 + 4 ≤ i)) (m : List Host.Cell) :
    Memory.read (Memory.writeWords m base ws) (base + i) = Memory.read m (base + i) := by
  induction ws generalizing m with
  | nil => rfl
  | cons x rest ih =>
    obtain ⟨hx, hrest⟩ := List.forall_mem_cons.1 hws
    rw [Memory.writeWords, ih hrest, Memory.read_writeBytes _ _ _ _ (by rw [wordBytes_length]; omega), if_neg]
    rw [wordBytes_length]
    omega

/-- Words written at other offsets leave a word held. -/
theorem Memory.holds_writeWords_of_disjoint (hbase : base + 32 ≤ Config.memorySize) {ws : List (Nat × Word)} {offset : Nat}
    (hws : ∀ x ∈ ws, x.1 + 4 ≤ 32 ∧ (offset + 4 ≤ x.1 ∨ x.1 + 4 ≤ offset)) {w : Word} {m : List Host.Cell}
    (h : Memory.Holds m (base + offset) (wordBytes w)) :
    Memory.Holds (Memory.writeWords m base ws) (base + offset) (wordBytes w) := by
  intro i
  have hi : i.val < 4 := by simpa using i.isLt
  rw [Nat.add_assoc, Memory.read_writeWords_of_uncovered hbase, ← Nat.add_assoc]
  · exact h i
  · intro x hx
    have := hws x hx
    omega

/-- Card memory holds every word written, where no two of them overlap. -/
theorem Memory.holds_writeWords (hbase : base + 32 ≤ Config.memorySize) {ws : List (Nat × Word)}
    (hin : ∀ x ∈ ws, x.1 + 4 ≤ 32) (hws : ws.Pairwise fun x y => x.1 + 4 ≤ y.1 ∨ y.1 + 4 ≤ x.1) {offset : Nat} {w : Word}
    (hmem : (offset, w) ∈ ws) (m : List Host.Cell) :
    Memory.Holds (Memory.writeWords m base ws) (base + offset) (wordBytes w) := by
  induction ws generalizing m with
  | nil => cases hmem
  | cons x rest ih =>
    obtain ⟨hx, hrest⟩ := List.forall_mem_cons.1 hin
    obtain ⟨hdisjoint, hpairs⟩ := List.pairwise_cons.1 hws
    rcases List.mem_cons.1 hmem with rfl | hmem'
    · exact Memory.holds_writeWords_of_disjoint hbase (fun y hy => ⟨hrest y hy, hdisjoint y hy⟩)
        (Memory.holds_writeBytes _ _ _ (by rw [wordBytes_length]; omega))
    · exact ih hrest hpairs hmem' _

end

/-! ## The writes of a completion (R155, R156) -/

section
variable (r : OrderResult) (w1 : Word) (bus : CompletionBus)

/-- The write of word 7, where it succeeds. -/
def terminationWrite : List (Nat × Word) :=
  if bus.terminationOk then [(28, terminationWord r.status r.detail)] else []

/-- The words a completion stores, with their offsets: word 6, on MOVED word 1, and word 7, none from the first that fails on. -/
def completionWrites : List (Nat × Word) :=
  if bus.progressOk then
    (24, r.progress) ::
      if r.status = .moved then
        if bus.successorOk then (4, word1With w1 r.successor) :: terminationWrite r bus else []
      else terminationWrite r bus
  else []

/-- A completion stores these words and nothing else. -/
theorem State.complete_cardMem_eq_writeWords (s : State) (c : ChannelIx) :
    (s.complete c r w1 bus).cardMem =
      Memory.writeWords s.cardMem (s.channel c).blockAddress (completionWrites r w1 bus) := by
  rw [State.complete_cardMem, completionWrites, terminationWrite]
  cases bus.progressOk with
  | false => rfl
  | true =>
    by_cases hm : r.status = .moved
    · cases bus.successorOk <;> cases bus.terminationOk <;> simp [hm, Memory.writeWords]
    · cases bus.terminationOk <;> simp [hm, Memory.writeWords]

variable {r w1 bus}

theorem mem_terminationWrite {x : Nat × Word} :
    x ∈ terminationWrite r bus ↔ bus.terminationOk = true ∧ x = (28, terminationWord r.status r.detail) := by
  unfold terminationWrite
  split <;> simp [*]

/-- Which words those are. -/
theorem mem_completionWrites {x : Nat × Word} :
    x ∈ completionWrites r w1 bus ↔ bus.progressOk = true ∧
      (x = (24, r.progress) ∨
        r.status = .moved ∧ bus.successorOk = true ∧ x = (4, word1With w1 r.successor) ∨
        completionFails bus r.status = false ∧ x = (28, terminationWord r.status r.detail)) := by
  unfold completionWrites completionFails
  cases bus.progressOk with
  | false => simp
  | true =>
    by_cases hm : r.status = .moved
    · cases hs : bus.successorOk <;> simp [hm, mem_terminationWrite]
    · simp [hm, mem_terminationWrite]

theorem completionWrites_inside : ∀ x ∈ completionWrites r w1 bus, x.1 + 4 ≤ 32 := by
  intro x hx
  obtain ⟨_, rfl | ⟨_, _, rfl⟩ | ⟨_, rfl⟩⟩ := mem_completionWrites.1 hx <;> simp

theorem completionWrites_disjoint :
    (completionWrites r w1 bus).Pairwise fun x y => x.1 + 4 ≤ y.1 ∨ y.1 + 4 ≤ x.1 := by
  have hlast : (terminationWrite r bus).Pairwise fun x y => x.1 + 4 ≤ y.1 ∨ y.1 + 4 ≤ x.1 := by
    unfold terminationWrite
    split <;> simp
  unfold completionWrites
  repeat' split
  all_goals simp [hlast, mem_terminationWrite]

end

section
variable {r : OrderResult} {w1 : Word} {bus : CompletionBus} (s : State) (c : ChannelIx)

/-- A word stored by a completion is held after it. -/
theorem State.complete_holds {offset : Nat} {w : Word} (h : (offset, w) ∈ completionWrites r w1 bus) :
    Memory.Holds (s.complete c r w1 bus).cardMem ((s.channel c).blockAddress + offset) (wordBytes w) := by
  rw [State.complete_cardMem_eq_writeWords]
  exact Memory.holds_writeWords (Channel.blockAddress_add_le _) completionWrites_inside completionWrites_disjoint h _

/-- A byte of the block that a completion does not store is as it was. -/
theorem State.complete_read {i : Nat} (h : ∀ x ∈ completionWrites r w1 bus, i < x.1 ∨ x.1 + 4 ≤ i) :
    Memory.read (s.complete c r w1 bus).cardMem ((s.channel c).blockAddress + i) =
      Memory.read s.cardMem ((s.channel c).blockAddress + i) := by
  rw [State.complete_cardMem_eq_writeWords]
  exact Memory.read_writeWords_of_uncovered (Channel.blockAddress_add_le _)
    (fun x hx => ⟨completionWrites_inside x hx, h x hx⟩) _

theorem State.complete_cardMem_of_progress_fails (h : bus.progressOk = false) :
    (s.complete c r w1 bus).cardMem = s.cardMem := by
  rw [State.complete_cardMem, if_neg (by simp [h])]

end

/-- Settles O11: what is stored is the list of the completion's writes, and everything else stays. -/
theorem completionWritesAndMarksDone : Obligations.CompletionWritesAndMarksDone := by
  intro s c r w1 bus
  refine ⟨_, rfl, s.complete_completed c r w1 bus, s.complete_frame c r w1 bus,
    s.complete_cardMem_of_progress_fails c, fun hprogress => ?_, fun i hi => ?_, fun hmoved hprogress hsuccessor => ?_,
    fun hfails i => ?_⟩
  · exact s.complete_holds c (mem_completionWrites.2 ⟨hprogress, .inl rfl⟩)
  · refine s.complete_read c fun x hx => ?_
    obtain ⟨_, rfl | ⟨hmoved, _, rfl⟩ | ⟨_, rfl⟩⟩ := mem_completionWrites.1 hx
    · exact .inl i.isLt
    · exact hi.resolve_left fun hne => hne hmoved
    · exact .inl (i.isLt.trans (show 24 < 28 by decide))
  · obtain ⟨hbits, hlow, hhigh⟩ := word1With_bits w1 r.successor
    exact ⟨word1With w1 r.successor,
      s.complete_holds c (mem_completionWrites.2 ⟨hprogress, .inr (.inl ⟨hmoved, hsuccessor, rfl⟩)⟩), hbits, hlow, hhigh⟩
  · rw [Nat.add_assoc]
    refine s.complete_read c fun x hx => .inr ?_
    obtain ⟨_, rfl | ⟨_, _, rfl⟩ | ⟨hok, _⟩⟩ := mem_completionWrites.1 hx
    · exact Nat.le_add_right 28 i.val
    · exact (by decide : 4 + 4 ≤ 28).trans (Nat.le_add_right 28 i.val)
    · rw [hok] at hfails
      cases hfails

/-! ## Orders the executor does not carry out (R151, R152, R154, R156) -/

/-- Every order command takes its order, with a run of its own, and then the next channel. -/
theorem exec_of_order? {i : Instr} {block : Option OrderBlock} {bus : CompletionBus} (h : i.order? = some (block, bus))
    (s : State) :
    ∃ run : ChannelIx → OrderBlock → State → State, exec i s = .next (s.takeOrder block bus run).takeNext := by
  unfold Instr.order? at h
  split at h
  case h_15 => cases h
  all_goals
    obtain ⟨rfl, rfl⟩ := Prod.mk.inj (Option.some.inj h)
    exact ⟨_, rfl⟩

section
variable {s : State} {c : ChannelIx}

theorem exec_abortedUnread_of_begins (h : s.Begins c true) (bus : CompletionBus) :
    exec (.abortedUnread bus) s =
      .next ((s.beginExecuting c).finish c (OrderResult.of .aborted 0 0) 0 bus).takeNext := by
  simp only [exec, execAbortedUnread, State.nextChannel_of_begins h, if_true]

theorem exec_unknownOrderCode_of_carriesOut (h : s.CarriesOut c) (b : OrderBlock) (bus : CompletionBus) :
    exec (.unknownOrderCode (some b) bus) s =
      .next ((s.beginExecuting c).finish c (OrderResult.of .badOrder 0 0) b.w1 bus).takeNext :=
  congrArg (fun t : State => Host.Outcome.next t.takeNext)
    (State.simpleOrder_of h b bus (act := fun _ t => (t, OrderResult.of .badOrder 0 0)) rfl)

end

/-- Settles O12: each ends by the executor's completion of the order just taken, or by a channel marked DONE with FAULT. -/
theorem ordersNotCarriedOut : Obligations.OrdersNotCarriedOut := by
  refine ⟨fun bus s c hunread => ⟨?_, fun i block horder => ?_⟩, fun i bus s c horder hcarries => ?_,
    fun b bus s c hcarries => ?_⟩
  · exact ⟨_, exec_abortedUnread_of_begins hunread bus, s.finish_ended_taken c (OrderResult.of .aborted 0 0) 0 bus⟩
  · obtain ⟨run, hexec⟩ := exec_of_order? horder s
    rw [State.takeOrder_aborted hunread] at hexec
    exact ⟨_, hexec, s.finish_ended_taken c (OrderResult.of .aborted 0 0) 0 bus⟩
  · obtain ⟨run, hexec⟩ := exec_of_order? horder s
    rwa [State.takeOrder_unread hcarries] at hexec
  · exact ⟨_, exec_unknownOrderCode_of_carriesOut hcarries b bus,
      s.finish_ended_taken c (OrderResult.of .badOrder 0 0) b.w1 bus⟩

/-! ## The termination word (R155 step 3, R157) -/

theorem Status.code_lt (st : Status) : st.code < 16 := by
  cases st <;> decide

theorem Status.isError_iff (st : Status) : st.isError = true ↔ (2 ≤ st.code ∧ st.code ≤ 9) ∨ st.code = 12 := by
  cases st <;> decide

/-! The masks of bits 31 and 30, which a termination word and a pointer register share. -/

theorem getLsbD_bit31 {i : Nat} (hi : i < 32) : (0x80000000#32).getLsbD i = decide (i = 31) := by
  revert i
  decide

theorem getLsbD_bit30_if {i : Nat} (hi : i < 32) (f : Bool) :
    (if f then 0x40000000#32 else 0#32).getLsbD i = (decide (i = 30) && f) := by
  revert i f
  decide

/-- The termination word bit by bit. -/
theorem terminationWord_getLsbD (st : Status) (detail : BitVec 16) {i : Nat} (hi : i < 32) :
    (terminationWord st detail).getLsbD i =
      (decide (i = 31) || decide (i = 30) && st.isError || decide (8 ≤ i) && detail.getLsbD (i - 8) ||
        st.code.testBit i) := by
  simp only [terminationWord, BitVec.getLsbD_or, getLsbD_bit31 hi, getLsbD_bit30_if hi, BitVec.getLsbD_shiftLeft,
    BitVec.getLsbD_setWidth, BitVec.getLsbD_ofNat, hi, decide_true, Bool.true_and]
  by_cases h8 : i < 8
  · simp [h8, Nat.not_le.2 h8]
  · have : i - 8 < 32 := by omega
    simp [h8, Nat.le_of_not_lt h8, this]

/-- The status code has no bit above 3. -/
theorem Status.code_testBit_high (st : Status) {i : Nat} (hi : 4 ≤ i) : st.code.testBit i = false :=
  Nat.testBit_lt_two_pow (st.code_lt.trans_le (show 2 ^ 4 ≤ 2 ^ i from Nat.pow_le_pow_right Nat.two_pos hi))

/-- Below the two marks lie the detail and the status code. -/
theorem terminationWord_getLsbD_of_lt (st : Status) (detail : BitVec 16) {i : Nat} (hi : i < 30) :
    (terminationWord st detail).getLsbD i = (decide (8 ≤ i) && detail.getLsbD (i - 8) || st.code.testBit i) := by
  have h31 : i ≠ 31 := by omega
  have h30 : i ≠ 30 := by omega
  rw [terminationWord_getLsbD st detail (by omega)]
  simp [h31, h30]

/-- Settles O10: the codes as Table 8-7 has them, the fields bit by bit. -/
theorem terminationWord_fields : Obligations.TerminationWord := by
  refine ⟨by decide, fun st detail => ⟨?_, ?_, ?_, ?_, ?_⟩⟩
  · rw [terminationWord_getLsbD st detail (by decide), ← Status.isError_iff]
    simp [Status.code_testBit_high]
  · rw [terminationWord_getLsbD st detail (by decide)]
    simp
  · refine BitVec.eq_of_getLsbD_eq fun i hi => ?_
    rw [BitVec.getLsbD_extractLsb', terminationWord_getLsbD_of_lt st detail (by omega),
      Status.code_testBit_high st (by omega), BitVec.getLsbD_of_ge detail _ (by omega)]
    simp
  · refine BitVec.eq_of_getLsbD_eq fun i hi => ?_
    rw [BitVec.getLsbD_extractLsb', terminationWord_getLsbD_of_lt st detail (by omega),
      Status.code_testBit_high st (by omega)]
    simp [hi]
  · refine BitVec.eq_of_getLsbD_eq fun i hi => ?_
    rw [BitVec.getLsbD_extractLsb', terminationWord_getLsbD_of_lt st detail (by omega), BitVec.getLsbD_ofNat]
    simp [hi, Nat.not_le.2 hi]

end Sys2Proof.Machine

/-! PROOFS. Device reset (O3), the attention registers (O5), the register window (O9), and the state after reset (O60). -/

namespace Sys2Proof.Machine

/-! ## Device reset (R132, R161) -/

/-- Settles O3: an asserted line makes the link UP when reset ends, and only then. -/
theorem deviceResetRestoresEverything : Obligations.DeviceResetRestoresEverything := by
  intro s
  show Host.Outcome.next s.deviceReset = _
  unfold State.deviceReset
  cases s.linkReady <;> rfl

/-! ## The attention registers (R159, R160) -/

/-- A write to ATTN bit by bit: bits 3..0 of the value are not taken. -/
theorem State.writeAttn_getLsbD (s : State) (v : Word) (i : Fin 8) :
    (s.writeAttn v).attn.getLsbD i.val = (s.attn.getLsbD i.val && !(decide (4 ≤ i.val) && v.getLsbD i.val)) := by
  have htaken : (0xF0#8).getLsbD i.val = decide (4 ≤ i.val) := by
    revert i; decide
  simp only [State.writeAttn, BitVec.getLsbD_and, BitVec.getLsbD_not, BitVec.getLsbD_extractLsb', htaken, i.isLt,
    decide_true, Bool.true_and, Nat.zero_add]
  rw [Bool.and_comm (v.getLsbD i.val)]

theorem State.writeAttnMask_getLsbD (s : State) (v : Word) (i : Fin 8) :
    (s.writeAttnMask v).attnMask.getLsbD i.val = v.getLsbD i.val := by
  simp [State.writeAttnMask]

theorem State.attnLineLow_iff (s : State) :
    s.attnLineLow = true ↔ ∃ i : Fin 8, s.attn.getLsbD i.val = true ∧ s.attnMask.getLsbD i.val = true := by
  simp only [State.attnLineLow, bne_iff_ne, ne_eq, BitVec.eq_of_getLsbD_eq_iff, BitVec.getLsbD_and, BitVec.getLsbD_zero,
    not_forall, Bool.not_eq_false, Bool.and_eq_true, Fin.exists_iff, exists_prop]

/-- Settles O5, bit by bit. -/
theorem attentionRegisters : Obligations.AttentionRegisters :=
  ⟨fun v s => ⟨_, rfl, s.writeAttn_getLsbD v⟩, fun v s => ⟨_, rfl, s.writeAttnMask_getLsbD v⟩, State.attnLineLow_iff⟩

/-! ## The register window (R147) -/

section
variable (s : State) {offset width : Nat}

theorem State.registerWrite_of_unmapped (h : width ≠ 4 ∨ offset ∉ [0x00, 0x04, 0x08, 0x0C, 0x10, 0x14]) (v : Word) :
    s.registerWrite offset width v = s := by
  unfold State.registerWrite
  split
  · rename_i hwidth
    have hoffset := h.resolve_left fun hne => hne hwidth
    split
    case h_7 => rfl
    all_goals exact absurd (by decide) hoffset
  · rfl

theorem State.readRegister_pointer (c : ChannelIx) : s.readRegister (4 * c.val) = (s.channel c).pointer := by
  match c with
  | 0 | 1 | 2 | 3 => rfl

theorem State.readRegister_of_unmapped (h : offset ∉ [0x00, 0x04, 0x08, 0x0C, 0x10, 0x14]) : s.readRegister offset = 0 := by
  unfold State.readRegister
  split
  case h_7 => rfl
  all_goals exact absurd (by decide) h

/-- A read that stays in one register gives the bytes addressed; a whole word is such a read where it is aligned. -/
theorem State.busRead_within (h : offset % 4 + width ≤ 4) :
    s.busRead offset width =
      (s.readRegister (offset - offset % 4)).toNat / 2 ^ (8 * (offset % 4)) % 2 ^ (8 * width) := by
  by_cases hwidth : width < 4
  · exact s.busRead_narrow hwidth
  · obtain rfl : width = 4 := by omega
    have haligned : offset % 4 = 0 := by omega
    rw [State.busRead_word, haligned, Nat.sub_zero, Nat.mul_zero, Nat.pow_zero, Nat.div_one]
    exact (Nat.mod_eq_of_lt (s.readRegister offset).isLt).symm

end

/-! ## The pointer registers (R148, Table 8-2) -/

/-- A pointer register bit by bit. -/
theorem Channel.pointer_getLsbD (ch : Channel) {i : Nat} (hi : i < 32) :
    ch.pointer.getLsbD i = (decide (5 ≤ i) && ch.addr.getLsbD (i - 5) ||
      match ch.phase with
      | .done fault => decide (i = 31) || decide (i = 30) && fault
      | _ => false) := by
  have hbase : (ch.addr.setWidth 32 <<< 5).getLsbD i = (decide (5 ≤ i) && ch.addr.getLsbD (i - 5)) := by
    have : i - 5 < 32 := by omega
    simp only [BitVec.getLsbD_shiftLeft, BitVec.getLsbD_setWidth, hi, this, decide_true, Bool.true_and, ← not_le,
      decide_not, Bool.not_not]
  unfold Channel.pointer
  cases ch.phase with
  | done fault => simp only [BitVec.getLsbD_or, hbase, getLsbD_bit31 hi, getLsbD_bit30_if hi, Bool.or_assoc]
  | idle | waiting | executing | tracing => simp only [hbase, Bool.or_false]

theorem Channel.pointer_done_iff (ch : Channel) : ch.pointer.getLsbD 31 = true ↔ ∃ f : Bool, ch.phase = .done f := by
  rw [Channel.pointer_getLsbD ch (by decide), BitVec.getLsbD_of_ge ch.addr _ (by decide)]
  cases ch.phase <;> simp

theorem Channel.pointer_fault_iff (ch : Channel) : ch.pointer.getLsbD 30 = true ↔ ch.phase = .done true := by
  rw [Channel.pointer_getLsbD ch (by decide), BitVec.getLsbD_of_ge ch.addr _ (by decide)]
  cases ch.phase <;> simp

theorem Channel.pointer_address (ch : Channel) : ch.pointer.extractLsb' 5 25 = ch.addr := by
  refine BitVec.eq_of_getLsbD_eq fun i hi => ?_
  have h31 : 5 + i ≠ 31 := by omega
  have h30 : 5 + i ≠ 30 := by omega
  rw [BitVec.getLsbD_extractLsb', Channel.pointer_getLsbD ch (by omega)]
  cases ch.phase <;> simp [hi, h31, h30]

theorem Channel.pointer_low (ch : Channel) : ch.pointer.extractLsb' 0 5 = 0 := by
  refine BitVec.eq_of_getLsbD_eq fun i hi => ?_
  have h5 : ¬ 5 ≤ i := by omega
  have h31 : i ≠ 31 := by omega
  have h30 : i ≠ 30 := by omega
  rw [BitVec.getLsbD_extractLsb', Nat.zero_add, Channel.pointer_getLsbD ch (by omega)]
  cases ch.phase <;> simp [h5, h31, h30]

/-- Settles O9: writes and reads by offset and width, then the fields of a pointer register. -/
theorem registerWindow : Obligations.RegisterWindow :=
  ⟨fun _ _ v s h => congrArg Host.Outcome.next (s.registerWrite_of_unmapped h v),
    fun s => ⟨s.readRegister_pointer, rfl, rfl, fun _ => s.readRegister_of_unmapped, s.busRead_word,
      fun _ _ => s.busRead_within⟩,
    fun ch => ⟨ch.pointer_done_iff, ch.pointer_fault_iff, ch.pointer_address, ch.pointer_low⟩⟩

/-! ## The state after reset (R161) -/

theorem State.reset_port (p : PortIx) : State.reset.port p = Port.reset := by
  simp [State.port, State.reset]

theorem Port.reset_lane (src : SourceIx) : Port.reset.lane src = Lane.reset := by
  simp [Port.lane, Port.reset]

theorem State.reset_bankPort (k : ProfileIx) (p : PortIx) (src : SourceIx) :
    (State.reset.bankPort k p)[src] = BankEntry.closed := by
  simp [State.bankPort, State.reset]

theorem State.reset_listed : State.reset.listed = 0 :=
  State.listed_zero fun p x => by rw [State.reset_port, Port.reset_lane]; rfl

theorem State.reset_bookedSum (k : ProfileIx) (p : PortIx) :
    bookedSum (State.reset.bankPort k p) State.reset.pins p = 0 := by
  refine List.sum_eq_zero fun x hx => ?_
  obtain ⟨src, _, rfl⟩ := List.mem_map.1 hx
  rw [State.reset_bankPort, laneBooking_of_closed rfl]

theorem State.reset_linkOk : State.reset.LinkOk := by
  refine ⟨rfl, by decide, fun _ => ⟨rfl, rfl, rfl⟩, ?_, fun h => absurd rfl h⟩
  rw [State.reset_listed]
  decide

theorem Lane.reset_creditOk : Lane.reset.CreditOk := by decide

/-- A port after reset is in order, whichever it is. -/
theorem Port.reset_ok (p : PortIx) : Port.reset.Ok p where
  lists := ⟨fun src => by rw [Port.reset_lane]; exact Lane.ListOk.nil rfl, fun _ src => by rw [Port.reset_lane]; rfl⟩
  credit src := by rw [Port.reset_lane]; exact Lane.reset_creditOk
  slots := rfl
  timer := rfl
  length := by decide
  retired x hx := by cases hx
  drain := Port.drained_state (by decide)

/-- Settles O60, property by property. -/
theorem resetStateIsHealthy : Obligations.ResetStateIsHealthy := by
  refine ⟨rfl, ?_, by decide, ⟨fun k p src => ?_, fun j hj => by cases hj⟩, fun i x hx => ?_, fun k p _ => ?_,
    State.reset_linkOk, by decide, by decide, rfl, ⟨by decide, fun t ht => by cases ht⟩, fun _ p => ?_, fun p => ?_⟩
  · rw [State.PoolConserved, State.reset_listed]
    rfl
  · rw [State.reset_bankPort]
    exact closedEntry_ok
  · simp [State.reset] at hx
  · rw [State.reset_bookedSum]
    exact Nat.zero_le _
  · rw [State.reset_port]
    rfl
  · rw [State.reset_port]
    exact Port.reset_ok p

end Sys2Proof.Machine

/-! PROOFS. COLLECT (O46) and SURVEY (O47): how each begins, and what the write of one of its records does. -/

namespace Sys2Proof.Machine

/-! ## The executor's taking and its completion -/

/-- The executor's completion from a state that differs from `s` in its ports alone. -/
theorem State.finish_of_ports {s u : State} (hu : u = { s with ports := u.ports }) (c : ChannelIx) (r : OrderResult) (w1 : Word)
    (bus : CompletionBus) :
    s.Completed (u.finish c r w1 bus) c r.status r.progress r.detail bus ∧
      u.finish c r w1 bus = { s with
        executor := .free
        ports := (u.finish c r w1 bus).ports
        channels := (u.finish c r w1 bus).channels
        attn := (u.finish c r w1 bus).attn
        cardMem := (u.finish c r w1 bus).cardMem } := by
  have hchannels : u.channels = s.channels.set c ⟨(s.channel c).phase, (s.channel c).addr, (s.channel c).abortReq⟩ := by
    rw [hu, State.channels_set_self]
  refine ⟨State.finish_completed c _ _ r w1 bus hchannels (by rw [hu]) (by rw [hu]), ?_⟩
  rw [State.finish_ports]
  refine (u.finish_frame c r w1 bus).trans ?_
  generalize u.finish c r w1 bus = t
  rw [hu]

/-- The channels as the executor begins the order of one that is not marked. -/
theorem State.beginExecuting_unmarked {s : State} {c : ChannelIx} (hab : (s.channel c).abortReq = false) :
    (s.beginExecuting c).channels = s.channels.set c ⟨.executing, (s.channel c).addr, false⟩ := by
  rw [State.beginExecuting_channels, hab]

/-! ## COLLECT begun (R165, R166) -/

section
variable {s : State} {c : ChannelIx} {b : OrderBlock} {p : PortIx} {bus : CompletionBus}

theorem State.beginCollect_badPort (hp : b.port? = none) :
    s.beginCollect c b bus = s.finish c (OrderResult.of .badPort 0 0) b.w1 bus := by
  simp only [State.beginCollect, hp]

theorem State.beginCollect_moved {x : PortIx} (hp : b.port? = some p) (hst : (s.port p).state = .retired x) :
    s.beginCollect c b bus = s.finish c (OrderResult.movedTo x 0) b.w1 bus := by
  simp only [State.beginCollect, hp, Port.successor?_of_retired hst]

/-- Past its checks a COLLECT comes to the boundary before record 0: the abort, or the sample of lane 0. -/
theorem State.beginCollect_checked (hp : b.port? = some p) (halive : ∀ x : PortIx, (s.port p).state ≠ .retired x) :
    s.beginCollect c b bus =
      if (s.channel c).abortReq then s.finish c (OrderResult.of .aborted 0 0) b.w1 bus
      else s.sampleCollect c p b.collectArea b.clearFlag 0 := by
  simp only [State.beginCollect, hp, Port.successor?_none halive]

theorem State.beginCollect_aborted (hp : b.port? = some p) (halive : ∀ x : PortIx, (s.port p).state ≠ .retired x)
    (hab : (s.channel c).abortReq = true) :
    s.beginCollect c b bus = s.finish c (OrderResult.of .aborted 0 0) b.w1 bus :=
  (State.beginCollect_checked hp halive).trans (if_pos hab)

theorem State.beginCollect_samples (hp : b.port? = some p) (halive : ∀ x : PortIx, (s.port p).state ≠ .retired x)
    (hab : (s.channel c).abortReq = false) :
    s.beginCollect c b bus = s.sampleCollect c p b.collectArea b.clearFlag 0 :=
  (State.beginCollect_checked hp halive).trans (if_neg (by simp [hab]))

theorem exec_collect {u : State} (hc : s.CarriesOut c) (h : (s.beginExecuting c).beginCollect c b bus = u) :
    exec (.collect (some b) bus) s = .next u.takeNext :=
  congrArg (fun t : State => Host.Outcome.next t.takeNext) ((State.takeOrder_of_carriesOut hc b bus _).trans h)

end

/-! ## A COLLECT record written, or not (R165, R166) -/

section
variable {s : State} {j : CollectJob} {bus : CompletionBus}

/-- After the port record the order is complete, whatever the mark. -/
theorem State.collectWritten_last (hlast : j.index = 64) :
    s.collectWritten j true bus =
      (s.busWrite (j.area + 32 * j.index) j.record).finish j.channel (OrderResult.of .ok 65 0) 0 bus := by
  simp [State.collectWritten, hlast, collectRecords]

/-- The boundary after a lane record: the abort, or the next sample. -/
theorem State.collectWritten_lane (hlane : j.index < 64) :
    s.collectWritten j true bus =
      if (s.channel j.channel).abortReq then
        (s.busWrite (j.area + 32 * j.index) j.record).finish j.channel
          (OrderResult.of .aborted (BitVec.ofNat 32 (j.index + 1)) 0) 0 bus
      else (s.busWrite (j.area + 32 * j.index) j.record).sampleCollect j.channel j.port j.area j.clear (j.index + 1) := by
  have hmore : ¬ collectRecords ≤ j.index + 1 := by unfold collectRecords; omega
  simp only [State.collectWritten, if_true, if_neg hmore]

theorem State.collectWritten_aborted (hlane : j.index < 64) (hab : (s.channel j.channel).abortReq = true) :
    s.collectWritten j true bus =
      (s.busWrite (j.area + 32 * j.index) j.record).finish j.channel
        (OrderResult.of .aborted (BitVec.ofNat 32 (j.index + 1)) 0) 0 bus :=
  (State.collectWritten_lane hlane).trans (if_pos hab)

theorem State.collectWritten_samples {i : Nat} (hi : i = j.index + 1) (hlane : j.index < 64)
    (hab : (s.channel j.channel).abortReq = false) :
    s.collectWritten j true bus =
      (s.busWrite (j.area + 32 * j.index) j.record).sampleCollect j.channel j.port j.area j.clear i := by
  rw [State.collectWritten_lane hlane, if_neg (by simp [hab]), hi]

theorem State.collectWritten_failed :
    s.collectWritten j false bus =
      (s.returnSample j).finish j.channel
        (OrderResult.of .memoryFault (BitVec.ofNat 32 j.index) (BitVec.ofNat 16 j.index)) 0 bus := rfl

theorem exec_collectRecord {u : State} {written : Bool} (hj : s.executor = .collecting j)
    (h : s.collectWritten j written bus = u) : exec (.collectRecord written bus) s = .next u.takeNext := by
  simp only [exec, execCollectRecord, hj, h]

/-! ## A sample returned to its counters (R166) -/

theorem State.returnSample_keep (hkeep : j.clear = false) : s.returnSample j = s := by
  simp [State.returnSample, hkeep]

/-- Of two peaks the larger, as the tally keeps it. -/
theorem largerPeak_eq (now was : Byte) :
    (if now.toNat < was.toNat then was else now) = BitVec.ofNat 8 (max now.toNat was.toNat) := by
  split
  · rw [Nat.max_eq_right (by omega), BitVec.ofNat_toNat, BitVec.setWidth_eq]
  · rw [Nat.max_eq_left (by omega), BitVec.ofNat_toNat, BitVec.setWidth_eq]

theorem LaneTally.giveBack_eq (now was : LaneTally) :
    now.giveBack was =
      ⟨satAdd now.assuredBytes was.assuredBytes.toNat, satAdd now.surplusBytes was.surplusBytes.toNat,
        satAdd now.framesReleased was.framesReleased.toNat, satAdd now.refusals was.refusals.toNat,
        satAdd now.spill was.spill.toNat, BitVec.ofNat 8 (max now.peak.toNat was.peak.toNat)⟩ := by
  rw [LaneTally.giveBack, largerPeak_eq]

theorem State.returnSample_lane {x : SourceIx} {was : LaneTally} (hclear : j.clear = true) (hsample : j.sample = .lane x was) :
    s.returnSample j = s.updLane j.port x fun l => { l with tally := l.tally.giveBack was } := by
  simp only [State.returnSample, hclear, hsample, if_true]

theorem State.returnSample_port {was : PortTally} (hclear : j.clear = true) (hsample : j.sample = .port was) :
    s.returnSample j = s.updPortTally j.port fun t => t.giveBack was := by
  simp only [State.returnSample, hclear, hsample, if_true]

/-- Only a port is touched when a sample is returned. -/
theorem State.returnSample_frame : s.returnSample j = { s with ports := (s.returnSample j).ports } := by
  unfold State.returnSample
  split
  · split <;> rfl
  · rfl

end

/-- Settles O46: the port, its state and the mark where the order begins; the record, the mark and the bus where one is written. -/
theorem collectOutcome : Obligations.CollectOutcome := by
  refine ⟨fun b bus s c hc => ?_, fun bus s j hj => ?_⟩
  · have hmark : ((s.beginExecuting c).channel c).abortReq = (s.channel c).abortReq := by simp
    refine ⟨fun hp => ?_, fun p x hp hst => ?_, fun p hp halive hab => ?_, fun p hp halive hab => ?_⟩
    · exact ⟨_, exec_collect hc (State.beginCollect_badPort hp), s.finish_ended_taken c _ b.w1 bus⟩
    · exact ⟨_, exec_collect hc (State.beginCollect_moved hp hst), s.finish_moved c x b.w1 bus⟩
    · exact ⟨_, exec_collect hc (State.beginCollect_aborted hp halive (hmark.trans hab)),
        s.finish_ended_taken c _ b.w1 bus⟩
    · have hbegin := State.beginCollect_samples (s := s.beginExecuting c) (bus := bus) hp halive (hmark.trans hab)
      rw [exec_collect hc (hbegin.trans (State.sampleCollect_lane _ c p _ _ 0)), State.takeNext_busy (by simp),
        ← State.beginExecuting_unmarked hab]
      rfl
  · refine ⟨fun x hx hab => ?_, fun hindex hab => ?_, ?_, ?_⟩
    · have hwritten := State.collectWritten_samples (bus := bus) hx (by omega) hab
      rw [exec_collectRecord hj (hwritten.trans (State.sampleCollect_lane ..)), State.takeNext_busy (by simp), ← hx]
      rfl
    · have hwritten := State.collectWritten_samples (i := 64) (bus := bus) (by omega) (by omega) hab
      rw [exec_collectRecord hj (hwritten.trans (State.sampleCollect_port ..)), State.takeNext_busy (by simp)]
      rfl
    · rintro u rfl
      exact ⟨fun hlast => ⟨_, exec_collectRecord hj (State.collectWritten_last hlast), State.finish_ended_self ..⟩,
        fun hlane hab => ⟨_, exec_collectRecord hj (State.collectWritten_aborted hlane hab), State.finish_ended_self ..⟩⟩
    · obtain ⟨hcompleted, hframe⟩ := State.finish_of_ports (s.returnSample_frame (j := j)) j.channel
        (OrderResult.of .memoryFault (BitVec.ofNat 32 j.index) (BitVec.ofNat 16 j.index)) 0 bus
      refine ⟨_, exec_collectRecord hj State.collectWritten_failed, hcompleted, hframe, fun hkeep => ?_,
        fun x was hclear hsample => ?_, fun was hclear hsample => ?_⟩
      · rw [State.finish_ports, State.returnSample_keep hkeep]
      · rw [State.finish_ports, State.returnSample_lane hclear hsample, ← LaneTally.giveBack_eq]
        rfl
      · rw [State.finish_ports, State.returnSample_port hclear hsample]
        rfl

/-! ## SURVEY begun (R167, R168) -/

section
variable {s : State} {c : ChannelIx} {b : OrderBlock} {bus : CompletionBus}

theorem State.beginSurvey_aborted (hab : (s.channel c).abortReq = true) :
    s.beginSurvey c b bus = s.finish c (OrderResult.of .aborted 0 0) b.w1 bus := if_pos hab

theorem State.beginSurvey_samples (hab : (s.channel c).abortReq = false) :
    s.beginSurvey c b bus = s.sampleSurvey c b.recordArea 0 := if_neg (by simp [hab])

theorem exec_survey {u : State} (hc : s.CarriesOut c) (h : (s.beginExecuting c).beginSurvey c b bus = u) :
    exec (.survey (some b) bus) s = .next u.takeNext :=
  congrArg (fun t : State => Host.Outcome.next t.takeNext) ((State.takeOrder_of_carriesOut hc b bus _).trans h)

end

/-! ## A SURVEY record written, or not (R167, R168) -/

section
variable {s : State} {j : SurveyJob} {bus : CompletionBus}

/-- After the pool record the order is complete, whatever the mark. -/
theorem State.surveyWritten_last (hlast : j.index = 16) :
    s.surveyWritten j true bus =
      (s.busWrite (j.area + 16 * j.index) j.record).finish j.channel (OrderResult.of .ok 17 0) 0 bus := by
  simp [State.surveyWritten, hlast, surveyRecords]

/-- The boundary after a port record: the abort, or the next sample. -/
theorem State.surveyWritten_port (hport : j.index < 16) :
    s.surveyWritten j true bus =
      if (s.channel j.channel).abortReq then
        (s.busWrite (j.area + 16 * j.index) j.record).finish j.channel
          (OrderResult.of .aborted (BitVec.ofNat 32 (j.index + 1)) 0) 0 bus
      else (s.busWrite (j.area + 16 * j.index) j.record).sampleSurvey j.channel j.area (j.index + 1) := by
  have hmore : ¬ surveyRecords ≤ j.index + 1 := by unfold surveyRecords; omega
  simp only [State.surveyWritten, if_true, if_neg hmore]

theorem State.surveyWritten_aborted (hport : j.index < 16) (hab : (s.channel j.channel).abortReq = true) :
    s.surveyWritten j true bus =
      (s.busWrite (j.area + 16 * j.index) j.record).finish j.channel
        (OrderResult.of .aborted (BitVec.ofNat 32 (j.index + 1)) 0) 0 bus :=
  (State.surveyWritten_port hport).trans (if_pos hab)

theorem State.surveyWritten_samples {i : Nat} (hi : i = j.index + 1) (hport : j.index < 16)
    (hab : (s.channel j.channel).abortReq = false) :
    s.surveyWritten j true bus = (s.busWrite (j.area + 16 * j.index) j.record).sampleSurvey j.channel j.area i := by
  rw [State.surveyWritten_port hport, if_neg (by simp [hab]), hi]

theorem State.surveyWritten_failed :
    s.surveyWritten j false bus =
      (s.returnLatch j).finish j.channel
        (OrderResult.of .memoryFault (BitVec.ofNat 32 j.index) (BitVec.ofNat 16 j.index)) 0 bus := rfl

theorem exec_surveyRecord {u : State} {written : Bool} (hj : s.executor = .surveying j)
    (h : s.surveyWritten j written bus = u) : exec (.surveyRecord written bus) s = .next u.takeNext := by
  simp only [exec, execSurveyRecord, hj, h]

/-! ## The kinds taken returned to the latch (R168) -/

/-- The pool record takes nothing from a latch. -/
theorem State.returnLatch_pool (hpool : 16 ≤ j.index) : s.returnLatch j = s := dif_neg (Nat.not_lt.2 hpool)

theorem State.returnLatch_port {p : PortIx} (hp : p.val = j.index) :
    s.returnLatch j = s.updPort p fun q => { q with watchLatch := q.watchLatch.join j.latch } := by
  have hindex : (⟨j.index, hp ▸ p.isLt⟩ : PortIx) = p := Fin.ext hp.symm
  rw [State.returnLatch, dif_pos (hp ▸ p.isLt), hindex]

/-- Only a port is touched when the kinds are returned. -/
theorem State.returnLatch_frame : s.returnLatch j = { s with ports := (s.returnLatch j).ports } := by
  unfold State.returnLatch
  split <;> rfl

end

/-- Settles O47: the mark where the order begins; the record, the mark and the bus where one is written. -/
theorem surveyOutcome : Obligations.SurveyOutcome := by
  refine ⟨fun b bus s c hc => ?_, fun bus s j hj => ?_⟩
  · have hmark : ((s.beginExecuting c).channel c).abortReq = (s.channel c).abortReq := by simp
    refine ⟨fun hab => ?_, fun hab => ?_⟩
    · exact ⟨_, exec_survey hc (State.beginSurvey_aborted (hmark.trans hab)), s.finish_ended_taken c _ b.w1 bus⟩
    · have hbegin := State.beginSurvey_samples (b := b) (bus := bus) (hmark.trans hab)
      rw [exec_survey hc (hbegin.trans (State.sampleSurvey_port _ c _ 0)), State.takeNext_busy (by simp),
        ← State.beginExecuting_unmarked hab]
      exact ⟨_, rfl, rfl⟩
  · refine ⟨fun p hp hab => ?_, fun hindex hab => ?_, ?_, ?_⟩
    · have hwritten := State.surveyWritten_samples (bus := bus) hp (by omega) hab
      rw [exec_surveyRecord hj (hwritten.trans (State.sampleSurvey_port ..)), State.takeNext_busy (by simp), ← hp]
      exact ⟨_, rfl, rfl⟩
    · have hwritten := State.surveyWritten_samples (i := 16) (bus := bus) (by omega) (by omega) hab
      rw [exec_surveyRecord hj (hwritten.trans (State.sampleSurvey_pool ..)), State.takeNext_busy (by simp)]
      rfl
    · rintro u rfl
      exact ⟨fun hlast => ⟨_, exec_surveyRecord hj (State.surveyWritten_last hlast), State.finish_ended_self ..⟩,
        fun hport hab => ⟨_, exec_surveyRecord hj (State.surveyWritten_aborted hport hab), State.finish_ended_self ..⟩⟩
    · obtain ⟨hcompleted, hframe⟩ := State.finish_of_ports (s.returnLatch_frame (j := j)) j.channel
        (OrderResult.of .memoryFault (BitVec.ofNat 32 j.index) (BitVec.ofNat 16 j.index)) 0 bus
      refine ⟨_, exec_surveyRecord hj State.surveyWritten_failed, hcompleted, hframe, fun hpool => ?_, fun p hp => ?_⟩
      · rw [State.finish_ports, State.returnLatch_pool hpool]
      · rw [State.finish_ports, State.returnLatch_port hp]
        rfl

end Sys2Proof.Machine

/-! PROOFS. The records of COLLECT, SURVEY and TRACE, byte by byte (O48). -/

namespace Sys2Proof.Machine

/-! ## Bytes made of fields -/

theorem bit_lt_two (x : Bool) : bit x < 2 := by cases x <;> decide

theorem bit_eq_one_iff (x : Bool) : bit x = 1 ↔ x = true := by cases x <;> decide

/-- A flag of a byte, read off the byte's number. -/
theorem getLsbD_of_toNat {b : Byte} {i : Nat} {x : Bool} (h : b.toNat / 2 ^ i % 2 = bit x) : b.getLsbD i = x := by
  rw [BitVec.getLsbD, Nat.testBit_eq_decide_div_mod_eq, h]
  simp [bit_eq_one_iff]

/-- The flags of a lane record (Table 9-6). -/
theorem threeFlags : ∀ x y z : Bool,
    (BitVec.ofNat 8 (bit x + 2 * bit y + 4 * bit z)).getLsbD 0 = x ∧
    (BitVec.ofNat 8 (bit x + 2 * bit y + 4 * bit z)).getLsbD 1 = y ∧
    (BitVec.ofNat 8 (bit x + 2 * bit y + 4 * bit z)).getLsbD 2 = z ∧
    (BitVec.ofNat 8 (bit x + 2 * bit y + 4 * bit z)).toNat < 8 := by decide

/-- The flags of a pool record (Table 9-9). -/
theorem twoFlags : ∀ x y : Bool,
    (BitVec.ofNat 8 (bit x + 2 * bit y)).getLsbD 0 = x ∧ (BitVec.ofNat 8 (bit x + 2 * bit y)).getLsbD 1 = y ∧
    (BitVec.ofNat 8 (bit x + 2 * bit y)).toNat < 4 := by decide

/-! ## The survey port record (Table 9-8) -/

/-- Byte 0: state, flow, selected profile, refresh flag. -/
def Port.surveyByte0 (q : Port) : Byte :=
  BitVec.ofNat 8 (q.state.code + 4 * q.flow.code + 16 * q.selected.val + 64 * bit q.refreshFlag)

/-- Byte 1: watch latch, successor. -/
def Port.surveyByte1 (q : Port) : Byte := BitVec.ofNat 8 (q.watchLatch.code + 16 * q.successorCode)

/-- Byte 2: both slots. -/
def Port.surveyByte2 (q : Port) (k : Nat) : Byte :=
  BitVec.ofNat 8 (slotCode q.older (Config.freeBit k) + 4 * slotCode q.younger (Config.freeBit (k + 1)))

theorem surveyPortRecord_eq (q : Port) (k : Nat) :
    surveyPortRecord q k =
      [q.surveyByte0, q.surveyByte1, q.surveyByte2 k, slotTag q.older, slotTag q.younger, q.holdAge] ++
        leBytes 2 q.listTotal ++ leBytes 4 q.roundCount.toNat ++ [0, 0, 0, 0] := rfl

/-! ### State, flow, profile, refresh flag -/

theorem PortState.code_lt (x : PortState) : x.code < 4 := by
  unfold PortState.code
  split <;> decide

theorem Flow.code_lt (x : Flow) : x.code < 3 := by cases x <;> decide

theorem Port.surveyByte0_toNat (q : Port) :
    q.surveyByte0.toNat = q.state.code + 4 * q.flow.code + 16 * q.selected.val + 64 * bit q.refreshFlag := by
  have hstate := q.state.code_lt
  have hflow := q.flow.code_lt
  have hflag := bit_lt_two q.refreshFlag
  exact Nat.mod_eq_of_lt (by omega)

theorem Port.surveyByte0_fields (q : Port) :
    q.surveyByte0.toNat % 4 = q.state.code ∧ q.surveyByte0.toNat / 4 % 4 = q.flow.code ∧
    q.surveyByte0.toNat / 16 % 4 = q.selected.val ∧ q.surveyByte0.getLsbD 6 = q.refreshFlag ∧
    q.surveyByte0.getLsbD 7 = false := by
  have hbyte := q.surveyByte0_toNat
  have hstate := q.state.code_lt
  have hflow := q.flow.code_lt
  have hflag := bit_lt_two q.refreshFlag
  have hzero : bit false = 0 := rfl
  exact ⟨by omega, by omega, by omega, getLsbD_of_toNat (by omega), getLsbD_of_toNat (by omega)⟩

/-! ### Watch latch, successor -/

theorem WatchLatch.code_lt (w : WatchLatch) : w.code < 16 := by
  have hhold := bit_lt_two w.hold
  have hresume := bit_lt_two w.resume
  have hstall := bit_lt_two w.stall
  have hlink := bit_lt_two w.link
  unfold WatchLatch.code
  omega

theorem Port.successorCode_of_retired {q : Port} {x : PortIx} (hst : q.state = .retired x) : q.successorCode = x.val := by
  simp only [Port.successorCode, Port.successor?_of_retired hst]

theorem Port.successorCode_of_alive {q : Port} (halive : ∀ x : PortIx, q.state ≠ .retired x) : q.successorCode = 0 := by
  simp only [Port.successorCode, Port.successor?_none halive]

theorem Port.successorCode_lt (q : Port) : q.successorCode < 16 := by
  unfold Port.successorCode
  split
  · decide
  · exact Fin.isLt _

theorem Port.surveyByte1_toNat (q : Port) : q.surveyByte1.toNat = q.watchLatch.code + 16 * q.successorCode := by
  have hlatch := q.watchLatch.code_lt
  have hsuccessor := q.successorCode_lt
  exact Nat.mod_eq_of_lt (by omega)

theorem Port.surveyByte1_latch (q : Port) :
    q.surveyByte1.getLsbD 0 = q.watchLatch.hold ∧ q.surveyByte1.getLsbD 1 = q.watchLatch.resume ∧
    q.surveyByte1.getLsbD 2 = q.watchLatch.stall ∧ q.surveyByte1.getLsbD 3 = q.watchLatch.link := by
  have hbyte := q.surveyByte1_toNat
  unfold WatchLatch.code at hbyte
  have hhold := bit_lt_two q.watchLatch.hold
  have hresume := bit_lt_two q.watchLatch.resume
  have hstall := bit_lt_two q.watchLatch.stall
  have hlink := bit_lt_two q.watchLatch.link
  exact ⟨getLsbD_of_toNat (by omega), getLsbD_of_toNat (by omega), getLsbD_of_toNat (by omega),
    getLsbD_of_toNat (by omega)⟩

theorem Port.surveyByte1_successor (q : Port) : q.surveyByte1.toNat / 16 = q.successorCode := by
  have hbyte := q.surveyByte1_toNat
  have hlatch := q.watchLatch.code_lt
  omega

/-! ### Slots -/

/-- A slot's two bits: occupied, and the kind, which a free slot leaves open (log 15). -/
theorem slotCode_split (sl : Option Slot) (free : Bool) :
    ∃ kind : Bool, slotCode sl free = bit sl.isSome + 2 * bit kind ∧
      ∀ x : Slot, sl = some x → kind = decide (x.kind = .surplus) := by
  cases sl with
  | none => exact ⟨free, (Nat.zero_add _).symm, fun x hx => by cases hx⟩
  | some a =>
    refine ⟨decide (a.kind = .surplus), ?_, fun x hx => by rw [Option.some.inj hx]⟩
    simp only [slotCode]
    cases a.kind <;> rfl

theorem Port.surveyByte2_fields (q : Port) (k : Nat) :
    (q.surveyByte2 k).getLsbD 0 = q.older.isSome ∧ (q.surveyByte2 k).getLsbD 2 = q.younger.isSome ∧
    (q.surveyByte2 k).toNat < 16 ∧
    (∀ x : Slot, q.older = some x → (q.surveyByte2 k).getLsbD 1 = decide (x.kind = .surplus)) ∧
    ∀ x : Slot, q.younger = some x → (q.surveyByte2 k).getLsbD 3 = decide (x.kind = .surplus) := by
  obtain ⟨older, holder, hkindOlder⟩ := slotCode_split q.older (Config.freeBit k)
  obtain ⟨younger, hyounger, hkindYounger⟩ := slotCode_split q.younger (Config.freeBit (k + 1))
  have h0 := bit_lt_two q.older.isSome
  have h1 := bit_lt_two older
  have h2 := bit_lt_two q.younger.isSome
  have h3 := bit_lt_two younger
  have hbyte : (q.surveyByte2 k).toNat =
      bit q.older.isSome + 2 * bit older + 4 * (bit q.younger.isSome + 2 * bit younger) := by
    rw [← holder, ← hyounger]
    exact Nat.mod_eq_of_lt (by omega)
  exact ⟨getLsbD_of_toNat (by omega), getLsbD_of_toNat (by omega), by omega,
    fun x hx => hkindOlder x hx ▸ getLsbD_of_toNat (by omega),
    fun x hx => hkindYounger x hx ▸ getLsbD_of_toNat (by omega)⟩

/-- Settles O48: the lists of bytes as they are written, the fields that share a byte by the byte's number. -/
theorem recordLayouts : Obligations.RecordLayouts := by
  refine ⟨fun l src => ?_, fun q p => rfl, fun q k => ?_, fun s => ?_, fun n m => rfl, fun h next why => rfl,
    fun n v i => leBytes_getElem? n v i.val i.isLt⟩
  · exact ⟨rfl, rfl, rfl, rfl, rfl, rfl, rfl, rfl, rfl, rfl, _, rfl, threeFlags ..⟩
  · obtain ⟨hstate, hflow, hselected, hrefresh, hzero⟩ := q.surveyByte0_fields
    obtain ⟨hhold, hresume, hstall, hlink⟩ := q.surveyByte1_latch
    obtain ⟨holder, hyounger, hlt, hkindOlder, hkindYounger⟩ := q.surveyByte2_fields k
    refine ⟨_, _, _, _, _, surveyPortRecord_eq q k, hstate.trans ?_, hflow.trans ?_, hselected, hrefresh, hzero, hhold,
      hresume, hstall, hlink, fun x hx => q.surveyByte1_successor.trans (Port.successorCode_of_retired hx),
      fun halive => q.surveyByte1_successor.trans (Port.successorCode_of_alive halive), holder, hyounger, hlt,
      fun hfree => ?_, fun hfree => ?_, fun x hx => ⟨?_, hkindOlder x hx⟩, fun x hx => ⟨?_, hkindYounger x hx⟩⟩
    · cases q.state <;> rfl
    · cases q.flow <;> rfl
    · rw [hfree, slotTag]
    · rw [hfree, slotTag]
    · rw [hx, slotTag]
    · rw [hx, slotTag]
  · exact ⟨_, rfl, twoFlags ..⟩

end Sys2Proof.Machine

/-! PROOFS. The trace engine: how a trace is armed (O49), the offers (O50, O51), the writes into the area (O52, O53) and the stale
timer (O54). -/

namespace Sys2Proof.Machine

/-! ## A TRACE taken (R158, R170) -/

/-- The trace that an order block arms on a channel, with the gap count and the session minute as they stand (R170). -/
def ArmedTrace.ofBlock (b : OrderBlock) (c : ChannelIx) (gap : BitVec 32) (minute : Minute) : ArmedTrace where
  channel := c
  kindMask := b.kindMask
  portMask := b.traceMask
  area := b.recordArea
  count := b.traceCount
  staleTime := b.staleTime
  written := 0
  holding := none
  staleRunning := decide (b.staleTime ≠ 0)
  staleDue := false
  write := if gap = 0 then none else some (.gap gap minute)

/-- The stale timer is started where the stale time is nonzero. -/
theorem staleTime_bne (n : BitVec 16) : (n != 0#16) = decide (n ≠ 0) := by
  rw [Bool.eq_iff_iff, bne_iff_ne, decide_eq_true_iff]
  rfl

section
variable {s : State} {c : ChannelIx} {b : OrderBlock} {bus : CompletionBus}

theorem State.beginTrace_conflict (harmed : s.tre.armed ≠ none) :
    s.beginTrace c b bus = s.finish c (OrderResult.of .conflict 0 0) b.w1 bus := by
  unfold State.beginTrace
  split
  · rfl
  · contradiction

theorem State.beginTrace_badOrder (harmed : s.tre.armed = none) (hcount : b.traceCount = 0) :
    s.beginTrace c b bus = s.finish c (OrderResult.of .badOrder 0 0) b.w1 bus := by
  simp only [State.beginTrace, harmed]
  exact if_pos hcount

theorem State.beginTrace_arms (harmed : s.tre.armed = none) (hcount : b.traceCount ≠ 0) :
    s.beginTrace c b bus = (s.armTrace c b).abortIfMarked c bus := by
  simp only [State.beginTrace, harmed]
  exact if_neg hcount

theorem exec_trace {u : State} (hc : s.CarriesOut c) (h : (s.beginExecuting c).beginTrace c b bus = u) :
    exec (.trace (some b) bus) s = .next u.takeNext :=
  congrArg (fun t : State => Host.Outcome.next t.takeNext) ((State.takeOrder_of_carriesOut hc b bus _).trans h)

end

/-- The state with the trace of a block just armed, the executor free. -/
def State.withNewTrace (s : State) (c : ChannelIx) (b : OrderBlock) : State :=
  { s with
    executor := .free
    channels := s.channels.set c ⟨.tracing, (s.channel c).addr, (s.channel c).abortReq⟩
    tre := { s.tre with
      armed := some (ArmedTrace.ofBlock b c s.tre.gapCount s.minute)
      stickyKinds := b.kindMask
      stickyPorts := b.traceMask
      gapCount := 0 } }

theorem State.beginExecuting_armTrace (s : State) (c : ChannelIx) (b : OrderBlock) :
    (s.beginExecuting c).armTrace c b = s.withNewTrace c b := by
  have hchannel : (s.beginExecuting c).channel c = ⟨.executing, (s.channel c).addr, (s.channel c).abortReq⟩ := by simp
  simp only [State.armTrace, hchannel, State.setChannel, State.beginExecuting_channels, Vector.set_set, staleTime_bne]
  rfl

section
variable {s : State} {c : ChannelIx} {b : OrderBlock} {bus : CompletionBus}

theorem State.withNewTrace_channel : (s.withNewTrace c b).channel c = ⟨.tracing, (s.channel c).addr, (s.channel c).abortReq⟩ :=
  Vector.getElem_set_self c.isLt

theorem ArmedTrace.ofBlock_write {gap : BitVec 32} {minute : Minute} (hgap : gap ≠ 0) :
    (ArmedTrace.ofBlock b c gap minute).write ≠ none := by
  simpa [ArmedTrace.ofBlock] using hgap

/-- The trace stays as armed where no mark stands, and while the GAP record is written (log 12). -/
theorem State.abortIfMarked_waits (h : (s.channel c).abortReq = false ∨ s.tre.gapCount ≠ 0) :
    (s.withNewTrace c b).abortIfMarked c bus = s.withNewTrace c b := by
  unfold State.abortIfMarked
  split
  · rename_i hmarked
    rw [State.withNewTrace_channel] at hmarked
    have hgap := h.resolve_left (by rw [hmarked]; decide)
    exact State.traceAbortRequest_of_write rfl (ArmedTrace.ofBlock_write hgap) c bus
  · rfl

/-- With a mark and no GAP record to write, the trace ends as it is armed. -/
theorem State.abortIfMarked_ends (hmarked : (s.channel c).abortReq = true) (hgap : s.tre.gapCount = 0) :
    (s.withNewTrace c b).abortIfMarked c bus =
      (s.withNewTrace c b).endTrace (ArmedTrace.ofBlock b c s.tre.gapCount s.minute) .aborted 0 bus := by
  have hmark : ((s.withNewTrace c b).channel c).abortReq = true := by rw [State.withNewTrace_channel, hmarked]
  rw [State.abortIfMarked, if_pos hmark]
  exact (State.traceAbortRequest_of_no_write rfl (if_pos hgap) bus).trans
    (State.abortTrace_of_none (tr := ArmedTrace.ofBlock b c s.tre.gapCount s.minute) rfl bus)

end

/-- Settles O49: the trace armed before, the count, then the mark and the gap count. -/
theorem traceIsArmed : Obligations.TraceIsArmed := by
  intro b bus s c hc
  refine ⟨fun harmed => ?_, fun harmed hcount => ?_, ?_⟩
  · exact ⟨_, exec_trace hc (State.beginTrace_conflict harmed), s.finish_ended_taken c _ b.w1 bus⟩
  · exact ⟨_, exec_trace hc (State.beginTrace_badOrder harmed hcount), s.finish_ended_taken c _ b.w1 bus⟩
  · rintro tr harmed hcount rfl
    have hbegin := State.beginTrace_arms (s := s.beginExecuting c) (c := c) (bus := bus) harmed hcount
    rw [State.beginExecuting_armTrace] at hbegin
    refine ⟨fun hwaits => ?_, fun hmarked hgap => ?_⟩
    · rw [exec_trace hc (hbegin.trans (State.abortIfMarked_waits hwaits))]
      rfl
    · refine ⟨_, _, exec_trace hc (hbegin.trans (State.abortIfMarked_ends hmarked hgap)), rfl, ?_⟩
      exact State.endTrace_ended
        { s with executor := .free, tre := { s.tre with stickyKinds := b.kindMask, stickyPorts := b.traceMask } } s.cardMem
        (some (ArmedTrace.ofBlock b c s.tre.gapCount s.minute)) (ArmedTrace.ofBlock b c s.tre.gapCount s.minute) .tracing
        (s.channel c).abortReq 0 .aborted 0 bus

/-! ## Offers (R171, R172, R176) -/

section
variable {s : State} {o : Offer}

/-- An offer that two masks select counts as a gap. -/
theorem State.addGap_of_selected (s : State) (o : Offer) (k : BitVec 11) (m : BitVec 16) :
    (if o.selectedBy k m then s.addGap 1 else s) = { s with tre := { s.tre with
      gapCount := if k.getLsbD o.kind.code = true ∧ m.getLsbD o.port.val = true then
        BitVec.ofNat 32 (min (s.tre.gapCount.toNat + 1) 4294967295) else s.tre.gapCount } } := by
  simp only [← Offer.selectedBy_iff]
  split <;> rfl

/-- With no trace armed an offer counts as a gap where the sticky mask holds it (R176). -/
theorem State.takeOffer_of_disarmed (harmed : s.tre.armed = none) :
    s.takeOffer o = { s with tre := { s.tre with
      gapCount := if s.tre.stickyKinds.getLsbD o.kind.code = true ∧ s.tre.stickyPorts.getLsbD o.port.val = true then
        BitVec.ofNat 32 (min (s.tre.gapCount.toNat + 1) 4294967295) else s.tre.gapCount } } := by
  rw [← s.addGap_of_selected o, State.takeOffer, harmed]

variable {tr : ArmedTrace}

theorem State.takeOffer_of_not_selected (harmed : s.tre.armed = some tr)
    (hmask : tr.kindMask.getLsbD o.kind.code = false ∨ tr.portMask.getLsbD o.port.val = false) : s.takeOffer o = s := by
  have hdropped : ¬ o.selectedBy tr.kindMask tr.portMask = true := fun h => by
    obtain ⟨hkind, hport⟩ := (o.selectedBy_iff _ _).1 h
    rcases hmask with hmask | hmask <;> simp_all
  simp only [State.takeOffer, harmed, if_neg hdropped]

theorem State.takeOffer_of_selected (harmed : s.tre.armed = some tr) (hkind : tr.kindMask.getLsbD o.kind.code = true)
    (hport : tr.portMask.getLsbD o.port.val = true) : s.takeOffer o = s.takeRecord tr o := by
  simp only [State.takeOffer, harmed, if_pos ((o.selectedBy_iff _ _).2 ⟨hkind, hport⟩)]

/-! ### A record taken (R171, R172) -/

theorem State.takeRecord_holds (hnone : tr.holding = none) :
    s.takeRecord tr o = { s with tre := { s.tre with armed := some { tr with
      staleRunning := decide (tr.staleTime ≠ 0), holding := some ⟨o, 1⟩ } } } := by
  simp only [State.takeRecord, hnone, staleTime_bne]

variable {h : Holding}

theorem State.takeRecord_merges (hholding : tr.holding = some h) (hmerge : h.mergesWith o = true) (hroom : h.count + 1 ≠ 255) :
    s.takeRecord tr o = { s with tre := { s.tre with armed := some { tr with
      staleRunning := decide (tr.staleTime ≠ 0), holding := some ⟨h.first, h.count + 1⟩ } } } := by
  have hroom' : ¬ h.count + 1 = maxRepeat := hroom
  simp only [State.takeRecord, hholding, hmerge, if_true, if_neg hroom', staleTime_bne]

theorem State.takeRecord_fills (hholding : tr.holding = some h) (hmerge : h.mergesWith o = true) (hfull : h.count + 1 = 255) :
    s.takeRecord tr o = { s with tre := { s.tre with armed := some { tr with
      staleRunning := decide (tr.staleTime ≠ 0), holding := none
      write := some (.holding ⟨h.first, 255⟩ none .taken) } } } := by
  have hfull' : h.count + 1 = maxRepeat := hfull
  simp only [State.takeRecord, hholding, hmerge, if_true, if_pos hfull', staleTime_bne, State.beginClose]
  rw [hfull]

theorem State.takeRecord_closes (hholding : tr.holding = some h) (hmerge : h.mergesWith o = false) :
    s.takeRecord tr o = { s with tre := { s.tre with armed := some { tr with
      staleRunning := decide (tr.staleTime ≠ 0), holding := none, write := some (.holding h (some o) .taken) } } } := by
  simp only [State.takeRecord, hholding, hmerge, Bool.false_eq_true, if_false, staleTime_bne, State.beginClose]

end

/-! ### Which offer moves on (R171, log 11) -/

/-- `o` is the offer that TRE takes next of `s`, and `u` is `s` without it: the oldest of the queue, else of those on their way. -/
def State.NextOffer (s u : State) (o : Offer) : Prop :=
  ∃ rest : List Offer, (s.tre.queue = o :: rest ∧ u = { s with tre := { s.tre with queue := rest } }) ∨
    (s.tre.queue = [] ∧ s.tre.offered = o :: rest ∧ u = { s with tre := { s.tre with offered := rest } })

/-- What is taken leaves the rest of the trace engine. -/
theorem State.NextOffer.tre_eq {s u : State} {o : Offer} (hnext : s.NextOffer u o) :
    u.tre = { s.tre with queue := u.tre.queue, offered := u.tre.offered } := by
  obtain ⟨rest, ⟨-, rfl⟩ | ⟨-, -, rfl⟩⟩ := hnext <;> rfl

theorem State.offerStep_of_no_write {s u : State} {o : Offer} (hwriting : s.tre.writing = none) (hnext : s.NextOffer u o) :
    s.offerStep = u.takeOffer o := by
  obtain ⟨rest, ⟨hqueue, rfl⟩ | ⟨hqueue, hoffered, rfl⟩⟩ := hnext
  · simp only [State.offerStep, hwriting, hqueue]
  · simp only [State.offerStep, hwriting, hqueue, hoffered]

theorem exec_traceOffer {s u : State} (h : s.offerStep = u) : exec .traceOffer s = .next u := congrArg Host.Outcome.next h

/-- Settles O50: the offer taken, then the trace, its masks and its holding record decide. -/
theorem traceOfferTaken : Obligations.TraceOfferTaken := by
  intro o s u hwriting hnext
  have htre := State.NextOffer.tre_eq hnext
  have hstep := State.offerStep_of_no_write hwriting hnext
  have harmed_eq : u.tre.armed = s.tre.armed := by rw [htre]
  refine ⟨fun harmed => ?_, fun tr harmed => ⟨fun hmask => ?_, fun hkind hport => ?_⟩⟩
  · have hsticky : u.tre.stickyKinds = s.tre.stickyKinds ∧ u.tre.stickyPorts = s.tre.stickyPorts ∧
        u.tre.gapCount = s.tre.gapCount := by rw [htre]; exact ⟨rfl, rfl, rfl⟩
    obtain ⟨hkinds, hports, hgap⟩ := hsticky
    rw [exec_traceOffer (hstep.trans (State.takeOffer_of_disarmed (harmed_eq.trans harmed))), hkinds, hports, hgap]
  · exact exec_traceOffer (hstep.trans (State.takeOffer_of_not_selected (harmed_eq.trans harmed) hmask))
  · have htaken := hstep.trans (State.takeOffer_of_selected (harmed_eq.trans harmed) hkind hport)
    exact ⟨fun hnone => exec_traceOffer (htaken.trans (State.takeRecord_holds hnone)),
      fun h hholding hmerge hroom => exec_traceOffer (htaken.trans (State.takeRecord_merges hholding hmerge hroom)),
      fun h hholding hmerge hfull => exec_traceOffer (htaken.trans (State.takeRecord_fills hholding hmerge hfull)),
      fun h hholding hmerge => exec_traceOffer (htaken.trans (State.takeRecord_closes hholding hmerge))⟩

/-! ### Offers during a write (R171), and the rule of merging (R172) -/

section
variable {s : State} {tr : ArmedTrace} {o : Offer}

theorem State.offerStep_of_write {w : AreaWrite} {rest : List Offer} (harmed : s.tre.armed = some tr) (hwrite : tr.write = some w)
    (hoffered : s.tre.offered = o :: rest) :
    s.offerStep = ({ s with tre := { s.tre with offered := rest } } : State).queueOffer tr o := by
  simp only [State.offerStep, TraceEngine.writing_some harmed hwrite, hoffered]

theorem State.queueOffer_of_room (hroom : s.tre.queue.length < 64) :
    s.queueOffer tr o = { s with tre := { s.tre with queue := s.tre.queue ++ [o] } } := if_pos hroom

theorem State.queueOffer_of_full (hfull : 64 ≤ s.tre.queue.length) :
    s.queueOffer tr o = { s with tre := { s.tre with
      gapCount := if tr.kindMask.getLsbD o.kind.code = true ∧ tr.portMask.getLsbD o.port.val = true then
        BitVec.ofNat 32 (min (s.tre.gapCount.toNat + 1) 4294967295) else s.tre.gapCount } } := by
  rw [← s.addGap_of_selected o]
  exact if_neg (Nat.not_lt.2 hfull)

end

theorem RecordKind.merges_iff (k : RecordKind) : k.merges = true ↔ k = .releaseA ∨ k = .releaseS ∨ k = .refusal := by
  cases k <;> decide

/-- The tag of a run of releases, as a number modulo 256. -/
theorem tag_follows_iff (t first : Byte) (n : Nat) : t = first + BitVec.ofNat 8 n ↔ t.toNat = (first.toNat + n) % 256 := by
  rw [← BitVec.toNat_inj, BitVec.toNat_add, BitVec.toNat_ofNat, Nat.add_mod_mod]

theorem Holding.tagFollows_iff (h : Holding) (o : Offer) :
    h.tagFollows o = true ↔ (o.kind = .refusal → o.tag = h.first.tag) ∧
      (o.kind ≠ .refusal → o.tag.toNat = (h.first.tag.toNat + h.count) % 256) := by
  by_cases hkind : o.kind = .refusal
  · simp [Holding.tagFollows, hkind]
  · simp [Holding.tagFollows, hkind, tag_follows_iff]

theorem Holding.mergesWith_iff (h : Holding) (o : Offer) :
    h.mergesWith o = true ↔
      (o.kind = .releaseA ∨ o.kind = .releaseS ∨ o.kind = .refusal) ∧ o.kind = h.first.kind ∧ o.port = h.first.port ∧
      o.source = h.first.source ∧ o.len = h.first.len ∧ (o.kind = .refusal → o.tag = h.first.tag) ∧
      (o.kind ≠ .refusal → o.tag.toNat = (h.first.tag.toNat + h.count) % 256) := by
  simp only [Holding.mergesWith, Bool.and_eq_true, beq_iff_eq, RecordKind.merges_iff, Holding.tagFollows_iff]

/-- Settles O51: the queue's free places, then the rule of R172 condition by condition. -/
theorem traceOfferDuringWriteAndMergeRule : Obligations.TraceOfferDuringWriteAndMergeRule := by
  refine ⟨fun o rest s tr w harmed hwrite hoffered => ?_, Holding.mergesWith_iff⟩
  have hstep := State.offerStep_of_write harmed hwrite hoffered
  exact ⟨fun hroom => exec_traceOffer (hstep.trans (State.queueOffer_of_room hroom)),
    fun hfull => exec_traceOffer (hstep.trans (State.queueOffer_of_full hfull))⟩

/-! ## The end of a trace (R158) -/

/-- The end of an armed trace that leaves the gap count, from a state that differs from `s` in card memory and the trace. -/
theorem State.endTrace_ended_kept {s u v : State} (tr tr' : ArmedTrace) (st : Status) (bus : CompletionBus)
    (hc : tr'.channel = tr.channel) (hu : u = { s with cardMem := u.cardMem })
    (hv : v = { u with tre := { s.tre with armed := v.tre.armed } }) :
    s.TraceEnded u (v.endTrace tr' st 0 bus) tr st tr'.written 0 s.tre.gapCount.toNat bus := by
  refine State.endTrace_ended_of tr tr' st 0 _ bus hc hu ?_
  rw [count_keeps]
  refine hv.trans ?_
  generalize v.tre.armed = e
  rw [hu]

/-! ## The stale timer (R174) -/

section
variable {s : State} {tr : ArmedTrace} {bus : CompletionBus}

theorem State.staleExpire_of_holding {h : Holding} (hholding : tr.holding = some h) :
    s.staleExpire tr bus = { s with tre := { s.tre with armed := some { tr with
      staleRunning := false, staleDue := false, holding := none, write := some (.holding h none .stale) } } } := by
  simp only [State.staleExpire, hholding, State.beginClose]

theorem State.staleExpire_of_nothing (hholding : tr.holding = none) (hwritten : tr.written = 0) :
    s.staleExpire tr bus =
      { s with tre := { s.tre with armed := some { tr with staleRunning := true, staleDue := false } } } := by
  simp only [State.staleExpire, hholding, if_pos hwritten]

theorem State.staleExpire_of_written (hholding : tr.holding = none) (hwritten : tr.written ≠ 0) :
    s.staleExpire tr bus = s.endTrace { tr with staleRunning := false, staleDue := false } .stale 0 bus := by
  simp only [State.staleExpire, hholding, if_neg hwritten]

theorem State.staleTimer_of_stopped (harmed : s.tre.armed = some tr) (hstopped : tr.staleRunning = false) :
    s.staleTimer bus = s := by
  simp only [State.staleTimer, harmed, hstopped, Bool.false_eq_true, if_false]

theorem State.staleTimer_of_write (harmed : s.tre.armed = some tr) (hruns : tr.staleRunning = true) (hwrite : tr.write ≠ none) :
    s.staleTimer bus = { s with tre := { s.tre with armed := some { tr with staleRunning := false, staleDue := true } } } := by
  obtain ⟨w, hw⟩ := Option.ne_none_iff_exists'.1 hwrite
  simp only [State.staleTimer, harmed, hruns, if_true, hw]

theorem State.staleTimer_of_no_write (harmed : s.tre.armed = some tr) (hruns : tr.staleRunning = true) (hwrite : tr.write = none) :
    s.staleTimer bus = s.staleExpire tr bus := by
  simp only [State.staleTimer, harmed, hruns, if_true, hwrite]

theorem exec_staleTimerExpiry {u : State} (h : s.staleTimer bus = u) : exec (.staleTimerExpiry bus) s = .next u :=
  congrArg Host.Outcome.next h

end

/-- Settles O54: the timer, the write in progress, the holding record and the written count decide. -/
theorem staleTimerOutcome : Obligations.StaleTimerOutcome := by
  intro bus s tr harmed
  refine ⟨fun hstopped => exec_staleTimerExpiry (State.staleTimer_of_stopped harmed hstopped),
    fun hruns hwrite => exec_staleTimerExpiry (State.staleTimer_of_write harmed hruns hwrite),
    fun h hruns hwrite hholding => ?_, fun hruns hwrite hholding hwritten => ?_, fun hruns hwrite hholding hwritten => ?_⟩
  · exact exec_staleTimerExpiry
      ((State.staleTimer_of_no_write harmed hruns hwrite).trans (State.staleExpire_of_holding hholding))
  · exact exec_staleTimerExpiry
      ((State.staleTimer_of_no_write harmed hruns hwrite).trans (State.staleExpire_of_nothing hholding hwritten))
  · exact ⟨_, exec_staleTimerExpiry
      ((State.staleTimer_of_no_write harmed hruns hwrite).trans (State.staleExpire_of_written hholding hwritten)),
      State.endTrace_ended_kept tr _ .stale bus rfl rfl rfl⟩

/-! ## Writes into the area (R170, R173, R175) -/

section
variable {s : State} {tr : ArmedTrace} {w : AreaWrite} {bus : CompletionBus}

theorem State.traceWritten_stored (harmed : s.tre.armed = some tr) (hwrite : tr.write = some w) :
    s.traceWritten true bus =
      (s.busWrite (tr.area + 16 * tr.written) w.bytes).areaWritten { tr with written := tr.written + 1 } w bus := by
  simp only [State.traceWritten, TraceEngine.writing_some harmed hwrite, if_true]

theorem State.traceWritten_failed (harmed : s.tre.armed = some tr) (hwrite : tr.write = some w) :
    s.traceWritten false bus = (s.addGap w.lost).endTrace tr .memoryFault (BitVec.ofNat 16 tr.written) bus := by
  simp only [State.traceWritten, TraceEngine.writing_some harmed hwrite, Bool.false_eq_true, if_false]

theorem exec_traceAreaWrite {u : State} {written : Bool} (h : s.traceWritten written bus = u) :
    exec (.traceAreaWrite written bus) s = .next u := congrArg Host.Outcome.next h

end

/-- Settles O53: the record's events and the taken record that waited go to the gap count, and the trace ends. -/
theorem traceAreaWriteFails : Obligations.TraceAreaWriteFails := by
  intro bus s tr w harmed hwrite
  refine ⟨_, w.lost, exec_traceAreaWrite (State.traceWritten_failed harmed hwrite),
    State.endTrace_ended_of tr tr .memoryFault tr.written _ bus rfl rfl rfl, ?_, ?_, ?_⟩
  · rintro n m rfl
    rfl
  · rintro h why rfl
    rfl
  · rintro h o why rfl
    rfl

/-- The write carries no close but that of a taken record: it leaves the taken record `o` over, or is the GAP record. -/
def AreaWrite.LeavesOver (w : AreaWrite) (o : Option Offer) : Prop :=
  (∃ h : Holding, w = .holding h o .taken) ∨ (o = none ∧ ∃ (n : BitVec 32) (m : Minute), w = .gap n m)

section
variable {s : State} {tr : ArmedTrace} {w : AreaWrite} {o : Option Offer} {bus : CompletionBus}

theorem State.areaWritten_of_leavesOver (hw : w.LeavesOver o) :
    s.areaWritten tr w bus =
      if tr.written = tr.count.toNat then (s.addGapOf o).endTrace tr .full 0 bus
      else s.traceGoesOn tr (o.map fun x => ⟨x, 1⟩) bus := by
  obtain ⟨h, rfl⟩ | ⟨rfl, n, m, rfl⟩ := hw <;> rfl

theorem State.areaWritten_of_stale {h : Holding} :
    s.areaWritten tr (.holding h o .stale) bus =
      s.endTrace tr (if tr.written = tr.count.toNat then .full else .stale) 0 bus :=
  (apply_ite (fun st => s.endTrace tr st 0 bus) _ _ _).symm

/-- A taken record left over is one more gap. -/
theorem State.addGapOf_eq (s : State) (o : Option Offer) :
    s.addGapOf o = { s with tre := { s.tre with
      gapCount := BitVec.ofNat 32 (min (s.tre.gapCount.toNat + if o.isSome then 1 else 0) 4294967295) } } := by
  cases o with
  | none =>
    have hkeeps : min (s.tre.gapCount.toNat + if (none : Option Offer).isSome then 1 else 0) 4294967295 =
        min s.tre.gapCount.toNat 4294967295 := rfl
    rw [hkeeps, count_keeps]
    rfl
  | some x => rfl

end

/-! ### What waited for the write (log 12) -/

section
variable {s : State} {tr : ArmedTrace} {bus : CompletionBus}

theorem State.settleTrace_of_marked (hab : (s.channel tr.channel).abortReq = true) :
    s.settleTrace tr bus = s.abortTrace tr bus := if_pos hab

theorem State.settleTrace_of_unmarked (hab : (s.channel tr.channel).abortReq = false) :
    s.settleTrace tr bus = if tr.staleDue then s.staleExpire tr bus else s := if_neg (by simp [hab])

theorem State.settleTrace_of_due (hab : (s.channel tr.channel).abortReq = false) (hdue : tr.staleDue = true) :
    s.settleTrace tr bus = s.staleExpire tr bus := (State.settleTrace_of_unmarked hab).trans (if_pos hdue)

theorem State.settleTrace_of_nothing (hab : (s.channel tr.channel).abortReq = false) (hdue : tr.staleDue = false) :
    s.settleTrace tr bus = s := (State.settleTrace_of_unmarked hab).trans (if_neg (by simp [hdue]))

/-! ### A trace that goes on, with a holding record or none -/

/-- The trace after a write: a new holding record or none, and no write in progress. -/
def ArmedTrace.goOn (tr : ArmedTrace) (holding : Option Holding) : ArmedTrace :=
  { tr with holding := holding, write := none }

/-- The state with a trace armed. -/
def State.armedWith (s : State) (tr : ArmedTrace) : State := { s with tre := { s.tre with armed := some tr } }

theorem State.traceGoesOn_of_nothing (holding : Option Holding) (hab : (s.channel tr.channel).abortReq = false)
    (hdue : tr.staleDue = false) : s.traceGoesOn tr holding bus = s.armedWith (tr.goOn holding) :=
  State.settleTrace_of_nothing (s := s.armedWith (tr.goOn holding)) (tr := tr.goOn holding) hab hdue

theorem State.traceGoesOn_of_marked (holding : Option Holding) (hab : (s.channel tr.channel).abortReq = true) :
    s.traceGoesOn tr holding bus = (s.armedWith (tr.goOn holding)).abortTrace (tr.goOn holding) bus :=
  State.settleTrace_of_marked (s := s.armedWith (tr.goOn holding)) (tr := tr.goOn holding) hab

theorem State.traceGoesOn_of_due (holding : Option Holding) (hab : (s.channel tr.channel).abortReq = false)
    (hdue : tr.staleDue = true) :
    s.traceGoesOn tr holding bus = (s.armedWith (tr.goOn holding)).staleExpire (tr.goOn holding) bus :=
  State.settleTrace_of_due (s := s.armedWith (tr.goOn holding)) (tr := tr.goOn holding) hab hdue

theorem State.traceGoesOn_marked_holding (h : Holding) (hab : (s.channel tr.channel).abortReq = true) :
    s.traceGoesOn tr (some h) bus =
      s.armedWith { tr with holding := none, write := some (.holding h none .abort) } :=
  (State.traceGoesOn_of_marked (some h) hab).trans (State.abortTrace_of_holding (tr := tr.goOn (some h)) rfl bus)

theorem State.traceGoesOn_marked_none (hab : (s.channel tr.channel).abortReq = true) :
    s.traceGoesOn tr none bus = (s.armedWith (tr.goOn none)).endTrace (tr.goOn none) .aborted 0 bus :=
  (State.traceGoesOn_of_marked none hab).trans (State.abortTrace_of_none (tr := tr.goOn none) rfl bus)

theorem State.traceGoesOn_due_holding (h : Holding) (hab : (s.channel tr.channel).abortReq = false)
    (hdue : tr.staleDue = true) :
    s.traceGoesOn tr (some h) bus =
      s.armedWith { tr with
        staleRunning := false, staleDue := false, holding := none, write := some (.holding h none .stale) } :=
  (State.traceGoesOn_of_due (some h) hab hdue).trans (State.staleExpire_of_holding (tr := tr.goOn (some h)) rfl)

theorem State.traceGoesOn_due_none (hab : (s.channel tr.channel).abortReq = false) (hdue : tr.staleDue = true)
    (hwritten : tr.written ≠ 0) :
    s.traceGoesOn tr none bus =
      (s.armedWith (tr.goOn none)).endTrace { tr.goOn none with staleRunning := false, staleDue := false } .stale 0 bus :=
  (State.traceGoesOn_of_due none hab hdue).trans
    (State.staleExpire_of_written (tr := tr.goOn none) rfl hwritten)

end

/-- Settles O52: why the record was closed, whether the area is full, then what waited for the write. -/
theorem traceAreaWriteSucceeds : Obligations.TraceAreaWriteSucceeds := by
  rintro bus s _ tr w harmed hwrite rfl
  let v := s.busWrite (tr.area + 16 * tr.written) w.bytes
  let tr' : ArmedTrace := { tr with written := tr.written + 1 }
  have hended (st : Status) : s.TraceEnded v (v.endTrace tr' st 0 bus) tr st (tr.written + 1) 0 s.tre.gapCount.toNat bus :=
    State.endTrace_ended_kept tr tr' st bus rfl rfl rfl
  refine ⟨_, exec_traceAreaWrite (State.traceWritten_stored harmed hwrite), ?_, ?_, fun o hw => ?_⟩
  · rintro h o rfl
    exact hended .aborted
  · rintro h o rfl
    rw [State.areaWritten_of_stale]
    refine ⟨fun hfull => ?_, fun hroom => ?_⟩
    · rw [if_pos hfull]
      exact hended .full
    · rw [if_neg hroom]
      exact hended .stale
  · rw [State.areaWritten_of_leavesOver hw]
    refine ⟨fun hfull => ?_, fun hroom => ?_⟩
    · rw [if_pos hfull, State.addGapOf_eq]
      exact State.endTrace_ended_of tr tr' .full 0 _ bus rfl rfl rfl
    · rw [if_neg hroom]
      refine ⟨fun hab hdue => ?_, ?_, ?_, ?_, ?_⟩
      · exact State.traceGoesOn_of_nothing (s := v) (tr := tr') _ hab hdue
      · rintro x rfl hab
        exact State.traceGoesOn_marked_holding (s := v) (tr := tr') ⟨x, 1⟩ hab
      · rintro rfl hab
        rw [Option.map_none, State.traceGoesOn_marked_none (s := v) (tr := tr') hab]
        exact State.endTrace_ended_kept tr _ .aborted bus rfl rfl rfl
      · rintro x rfl hab hdue
        exact State.traceGoesOn_due_holding (s := v) (tr := tr') ⟨x, 1⟩ hab hdue
      · rintro rfl hab hdue
        rw [Option.map_none, State.traceGoesOn_due_none (s := v) (tr := tr') hab hdue (Nat.succ_ne_zero tr.written)]
        exact State.endTrace_ended_kept tr _ .stale bus rfl rfl rfl

end Sys2Proof.Machine

/-! PROOFS. What a step does with the command at the front of the queue (O1), and the values of every block after device reset
(O4). -/

namespace Sys2Proof.Machine

/-! ## A step with a command in the queue -/

theorem step_of_command {s : State} {c : Instr} {rest : List Instr} (h : s.pending = c :: rest) :
    step s = exec c { s with pending := rest } := by
  simp only [step, h]

/-- Settles O1: the branch of `step` for a queue that holds a command. -/
theorem stepRunsFrontCommand : Obligations.StepRunsFrontCommand :=
  fun _ _ _ => step_of_command

/-! ## The blocks after device reset (Tables 5-3 and 8-9), beside the state after reset of O60 -/

theorem State.reset_window (i : Fin 3) : State.reset.windows[i] = ⟨0, 0, 0⟩ := by
  simp [State.reset]

theorem State.reset_pin (i : Fin 4) : State.reset.pins[i] = none := by
  simp [State.reset]

theorem State.reset_channel (c : ChannelIx) : State.reset.channel c = Channel.reset := by
  simp [State.channel, State.reset]

/-- An idle channel that holds no address reads as a pointer register of 0 (R148, R161). -/
theorem Channel.reset_pointer : Channel.reset.pointer = 0 := by decide

/-- Settles O4: the scalars of each block by their definition; banks, windows, pins, channels, ports and lanes by what each index
of their vectors holds after reset. -/
theorem resetValues : Obligations.ResetValues := by
  refine ⟨⟨rfl, rfl, rfl, rfl⟩, State.reset_bankPort, State.reset_window, State.reset_pin, ⟨rfl, rfl⟩,
    ⟨rfl, rfl, rfl, rfl⟩, fun c => ?channel, rfl, ⟨rfl, rfl, by decide⟩, ⟨rfl, rfl, rfl, rfl⟩,
    fun p => ⟨Port.reset, State.reset_port p, ?port⟩⟩
  case channel =>
    rw [State.reset_channel]
    exact ⟨rfl, Channel.reset_pointer, rfl⟩
  case port =>
    refine ⟨⟨rfl, rfl, rfl, rfl, rfl⟩, ⟨rfl, rfl, rfl⟩, ⟨rfl, rfl, rfl, rfl⟩, ⟨rfl, rfl, rfl⟩,
      ⟨rfl, rfl, rfl, rfl, rfl⟩, ⟨rfl, rfl⟩, rfl, fun src => ?lane⟩
    case lane =>
      rw [Port.reset_lane]
      exact ⟨rfl, rfl, rfl, rfl⟩

end Sys2Proof.Machine
